-- ==== Sys2Proof/Word.lean ====
section
/-! DEFINITION. The engine's fixed widths (00_scope.md R9) and the bit notation of R10: the only
types of the model that are bit vectors, because the spec itself treats these values as bits. -/

namespace Sys2Proof

/-- One byte of host physical memory (R80). -/
abbrev Byte := BitVec 8

/-- A 32-bit register, operand, result or row word (R9). -/
abbrev Word := BitVec 32

/-- A 128-bit row of the table RAM (R9, R38). -/
abbrev Row := BitVec 128

/-- The 8-bit offset of a table row (R9, R38). -/
abbrev RowOff := BitVec 8

/-- A channel number, 6 bits (R9). -/
abbrev Chan := BitVec 6

/-- A node number: field A of a command word, 6 bits (R111). -/
abbrev NodeNo := BitVec 6

/-- A 16-bit sub-field of a CAT row (R9, R42). -/
abbrev SubField := BitVec 16

/-- One bit per channel number, the form of HC_STS, HC_ERR, HC_MSK and BUS_MSK (R35). -/
abbrev ChanSet := BitVec 64

/-- `v[lo+len-1 : lo]`, the field of `v` that starts at bit `lo` and is `len` bits wide (R10). -/
abbrev bits {n : Nat} (v : BitVec n) (lo len : Nat) : BitVec len := v.extractLsb' lo len

end Sys2Proof
end

