-- ==== Sys2Proof/Syntax.lean ====
section
/-! DEFINITION. The enumerations of 00_scope.md R13 and the commands: one constructor of `Instr` for
each row of the opcode map (30_encoding.md R123). A command's OP[0..3] are registers of the issuing
thread, not part of the command word, so they are not operands of the constructors (R110). -/

namespace Sys2Proof

/-- Channel type, coded 0 to 3 in this order (R13, R43). -/
inductive ChType where
  | sync | control | async | iso
deriving DecidableEq, Repr

/-- Direction: RX = 0, TX = 1 (R13). -/
inductive Dir where
  | rx | tx
deriving DecidableEq, Repr

/-- DMA mode: INBOUND = 0, OUTBOUND = 1 (R13). -/
inductive Dma where
  | inbound | outbound
deriving DecidableEq, Repr

/-- CAT namespace: BUS = 0, HOST = 1 (R13). -/
inductive Ns where
  | bus | host
deriving DecidableEq, Repr

/-- Half of an ADT row: PING = 0, PONG = 1 (R13). -/
inductive Half where
  | ping | pong
deriving DecidableEq, Repr

/-- The commands, in the order of the opcode map (R123). Channel operands are named `ch`, `rx`, `tx`;
node operands `n`. -/
inductive Instr where
  | rpWriteRow (off : RowOff)
  | rpReadRow (off : RowOff)
  | rpCatWrite (ns : Ns) (ch : Chan) (v : SubField)
  | cdtInit (ch : Chan) (ty : ChType) (dir : Dir)
  | cdtResetAll
  | cdtClearSts (ch : Chan) (mask : BitVec 4)
  | catInit (ch : Chan) (ty : ChType) (dir : Dir) (dma : Dma) (en : Bool)
  | catResetAll
  | catUnmuteSync (rx tx : Chan)
  | adtInit (ch : Chan) (ty : ChType)
  | adtRearm (ch : Chan)
  | rbTryEnqueue (n : NodeNo)
  | rbDequeue (n : NodeNo) (blk : Bool)
  | chOpen (n : NodeNo)
  | chClose (n : NodeNo)
  | chStart (n : NodeNo)
  | chStop (n : NodeNo)
  | chWrite (n : NodeNo)
  | chGetExceptions (n : NodeNo)
  | chSetChannelAddresses (n : NodeNo)
  | chPollReadiness (n : NodeNo)
  | setBusClockClass
  | setDeviceBusAddress
  | getProtocolVersion
  | irqHostDispatch
  | irqBusDispatch
deriving DecidableEq, Repr

end Sys2Proof
end

