-- ==== Sys2Proof/Config.lean ====
section
/-! DEFINITION. The named parameters of the engine (00_scope.md R5, R8) and the free values of the
model. A parameter is data that the machine carries and never writes, so every statement over all
states is a statement over all parameter values; a free value is a constant without a body. -/

namespace Sys2Proof

/-- A value for each of the four channel types. -/
structure PerType where
  sync : Nat
  control : Nat
  async : Nat
  iso : Nat
deriving DecidableEq, Repr

/-- The value a table gives for a channel type. -/
def PerType.get (p : PerType) : ChType → Nat
  | .sync => p.sync
  | .control => p.control
  | .async => p.async
  | .iso => p.iso

/-- The four transfer buffers of a node: receive ping and pong, transmit ping and pong (R48, R251). -/
structure Bufs where
  rxPing : Word
  rxPong : Word
  txPing : Word
  txPong : Word
deriving DecidableEq, Repr

/-- The parameters of R8, under the names of its table. SYNC_DEPTH is derived (`Params.syncDepth`) and
RB_SLOT equals DEPTH (`Params.slot`). -/
structure Params where
  nch : Nat
  nnodes : Nat
  /-- NODE_TYPE(n), the entry at index n. -/
  nodeTypes : List ChType
  rpRetries : Nat
  unmuteRetries : Nat
  syncSamples : Nat
  syncFrameBytes : Nat
  ctrlMaxPkt : Nat
  asyncMaxPkt : Nat
  isoBs : Nat
  /-- ISO_BLOCKS. No rule computes with it and none binds DEPTH(iso) to it (R8): the two are independent here.
  DESIGN CHOICE: notes/assumptions/1.md. -/
  isoBlocks : Nat
  /-- DEPTH(type), the byte depth the lifecycle programs. -/
  depths : PerType
  /-- RB_CAPACITY(type), the index modulus of a ring. -/
  rbCapacity : PerType
  /-- DBR_OFFSET(ch), the entry at index ch. -/
  dbrOffsets : List Nat
  protocolVersion : Word
  readbackCheck : Bool
  nhost : Nat
deriving DecidableEq, Repr

/-- NODE_TYPE(n) (R8). -/
def Params.nodeType (c : Params) (n : NodeNo) : ChType := c.nodeTypes.getD n.toNat .sync

/-- SYNC_DEPTH = 4 × SYNC_SAMPLES × SYNC_FRAME_BYTES (R8). -/
def Params.syncDepth (c : Params) : Nat := 4 * c.syncSamples * c.syncFrameBytes

/-- DEPTH(NODE_TYPE(n)), the depth of the halves of node n. -/
def Params.depth (c : Params) (n : NodeNo) : Nat := c.depths.get (c.nodeType n)

/-- RB_SLOT(NODE_TYPE(n)) = DEPTH(NODE_TYPE(n)) (R8). -/
def Params.slot (c : Params) (n : NodeNo) : Nat := c.depth n

/-- RB_CAPACITY(NODE_TYPE(n)). -/
def Params.cap (c : Params) (n : NodeNo) : Nat := c.rbCapacity.get (c.nodeType n)

/-- DBR_OFFSET(ch) (R8). -/
def Params.dbrOffset (c : Params) (ch : Chan) : Nat := c.dbrOffsets.getD ch.toNat 0

/-- What R8 asks of the values: 1 ≤ NNODES ≤ NCH/2, NCH ≤ 64 (92_eei_decisions.md D55), capacities of
at least 2, offsets below 2^16 and at least one host thread. -/
def Params.ok (c : Params) : Bool :=
  1 ≤ c.nnodes && 2 * c.nnodes ≤ c.nch && c.nch ≤ 64 &&
  2 ≤ c.rbCapacity.sync && 2 ≤ c.rbCapacity.control && 2 ≤ c.rbCapacity.async &&
  2 ≤ c.rbCapacity.iso && c.dbrOffsets.all (· < 2 ^ 16) && 1 ≤ c.nhost

/-- The defaults of R8. For the parameters R8 leaves OPEN (NNODES, NODE_TYPE, RB_CAPACITY, DBR_OFFSET,
PROTOCOL_VERSION, NHOST) the values 95_test_vectors.md section 0 gives.
DESIGN CHOICE, unsafe: notes/assumptions/1.md. -/
def Params.default : Params where
  nch := 64
  nnodes := 2
  nodeTypes := [.control, .sync]
  rpRetries := 1000
  unmuteRetries := 10000
  syncSamples := 128
  syncFrameBytes := 4
  ctrlMaxPkt := 64
  asyncMaxPkt := 2048
  isoBs := 196
  isoBlocks := 3
  depths := { sync := 2048, control := 64, async := 2048, iso := 591 }
  rbCapacity := { sync := 10, control := 10, async := 10, iso := 10 }
  dbrOffsets := (List.range 64).map (0x40 * ·)
  protocolVersion := 0x00010000
  readbackCheck := false
  nhost := 2

/-- FREE VALUE: what the platform's allocator answers to the k-th request for which the state holds no
answer: `none` is a refusal (R251, 93_implementation_defined.md I15). notes/assumptions/4.md. -/
opaque Config.freeAlloc : Nat → Option Bufs

/-- FREE VALUE: byte `j` of a ring slot that holds no value, at the k-th such read. R49 says slots never
written hold no value. notes/assumptions/13.md. -/
opaque Config.freeSlotByte : Nat → Nat → Byte

end Sys2Proof
end

