-- ==== Sys2Proof/WellFormed.lean ====
section
/-! DEFINITION. Which operand values of a command exist on an engine with given parameters: the range
checks (4) of 30_encoding.md R124. Every other field value of a command is legal. -/

namespace Sys2Proof

/-- The channel fields of a command (R124 check 4, "a channel field or B"). -/
def Instr.chans : Instr → List Chan
  | .rpCatWrite _ ch _ => [ch]
  | .cdtInit ch _ _ => [ch]
  | .cdtClearSts ch _ => [ch]
  | .catInit ch _ _ _ _ => [ch]
  | .catUnmuteSync rx tx => [rx, tx]
  | .adtInit ch _ => [ch]
  | .adtRearm ch => [ch]
  | .rpWriteRow _ | .rpReadRow _ | .cdtResetAll | .catResetAll => []
  | .rbTryEnqueue _ | .rbDequeue _ _ | .chOpen _ | .chClose _ | .chStart _ | .chStop _ => []
  | .chWrite _ | .chGetExceptions _ | .chSetChannelAddresses _ | .chPollReadiness _ => []
  | .setBusClockClass | .setDeviceBusAddress | .getProtocolVersion => []
  | .irqHostDispatch | .irqBusDispatch => []

/-- The node field of a command (R124 check 4, "a node field"). -/
def Instr.nodes : Instr → List NodeNo
  | .rbTryEnqueue n => [n]
  | .rbDequeue n _ => [n]
  | .chOpen n => [n]
  | .chClose n => [n]
  | .chStart n => [n]
  | .chStop n => [n]
  | .chWrite n => [n]
  | .chGetExceptions n => [n]
  | .chSetChannelAddresses n => [n]
  | .chPollReadiness n => [n]
  | .rpWriteRow _ | .rpReadRow _ | .rpCatWrite _ _ _ => []
  | .cdtInit _ _ _ | .cdtResetAll | .cdtClearSts _ _ => []
  | .catInit _ _ _ _ _ | .catResetAll | .catUnmuteSync _ _ | .adtInit _ _ | .adtRearm _ => []
  | .setBusClockClass | .setDeviceBusAddress | .getProtocolVersion => []
  | .irqHostDispatch | .irqBusDispatch => []

/-- Every channel field is below NCH. -/
def Instr.chansOk (c : Params) (i : Instr) : Bool := i.chans.all (fun ch => ch.toNat < c.nch)

/-- Every node field is below NNODES. -/
def Instr.nodesOk (c : Params) (i : Instr) : Bool := i.nodes.all (fun n => n.toNat < c.nnodes)

/-- The operands of `i` exist on the engine `c`. -/
def Instr.wellFormed (c : Params) (i : Instr) : Bool := i.chansOk c && i.nodesOk c

end Sys2Proof
end

