-- ==== Sys2Proof/Decode.lean ====
section
/-! DEFINITION. The command word: formats R112 to R122 and opcode map R123 of 30_encoding.md, read by
`decode` and written by `encode`. The decoder is total on 32-bit words (R125) and names what it
rejects. Checks (3) and (4) of R124 need the issuing agent and the parameters; they are in
Machine/Ops.lean. -/

namespace Sys2Proof

/-- Why a word is no command: R124 checks (1) and (2). Both are the model fault IllegalCommand. -/
inductive DecodeError where
  /-- OPC is not in the map of R123. -/
  | unknownOpcode (opc : BitVec 6)
  /-- A reserved bit of the named row's format is 1. -/
  | reservedBit (mnemonic : String)
deriving DecidableEq, Repr

/-- The 2-bit code of a channel type (R43). -/
def ChType.code : ChType → BitVec 2
  | .sync => 0
  | .control => 1
  | .async => 2
  | .iso => 3

/-- The 1-bit code of a direction (R13). -/
def Dir.code : Dir → BitVec 1
  | .rx => 0
  | .tx => 1

/-- The 1-bit code of a DMA mode (R13). -/
def Dma.code : Dma → BitVec 1
  | .inbound => 0
  | .outbound => 1

/-- The 1-bit code of a namespace (R13). -/
def Ns.code : Ns → BitVec 1
  | .bus => 0
  | .host => 1

/-- Field TYPE (R111). -/
def typeOf (v : BitVec 2) : ChType :=
  if v = 0 then .sync else if v = 1 then .control else if v = 2 then .async else .iso

/-- Field DIR (R111). -/
def dirOf (v : BitVec 1) : Dir := if v = 0 then .rx else .tx

/-- Field DMA (R111). -/
def dmaOf (v : BitVec 1) : Dma := if v = 0 then .inbound else .outbound

/-- Field NS (R111). -/
def nsOf (v : BitVec 1) : Ns := if v = 0 then .bus else .host

/-- `i`, if the reserved fields of its format, listed as (lowest bit, width), are all 0 in `w`
(R111: every bit of the word that a format does not assign must be 0). -/
def ifClear (w : Word) (reserved : List (Nat × Nat)) (mnemonic : String) (i : Instr) :
    Except DecodeError Instr :=
  if reserved.all (fun f => bits w f.1 f.2 == 0) then .ok i else .error (.reservedBit mnemonic)

/-- The command a word stands for, or why it stands for none (R123, R124 checks 1 and 2). -/
def decode (w : Word) : Except DecodeError Instr :=
  match (bits w 26 6).toNat with
  | 0x01 => ifClear w [(8, 18)] "RP.WRITE_ROW" (.rpWriteRow (bits w 0 8))
  | 0x02 => ifClear w [(8, 18)] "RP.READ_ROW" (.rpReadRow (bits w 0 8))
  | 0x03 => ifClear w [(22, 3)] "RP.CAT_WRITE"
      (.rpCatWrite (nsOf (bits w 25 1)) (bits w 16 6) (bits w 0 16))
  | 0x08 => ifClear w [(22, 4), (0, 13)] "CDT.INIT"
      (.cdtInit (bits w 16 6) (typeOf (bits w 14 2)) (dirOf (bits w 13 1)))
  | 0x09 => ifClear w [(0, 26)] "CDT.RESET_ALL" .cdtResetAll
  | 0x0A => ifClear w [(22, 4), (4, 12)] "CDT.CLEAR_STS" (.cdtClearSts (bits w 16 6) (bits w 0 4))
  | 0x10 => ifClear w [(22, 4), (0, 11)] "CAT.INIT"
      (.catInit (bits w 16 6) (typeOf (bits w 14 2)) (dirOf (bits w 13 1)) (dmaOf (bits w 12 1))
        (bits w 11 1 == 1))
  | 0x11 => ifClear w [(0, 26)] "CAT.RESET_ALL" .catResetAll
  | 0x12 => ifClear w [(22, 4), (14, 2), (0, 8)] "CAT.UNMUTE_SYNC"
      (.catUnmuteSync (bits w 16 6) (bits w 8 6))
  | 0x18 => ifClear w [(22, 4), (0, 14)] "ADT.INIT" (.adtInit (bits w 16 6) (typeOf (bits w 14 2)))
  | 0x19 => ifClear w [(22, 4), (0, 16)] "ADT.REARM" (.adtRearm (bits w 16 6))
  | 0x20 => ifClear w [(22, 4), (0, 16)] "RB.TRY_ENQUEUE" (.rbTryEnqueue (bits w 16 6))
  | 0x21 => ifClear w [(22, 4), (1, 15)] "RB.DEQUEUE" (.rbDequeue (bits w 16 6) (bits w 0 1 == 1))
  | 0x28 => ifClear w [(22, 4), (0, 16)] "CH.OPEN" (.chOpen (bits w 16 6))
  | 0x29 => ifClear w [(22, 4), (0, 16)] "CH.CLOSE" (.chClose (bits w 16 6))
  | 0x2A => ifClear w [(22, 4), (0, 16)] "CH.START" (.chStart (bits w 16 6))
  | 0x2B => ifClear w [(22, 4), (0, 16)] "CH.STOP" (.chStop (bits w 16 6))
  | 0x2C => ifClear w [(22, 4), (0, 16)] "CH.WRITE" (.chWrite (bits w 16 6))
  | 0x2D => ifClear w [(22, 4), (0, 16)] "CH.GET_EXCEPTIONS" (.chGetExceptions (bits w 16 6))
  | 0x2E => ifClear w [(22, 4), (0, 16)] "CH.SET_CHANNEL_ADDRESSES"
      (.chSetChannelAddresses (bits w 16 6))
  | 0x2F => ifClear w [(22, 4), (0, 16)] "CH.POLL_READINESS" (.chPollReadiness (bits w 16 6))
  | 0x30 => ifClear w [(0, 26)] "SET_BUS_CLOCK_CLASS" .setBusClockClass
  | 0x31 => ifClear w [(0, 26)] "SET_DEVICE_BUS_ADDRESS" .setDeviceBusAddress
  | 0x32 => ifClear w [(0, 26)] "GET_PROTOCOL_VERSION" .getProtocolVersion
  | 0x38 => ifClear w [(0, 26)] "IRQ.HOST_DISPATCH" .irqHostDispatch
  | 0x39 => ifClear w [(0, 26)] "IRQ.BUS_DISPATCH" .irqBusDispatch
  | _ => .error (.unknownOpcode (bits w 26 6))

/-- A format whose only field is A at bits 21:16: CH and NODE (R119, R120). -/
def wordA (opc : BitVec 6) (a : BitVec 6) : Word := opc ++ 0#4 ++ a ++ 0#16

/-- Format GLOB (R122). -/
def wordGlob (opc : BitVec 6) : Word := opc ++ 0#26

/-- The word of a command: `OPC<<26 | fields` (R126), laid out as formats R112 to R122 say. -/
def encode : Instr → Word
  | .rpWriteRow off => 0x01#6 ++ 0#18 ++ off
  | .rpReadRow off => 0x02#6 ++ 0#18 ++ off
  | .rpCatWrite ns ch v => 0x03#6 ++ ns.code ++ 0#3 ++ ch ++ v
  | .cdtInit ch ty dir => 0x08#6 ++ 0#4 ++ ch ++ ty.code ++ dir.code ++ 0#13
  | .cdtResetAll => wordGlob 0x09
  | .cdtClearSts ch mask => 0x0A#6 ++ 0#4 ++ ch ++ 0#12 ++ mask
  | .catInit ch ty dir dma en =>
      0x10#6 ++ 0#4 ++ ch ++ ty.code ++ dir.code ++ dma.code ++ BitVec.ofBool en ++ 0#11
  | .catResetAll => wordGlob 0x11
  | .catUnmuteSync rx tx => 0x12#6 ++ 0#4 ++ rx ++ 0#2 ++ tx ++ 0#8
  | .adtInit ch ty => 0x18#6 ++ 0#4 ++ ch ++ ty.code ++ 0#14
  | .adtRearm ch => wordA 0x19 ch
  | .rbTryEnqueue n => wordA 0x20 n
  | .rbDequeue n blk => 0x21#6 ++ 0#4 ++ n ++ 0#15 ++ BitVec.ofBool blk
  | .chOpen n => wordA 0x28 n
  | .chClose n => wordA 0x29 n
  | .chStart n => wordA 0x2A n
  | .chStop n => wordA 0x2B n
  | .chWrite n => wordA 0x2C n
  | .chGetExceptions n => wordA 0x2D n
  | .chSetChannelAddresses n => wordA 0x2E n
  | .chPollReadiness n => wordA 0x2F n
  | .setBusClockClass => wordGlob 0x30
  | .setDeviceBusAddress => wordGlob 0x31
  | .getProtocolVersion => wordGlob 0x32
  | .irqHostDispatch => wordGlob 0x38
  | .irqBusDispatch => wordGlob 0x39

/-- The word whose low `nbits` bits are those of `w` and whose other bits are 0. A command is one 32-bit
word and no part of it lies in memory (R97, R110), so there is no byte order to apply. -/
def tableWord (nbits w : Nat) : Word := BitVec.ofNat 32 (w % 2 ^ nbits)

/-- The command the decoder reads from a row's word; the host's form of the question. -/
def decodeTableWord (nbits w : Nat) : Option Instr :=
  match decode (tableWord nbits w) with
  | .ok i => some i
  | .error _ => none

end Sys2Proof
end

