-- ==== Sys2Proof/Machine/State.lean ====
section
/-! DEFINITION. The state of the engine as plain data: 10_state.md rule by rule, the value after reset
(R70), and the closed types of what can stop a step. The fields marked MODEL are not the spec's: they
say which agent moves next and what the environment does, so that one deterministic step function has
every interleaving the spec admits (R30, R318, 93_implementation_defined.md I22) among its runs.
notes/assumptions/2.md. -/

namespace Sys2Proof.Machine

/-! ## Names -/

/-- Who takes steps (R30, R347): the host threads, the two interrupt dispatchers, the hardware side. -/
inductive Agent where
  | host (t : Nat)
  | hd
  | bd
  | hw
deriving DecidableEq, Repr

/-- The lifecycle states (R13, R249). -/
inductive LState where
  | closed | configuring | configured | started | stopped
deriving DecidableEq, Repr

/-- The names of the model faults (R332), each the value FREASON may take. -/
inductive FReason where
  | illegalCommand | wrongAgent | badChannel | badNode | lockNotHeld | reservedRow | unwrittenRow
  | doubleArm | misaligned | addressWrap | partialEnable | blockUnderLock | notOpen
  | concurrentConsumer | shortBuffer | badLength | refOverflow
deriving DecidableEq, Repr

/-- The result codes (R330). -/
inductive RC where
  | ok | registerTimeout | tableProgrammingError | validationError | busNotLocked | invalidState
  | allocFailed | wouldBlock | interrupted | dropped | noCompletion
deriving DecidableEq, Repr

/-- The registers of the register window, the interrupt block and the configuration block (R33, R35,
R37). `dat i` is DATi; `g` selects the channel group of a pair (0: channels 0..31, 1: 32..63). -/
inductive Reg where
  | dat (i : Fin 4)
  | adr
  | ctl
  | bstat
  | hcSts (g : Fin 2)
  | hcErr (g : Fin 2)
  | hcMsk (g : Fin 2)
  | busMsk (g : Fin 2)
  | busClkClass
  | devAddr
  | version
deriving DecidableEq, Repr

/-- The transaction the last ADR write issued (R52). -/
inductive Txn where
  | read (off : RowOff)
  | write (off : RowOff) (v : Row)
deriving DecidableEq, Repr

/-! ## Records -/

/-- The sticky fault bit FAULT with FREASON, FCMD and FAGENT (R61). -/
structure FaultRecord where
  flag : Bool
  reason : Option FReason
  cmd : Word
  agent : Option Agent
deriving DecidableEq, Repr

/-- What an atomic step of a command answers to it: at most one row. -/
abbrev Resp := Row

/-- MODEL. A command an agent has begun and not ended: the command, whether it stands at the head of its
wait loop, and the answers its atomic steps have given since its start or since that head, newest
first. This is the command's continuation as plain data. -/
structure Task where
  instr : Instr
  looping : Bool
  hist : List Resp
deriving DecidableEq, Repr

/-- A command context (R31): CMD, OP[0..3], RES[0..3], RC and `blocked`. `resWritten i` is false while RES[i]
holds no value (R32). MODEL: `woken` is set by the wakes (b) and (c) of R272 and `notified` by the
wakes (a), each until the blocked thread goes on (notes/assumptions/24.md); `task` is the command in
progress. -/
structure Ctx where
  cmd : Word
  op : Vector Word 4
  res : Vector Word 4
  resWritten : Vector Bool 4
  rc : BitVec 8
  blocked : Bool
  woken : Bool
  notified : Bool
  task : Option Task
deriving DecidableEq, Repr

/-- A ring buffer (R49): cap + 1 slots, the last being the drop target, the two indices and the drop
counter. A slot never written holds no value. -/
structure Ring where
  slots : List (Option (List Byte))
  widx : Nat
  ridx : Nat
  dropcnt : Word
deriving DecidableEq, Repr

/-- The state of one node (R48). -/
structure Node where
  lstate : LState
  refcnt : Word
  rxCh : Chan
  txCh : Chan
  exc : BitVec 4
  txBusy : Bool
  bufs : Option Bufs
  ring : Option Ring
  consumer : Option Agent
  nm : Option Agent
deriving DecidableEq, Repr

/-! ## The environment: MODEL -/

/-- The steps of the hardware side with the values they draw (47_hardware_agent.md R310, R312, R314 to
R316). In `xfer` the bytes are those a receive transfer writes. -/
inductive HwStep where
  | perform
  | signal
  | xfer (ch : Chan) (ok : Bool) (bytes : List Byte)
  | raiseSts (ch : Chan) (b : BitVec 4)
  | progress (ch : Chan) (rdp wrp : Bool)
  | bus (clkrun locked : Bool)
deriving DecidableEq, Repr

/-- The registers of a command context (R31). -/
inductive CtxReg where
  | cmd
  | op (i : Fin 4)
  | res (i : Fin 4)
  | rc
deriving DecidableEq, Repr

/-- What may happen between two atomic steps of a running command, or between commands. -/
inductive Event where
  /-- The hardware side takes a step. -/
  | hw (h : HwStep)
  /-- An idle host thread loads CMD and OP and issues (R31). -/
  | issue (t : Nat) (cmd : Word) (op : Vector Word 4)
  /-- An idle dispatcher whose line is 1 begins its invocation (R290); `bus` selects BIRQ. -/
  | irq (bus : Bool)
  /-- An agent takes one atomic step of the command it has begun. -/
  | agent (a : Agent)
  /-- The environment step SIGNAL(t) (R272 c). -/
  | signal (t : Nat)
  /-- A host thread without a command in progress writes a register of its own context (R31). -/
  | own (t : Nat) (r : CtxReg) (w : Word)
  /-- A host thread without a command in progress stores bytes into host memory by its own accesses:
  they are ordered with the commands it issues (R92). -/
  | store (t : Nat) (addr : Word) (bytes : List Byte)
  /-- Engine reset (R370). -/
  | reset
deriving DecidableEq, Repr

/-- MODEL. The schedule and the draws. A running command lets one batch of events happen before each of
its atomic steps: the next batch of `script`, or `rest` once the script is used up. `allocs` holds the
allocator's next answers; once it is used up, `draws` counts the free values drawn. -/
structure Env where
  script : List (List Event)
  rest : List Event
  allocs : List (Option Bufs)
  draws : Nat
deriving DecidableEq, Repr

/-! ## The state -/

/-- The machine. -/
structure State where
  /-- The parameters (R8). No step writes them. -/
  cfg : Params
  /-- DAT0..DAT3 (R33). -/
  dat : Vector Word 4
  /-- ADR (R33). -/
  adr : Word
  /-- CTL; bit 0 is XCMP (R33). -/
  ctl : Word
  /-- BSTAT; bit 0 is CLKRUN, bit 1 LOCKED (R33, R53). -/
  bstat : Word
  /-- HC_STS1 ++ HC_STS0 (R35). -/
  hcSts : ChanSet
  /-- HC_ERR1 ++ HC_ERR0 (R35). -/
  hcErr : ChanSet
  /-- HC_MSK1 ++ HC_MSK0 (R35). -/
  hcMsk : ChanSet
  /-- BUS_MSK1 ++ BUS_MSK0 (R35). -/
  busMsk : ChanSet
  /-- BUS_CLK_CLASS (R37). VERSION is read from `cfg.protocolVersion`. -/
  busClkClass : Word
  /-- DEV_ADDR (R37). -/
  devAddr : Word
  /-- The table RAM (R38). -/
  rows : Vector Row 256
  /-- written(off) (R39). -/
  written : Vector Bool 256
  /-- tx_pending (R52). -/
  txPending : Option Txn
  /-- tx_performed (R52). -/
  txPerformed : Bool
  /-- sw_half[ch] (R47). -/
  swHalf : Vector Half 64
  /-- hw_half[ch] (R47). -/
  hwHalf : Vector Half 64
  /-- armed_prev[ch] (R47). -/
  armedPrev : Vector Bool 64
  /-- The nodes; those numbered NNODES and above do not exist (R48). -/
  nodes : Vector Node 64
  /-- The holder of the engine lock L, `none` when free (R51). -/
  lock : Option Agent
  /-- LOGCNT (R60). -/
  logcnt : Word
  /-- FAULT, FREASON, FCMD, FAGENT (R61). -/
  fault : FaultRecord
  /-- Host physical memory (R81). -/
  mem : List Host.Cell
  /-- The contexts of host threads 0..NHOST-1 (R31). -/
  threads : List Ctx
  /-- The host-interrupt dispatcher's own context (R15, R296). -/
  hd : Ctx
  /-- The bus-interrupt dispatcher's own context (R15, R296). -/
  bd : Ctx
  /-- MODEL. The agent whose command the next step runs. -/
  cur : Agent
  /-- MODEL. `cur` has placed a command in CMD that is still to be run, or is being run. -/
  presented : Bool
  /-- MODEL. The environment. -/
  env : Env
deriving DecidableEq, Repr

/-! ## What can stop a step -/

/-- A step that cannot be taken. -/
inductive Fault where
  /-- Raised by `step` in a state whose FAULT bit is already 1: "the model does not continue past it"
  (R332). Safe: the machine stops where the spec says the model does. The command or hardware step that
  set the bit did so in a next state of its own (R333). -/
  | modelFault (reason : Option FReason)
deriving DecidableEq, Repr

/-- A command without a meaning. -/
inductive Refusal where
  /-- Raised by an arm of `exec` that has no meaning yet; no arm does. Safe: nothing is claimed of it. -/
  | notModelled (mnemonic : String)
deriving DecidableEq, Repr

/-! ## Reset (R70, R370, R371) -/

/-- A context after reset: RC 0, not blocked, RES without values. CMD, OP and the stored RES words are
unspecified by R70 and hold 0: DESIGN CHOICE, notes/assumptions/3.md. -/
def Ctx.reset : Ctx where
  cmd := 0
  op := Vector.replicate 4 0
  res := Vector.replicate 4 0
  resWritten := Vector.replicate 4 false
  rc := 0
  blocked := false
  woken := false
  notified := false
  task := none

/-- Node n after reset: Closed, no references, channels 2n and 2n+1 (R70). -/
def Node.reset (n : Nat) : Node where
  lstate := .closed
  refcnt := 0
  rxCh := BitVec.ofNat 6 (2 * n)
  txCh := BitVec.ofNat 6 (2 * n + 1)
  exc := 0
  txBusy := false
  bufs := none
  ring := none
  consumer := none
  nm := none

/-- The fault record after reset (R70). -/
def FaultRecord.clear : FaultRecord where
  flag := false
  reason := none
  cmd := 0
  agent := none

/-- MODEL. The hardware's behaviour when no script is given: it performs and signals a pending
transaction at the first opportunity. DESIGN CHOICE, notes/assumptions/2.md. -/
def Env.prompt : Env where
  script := []
  rest := [.hw .perform, .hw .signal]
  allocs := []
  draws := 0

/-- The machine with parameters `c` right after power-on and reset: the values of R70. The contents of the
table rows and of host memory are unspecified (R70, R371) and hold 0: DESIGN CHOICE,
notes/assumptions/3.md. -/
def State.resetOf (c : Params) : State where
  cfg := c
  dat := Vector.replicate 4 0
  adr := 0
  ctl := 0
  bstat := 0
  hcSts := 0
  hcErr := 0
  hcMsk := 0
  busMsk := 0
  busClkClass := 0
  devAddr := 0
  rows := Vector.replicate 256 0
  written := Vector.replicate 256 false
  txPending := none
  txPerformed := false
  swHalf := Vector.replicate 64 .ping
  hwHalf := Vector.replicate 64 .ping
  armedPrev := Vector.replicate 64 false
  nodes := Vector.ofFn (fun n => Node.reset n.val)
  lock := none
  logcnt := 0
  fault := FaultRecord.clear
  mem := []
  threads := List.replicate c.nhost Ctx.reset
  hd := Ctx.reset
  bd := Ctx.reset
  cur := .host 0
  presented := false
  env := Env.prompt

/-- The machine right after reset, with the parameter values of `Params.default`. -/
def State.reset : State := State.resetOf Params.default

end Sys2Proof.Machine
end

