-- ==== Sys2Proof/Machine/Operands.lean ====
section
/-! DEFINITION. The operand forms: the fields of CDT, CAT and ADT rows (10_state.md R40 to R45), the row
offsets (R38), the depth encoding (41_cdt.md R170), the namespace of a CAT entry (42_cat.md R190) and
the host addresses a command may name (20_memory.md R81, R86). -/

namespace Sys2Proof.Machine

/-! ## Fields of a row -/

/-- `v` with the field that starts at bit `lo` replaced by `x` (R10: `v[hi:lo] <- x`). -/
def setField {len : Nat} (v : Row) (lo : Nat) (x : BitVec len) : Row :=
  (v &&& ~~~((BitVec.allOnes len).setWidth 128 <<< lo)) ||| (x.setWidth 128 <<< lo)

/-- W(v, i): word i of a row (R11). -/
def rowWord (v : Row) (i : Fin 4) : Word := bits v (32 * i.val) 32

/-- The row with the words `w` (R11, R83). -/
def rowOf (w : Vector Word 4) : Row := w[3] ++ w[2] ++ w[1] ++ w[0]

/-- The words of a row (R83). -/
def wordsOf (v : Row) : Vector Word 4 := Vector.ofFn (rowWord v)

/-! ## Row offsets (R38) -/

/-- The offset of the CDT row of a channel. -/
def cdtOff (ch : Chan) : RowOff := ch.setWidth 8

/-- The offset of the ADT row of a channel. -/
def adtOff (ch : Chan) : RowOff := 0x40 + ch.setWidth 8

/-- The first CAT row of a namespace, `table_base` (R113). -/
def catBase : Ns → RowOff
  | .bus => 0x80
  | .host => 0x88

/-- The offset of the CAT row that holds a channel's sub-field (R42). -/
def catOff (s : Ns) (ch : Chan) : RowOff := catBase s + (ch >>> 3).setWidth 8

/-- The lowest bit of a channel's sub-field in its CAT row: 16 (ch mod 8) (R42). -/
def subLo (ch : Chan) : Nat := 16 * (ch.toNat % 8)

/-- A channel's sub-field of the CAT row `v` (R42). -/
def getSub (v : Row) (ch : Chan) : SubField := bits v (subLo ch) 16

/-- `v` with a channel's sub-field replaced (R42). -/
def putSub (v : Row) (ch : Chan) (x : SubField) : Row := setField v (subLo ch) x

/-! ## Depth encoding (R170) -/

/-- encode(D) = D − 1 in 13 bits. The same for every type: notes/assumptions/10.md. -/
def encodeDepth (d : Nat) : BitVec 13 := BitVec.ofNat 13 (d - 1)

/-- decode(BD) = BD + 1. -/
def decodeDepth (bd : BitVec 13) : Nat := bd.toNat + 1

/-- DMAX, the range of the 13-bit field (R170). -/
def dmax : Nat := 8192

/-- valid(type, D) (R170). D = 0 is invalid for every type (R171). -/
def validDepth (c : Params) (ty : ChType) (d : Nat) : Bool :=
  decide (1 ≤ d) &&
  match ty with
  | .sync => d == c.syncDepth
  | .control => decide (c.ctrlMaxPkt ≤ d) && decide (d ≤ dmax)
  | .async => decide (c.asyncMaxPkt ≤ d) && decide (d ≤ dmax)
  | .iso => decide (d ≤ dmax) && d % (c.isoBs + 1) == 0

/-! ## CDT rows (R40) -/

/-- The row CDT.INIT writes: BA, BD and BS with every other bit 0 (R40, R171). -/
def cdtRow (ba : BitVec 16) (bd : BitVec 13) (bs : BitVec 9) : Row :=
  0#87 ++ bs ++ 0#3 ++ bd ++ ba

/-- STS, bits 51:48 (R40). -/
def stsOf (v : Row) : BitVec 4 := bits v 48 4

/-- `v` with STS replaced. -/
def putSts (v : Row) (x : BitVec 4) : Row := setField v 48 x

/-! ## CAT sub-fields (R43) -/

/-- The sub-field CAT.INIT writes: CL, CT, CE, RNW and LCK with every reserved bit 0 (R43, R191). -/
def catValue (ch : Chan) (ty : ChType) (dma : Dma) (en : Bool) : SubField :=
  0#2 ++ BitVec.ofBool (decide (ty = .sync)) ++ BitVec.ofBool (decide (dma = .outbound)) ++
  BitVec.ofBool en ++ 0#1 ++ ty.code ++ 0#2 ++ ch

/-- CE, bit 11 (R43). -/
def ceBit (v : SubField) : Bool := v.getLsbD 11

/-- RNW, bit 12 (R43). -/
def rnwBit (v : SubField) : Bool := v.getLsbD 12

/-- `v` with CE = 1. -/
def setCe (v : SubField) : SubField := v ||| 0x0800

/-- `v` with CE = 0. -/
def clearCe (v : SubField) : SubField := v &&& ~~~0x0800

/-- The namespace a direction and a DMA mode select (R190). -/
def nsFor (dir : Dir) (dma : Dma) : Ns :=
  match dir, dma with
  | .rx, .inbound => .bus
  | .tx, .outbound => .bus
  | .tx, .inbound => .host
  | .rx, .outbound => .host

/-! ## ADT rows (R45) -/

/-- 0 for PING, 1 for PONG (R13). -/
def Half.idx : Half → Nat
  | .ping => 0
  | .pong => 1

/-- `1 - h`: the other half. -/
def Half.other : Half → Half
  | .ping => .pong
  | .pong => .ping

/-- The lowest bit of the flag byte of half h: RDY, DNE, ERR, PS stand at this bit and the next three. -/
def flagLo (h : Half) : Nat := 96 + 8 * Half.idx h

/-- ADDR_h. -/
def addrOf (v : Row) (h : Half) : Word := bits v (32 * Half.idx h) 32

/-- BD_h. -/
def bdOf (v : Row) (h : Half) : BitVec 13 := bits v (64 + 16 * Half.idx h) 13

/-- RDY_h. -/
def rdyOf (v : Row) (h : Half) : Bool := v.getLsbD (flagLo h)

/-- DNE_h. -/
def dneOf (v : Row) (h : Half) : Bool := v.getLsbD (flagLo h + 1)

/-- ERR_h. -/
def errOf (v : Row) (h : Half) : Bool := v.getLsbD (flagLo h + 2)

/-- PS_h. -/
def psOf (v : Row) (h : Half) : Bool := v.getLsbD (flagLo h + 3)

/-- CE, continuation enable, bit 112. -/
def contOf (v : Row) : Bool := v.getLsbD 112

/-- `v` with ADDR_h replaced. -/
def putAddr (v : Row) (h : Half) (a : Word) : Row := setField v (32 * Half.idx h) a

/-- `v` with BD_h replaced. -/
def putBd (v : Row) (h : Half) (bd : BitVec 13) : Row := setField v (64 + 16 * Half.idx h) bd

/-- `v` with RDY_h, DNE_h and ERR_h replaced. -/
def putFlags (v : Row) (h : Half) (rdy dne err : Bool) : Row :=
  setField v (flagLo h) (BitVec.ofBool err ++ BitVec.ofBool dne ++ BitVec.ofBool rdy)

/-- The row ADT.INIT writes: both addresses, both depths, PS of both halves and CE = 1, with every flag
of both halves 0 (R45, R211). -/
def adtRow (ping pong : Word) (bd : BitVec 13) (ps : Bool) : Row :=
  0#15 ++ 1#1 ++ 0#4 ++ BitVec.ofBool ps ++ 0#3 ++ 0#4 ++ BitVec.ofBool ps ++ 0#3 ++
  0#3 ++ bd ++ 0#3 ++ bd ++ pong ++ ping

/-- Packet start is set for the control and async types (R211). -/
def packetStart (ty : ChType) : Bool := decide (ty = .control ∨ ty = .async)

/-! ## Software-owned bits (R156) -/

/-- SWMASK(off): the bits of a row that software owns. -/
def swMask (off : RowOff) : Row :=
  if off.toNat < 0x40 then ~~~(setField 0 48 0x3F#6)
  else if off.toNat < 0x80 then ~~~(setField (setField 0 96 0x7#3) 104 0x7#3)
  else BitVec.allOnes 128

/-! ## Host addresses -/

/-- The range of `len` bytes at `a` passes 2^32 (R81). -/
def wraps (a : Word) (len : Nat) : Bool := decide (2 ^ 32 < a.toNat + len)

/-- A buffer address is a multiple of 4 (R86). -/
def aligned (a : Word) : Bool := bits a 0 2 == 0

/-- Two regions of `len` bytes share no byte. -/
def disjointRegions (len : Nat) (a b : Word) : Bool :=
  decide (a.toNat + len ≤ b.toNat) || decide (b.toNat + len ≤ a.toNat)

/-- What the allocator may answer: four disjoint `len`-byte regions, each at a multiple of 4, none passing
2^32 (R251). -/
def legalBufs (len : Nat) (b : Bufs) : Bool :=
  [b.rxPing, b.rxPong, b.txPing, b.txPong].all (fun a => aligned a && !wraps a len) &&
  disjointRegions len b.rxPing b.rxPong && disjointRegions len b.rxPing b.txPing &&
  disjointRegions len b.rxPing b.txPong && disjointRegions len b.rxPong b.txPing &&
  disjointRegions len b.rxPong b.txPong && disjointRegions len b.txPing b.txPong

end Sys2Proof.Machine
end

