-- ==== Sys2Proof/Machine/Flags.lean ====
section
/-! DEFINITION. What the spec derives from the state rather than stores: reserved rows (10_state.md R38),
`armed` (R44), the two interrupt lines (R36), the ring predicates (R50), the half that completed
(43_adt.md R210) and the readiness word (45_channel.md R270). -/

namespace Sys2Proof.Machine

/-- The channel numbers of the engine, in increasing order. -/
def chansOf (c : Params) : List Chan := (List.range (min c.nch 64)).map (BitVec.ofNat 6)

/-- The node numbers of the engine, in increasing order. -/
def nodesOf (c : Params) : List NodeNo := (List.range (min c.nnodes 64)).map (BitVec.ofNat 6)

/-- The bits of a channel set that belong to channels below NCH (R35). -/
def validChans (c : Params) : ChanSet := BitVec.ofNat 64 (2 ^ c.nch - 1)

/-- The set with the one channel `ch`. -/
def chanBit (ch : Chan) : ChanSet := 1#64 <<< ch.toNat

/-- A reserved row: 0x90..0xFF, and the CDT and ADT rows of channels NCH and above (R38). -/
def reservedRow (c : Params) (off : RowOff) : Bool :=
  decide (0x90 ≤ off.toNat) ||
  (decide (off.toNat < 0x40) && decide (c.nch ≤ off.toNat)) ||
  (decide (0x40 ≤ off.toNat) && decide (off.toNat < 0x80) && decide (c.nch ≤ off.toNat - 0x40))

/-- The row is one of the CAT rows 0x80..0x8F (R38). -/
def isCatRow (off : RowOff) : Bool := decide (0x80 ≤ off.toNat) && decide (off.toNat < 0x90)

/-- Row(off) (R11). -/
def State.row (s : State) (off : RowOff) : Row := s.rows[off.toNat]'off.isLt

/-- written(off) (R39). -/
def State.isWritten (s : State) (off : RowOff) : Bool := s.written[off.toNat]'off.isLt

/-- The sub-field of a channel in a namespace, as the table RAM holds it (R42). -/
def State.catEntry (s : State) (ns : Ns) (ch : Chan) : SubField := getSub (s.row (catOff ns ch)) ch

/-- The entry of the channel shows CE = 1. An entry of a row not written since reset shows nothing, so that
no run depends on its contents (70_reset_and_hazards.md R371): DEDUCED, notes/assumptions/15.md. -/
def State.ceSet (s : State) (ns : Ns) (ch : Chan) : Bool :=
  s.isWritten (catOff ns ch) && ceBit (s.catEntry ns ch)

/-- armed(ch): both entries of the channel show CE = 1 (R44). -/
def State.armed (s : State) (ch : Chan) : Bool := s.ceSet .bus ch && s.ceSet .host ch

/-- HIRQ (R36). -/
def State.hirq (s : State) : Bool := decide (s.hcSts &&& s.hcMsk ≠ 0)

/-- BIRQ (R36). -/
def State.birq (s : State) : Bool :=
  (chansOf s.cfg).any (fun ch => s.busMsk.getLsbD ch.toNat && decide (stsOf (s.row (cdtOff ch)) ≠ 0))

/-- empty: ridx = widx (R50). -/
def Ring.empty (r : Ring) : Bool := decide (r.ridx = r.widx)

/-- full: (widx + 1) mod cap = ridx (R50). -/
def Ring.full (cap : Nat) (r : Ring) : Bool := decide ((r.widx + 1) % cap = r.ridx)

/-- The bit position of DNE of half h in W3 (R210). -/
def dneBit : Half → Nat
  | .ping => 1
  | .pong => 9

/-- completed(done, h): the half a done-status word shows as completed, the expected half `h` first
(R210). -/
def completed (done : Word) (h : Half) : Option Half :=
  if done.getLsbD (dneBit h) then some h
  else if done.getLsbD (dneBit (Half.other h)) then some (Half.other h)
  else none

/-- The readiness bits of CH.POLL_READINESS: read ready, write ready, exception pending (R270). -/
def readyBits (readReady writeReady excPending : Bool) : Word :=
  0#29 ++ BitVec.ofBool excPending ++ BitVec.ofBool writeReady ++ BitVec.ofBool readReady

/-- The node is open: `lstate ∉ {Closed, Configuring}` (R273). -/
def LState.isOpen : LState → Bool
  | .closed => false
  | .configuring => false
  | .configured => true
  | .started => true
  | .stopped => true

/-- The 8-bit value of a result code (R330). -/
def RC.code : RC → BitVec 8
  | .ok => 0
  | .registerTimeout => 1
  | .tableProgrammingError => 2
  | .validationError => 3
  | .busNotLocked => 4
  | .invalidState => 5
  | .allocFailed => 6
  | .wouldBlock => 7
  | .interrupted => 8
  | .dropped => 9
  | .noCompletion => 10

end Sys2Proof.Machine
end

