-- ==== Sys2Proof/Machine/Ops.lean ====
section
/-! DEFINITION. The named operations over host memory, the registers, the command contexts, the nodes
and the fault record. TAKING A MODEL FAULT, the only exception of this engine, is `State.raise`
(60_exceptions.md R333). The spec has no return from it: no step clears the record (R61), and an
interrupt invocation has nothing to restore (R344). -/

namespace Sys2Proof.Machine

/-! ## Host physical memory (20_memory.md R80, R81, R83) -/

/-- The size of the address space in bytes (R80). -/
def memSize : Nat := 2 ^ 32

/-- The byte at an address. An unlisted address reads 0: DESIGN CHOICE, notes/assumptions/3.md. -/
def memRead : List Host.Cell → Nat → Byte
  | [], _ => 0
  | (k, b) :: m, a => if k = a then b else memRead m a

/-- The `n` bytes at `a`: MemRead (R11). -/
def memReadBytes (m : List Host.Cell) (a n : Nat) : List Byte :=
  (List.range n).map (fun k => memRead m (a + k))

/-- The list with the byte at `a` replaced, kept in canonical form. -/
def memInsert : List Host.Cell → Nat → Byte → List Host.Cell
  | [], a, b => if b = 0 then [] else [(a, b)]
  | (k, v) :: m, a, b =>
    if a < k then (if b = 0 then (k, v) :: m else (a, b) :: (k, v) :: m)
    else if a = k then (if b = 0 then m else (a, b) :: m)
    else (k, v) :: memInsert m a b

/-- One byte stored. There is no byte at 2^32 or above (R80); the rules raise AddressWrap before they
reach one (R81). -/
def memWrite (m : List Host.Cell) (a : Nat) (b : Byte) : List Host.Cell :=
  if a < memSize then memInsert m a b else m

/-- The bytes stored from `a` on: MemWrite (R11). -/
def memWriteBytes (m : List Host.Cell) (a : Nat) : List Byte → List Host.Cell
  | [] => m
  | b :: bs => memWriteBytes (memWrite m a b) (a + 1) bs

/-- The canonical form: addresses strictly rising and below 2^32, no entry equal to what an unlisted
address reads as. -/
abbrev memWf (m : List Host.Cell) : Prop :=
  m.Pairwise (fun c d => c.1 < d.1) ∧ ∀ c ∈ m, c.1 < memSize ∧ c.2 ≠ 0

/-! ## Command contexts (10_state.md R31, R32) -/

/-- The context of an agent. The hardware side has none. -/
def State.ctx (s : State) : Agent → Ctx
  | .host t => s.threads.getD t Ctx.reset
  | .hd => s.hd
  | .bd => s.bd
  | .hw => Ctx.reset

/-- The state with an agent's context replaced. -/
def State.setCtx (s : State) (a : Agent) (x : Ctx) : State :=
  match a with
  | .host t => { s with threads := s.threads.set t x }
  | .hd => { s with hd := x }
  | .bd => { s with bd := x }
  | .hw => s

/-- RES[i] as a claim may read it: no value until a command of the thread has written it (R32). -/
def Ctx.resRead (x : Ctx) (i : Fin 4) : Option Word :=
  if x.resWritten[i] then some x.res[i] else none

/-- RES[i] <- w (R11). -/
def Ctx.writeRes (x : Ctx) (i : Fin 4) (w : Word) : Ctx :=
  { x with res := x.res.set i w, resWritten := x.resWritten.set i true }

/-- How a command ends: its result code and its RES writes (R330). The two dispatch commands return
nothing (46_interrupt_dispatch.md R291, R295) and have no code. -/
structure Result where
  rc : Option RC
  res : List (Fin 4 × Word) := []
deriving DecidableEq, Repr

/-- The value the command writes to RES[i], as a nesting command reads it (R15). -/
def Result.read (r : Result) (i : Fin 4) : Word :=
  match r.res.find? (fun p => p.1 = i) with
  | some p => p.2
  | none => 0

/-- A register of the context as its own thread writes it; RC takes the low 8 bits (R31). A result register
the thread writes holds a value from then on: notes/assumptions/31.md. -/
def Ctx.setReg (x : Ctx) (r : CtxReg) (w : Word) : Ctx :=
  match r with
  | .cmd => { x with cmd := w }
  | .op i => { x with op := x.op.set i w }
  | .res i => x.writeRes i w
  | .rc => { x with rc := w.setWidth 8 }

/-- RC and RES as a command that ends leaves them (R31: only at the end of a command). -/
def Ctx.put (x : Ctx) (r : Result) : Ctx :=
  let y := r.res.foldl (fun c p => Ctx.writeRes c p.1 p.2) x
  match r.rc with
  | some rc => { y with rc := RC.code rc }
  | none => y

/-- The agent has no command in progress any more. -/
def State.release (s : State) (a : Agent) : State :=
  let s1 := s.setCtx a { s.ctx a with task := none, blocked := false, woken := false, notified := false }
  if s1.cur = a then { s1 with presented := false } else s1

/-- The agent's command ends with `r` (R330). -/
def State.finish (s : State) (a : Agent) (r : Result) : State :=
  (s.setCtx a (Ctx.put (s.ctx a) r)).release a

/-- The agent's command is suspended with the continuation `k`. -/
def State.suspend (s : State) (a : Agent) (k : Task) : State :=
  let s1 := s.setCtx a { s.ctx a with task := some k }
  if s1.cur = a then { s1 with presented := false } else s1

/-- The agent has a command in progress: one it has begun, or the one being run now. -/
def State.busy (s : State) (a : Agent) : Bool :=
  (s.ctx a).task.isSome || (s.presented && decide (s.cur = a))

/-! ## Model faults (60_exceptions.md R333) -/

/-- The command word FCMD names for an agent: 0 for the hardware side (R61). -/
def State.cmdOf (s : State) (a : Agent) : Word :=
  match a with
  | .hw => 0
  | _ => (s.ctx a).cmd

/-- `raise Fault(f)` by `a`, as it acts on the record: the first one sets FAULT, FREASON, FCMD and
FAGENT, a later one changes nothing (R61, R333). -/
def State.record (s : State) (a : Agent) (f : FReason) : State :=
  if s.fault.flag then s
  else { s with fault := { flag := true, reason := some f, cmd := s.cmdOf a, agent := some a } }

/-- TAKING A MODEL FAULT: the record is set and the agent's command stops where it is; RC, RES and the
lock stay as they are (R333). -/
def State.raise (s : State) (a : Agent) (f : FReason) : State := (s.record a f).release a

/-! ## Issue checks (30_encoding.md R123, R124) -/

/-- The agent is one of the engine's host threads (R347). -/
def isHost (c : Params) : Agent → Bool
  | .host t => decide (t < c.nhost)
  | _ => false

/-- The issuer column of R123: the agent may issue the command. -/
def mayIssue (c : Params) (i : Instr) (a : Agent) : Bool :=
  match i with
  | .cdtClearSts _ _ => isHost c a || decide (a = .bd)
  | .adtRearm _ => isHost c a || decide (a = .hd)
  | .rbTryEnqueue _ => decide (a = .hd)
  | .irqHostDispatch => decide (a = .hd)
  | .irqBusDispatch => decide (a = .bd)
  | _ => isHost c a

/-- Checks (3) and (4) of R124, in that order. -/
def entryFault (c : Params) (i : Instr) (a : Agent) : Option FReason :=
  if !mayIssue c i a then some .wrongAgent
  else if !i.chansOk c then some .badChannel
  else if !i.nodesOk c then some .badNode
  else none

/-! ## The registers (10_state.md R33, R35, R37) -/

/-- The byte offset of a register in the register block. -/
def Reg.offset : Reg → Nat
  | .dat i => 4 * i.val
  | .adr => 0x10
  | .ctl => 0x14
  | .bstat => 0x18
  | .hcSts g => 0x20 + 4 * g.val
  | .hcErr g => 0x28 + 4 * g.val
  | .hcMsk g => 0x30 + 4 * g.val
  | .busMsk g => 0x38 + 4 * g.val
  | .busClkClass => 0x40
  | .devAddr => 0x44
  | .version => 0x48

/-- Group g of a channel set (R35). -/
def groupOf (v : ChanSet) (g : Fin 2) : Word := bits v (32 * g.val) 32

/-- The channel set whose group g is `w` and whose other group is 0. -/
def spread (g : Fin 2) (w : Word) : ChanSet := w.setWidth 64 <<< (32 * g.val)

/-- `v` with group g replaced; bits of channels NCH and above ignore writes (R35). -/
def putGroup (c : Params) (v : ChanSet) (g : Fin 2) (w : Word) : ChanSet :=
  (v &&& ~~~(spread g 0xFFFFFFFF)) ||| (spread g w &&& validChans c)

/-- Reg(r) (R11). -/
def State.readReg (s : State) : Reg → Word
  | .dat i => s.dat[i]
  | .adr => s.adr
  | .ctl => s.ctl
  | .bstat => s.bstat
  | .hcSts g => groupOf s.hcSts g
  | .hcErr g => groupOf s.hcErr g
  | .hcMsk g => groupOf s.hcMsk g
  | .busMsk g => groupOf s.busMsk g
  | .busClkClass => s.busClkClass
  | .devAddr => s.devAddr
  | .version => s.cfg.protocolVersion

/-- The bits of ADR that exist: WNR and OFF (R33). -/
def adrMask : Word := 0x800000FF

/-- The transaction a word written to ADR issues (47_hardware_agent.md R310). -/
def txnOf (w : Word) (dat : Vector Word 4) : Txn :=
  if w.getLsbD 31 then .write (bits w 0 8) (rowOf dat) else .read (bits w 0 8)

/-- Reg(r) <- w by software (R11). A write of ADR issues a transaction; a write of 0 to CTL clears it and
a write of 1 has no effect; HC_STS and HC_ERR are write-1-to-clear; BSTAT and VERSION are read-only
(R33, R35, R37, R310). -/
def State.writeReg (s : State) (r : Reg) (w : Word) : State :=
  match r with
  | .dat i => { s with dat := s.dat.set i w }
  | .adr => { s with adr := w &&& adrMask, txPending := some (txnOf w s.dat), txPerformed := false, ctl := 0 }
  | .ctl =>
    if w.getLsbD 0 then s else { s with ctl := 0, txPending := none, txPerformed := false }
  | .bstat => s
  | .hcSts g => { s with hcSts := s.hcSts &&& ~~~(spread g w) }
  | .hcErr g => { s with hcErr := s.hcErr &&& ~~~(spread g w) }
  | .hcMsk g => { s with hcMsk := putGroup s.cfg s.hcMsk g w }
  | .busMsk g => { s with busMsk := putGroup s.cfg s.busMsk g w }
  | .busClkClass => { s with busClkClass := w }
  | .devAddr => { s with devAddr := w }
  | .version => s

/-- One bit of a mask register written; the bit of a channel NCH or above ignores it (R35). -/
def putChan (c : Params) (v : ChanSet) (ch : Chan) (b : Bool) : ChanSet :=
  if b then v ||| (chanBit ch &&& validChans c) else v &&& ~~~(chanBit ch)

/-! ## Nodes (10_state.md R48) -/

/-- The state of node n. -/
def State.node (s : State) (n : NodeNo) : Node := s.nodes[n.toNat]'n.isLt

/-- The state with node n replaced. -/
def State.setNode (s : State) (n : NodeNo) (x : Node) : State :=
  { s with nodes := s.nodes.set n.toNat x n.isLt }

/-- sw_half[ch]. -/
def State.sw (s : State) (ch : Chan) : Half := s.swHalf[ch.toNat]'ch.isLt

/-- sw_half[ch] <- h. -/
def State.setSw (s : State) (ch : Chan) (h : Half) : State :=
  { s with swHalf := s.swHalf.set ch.toNat h ch.isLt }

/-- hw_half[ch]. -/
def State.hwh (s : State) (ch : Chan) : Half := s.hwHalf[ch.toNat]'ch.isLt

/-- hw_half[ch] <- h. -/
def State.setHwh (s : State) (ch : Chan) (h : Half) : State :=
  { s with hwHalf := s.hwHalf.set ch.toNat h ch.isLt }

/-- armed_prev[ch]. -/
def State.prevArmed (s : State) (ch : Chan) : Bool := s.armedPrev[ch.toNat]'ch.isLt

/-- armed_prev[ch] <- b. -/
def State.setPrevArmed (s : State) (ch : Chan) (b : Bool) : State :=
  { s with armedPrev := s.armedPrev.set ch.toNat b ch.isLt }

/-- Row(off) <- v, and written(off) <- 1 (R310). -/
def State.putRow (s : State) (off : RowOff) (v : Row) : State :=
  { s with rows := s.rows.set off.toNat v off.isLt, written := s.written.set off.toNat true off.isLt }

/-- log(event) (R60). -/
def State.log (s : State) : State := { s with logcnt := s.logcnt + 1 }

/-- The command reads from node n: its thread, when blocked, is a reader of n (R272 a). -/
def readsFrom (n : NodeNo) : Instr → Bool
  | .rbDequeue m _ => decide (m = n)
  | _ => false

/-- The command writes to node n: its thread, when blocked, is a writer of n (R272 a). -/
def writesTo (n : NodeNo) : Instr → Bool
  | .chWrite m => decide (m = n)
  | _ => false

/-- The thread is blocked in a command of the kind `p`. -/
def Ctx.waitsIn (p : Instr → Bool) (x : Ctx) : Bool :=
  x.blocked && (match x.task with
    | some k => p k.instr
    | none => false)

/-- The thread is blocked in a command on node n. -/
def Ctx.waitsOn (n : NodeNo) (x : Ctx) : Bool := x.waitsIn (readsFrom n) || x.waitsIn (writesTo n)

/-- A wake (a) of R272: every thread blocked in a command of the kind `p` will check its condition again. -/
def State.notify (s : State) (p : Instr → Bool) : State :=
  { s with threads := s.threads.map (fun x => if Ctx.waitsIn p x then { x with notified := true } else x) }

/-- wake_all(n, Interrupted): every thread blocked on n will return Interrupted (R272 b). -/
def State.wakeAll (s : State) (n : NodeNo) : State :=
  { s with threads := s.threads.map (fun x => if Ctx.waitsOn n x then { x with woken := true } else x) }

/-- SIGNAL(t), enabled for a blocked thread (R272 c). -/
def State.signalThread (s : State) (t : Nat) : State :=
  let x := s.ctx (.host t)
  if x.blocked then s.setCtx (.host t) { x with woken := true } else s

/-! ## Ring buffers (44_ring_buffer.md R230, R232) -/

/-- The ring an open node starts with (R251). -/
def Ring.new (cap : Nat) : Ring where
  slots := List.replicate (cap + 1) none
  widx := 0
  ridx := 0
  dropcnt := 0

/-- The enqueue of `data`: the ring afterwards, and whether the packet was dropped (R230). -/
def Ring.enqueue (cap : Nat) (r : Ring) (data : List Byte) : Ring × Bool :=
  if r.full cap then
    ({ r with slots := r.slots.set cap (some data), dropcnt := r.dropcnt + 1 }, true)
  else
    ({ r with slots := r.slots.set r.widx (some data), widx := (r.widx + 1) % cap }, false)

/-- The dequeue from a ring that is not empty: the slot read and the ring afterwards (R232). -/
def Ring.dequeue (cap : Nat) (r : Ring) : Option (List Byte) × Ring :=
  (r.slots.getD r.ridx none, { r with ridx := (r.ridx + 1) % cap })

/-- `len` bytes for a slot that holds no value: free values (R49), notes/assumptions/13.md. -/
def freeSlot (draw len : Nat) : List Byte := (List.range len).map (Config.freeSlotByte draw)

/-! ## The allocator's answer (45_channel.md R251) -/

/-- The next answer and the environment afterwards: the state's own list first, then the free value
(notes/assumptions/4.md). An answer that R251 does not admit is a refusal. -/
def Env.alloc (e : Env) (len : Nat) : Option Bufs × Env :=
  let ans := match e.allocs with
    | x :: _ => x
    | [] => Config.freeAlloc e.draws
  let e1 := match e.allocs with
    | _ :: xs => { e with allocs := xs }
    | [] => { e with draws := e.draws + 1 }
  (match ans with
    | some b => if legalBufs len b then some b else none
    | none => none, e1)

/-! ## Engine reset (R370, R371) -/

/-- Engine reset: every piece of state takes the value of R70 in one step. Host memory, the contents of the
table rows, the parameters and the environment are not changed by it (R371). -/
def State.engineReset (s : State) : State :=
  { State.resetOf s.cfg with rows := s.rows, mem := s.mem, env := s.env }

end Sys2Proof.Machine
end

