-- ==== Sys2Proof/Machine/Hardware.lean ====
section
/-! DEFINITION. The steps of the hardware side (47_hardware_agent.md R310 to R318). A step that is not
enabled leaves the state as it is. No hardware step is forced (R318): which steps happen, and the
values they draw, are the environment's. -/

namespace Sys2Proof.Machine

/-- One channel's part of the arming edge: `armed` going from 0 to 1 sends the hardware to the ping half
(R311). -/
def State.armEdge (s : State) (ch : Chan) : State :=
  let now := s.armed ch
  let s1 := if now && !s.prevArmed ch then s.setHwh ch .ping else s
  s1.setPrevArmed ch now

/-- The arming edge over every channel, after a write of a CAT row (R311). -/
def State.armEdges (s : State) : State := (chansOf s.cfg).foldl State.armEdge s

/-- PERFORM: the table RAM access of the pending transaction, once, in one step (R310). -/
def State.perform (s : State) : State :=
  if s.txPerformed then s
  else match s.txPending with
    | none => s
    | some (.write off v) =>
      let s1 := s.putRow off v
      let s2 := if isCatRow off then s1.armEdges else s1
      { s2 with txPerformed := true }
    | some (.read off) =>
      if s.isWritten off then { s with dat := wordsOf (s.row off), txPerformed := true }
      else s.record .hw .unwrittenRow

/-- SIGNAL of the transaction unit: XCMP goes to 1 after the access (R310). -/
def State.signalDone (s : State) : State :=
  if s.txPending.isSome && s.txPerformed && !s.ctl.getLsbD 0 then { s with ctl := 1 } else s

/-- XFER(ch) is enabled: the channel is armed, its ADT row was written and the half the hardware is on is
ready (R312). -/
def State.xferEnabled (s : State) (ch : Chan) : Bool :=
  decide (ch.toNat < s.cfg.nch) && s.armed ch && s.isWritten (adtOff ch) &&
  rdyOf (s.row (adtOff ch)) (s.hwh ch)

/-- The number of bytes a receive transfer of half `h` may write: the whole half, or from 1 byte on when
the half has packet start; after an error every byte of the half may have changed (R312). -/
def legalXfer (r : Row) (h : Half) (ok : Bool) (k : Nat) : Bool :=
  let len := decodeDepth (bdOf r h)
  if ok && psOf r h then decide (1 ≤ k) && decide (k ≤ len) else decide (k = len)

/-- The ADT row after a transfer of half `h`: RDY 0, DNE 1, ERR 1 on an error (R312). -/
def xferRow (r : Row) (h : Half) (ok : Bool) : Row :=
  putFlags r h false true (errOf r h || !ok)

/-- The row and status part of XFER(ch) (R312). -/
def State.xferDone (s : State) (ch : Chan) (ok : Bool) : State :=
  let h := s.hwh ch
  let r := s.row (adtOff ch)
  let s1 := s.putRow (adtOff ch) (xferRow r h ok)
  let s2 := { s1 with hcErr := if ok then s1.hcErr else s1.hcErr ||| chanBit ch, hcSts := s1.hcSts ||| chanBit ch }
  if contOf r then s2.setHwh ch (Half.other h) else s2

/-- XFER(ch): the transfer of one half in one step. `bytes` is what a receive transfer writes, and is not
used by a transmit transfer, which only reads memory (R312). A half whose range passes 2^32 is fault
AddressWrap (R81). -/
def State.xfer (s : State) (ch : Chan) (ok : Bool) (bytes : List Byte) : State :=
  if !s.xferEnabled ch then s
  else
    let h := s.hwh ch
    let r := s.row (adtOff ch)
    if wraps (addrOf r h) (decodeDepth (bdOf r h)) then s.record .hw .addressWrap
    else if rnwBit (s.catEntry .bus ch) then s.xferDone ch ok
    else if legalXfer r h ok bytes.length then
      State.xferDone { s with mem := memWriteBytes s.mem (addrOf r h).toNat bytes } ch ok
    else s

/-- The bus-side steps on a channel's CDT row are enabled: armed, and the row was written (R314, R315). -/
def State.cdtEnabled (s : State) (ch : Chan) : Bool :=
  decide (ch.toNat < s.cfg.nch) && s.armed ch && s.isWritten (cdtOff ch)

/-- RAISE(ch, b) for a nonzero nibble (R314). -/
def State.raiseSts (s : State) (ch : Chan) (b : BitVec 4) : State :=
  let r := s.row (cdtOff ch)
  if s.cdtEnabled ch && decide (b ≠ 0) then s.putRow (cdtOff ch) (putSts r (stsOf r ||| b)) else s

/-- PROGRESS(ch): RDP and WRP take any values (R315). -/
def State.progress (s : State) (ch : Chan) (rdp wrp : Bool) : State :=
  if s.cdtEnabled ch then
    s.putRow (cdtOff ch) (setField (s.row (cdtOff ch)) 52 (BitVec.ofBool wrp ++ BitVec.ofBool rdp))
  else s

/-- BUS(c, l) with l ≤ c: the bus locks only while its clock runs (R316). -/
def State.busStep (s : State) (clkrun locked : Bool) : State :=
  if locked && !clkrun then s
  else { s with bstat := 0#30 ++ BitVec.ofBool locked ++ BitVec.ofBool clkrun }

/-- One step of the hardware side. -/
def State.hwStep (s : State) : HwStep → State
  | .perform => s.perform
  | .signal => s.signalDone
  | .xfer ch ok bytes => s.xfer ch ok bytes
  | .raiseSts ch b => s.raiseSts ch b
  | .progress ch rdp wrp => s.progress ch rdp wrp
  | .bus c l => s.busStep c l

end Sys2Proof.Machine
end

