-- ==== Sys2Proof/Machine/Acts.lean ====
section
/-! DEFINITION. The atomic steps of the software agents: one register access, one lock operation, one
evaluation of a wait, or one step the spec itself calls one step (46_interrupt_dispatch.md R290,
20_memory.md R89). A command is a program of these (Machine/Prog.lean); between two of them any other
agent may move. -/

namespace Sys2Proof.Machine

/-- The atomic steps. Each answers at most one row. -/
inductive Act where
  /-- `acquire L` (R90). -/
  | acquire
  /-- `release L` (R90). -/
  | release
  /-- The two checks that open a transaction (R150). -/
  | txnGuard (off : RowOff)
  /-- A register read. -/
  | readReg (r : Reg)
  /-- A register write. -/
  | writeReg (r : Reg) (w : Word)
  /-- HC_ERR ++ (HC_STS & HC_MSK), the snapshot of the host dispatcher, with the acknowledgement of what it
  holds (R291): one step, so that a completion after the snapshot stays pending (60_exceptions.md R343).
  notes/assumptions/32.md. -/
  | snapshot
  /-- HC_MSK[ch] <- b. -/
  | setHostMask (ch : Chan) (b : Bool)
  /-- BUS_MSK[ch] <- b. -/
  | setBusMask (ch : Chan) (b : Bool)
  /-- BUS_MSK[ch]. -/
  | getBusMask (ch : Chan)
  /-- sw_half[ch]. -/
  | getSw (ch : Chan)
  /-- sw_half[ch] <- h. -/
  | setSw (ch : Chan) (h : Half)
  /-- log(event) (R60). -/
  | log
  /-- `wait until nm[n] = none; nm[n] <- self` (R273). -/
  | takeMutex (n : NodeNo)
  /-- `nm[n] <- none` (R273). -/
  | giveMutex (n : NodeNo)
  /-- lstate[n]. -/
  | getLstate (n : NodeNo)
  /-- lstate[n] <- l. -/
  | setLstate (n : NodeNo) (l : LState)
  /-- refcnt[n]. -/
  | getRefcnt (n : NodeNo)
  /-- refcnt[n] <- w. -/
  | setRefcnt (n : NodeNo) (w : Word)
  /-- tx_ch[n] ++ rx_ch[n], each in 8 bits. -/
  | getChans (n : NodeNo)
  /-- `rx_ch[n] <- rx; tx_ch[n] <- tx` (R269), both in one step: DEDUCED, notes/assumptions/14.md. -/
  | setChans (n : NodeNo) (rx tx : Chan)
  /-- Is one of the two channels used by a node other than n (R269)? -/
  | chansUsed (n : NodeNo) (a b : Chan)
  /-- The allocation draw, with the ring and the buffers it gives (R251). -/
  | allocate (n : NodeNo)
  /-- bufs[n], as txPong ++ txPing ++ rxPong ++ rxPing. -/
  | getBufs (n : NodeNo)
  /-- Is every other node Closed (R251)? -/
  | othersClosed (n : NodeNo)
  /-- `ring[n] <- none; bufs[n] <- none` (R251, R256), both in one step: DEDUCED, notes/assumptions/14.md. -/
  | freeNode (n : NodeNo)
  /-- `exc[n] <- 0; tx_busy[n] <- 0` (R251, R256), both in one step: DEDUCED, notes/assumptions/14.md. -/
  | clearPending (n : NodeNo)
  /-- wake_all(n, Interrupted) (R272). -/
  | wakeAll (n : NodeNo)
  /-- The body of RB.TRY_ENQUEUE (R230). -/
  | enqueue (n : NodeNo) (a : Word)
  /-- The receive handler's enqueue, or log(late) when the ring is gone (R292). -/
  | enqueueOrLate (n : NodeNo) (a : Word)
  /-- The checks of RB.DEQUEUE and `consumer[n] <- self` (R232). -/
  | deqEnter (n : NodeNo) (dst len : Word)
  /-- The atomic copy and index step of RB.DEQUEUE: 1 when it took a slot, 0 when the ring is empty. -/
  | deqTake (n : NodeNo) (dst : Word)
  /-- `consumer[n] <- none`. -/
  | deqLeave (n : NodeNo)
  /-- `wait until ridx ≠ widx or woken(self)`: 1 when woken by cancel or stop (R232, R272). -/
  | waitRing (n : NodeNo)
  /-- The checks of CH.WRITE (R265). -/
  | writeEnter (n : NodeNo) (src len : Word)
  /-- tx_busy[n]. -/
  | getBusy (n : NodeNo)
  /-- tx_busy[n] <- b, and with b = 0 the wake of the writers of n (R259, R272, R293). -/
  | setBusy (n : NodeNo) (b : Bool)
  /-- MemWrite(dst, len, MemRead(src, len)) (R265). -/
  | copyBytes (dst src : Word) (len : Nat)
  /-- `wait until tx_busy[n] = 0 or woken(self)`: 1 when woken by cancel or stop (R265, R272). -/
  | waitTx (n : NodeNo)
  /-- The Started node a channel serves: 0 none, 0x100 + n its receive, 0x200 + n its transmit
  channel (R291). -/
  | server (ch : Chan)
  /-- `exc[n] <- exc[n] | s` for the open node of a channel, or log(spurious) (R295). -/
  | postExc (ch : Chan) (s : BitVec 4)
  /-- The body of CH.GET_EXCEPTIONS (R268). -/
  | takeExc (n : NodeNo)
  /-- The body of CH.POLL_READINESS: RES1 ++ RES0 (R270). -/
  | readiness (n : NodeNo)
deriving DecidableEq, Repr

/-- What an atomic step does: it happens, it is not enabled yet (the agent spins or waits), or it raises
a model fault. -/
inductive Eff where
  | ok (s : State) (r : Resp)
  | stay (s : State)
  | fault (f : FReason) (s : State)

/-- A truth value as an answer. -/
def bitResp (b : Bool) : Resp := if b then 1 else 0

/-- The code of a half as an answer. -/
def halfResp (h : Half) : Resp := BitVec.ofNat 128 (Half.idx h)

/-- The half a code stands for. -/
def halfOf (r : Resp) : Half := if r = 0 then .ping else .pong

/-- The code of a lifecycle state as an answer. -/
def lstateResp : LState → Resp
  | .closed => 0
  | .configuring => 1
  | .configured => 2
  | .started => 3
  | .stopped => 4

/-! ## The lock (20_memory.md R90) -/

/-- `acquire L`. -/
def actAcquire (a : Agent) (s : State) : Eff :=
  if s.lock = none then .ok { s with lock := some a } 0 else .stay s

/-- `release L`; only the holder may release. -/
def actRelease (a : Agent) (s : State) : Eff :=
  if s.lock = some a then .ok { s with lock := none } 0 else .ok s 0

/-- The checks of a transaction: L is held by the agent, and the row exists (R150). -/
def actTxnGuard (a : Agent) (off : RowOff) (s : State) : Eff :=
  if s.lock ≠ some a then .fault .lockNotHeld s
  else if reservedRow s.cfg off then .fault .reservedRow s
  else .ok s 0

/-! ## Waits (20_memory.md R90, 45_channel.md R272, R273) -/

/-- `wait until ready or woken(self)` (R272). A thread whose condition holds does not wait. A blocked thread
goes on only after a wake: one of the kinds (b) and (c) ends the wait with answer 1, one of the kind (a)
lets it check its condition again, which ends the wait with answer 0 or leaves the thread waiting. A
wait with the lock held is fault BlockUnderLock (R90). -/
def actWait (a : Agent) (ready : Bool) (s : State) : Eff :=
  let x := s.ctx a
  let awake : Ctx := { x with blocked := false, woken := false, notified := false }
  if s.lock = some a then .fault .blockUnderLock s
  else if !x.blocked then
    if ready then .ok s 0 else .stay (s.setCtx a { awake with blocked := true })
  else if x.woken then .ok (s.setCtx a awake) 1
  else if x.notified && ready then .ok (s.setCtx a awake) 0
  else .stay (s.setCtx a { x with notified := false })

/-- `wait until nm[n] = none; nm[n] <- self`. No wake ends it and `blocked` stays 0:
notes/assumptions/9.md. -/
def actTakeMutex (a : Agent) (n : NodeNo) (s : State) : Eff :=
  if s.lock = some a then .fault .blockUnderLock s
  else if (s.node n).nm = none then .ok (s.setNode n { s.node n with nm := some a }) 0
  else .stay s

/-- `wait until ridx ≠ widx or woken(self)`. A ring that is gone never becomes ready. -/
def actWaitRing (a : Agent) (n : NodeNo) (s : State) : Eff :=
  actWait a (match (s.node n).ring with
    | some r => !r.empty
    | none => false) s

/-- `wait until tx_busy[n] = 0 or woken(self)`. -/
def actWaitTx (a : Agent) (n : NodeNo) (s : State) : Eff := actWait a (!(s.node n).txBusy) s

/-! ## Nodes -/

/-- One field of a node written. -/
def actNode (n : NodeNo) (f : Node → Node) (s : State) : Eff := .ok (s.setNode n (f (s.node n))) 0

/-- Is one of the channels used by a node other than n (R269)? -/
def chansUsedBy (s : State) (n : NodeNo) (a b : Chan) : Bool :=
  (nodesOf s.cfg).any (fun m => decide (m ≠ n) &&
    [(s.node m).rxCh, (s.node m).txCh].any (fun c => decide (c = a ∨ c = b)))

/-- Is every node other than n Closed (R251)? All nodes in one step: DEDUCED, notes/assumptions/14.md. -/
def othersAreClosed (s : State) (n : NodeNo) : Bool :=
  (nodesOf s.cfg).all (fun m => decide (m = n) || decide ((s.node m).lstate = .closed))

/-- The allocation draw: on success the node has an empty ring and its buffers (R251). -/
def actAllocate (n : NodeNo) (s : State) : Eff :=
  let (ans, e) := s.env.alloc (s.cfg.depth n)
  let s1 := { s with env := e }
  match ans with
  | none => .ok s1 0
  | some b => .ok (s1.setNode n { s1.node n with ring := some (Ring.new (s1.cfg.cap n)), bufs := some b }) 1

/-- bufs[n] as one answer; 0 when there are none. -/
def bufsResp : Option Bufs → Resp
  | some b => b.txPong ++ b.txPing ++ b.rxPong ++ b.rxPing
  | none => 0

/-- The Started node that has `ch` as its receive channel, else the one that has it as its transmit
channel (R291). -/
def serverOf (s : State) (ch : Chan) : Resp :=
  match (nodesOf s.cfg).find? (fun n => decide ((s.node n).rxCh = ch ∧ (s.node n).lstate = .started)) with
  | some n => 0x100 + n.setWidth 128
  | none =>
    match (nodesOf s.cfg).find? (fun n => decide ((s.node n).txCh = ch ∧ (s.node n).lstate = .started)) with
    | some n => 0x200 + n.setWidth 128
    | none => 0

/-- `exc[n] <- exc[n] | s` for the node of `ch` that is not Closed, else log(spurious) (R295). -/
def actPostExc (ch : Chan) (x : BitVec 4) (s : State) : Eff :=
  match (nodesOf s.cfg).find? (fun n => decide (((s.node n).rxCh = ch ∨ (s.node n).txCh = ch) ∧
      (s.node n).lstate ≠ .closed)) with
  | some n => .ok (s.setNode n { s.node n with exc := (s.node n).exc ||| x }) 0
  | none => .ok s.log 0

/-! ## The ring (44_ring_buffer.md R230, R232) -/

/-- The body of RB.TRY_ENQUEUE, one atomic step: 1 when the packet was dropped; a packet that was not wakes
the readers of n (R230, R272 a). -/
def actEnqueue (n : NodeNo) (a : Word) (s : State) : Eff :=
  match (s.node n).ring with
  | none => .fault .notOpen s
  | some r =>
    if wraps a (s.cfg.slot n) then .fault .addressWrap s
    else
      let (r1, dropped) := r.enqueue (s.cfg.cap n) (memReadBytes s.mem a.toNat (s.cfg.slot n))
      let s1 := s.setNode n { s.node n with ring := some r1 }
      .ok (if dropped then s1 else s1.notify (readsFrom n)) (bitResp dropped)

/-- The receive handler's step: the enqueue, or log(late) without a ring (R292). -/
def actEnqueueOrLate (n : NodeNo) (a : Word) (s : State) : Eff :=
  match (s.node n).ring with
  | none => .ok s.log 0
  | some _ => actEnqueue n a s

/-- The checks of RB.DEQUEUE in their order, then `consumer[n] <- self` (R232). -/
def actDeqEnter (a : Agent) (n : NodeNo) (dst len : Word) (s : State) : Eff :=
  let x := s.node n
  if x.ring = none then .fault .notOpen s
  else if x.consumer ≠ none then .fault .concurrentConsumer s
  else if len.toNat < s.cfg.slot n then .fault .shortBuffer s
  else if wraps dst (s.cfg.slot n) then .fault .addressWrap s
  else .ok (s.setNode n { x with consumer := some a }) 0

/-- The copy out of `slots[ridx]` and the advance of ridx, one atomic step (R232), with the test `ridx ≠ widx`
before it in the same step: DEDUCED, notes/assumptions/14.md. -/
def actDeqTake (n : NodeNo) (dst : Word) (s : State) : Eff :=
  match (s.node n).ring with
  | none => .fault .notOpen s
  | some r =>
    if r.empty then .ok s 0
    else
      let (v, r1) := r.dequeue (s.cfg.cap n)
      let s1 := s.setNode n { s.node n with ring := some r1 }
      match v with
      | some bytes => .ok { s1 with mem := memWriteBytes s1.mem dst.toNat bytes } 1
      | none =>
        .ok { s1 with
          mem := memWriteBytes s1.mem dst.toNat (freeSlot s1.env.draws (s1.cfg.slot n))
          env := { s1.env with draws := s1.env.draws + 1 } } 1

/-! ## The data path (45_channel.md R265, R268, R270) -/

/-- The checks of CH.WRITE in their order (R265). -/
def actWriteEnter (n : NodeNo) (src len : Word) (s : State) : Eff :=
  if !(s.node n).lstate.isOpen then .fault .notOpen s
  else if len.toNat < 1 ∨ s.cfg.depth n < len.toNat then .fault .badLength s
  else if wraps src len.toNat then .fault .addressWrap s
  else .ok s 0

/-- `tx_busy[n] <- b`; clearing it wakes the writers of n (R259, R272 a, R293). The other place that clears
`tx_busy`, `Act.clearPending`, wakes nobody (R251, R256). -/
def actSetBusy (n : NodeNo) (b : Bool) (s : State) : Eff :=
  let s1 := s.setNode n { s.node n with txBusy := b }
  .ok (if b then s1 else s1.notify (writesTo n)) 0

/-- `MemWrite(dst, len, MemRead(src, len))`. -/
def actCopy (dst src : Word) (len : Nat) (s : State) : Eff :=
  .ok { s with mem := memWriteBytes s.mem dst.toNat (memReadBytes s.mem src.toNat len) } 0

/-- exc[n] read and cleared in one step (R268). -/
def actTakeExc (n : NodeNo) (s : State) : Eff :=
  let x := s.node n
  if !x.lstate.isOpen then .fault .notOpen s
  else .ok (s.setNode n { x with exc := 0 }) (x.exc.setWidth 128)

/-- RES1 ++ RES0 of CH.POLL_READINESS, read in one step (R270). A node whose teardown has already freed
its ring is a ring that is not open: NotOpen (R332), notes/assumptions/12.md. -/
def actReadiness (n : NodeNo) (s : State) : Eff :=
  let x := s.node n
  if !x.lstate.isOpen then .fault .notOpen s
  else match x.ring with
    | none => .fault .notOpen s
    | some r =>
      .ok s ((r.dropcnt ++ readyBits (!r.empty) (!x.txBusy) (decide (x.exc ≠ 0))).setWidth 128)

/-! ## The snapshot (46_interrupt_dispatch.md R291) -/

/-- S <- HC_STS & HC_MSK and E <- HC_ERR, answered as E ++ S; the bits S of HC_STS and S & E of HC_ERR are
acknowledged in the same step (R291, 60_exceptions.md R343). -/
def actSnapshot (s : State) : Eff :=
  let sts := s.hcSts &&& s.hcMsk
  .ok { s with hcSts := s.hcSts &&& ~~~sts, hcErr := s.hcErr &&& ~~~(sts &&& s.hcErr) } (s.hcErr ++ sts)

/-! ## All of them -/

/-- The effect of an atomic step of agent `a`. -/
def Act.apply (a : Agent) (s : State) : Act → Eff
  | .acquire => actAcquire a s
  | .release => actRelease a s
  | .txnGuard off => actTxnGuard a off s
  | .readReg r => .ok s ((s.readReg r).setWidth 128)
  | .writeReg r w => .ok (s.writeReg r w) 0
  | .snapshot => actSnapshot s
  | .setHostMask ch b => .ok { s with hcMsk := putChan s.cfg s.hcMsk ch b } 0
  | .setBusMask ch b => .ok { s with busMsk := putChan s.cfg s.busMsk ch b } 0
  | .getBusMask ch => .ok s (bitResp (s.busMsk.getLsbD ch.toNat))
  | .getSw ch => .ok s (halfResp (s.sw ch))
  | .setSw ch h => .ok (s.setSw ch h) 0
  | .log => .ok s.log 0
  | .takeMutex n => actTakeMutex a n s
  | .giveMutex n => actNode n (fun x => { x with nm := none }) s
  | .getLstate n => .ok s (lstateResp (s.node n).lstate)
  | .setLstate n l => actNode n (fun x => { x with lstate := l }) s
  | .getRefcnt n => .ok s ((s.node n).refcnt.setWidth 128)
  | .setRefcnt n w => actNode n (fun x => { x with refcnt := w }) s
  | .getChans n =>
    .ok s (((s.node n).txCh.setWidth 8 ++ (s.node n).rxCh.setWidth 8 : BitVec 16).setWidth 128)
  | .setChans n rx tx => actNode n (fun x => { x with rxCh := rx, txCh := tx }) s
  | .chansUsed n b c => .ok s (bitResp (chansUsedBy s n b c))
  | .allocate n => actAllocate n s
  | .getBufs n => .ok s (bufsResp (s.node n).bufs)
  | .othersClosed n => .ok s (bitResp (othersAreClosed s n))
  | .freeNode n => actNode n (fun x => { x with ring := none, bufs := none }) s
  | .clearPending n => actNode n (fun x => { x with exc := 0, txBusy := false }) s
  | .wakeAll n => .ok (s.wakeAll n) 0
  | .enqueue n b => actEnqueue n b s
  | .enqueueOrLate n b => actEnqueueOrLate n b s
  | .deqEnter n dst len => actDeqEnter a n dst len s
  | .deqTake n dst => actDeqTake n dst s
  | .deqLeave n => actNode n (fun x => { x with consumer := none }) s
  | .waitRing n => actWaitRing a n s
  | .writeEnter n src len => actWriteEnter n src len s
  | .getBusy n => .ok s (bitResp (s.node n).txBusy)
  | .setBusy n b => actSetBusy n b s
  | .copyBytes dst src len => actCopy dst src len s
  | .waitTx n => actWaitTx a n s
  | .server ch => .ok s (serverOf s ch)
  | .postExc ch x => actPostExc ch x s
  | .takeExc n => actTakeExc n s
  | .readiness n => actReadiness n s

end Sys2Proof.Machine
end

