-- ==== Sys2Proof/Machine/Prog.lean ====
section
/-! DEFINITION. Commands as programs of atomic steps, in the shape of the spec's pseudocode: `act` is one
atomic step, `ret` the end, `raise` a model fault and `loop` a jump to the head of the command's wait
loop. A program is never stored in State: what is stored of a command that has not ended is the command
and the answers its steps have given (`Task`), from which `replay` finds where it stands. -/

namespace Sys2Proof.Machine

/-- A program that ends with a value of type α. -/
inductive Prog (α : Type) where
  | ret (x : α)
  | raise (f : FReason)
  | loop
  | act (d : Act) (k : Resp → Prog α)

/-- `p`, then what `k` makes of its value. -/
def Prog.bind {α β : Type} (p : Prog α) (k : α → Prog β) : Prog β :=
  match p with
  | .ret x => k x
  | .raise f => .raise f
  | .loop => .loop
  | .act d j => .act d (fun r => (j r).bind k)

/-- The program that is left after its steps have given the answers `rs`, oldest first. -/
def Prog.replay {α : Type} : Prog α → List Resp → Prog α
  | .act _ k, r :: rs => (k r).replay rs
  | .ret x, _ => .ret x
  | .raise f, _ => .raise f
  | .loop, _ => .loop
  | .act d k, [] => .act d k

/-- A step whose answer is not used, then `p`. -/
def Prog.after {α : Type} (d : Act) (p : Prog α) : Prog α := .act d (fun _ => p)

/-- The body for every element, in order. -/
def Prog.each {β : Type} (body : β → Prog Unit) : List β → Prog Unit
  | [] => .ret ()
  | x :: xs => (body x).bind (fun _ => Prog.each body xs)

/-- The command ends with a code and no RES write. -/
def done (rc : RC) : Prog Result := .ret { rc := some rc }

/-- The command ends with a code and RES[0] written. -/
def doneRes (rc : RC) (w : Word) : Prog Result := .ret { rc := some rc, res := [(0, w)] }

end Sys2Proof.Machine
end

