-- ==== Sys2Proof/Machine/RegisterProtocol.lean ====
section
/-! DEFINITION. The Register Protocol family (40_register_protocol.md): the transaction procedure, the row
helpers every manager uses, and RP.WRITE_ROW, RP.READ_ROW and RP.CAT_WRITE. -/

namespace Sys2Proof.Machine

/-- How a transaction ends (R150). -/
inductive TxnRes where
  | ok (v : Row)
  | timeout
deriving DecidableEq, Repr

/-- How a row write ends (R156). -/
inductive WrRes where
  | ok | timeout | mismatch
deriving DecidableEq, Repr

/-- The result code a command makes of a row write. -/
def WrRes.rc : WrRes → RC
  | .ok => .ok
  | .timeout => .registerTimeout
  | .mismatch => .tableProgrammingError

/-- At most `n` polls of CTL.XCMP, each one step: did one of them see it (R150)? -/
def pollCtl : Nat → Prog Bool
  | 0 => .ret false
  | n + 1 => .act (.readReg .ctl) fun r => if r.getLsbD 0 then .ret true else pollCtl n

/-- The word written to ADR to issue a transaction (R150). -/
def adrWord (write : Bool) (off : RowOff) : Word := BitVec.ofBool write ++ 0#23 ++ off

/-- The four data words of `v` written to DAT0..DAT3 (R150). -/
def writeDats {α : Type} (v : Row) (p : Prog α) : Prog α :=
  .after (.writeReg (.dat 0) (rowWord v 0)) <|
  .after (.writeReg (.dat 1) (rowWord v 1)) <|
  .after (.writeReg (.dat 2) (rowWord v 2)) <|
  .after (.writeReg (.dat 3) (rowWord v 3)) p

/-- The row in DAT3 ++ DAT2 ++ DAT1 ++ DAT0, DAT3 read first (R150). -/
def readDats : Prog Row :=
  .act (.readReg (.dat 3)) fun d3 =>
  .act (.readReg (.dat 2)) fun d2 =>
  .act (.readReg (.dat 1)) fun d1 =>
  .act (.readReg (.dat 0)) fun d0 =>
  .ret (d3.setWidth 32 ++ d2.setWidth 32 ++ d1.setWidth 32 ++ d0.setWidth 32)

/-- Txn(read, off, -) (R150); ReadRow(off) (R156). -/
def readRow (c : Params) (off : RowOff) : Prog TxnRes :=
  .after (.txnGuard off) <|
  .after (.writeReg .adr (adrWord false off)) <|
  (pollCtl c.rpRetries).bind fun seen =>
  if seen then readDats.bind fun v => .after (.writeReg .ctl 0) <| .ret (.ok v)
  else .after (.writeReg .ctl 0) <| .ret .timeout

/-- Txn(write, off, v) (R150). -/
def writeTxn (c : Params) (off : RowOff) (v : Row) : Prog TxnRes :=
  .after (.txnGuard off) <|
  writeDats v <|
  .after (.writeReg .adr (adrWord true off)) <|
  (pollCtl c.rpRetries).bind fun seen =>
  .after (.writeReg .ctl 0) <| .ret (if seen then .ok v else .timeout)

/-- WriteRow(off, v), with the read-back when READBACK_CHECK is on (R156). -/
def writeRow (c : Params) (off : RowOff) (v : Row) : Prog WrRes :=
  (writeTxn c off v).bind fun r =>
  match r with
  | .timeout => .ret .timeout
  | .ok _ =>
    if c.readbackCheck then
      (readRow c off).bind fun r2 =>
      match r2 with
      | .timeout => .ret .timeout
      | .ok v2 => .ret (if v2 &&& swMask off = v &&& swMask off then .ok else .mismatch)
    else .ret .ok

/-- One row write under one hold of L (R151). -/
def lockedWrite (c : Params) (off : RowOff) (v : Row) : Prog WrRes :=
  .after .acquire <|
  (writeRow c off v).bind fun w =>
  .after .release <| .ret w

/-- A row read, patched by `f` and written back; the caller holds L. A read that times out writes nothing
(R154). -/
def updateRow (c : Params) (off : RowOff) (f : Row → Row) : Prog WrRes :=
  (readRow c off).bind fun r =>
  match r with
  | .timeout => .ret .timeout
  | .ok v => writeRow c off (f v)

/-- A row read, patched and written back under one hold of L (R154). -/
def lockedUpdate (c : Params) (off : RowOff) (f : Row → Row) : Prog WrRes :=
  .after .acquire <|
  (updateRow c off f).bind fun w =>
  .after .release <| .ret w

/-- CatRead(ns, ch): the sub-field, or nothing on a timeout; the caller holds L (R155). -/
def catRead (c : Params) (ns : Ns) (ch : Chan) : Prog (Option SubField) :=
  (readRow c (catOff ns ch)).bind fun r =>
  match r with
  | .timeout => .ret none
  | .ok v => .ret (some (getSub v ch))

/-- SetSub((ns, ch), x); the caller holds L (R194). -/
def setSub (c : Params) (ns : Ns) (ch : Chan) (x : SubField) : Prog WrRes :=
  updateRow c (catOff ns ch) (fun v => putSub v ch x)

/-- The four results of a row read: RES[0..3] = W0..W3 (R153). -/
def rowRes (v : Row) : List (Fin 4 × Word) :=
  [(0, rowWord v 0), (1, rowWord v 1), (2, rowWord v 2), (3, rowWord v 3)]

/-! ## Commands -/

/-- RP.WRITE_ROW (R152). -/
def progRpWriteRow (c : Params) (op : Vector Word 4) (off : RowOff) : Prog Result :=
  (lockedWrite c off (rowOf op)).bind fun w => done w.rc

/-- RP.READ_ROW (R153). -/
def progRpReadRow (c : Params) (off : RowOff) : Prog Result :=
  .after .acquire <|
  (readRow c off).bind fun r =>
  .after .release <|
  match r with
  | .timeout => done .registerTimeout
  | .ok v => .ret { rc := some .ok, res := rowRes v }

/-- RP.CAT_WRITE (R154). -/
def progRpCatWrite (c : Params) (ns : Ns) (ch : Chan) (x : SubField) : Prog Result :=
  (lockedUpdate c (catOff ns ch) (fun v => putSub v ch x)).bind fun w => done w.rc

end Sys2Proof.Machine
end

