-- ==== Sys2Proof/Machine/Cdt.lean ====
section
/-! DEFINITION. The CDT Manager family (41_cdt.md): CDT.INIT, CDT.RESET_ALL and CDT.CLEAR_STS. -/

namespace Sys2Proof.Machine

/-- BS of a CDT row: ISO_BS for ISO channels, 0 for the others (R171). -/
def blockSize (c : Params) (ty : ChType) : BitVec 9 :=
  if ty = .iso then BitVec.ofNat 9 c.isoBs else 0

/-- CDT.INIT with its two operands as numbers, the form CH.OPEN uses (R171, R251). DIR does not change the
row. -/
def cdtInitWith (c : Params) (ch : Chan) (ty : ChType) (_dir : Dir) (dbr d : Nat) : Prog Result :=
  if decide (2 ^ 16 ≤ dbr) || !validDepth c ty d then done .validationError
  else
    (lockedWrite c (cdtOff ch)
      (cdtRow (BitVec.ofNat 16 dbr) (encodeDepth d) (blockSize c ty))).bind fun w => done w.rc

/-- CDT.INIT (R171). -/
def progCdtInit (c : Params) (op : Vector Word 4) (ch : Chan) (ty : ChType) (dir : Dir) : Prog Result :=
  cdtInitWith c ch ty dir op[0].toNat op[1].toNat

/-- Zero rows, each under its own hold of L, up to the first that fails (R172, R192). -/
def zeroRows (c : Params) : List RowOff → Prog Result
  | [] => done .ok
  | off :: offs =>
    (lockedWrite c off 0).bind fun w =>
    match w with
    | .ok => zeroRows c offs
    | .timeout => done .registerTimeout
    | .mismatch => done .tableProgrammingError

/-- CDT.RESET_ALL (R172). -/
def progCdtResetAll (c : Params) : Prog Result := zeroRows c ((chansOf c).map cdtOff)

/-- CDT.CLEAR_STS (R173). -/
def progCdtClearSts (c : Params) (ch : Chan) (mask : BitVec 4) : Prog Result :=
  .after .acquire <|
  (readRow c (cdtOff ch)).bind fun r =>
  match r with
  | .timeout => .after .release <| done .registerTimeout
  | .ok v =>
    let x := stsOf v &&& mask
    if x ≠ 0 then
      (writeRow c (cdtOff ch) (putSts v (stsOf v &&& ~~~mask))).bind fun w =>
      .after .release <|
      match w with
      | .ok => doneRes .ok (x.setWidth 32)
      | .timeout => done .registerTimeout
      | .mismatch => done .tableProgrammingError
    else .after .release <| doneRes .ok (x.setWidth 32)

end Sys2Proof.Machine
end

