-- ==== Sys2Proof/Machine/Cat.lean ====
section
/-! DEFINITION. The CAT Manager family (42_cat.md): CAT.INIT, CAT.RESET_ALL and CAT.UNMUTE_SYNC, with the
all-or-nothing update of several entries that CAT.UNMUTE_SYNC and CH.STOP share. -/

namespace Sys2Proof.Machine

/-- One CAT entry: a namespace and a channel. -/
abbrev Entry := Ns × Chan

/-- CAT.INIT (R191). -/
def progCatInit (c : Params) (ch : Chan) (ty : ChType) (dir : Dir) (dma : Dma) (en : Bool) :
    Prog Result :=
  (lockedUpdate c (catOff (nsFor dir dma) ch) (fun v => putSub v ch (catValue ch ty dma en))).bind
    fun w => done w.rc

/-- The 16 CAT rows, BUS rows first (R192). -/
def catRows : List RowOff := (List.range 16).map (fun k => BitVec.ofNat 8 (0x80 + k))

/-- CAT.RESET_ALL (R192). -/
def progCatResetAll (c : Params) : Prog Result := zeroRows c catRows

/-- Poll(BSTAT[b] = 1, n): each evaluation reads BSTAT once and is one step (R193). -/
def pollBstat (b : Nat) : Nat → Prog Bool
  | 0 => .ret false
  | n + 1 => .act (.readReg .bstat) fun r => if r.getLsbD b then .ret true else pollBstat b n

/-- The values of entries, in order, or nothing at the first timeout; the caller holds L (R194, R262). -/
def readEntries (c : Params) : List Entry → Prog (Option (List (Entry × SubField)))
  | [] => .ret (some [])
  | e :: es =>
    (catRead c e.1 e.2).bind fun x =>
    match x with
    | none => .ret none
    | some x =>
      (readEntries c es).bind fun xs =>
      match xs with
      | none => .ret none
      | some xs => .ret (some ((e, x) :: xs))

/-- Entries put back to the values they had; a failure is fault PartialEnable (R194). -/
def restoreEntries (c : Params) (xs : List (Entry × SubField)) : Prog Unit :=
  Prog.each (fun x =>
    (setSub c x.1.1 x.1.2 x.2).bind fun w =>
    match w with
    | .ok => .ret ()
    | .timeout => .raise .partialEnable
    | .mismatch => .raise .partialEnable) xs

/-- Every entry of `todo` set to `f` of the value read for it. At the first write that fails, the entries
written before it and that one are restored, and the failure is the answer; the caller holds L (R194,
R262). -/
def writeEntries (c : Params) (f : SubField → SubField) (written : List (Entry × SubField)) :
    List (Entry × SubField) → Prog WrRes
  | [] => .ret .ok
  | x :: todo =>
    (setSub c x.1.1 x.1.2 (f x.2)).bind fun w =>
    match w with
    | .ok => writeEntries c f (written ++ [x]) todo
    | .timeout => (restoreEntries c (written ++ [x])).bind fun _ => .ret .timeout
    | .mismatch => (restoreEntries c (written ++ [x])).bind fun _ => .ret .mismatch

/-- The four entries of a receive and a transmit channel, in the order of R194. -/
def pairEntries (rx tx : Chan) : List Entry := [(.bus, rx), (.host, rx), (.bus, tx), (.host, tx)]

/-- CAT.UNMUTE_SYNC (R194). -/
def progCatUnmuteSync (c : Params) (rx tx : Chan) : Prog Result :=
  (pollBstat 0 c.unmuteRetries).bind fun clk =>
  if !clk then doneRes .registerTimeout 1
  else
    (pollBstat 1 c.unmuteRetries).bind fun lck =>
    if !lck then doneRes .registerTimeout 2
    else
      .after .acquire <|
      (readEntries c (pairEntries rx tx)).bind fun xs =>
      match xs with
      | none => .after .release <| doneRes .registerTimeout 3
      | some xs =>
        (writeEntries c setCe [] xs).bind fun w =>
        .after .release <|
        match w with
        | .ok => doneRes .ok 0
        | .timeout => doneRes .registerTimeout 3
        | .mismatch => doneRes .tableProgrammingError 3

end Sys2Proof.Machine
end

