-- ==== Sys2Proof/Machine/Adt.lean ====
section
/-! DEFINITION. The ADT Manager family (43_adt.md): ADT.INIT and ADT.REARM. -/

namespace Sys2Proof.Machine

/-- ADT.INIT with its operands as values, the form CH.OPEN uses (R211, R251). -/
def adtInitWith (c : Params) (ch : Chan) (ty : ChType) (ping pong : Word) (d : Nat) : Prog Result :=
  if decide (d < 1) || decide (dmax < d) then done .validationError
  else if !(aligned ping && aligned pong) then .raise .misaligned
  else if wraps ping d || wraps pong d then .raise .addressWrap
  else
    (lockedWrite c (adtOff ch) (adtRow ping pong (encodeDepth d) (packetStart ty))).bind fun w =>
    match w with
    | .ok => .after (.setSw ch .ping) <| done .ok
    | .timeout => done .registerTimeout
    | .mismatch => done .tableProgrammingError

/-- ADT.INIT (R211). -/
def progAdtInit (c : Params) (op : Vector Word 4) (ch : Chan) (ty : ChType) : Prog Result :=
  adtInitWith c ch ty op[0] op[1] op[2].toNat

/-- The ADT row with half h armed at address `a`: RDY 1, DNE 0, ERR 0 (R213). -/
def rearmRow (v : Row) (h : Half) (a : Word) : Row := putFlags (putAddr v h a) h true false false

/-- The part of ADT.REARM after the completed half `h` is known (R213). -/
def rearmHalf (c : Params) (ch : Chan) (h : Half) (a : Word) : Prog Result :=
  .after .acquire <|
  (readRow c (adtOff ch)).bind fun r =>
  match r with
  | .timeout => .after .release <| done .registerTimeout
  | .ok v =>
    if rdyOf v h then .after .release <| .raise .doubleArm
    else if wraps a (decodeDepth (bdOf v h)) then .after .release <| .raise .addressWrap
    else
      (writeRow c (adtOff ch) (rearmRow v h a)).bind fun w =>
      .after .release <|
      match w with
      | .timeout => done .registerTimeout
      | .mismatch => done .tableProgrammingError
      | .ok =>
        .after (.setSw ch (Half.other h)) <| doneRes .ok (BitVec.ofNat 32 (Half.idx h))

/-- ADT.REARM with its two operands (R213). -/
def adtRearmWith (c : Params) (ch : Chan) (doneStatus a : Word) : Prog Result :=
  if !aligned a then .raise .misaligned
  else
    .act (.getSw ch) fun h =>
    match completed doneStatus (halfOf h) with
    | none => done .noCompletion
    | some h => rearmHalf c ch h a

/-- ADT.REARM (R213). -/
def progAdtRearm (c : Params) (op : Vector Word 4) (ch : Chan) : Prog Result :=
  adtRearmWith c ch op[0] op[1]

end Sys2Proof.Machine
end

