-- ==== Sys2Proof/Machine/RingBuffer.lean ====
section
/-! DEFINITION. The Ring Buffer family (44_ring_buffer.md): RB.TRY_ENQUEUE and RB.DEQUEUE. -/

namespace Sys2Proof.Machine

/-- RB.TRY_ENQUEUE (R230): RES[0] is 0 for Enqueued, 1 for Dropped. -/
def progRbTryEnqueue (op : Vector Word 4) (n : NodeNo) : Prog Result :=
  .act (.enqueue n op[0]) fun r => if r = 0 then doneRes .ok 0 else doneRes .dropped 1

/-- The loop of RB.DEQUEUE (R232). -/
def dequeueLoop (c : Params) (op : Vector Word 4) (n : NodeNo) (blk : Bool) : Prog Result :=
  .act (.deqTake n op[0]) fun r =>
  if r ≠ 0 then .after (.deqLeave n) <| doneRes .ok (BitVec.ofNat 32 (c.slot n))
  else if !blk then .after (.deqLeave n) <| done .wouldBlock
  else
    .act (.waitRing n) fun r =>
    if r ≠ 0 then .after (.deqLeave n) <| done .interrupted else .loop

/-- RB.DEQUEUE (R232). -/
def progRbDequeue (c : Params) (op : Vector Word 4) (n : NodeNo) (blk : Bool) : Prog Result :=
  .after (.deqEnter n op[0] op[1]) <| dequeueLoop c op n blk

end Sys2Proof.Machine
end

