-- ==== Sys2Proof/Machine/Channel.lean ====
section
/-! DEFINITION. The channel lifecycle and external-call family (45_channel.md): CH.OPEN, CH.CLOSE, CH.START,
CH.STOP, CH.WRITE, CH.GET_EXCEPTIONS, CH.SET_CHANNEL_ADDRESSES, CH.POLL_READINESS and the three
configuration calls. A command another one names runs inline (00_scope.md R15): its program is bound
into the caller's and its RES writes stay private to the call. -/

namespace Sys2Proof.Machine

/-! ## Nested commands -/

/-- rx_ch[n] of the answer of `Act.getChans`. -/
def rxOf (r : Resp) : Chan := bits r 0 6

/-- tx_ch[n] of the answer of `Act.getChans`. -/
def txOf (r : Resp) : Chan := bits r 8 6

/-- The commands in order, up to the first that does not end OK (R251): its code, or OK. -/
def runSteps : List (Prog Result) → Prog RC
  | [] => .ret .ok
  | p :: ps => p.bind fun r =>
    match r.rc with
    | some .ok => runSteps ps
    | some rc => .ret rc
    | none => runSteps ps

/-- Commands in order, past failures, each failure logged: did one fail (R256)? -/
def runBestEffort : List (Prog Result) → Bool → Prog Bool
  | [], bad => .ret bad
  | p :: ps, bad => p.bind fun r =>
    if r.rc = some .ok then runBestEffort ps bad else .after .log <| runBestEffort ps true

/-- The pseudo-command CDT.ZERO CH=ch (30_encoding.md R127). -/
def cdtZero (c : Params) (ch : Chan) : Prog Result :=
  progRpWriteRow c (Vector.replicate 4 0) (cdtOff ch)

/-- The pseudo-command ADT.ZERO CH=ch (30_encoding.md R127). -/
def adtZero (c : Params) (ch : Chan) : Prog Result :=
  progRpWriteRow c (Vector.replicate 4 0) (adtOff ch)

/-- The pseudo-command CAT.ZERO NS=ns, CH=ch (30_encoding.md R127). -/
def catZero (c : Params) (ns : Ns) (ch : Chan) : Prog Result := progRpCatWrite c ns ch 0

/-- The four mask bits of a node's channels written (R256, R258, R262). -/
def maskNode {α : Type} (rx tx : Chan) (b : Bool) (p : Prog α) : Prog α :=
  .after (.setHostMask rx b) <|
  .after (.setHostMask tx b) <|
  .after (.setBusMask rx b) <|
  .after (.setBusMask tx b) p

/-! ## CH.OPEN (R250, R251) -/

/-- The sequence S of R251. -/
def configureSteps (c : Params) (n : NodeNo) (first : Bool) (rx tx : Chan) (b : Bufs) :
    List (Prog Result) :=
  let ty := c.nodeType n
  let d := c.depth n
  (if first then [progCdtResetAll c, progCatResetAll c] else []) ++
  [ cdtInitWith c rx ty .rx (c.dbrOffset rx) d,
    cdtInitWith c tx ty .tx (c.dbrOffset tx) d,
    progCatInit c rx ty .rx .inbound false,
    progCatInit c rx ty .rx .outbound false,
    progCatInit c tx ty .tx .outbound false,
    progCatInit c tx ty .tx .inbound false,
    adtInitWith c rx ty b.rxPing b.rxPong d,
    adtInitWith c tx ty b.txPing b.txPong d ]

/-- The buffers of the answer of `Act.getBufs`. -/
def bufsOf (r : Resp) : Bufs where
  rxPing := rowWord r 0
  rxPong := rowWord r 1
  txPing := rowWord r 2
  txPong := rowWord r 3

/-- Configure(n) (R251). -/
def configure (c : Params) (n : NodeNo) : Prog RC :=
  .after (.setLstate n .configuring) <|
  .act (.allocate n) fun got =>
  if got = 0 then .after (.setLstate n .closed) <| .ret .allocFailed
  else
    .act (.othersClosed n) fun first =>
    .act (.getChans n) fun chs =>
    .act (.getBufs n) fun b =>
    (runSteps (configureSteps c n (decide (first ≠ 0)) (rxOf chs) (txOf chs) (bufsOf b))).bind fun rc =>
    if rc = .ok then
      .after (.clearPending n) <| .after (.setLstate n .configured) <| .ret .ok
    else
      .after (.freeNode n) <| .after (.setLstate n .closed) <| .ret rc

/-- CH.OPEN (R250). RefOverflow is raised with nm[n] still held: notes/assumptions/11.md. -/
def progChOpen (c : Params) (n : NodeNo) : Prog Result :=
  .after (.takeMutex n) <|
  .act (.getRefcnt n) fun r =>
  let refs : Word := r.setWidth 32
  if refs = 0xFFFFFFFF then .raise .refOverflow
  else if refs ≠ 0 then
    .after (.setRefcnt n (refs + 1)) <| .after (.giveMutex n) <| done .ok
  else
    (configure c n).bind fun rc =>
    if rc = .ok then .after (.setRefcnt n 1) <| .after (.giveMutex n) <| done .ok
    else .after (.giveMutex n) <| done rc

/-! ## CH.CLOSE (R255, R256) -/

/-- Teardown(n) (R256). -/
def teardown (c : Params) (n : NodeNo) : Prog RC :=
  .act (.getLstate n) fun l =>
  .act (.getChans n) fun chs =>
  let rx := rxOf chs
  let tx := txOf chs
  let rest : Prog RC :=
    .after (.setLstate n .stopped) <|
    .after (.wakeAll n) <|
    (runBestEffort [catZero c .bus rx, catZero c .host rx, catZero c .bus tx, catZero c .host tx,
      cdtZero c rx, cdtZero c tx, adtZero c rx, adtZero c tx] false).bind fun bad =>
    .after (.freeNode n) <|
    .after (.clearPending n) <|
    .after (.setLstate n .closed) <|
    .ret (if bad then .registerTimeout else .ok)
  if l = lstateResp .started then maskNode rx tx false rest else rest

/-- CH.CLOSE (R255). -/
def progChClose (c : Params) (n : NodeNo) : Prog Result :=
  .after (.takeMutex n) <|
  .act (.getRefcnt n) fun r =>
  let refs : Word := r.setWidth 32
  if refs = 0 then .after (.giveMutex n) <| .raise .notOpen
  else
    .after (.setRefcnt n (refs - 1)) <|
    if refs ≠ 1 then .after (.giveMutex n) <| done .ok
    else (teardown c n).bind fun rc => .after (.giveMutex n) <| done rc

/-! ## CH.START (R258, R259) -/

/-- Disable(n, E): CE = 0 in each entry by a read-modify-write under L; a failure is fault PartialEnable
(R258). DESIGN CHOICE: the fault is raised at the first entry that fails, a read that times out among the
failures, and the entries after it are left as they are; R258 says neither. notes/assumptions/33.md. -/
def disableEntries (c : Params) (es : List Entry) : Prog Unit :=
  Prog.each (fun e =>
    (lockedUpdate c (catOff e.1 e.2) (fun v => putSub v e.2 (clearCe (getSub v e.2)))).bind fun w =>
    match w with
    | .ok => .ret ()
    | .timeout => .raise .partialEnable
    | .mismatch => .raise .partialEnable) es

/-- An ADT row with RDY of both halves set to `rdy` and DNE, ERR of both cleared (R259). -/
def bothHalves (v : Row) (rdy : Bool) : Row :=
  putFlags (putFlags v .ping rdy false false) .pong rdy false false

/-- ArmRx(n) (R259). -/
def armRx (c : Params) (rx : Chan) : Prog RC :=
  (lockedUpdate c (adtOff rx) (fun v => bothHalves v true)).bind fun w =>
  match w with
  | .ok => .after (.setSw rx .ping) <| .ret .ok
  | .timeout => .ret .registerTimeout
  | .mismatch => .ret .tableProgrammingError

/-- IdleTx(n) (R259). -/
def idleTx (c : Params) (n : NodeNo) (tx : Chan) : Prog RC :=
  (lockedUpdate c (adtOff tx) (fun v => bothHalves v false)).bind fun w =>
  match w with
  | .ok => .after (.setSw tx .ping) <| .after (.setBusy n false) <| .ret .ok
  | .timeout => .ret .registerTimeout
  | .mismatch => .ret .tableProgrammingError

/-- A channel set written to HC_STS and HC_ERR, both groups of each (R258: drop stale status). -/
def clearStatus {α : Type} (sts err : ChanSet) (p : Prog α) : Prog α :=
  .after (.writeReg (.hcSts 0) (groupOf sts 0)) <|
  .after (.writeReg (.hcSts 1) (groupOf sts 1)) <|
  .after (.writeReg (.hcErr 0) (groupOf err 0)) <|
  .after (.writeReg (.hcErr 1) (groupOf err 1)) p

/-- The enabling part of CH.START: by CAT.UNMUTE_SYNC for a sync node, else by four CAT.INIT with EN = 1
(R258). -/
def enableNode (c : Params) (n : NodeNo) (rx tx : Chan) : Prog RC :=
  let ty := c.nodeType n
  if ty = .sync then
    (progCatUnmuteSync c rx tx).bind fun r =>
    match r.rc with
    | some .ok => .ret .ok
    | some rc => .ret (if r.read 0 = 1 ∨ r.read 0 = 2 then .busNotLocked else rc)
    | none => .ret .ok
  else
    (runSteps [progCatInit c rx ty .rx .inbound true, progCatInit c rx ty .rx .outbound true,
      progCatInit c tx ty .tx .outbound true, progCatInit c tx ty .tx .inbound true]).bind fun rc =>
    if rc = .ok then .ret .ok else (disableEntries c (pairEntries rx tx)).bind fun _ => .ret rc

/-- The arming part of CH.START: ArmRx, then IdleTx; after a failure the entries are disabled again
(R258). -/
def armNode (c : Params) (n : NodeNo) (rx tx : Chan) : Prog RC :=
  (armRx c rx).bind fun a =>
  if a = .ok then
    (idleTx c n tx).bind fun a =>
    if a = .ok then .ret .ok else (disableEntries c (pairEntries rx tx)).bind fun _ => .ret a
  else (disableEntries c (pairEntries rx tx)).bind fun _ => .ret a

/-- CH.START (R258). -/
def progChStart (c : Params) (n : NodeNo) : Prog Result :=
  .after (.takeMutex n) <|
  .act (.getLstate n) fun l =>
  if l ≠ lstateResp .configured ∧ l ≠ lstateResp .stopped then
    .after (.giveMutex n) <| done .invalidState
  else
    .act (.getChans n) fun chs =>
    let rx := rxOf chs
    let tx := txOf chs
    clearStatus (chanBit rx ||| chanBit tx) (chanBit rx ||| chanBit tx) <|
    (enableNode c n rx tx).bind fun rc =>
    if rc ≠ .ok then .after (.giveMutex n) <| done rc
    else
      (armNode c n rx tx).bind fun rc =>
      if rc ≠ .ok then .after (.giveMutex n) <| done rc
      else
        maskNode rx tx true <|
        .after (.setLstate n .started) <|
        .after (.giveMutex n) <| done .ok

/-! ## CH.STOP (R262) -/

/-- CH.STOP (R262). -/
def progChStop (c : Params) (n : NodeNo) : Prog Result :=
  .after (.takeMutex n) <|
  .act (.getLstate n) fun l =>
  if l ≠ lstateResp .started then .after (.giveMutex n) <| done .invalidState
  else
    .act (.getChans n) fun chs =>
    let rx := rxOf chs
    let tx := txOf chs
    maskNode rx tx false <|
    .after .acquire <|
    (readEntries c (pairEntries rx tx)).bind fun xs =>
    match xs with
    | none =>
      .after .release <| maskNode rx tx true <| .after (.giveMutex n) <| done .registerTimeout
    | some xs =>
      (writeEntries c clearCe [] xs).bind fun w =>
      .after .release <|
      match w with
      | .ok =>
        .after (.setLstate n .stopped) <|
        .after (.wakeAll n) <|
        .after (.giveMutex n) <| done .ok
      | .timeout => maskNode rx tx true <| .after (.giveMutex n) <| done .registerTimeout
      | .mismatch => maskNode rx tx true <| .after (.giveMutex n) <| done .tableProgrammingError

/-! ## CH.WRITE (R265) -/

/-- The ADT row with half h armed for a frame of `len` bytes (R265). -/
def armFrame (v : Row) (h : Half) (len : Nat) : Row :=
  putFlags (putBd v h (encodeDepth len)) h true false false

/-- CH.WRITE once it holds L and has found tx_busy[n] = 0 (R265). -/
def writeFrame (c : Params) (op : Vector Word 4) (n : NodeNo) (tx : Chan) : Prog Result :=
  let src := op[0]
  let len := op[1].toNat
  .act (.getSw tx) fun r =>
  let t := halfOf r
  (readRow c (adtOff tx)).bind fun r =>
  match r with
  | .timeout => .after .release <| .after .log <| done .interrupted
  | .ok v =>
    if rdyOf v t then .after .release <| .raise .doubleArm
    else if wraps (addrOf v t) len then .after .release <| .raise .addressWrap
    else
      .after (.copyBytes (addrOf v t) src len) <|
      (writeRow c (adtOff tx) (armFrame v t len)).bind fun w =>
      match w with
      | .ok =>
        .after (.setBusy n true) <|
        .after (.setSw tx (Half.other t)) <|
        .after .release <| doneRes .ok op[1]
      | .timeout => .after .release <| .after .log <| done .interrupted
      | .mismatch => .after .release <| .after .log <| done .interrupted

/-- The loop of CH.WRITE (R265). -/
def writeLoop (c : Params) (op : Vector Word 4) (n : NodeNo) : Prog Result :=
  .after .acquire <|
  .act (.getBusy n) fun b =>
  if b = 0 then .act (.getChans n) fun chs => writeFrame c op n (txOf chs)
  else
    .after .release <|
    .act (.waitTx n) fun r => if r ≠ 0 then done .interrupted else .loop

/-- CH.WRITE (R265). -/
def progChWrite (c : Params) (op : Vector Word 4) (n : NodeNo) : Prog Result :=
  .after (.writeEnter n op[0] op[1]) <| writeLoop c op n

/-! ## Queries and channel numbers (R268 to R270) -/

/-- CH.GET_EXCEPTIONS (R268). -/
def progChGetExceptions (n : NodeNo) : Prog Result :=
  .act (.takeExc n) fun r => doneRes .ok (r.setWidth 32)

/-- CH.SET_CHANNEL_ADDRESSES (R269). -/
def progChSetChannelAddresses (c : Params) (op : Vector Word 4) (n : NodeNo) : Prog Result :=
  .after (.takeMutex n) <|
  .act (.getLstate n) fun l =>
  if l ≠ lstateResp .closed then .after (.giveMutex n) <| done .invalidState
  else
    let a := op[0]
    let b := op[1]
    if c.nch ≤ a.toNat ∨ c.nch ≤ b.toNat ∨ a = b then
      .after (.giveMutex n) <| done .validationError
    else
      .act (.chansUsed n (a.setWidth 6) (b.setWidth 6)) fun used =>
      if used ≠ 0 then .after (.giveMutex n) <| done .validationError
      else
        .after (.setChans n (a.setWidth 6) (b.setWidth 6)) <|
        .after (.giveMutex n) <| done .ok

/-- CH.POLL_READINESS (R270). -/
def progChPollReadiness (n : NodeNo) : Prog Result :=
  .act (.readiness n) fun r =>
  .ret { rc := some .ok, res := [(0, rowWord r 0), (1, rowWord r 1)] }

/-! ## Configuration calls (R275 to R277) -/

/-- SET_BUS_CLOCK_CLASS (R275). -/
def progSetBusClockClass (op : Vector Word 4) : Prog Result :=
  .after (.writeReg .busClkClass op[0]) <| done .ok

/-- SET_DEVICE_BUS_ADDRESS (R276). -/
def progSetDeviceBusAddress (op : Vector Word 4) : Prog Result :=
  .after (.writeReg .devAddr op[0]) <| done .ok

/-- GET_PROTOCOL_VERSION (R277). -/
def progGetProtocolVersion : Prog Result :=
  .act (.readReg .version) fun r => doneRes .ok (r.setWidth 32)

end Sys2Proof.Machine
end

