-- ==== Sys2Proof/Machine/Interrupt.lean ====
section
/-! DEFINITION. The Interrupt Dispatcher family (46_interrupt_dispatch.md): IRQ.HOST_DISPATCH with its two
handlers, and IRQ.BUS_DISPATCH. Nothing is returned: an interrupt has no caller (R291, R295). -/

namespace Sys2Proof.Machine

/-- An invocation ends (R344): no result code, no RES. -/
def irqDone : Prog Result := .ret { rc := none }

/-- The re-arm that ends the receive handler, a failure logged (R292). -/
def rxRearm (c : Params) (ch : Chan) (doneStatus a : Word) : Prog Unit :=
  (adtRearmWith c ch doneStatus a).bind fun q =>
  if q.rc = some .ok then .ret () else .after .log <| .ret ()

/-- RxHandler(n) (R292). -/
def rxHandler (c : Params) (n : NodeNo) : Prog Unit :=
  .act (.getChans n) fun chs =>
  let ch := rxOf chs
  .after .acquire <|
  (readRow c (adtOff ch)).bind fun r =>
  .after .release <|
  match r with
  | .timeout => .after .log <| .ret ()
  | .ok v =>
    .act (.getSw ch) fun h =>
    match completed (rowWord v 3) (halfOf h) with
    | none => .after .log <| .ret ()
    | some h =>
      if errOf v h then .after .log <| .ret ()
      else .after (.enqueueOrLate n (addrOf v h)) <| rxRearm c ch (rowWord v 3) (addrOf v h)

/-- TxHandler(n) (R293). -/
def txHandler (n : NodeNo) : Prog Unit := .after (.setBusy n false) <| .ret ()

/-- The service of one channel of the snapshot (R291). -/
def serveChannel (c : Params) (err : ChanSet) (ch : Chan) : Prog Unit :=
  if err.getLsbD ch.toNat then .after .log <| .ret ()
  else
    .act (.server ch) fun r =>
    if bits r 8 2 = 1 then rxHandler c (bits r 0 6)
    else if bits r 8 2 = 2 then txHandler (bits r 0 6)
    else .after .log <| .ret ()

/-- IRQ.HOST_DISPATCH (R291). -/
def progIrqHostDispatch (c : Params) : Prog Result :=
  .act .snapshot fun r =>
  let sts : ChanSet := bits r 0 64
  let err : ChanSet := bits r 64 64
  (Prog.each (serveChannel c err) ((chansOf c).filter (fun ch => sts.getLsbD ch.toNat))).bind
    fun _ => irqDone

/-- The service of one channel by the bus dispatcher: its mask bit is read when its turn comes (R295). -/
def busChannel (c : Params) (ch : Chan) : Prog Unit :=
  .act (.getBusMask ch) fun b =>
  if b = 0 then .ret ()
  else
    (progCdtClearSts c ch 0xF).bind fun r =>
    if r.rc = some .ok then
      if r.read 0 = 0 then .ret ()
      else .after (.postExc ch ((r.read 0).setWidth 4)) <| .ret ()
    else .after .log <| .ret ()

/-- IRQ.BUS_DISPATCH (R295). -/
def progIrqBusDispatch (c : Params) : Prog Result :=
  (Prog.each (busChannel c) (chansOf c)).bind fun _ => irqDone

end Sys2Proof.Machine
end

