-- ==== Sys2Proof/Machine/Run.lean ====
section
/-! DEFINITION. How programs run: what may happen between two atomic steps of a command (10_state.md R30,
46_interrupt_dispatch.md R290, 93_implementation_defined.md I22), how a command begins, is suspended,
resumes and ends, and what the machine does when no command is presented. notes/assumptions/2.md. -/

namespace Sys2Proof.Machine

/-- The program of a command with operands `op`, from its start or from the head of its wait loop. -/
def progOf (c : Params) (op : Vector Word 4) (looping : Bool) (i : Instr) : Prog Result :=
  match i with
  | .rpWriteRow off => progRpWriteRow c op off
  | .rpReadRow off => progRpReadRow c off
  | .rpCatWrite ns ch v => progRpCatWrite c ns ch v
  | .cdtInit ch ty dir => progCdtInit c op ch ty dir
  | .cdtResetAll => progCdtResetAll c
  | .cdtClearSts ch mask => progCdtClearSts c ch mask
  | .catInit ch ty dir dma en => progCatInit c ch ty dir dma en
  | .catResetAll => progCatResetAll c
  | .catUnmuteSync rx tx => progCatUnmuteSync c rx tx
  | .adtInit ch ty => progAdtInit c op ch ty
  | .adtRearm ch => progAdtRearm c op ch
  | .rbTryEnqueue n => progRbTryEnqueue op n
  | .rbDequeue n blk => if looping then dequeueLoop c op n blk else progRbDequeue c op n blk
  | .chOpen n => progChOpen c n
  | .chClose n => progChClose c n
  | .chStart n => progChStart c n
  | .chStop n => progChStop c n
  | .chWrite n => if looping then writeLoop c op n else progChWrite c op n
  | .chGetExceptions n => progChGetExceptions n
  | .chSetChannelAddresses n => progChSetChannelAddresses c op n
  | .chPollReadiness n => progChPollReadiness n
  | .setBusClockClass => progSetBusClockClass op
  | .setDeviceBusAddress => progSetDeviceBusAddress op
  | .getProtocolVersion => progGetProtocolVersion
  | .irqHostDispatch => progIrqHostDispatch c
  | .irqBusDispatch => progIrqBusDispatch c

/-! ## One atomic step of an agent -/

/-- Where the agent's command stands. -/
def State.standing (s : State) (a : Agent) (k : Task) : Prog Result :=
  (progOf s.cfg (s.ctx a).op k.looping k.instr).replay k.hist.reverse

/-- The agent's command goes on to `p`, having had the answers `hist`: it ends, raises, loops or waits for
the agent's next step. -/
def State.goOn (s : State) (a : Agent) (k : Task) (hist : List Resp) : Prog Result → State
  | .ret r => s.finish a r
  | .raise f => s.raise a f
  | .loop => s.suspend a { k with looping := true, hist := [] }
  | .act _ _ => s.suspend a { k with hist := hist }

/-- One atomic step of the command an agent has begun; nothing for an agent without one, or for the agent
whose command is being run now. -/
def State.microStep (s : State) (a : Agent) : State :=
  if s.presented && decide (s.cur = a) then s
  else match (s.ctx a).task with
    | none => s
    | some k =>
      match s.standing a k with
      | .act d next =>
        match d.apply a s with
        | .ok s1 r => s1.goOn a k (r :: k.hist) (next r)
        | .stay s1 => s1
        | .fault f s1 => s1.raise a f
      | p => s.goOn a k k.hist p

/-! ## Events -/

/-- The agent begins the command in its CMD register: the checks of R124, in its order. -/
def State.beginCmd (s : State) (a : Agent) : State :=
  match decode (s.ctx a).cmd with
  | .error _ => s.raise a .illegalCommand
  | .ok i =>
    match entryFault s.cfg i a with
    | some f => s.raise a f
    | none => s.setCtx a { s.ctx a with task := some { instr := i, looping := false, hist := [] } }

/-- An idle host thread loads CMD and OP and issues (R31). -/
def State.issueBy (s : State) (t : Nat) (cmd : Word) (op : Vector Word 4) : State :=
  if isHost s.cfg (.host t) && !s.busy (.host t) then
    (s.setCtx (.host t) { s.ctx (.host t) with cmd := cmd, op := op }).beginCmd (.host t)
  else s

/-- A host thread without a command in progress writes one of its own registers (R31). -/
def State.ownWrite (s : State) (t : Nat) (r : CtxReg) (w : Word) : State :=
  if isHost s.cfg (.host t) && !s.busy (.host t) then
    s.setCtx (.host t) ((s.ctx (.host t)).setReg r w)
  else s

/-- A host thread without a command in progress stores bytes into host memory: its own accesses are ordered
with the commands it issues (20_memory.md R92). -/
def State.storeBy (s : State) (t : Nat) (addr : Word) (bytes : List Byte) : State :=
  if isHost s.cfg (.host t) && !s.busy (.host t) then
    { s with mem := memWriteBytes s.mem addr.toNat bytes }
  else s

/-- An idle dispatcher begins an invocation when its line is 1 (R290). -/
def State.beginIrq (s : State) (bus : Bool) : State :=
  if bus then
    if s.birq && !s.busy .bd then
      (s.setCtx .bd { s.ctx .bd with cmd := encode .irqBusDispatch }).beginCmd .bd
    else s
  else
    if s.hirq && !s.busy .hd then
      (s.setCtx .hd { s.ctx .hd with cmd := encode .irqHostDispatch }).beginCmd .hd
    else s

/-- What an event does. Nothing happens after a model fault (R332), and engine reset waits until no
command is being run (R370: with no agent running during it). -/
def State.event (s : State) (e : Event) : State :=
  if s.fault.flag then s
  else match e with
    | .hw h => s.hwStep h
    | .issue t cmd op => s.issueBy t cmd op
    | .irq bus => s.beginIrq bus
    | .agent a => s.microStep a
    | .signal t => s.signalThread t
    | .own t r w => s.ownWrite t r w
    | .store t addr bytes => s.storeBy t addr bytes
    | .reset => if s.presented then s else s.engineReset

/-- One batch of events: the next of the script, or `rest`. -/
def State.tick (s : State) : State :=
  match s.env.script with
  | b :: bs => b.foldl State.event { s with env := { s.env with script := bs } }
  | [] => s.env.rest.foldl State.event s

/-! ## Running a program -/

/-- Where the run of a program stopped. -/
inductive Stop (α : Type) where
  /-- It ended with a value. -/
  | done (x : α) (h : List Resp) (s : State)
  /-- Its next step is not enabled: the agent spins or waits. -/
  | wait (h : List Resp) (s : State)
  /-- It goes back to the head of its wait loop. -/
  | loop (s : State)
  /-- It raised a model fault. -/
  | fault (f : FReason) (s : State)
  /-- Another agent or the hardware raised a model fault: nothing goes on. -/
  | halted (h : List Resp) (s : State)

/-- Agent `a` runs a program, with a batch of events before each of its atomic steps. -/
def run {α : Type} (a : Agent) : Prog α → List Resp → State → Stop α
  | .ret x, h, s => .done x h s
  | .raise f, _, s => .fault f s
  | .loop, _, s => .loop s
  | .act d k, h, s =>
    let s1 := s.tick
    if s1.fault.flag then .halted h s1
    else match d.apply a s1 with
      | .ok s2 r => run a (k r) (r :: h) s2
      | .stay s2 => .wait h s2
      | .fault f s2 => .fault f s2

/-- The state a stopped run of a command leaves. -/
def conclude (a : Agent) (i : Instr) (looping : Bool) : Stop Result → State
  | .done r _ s => s.finish a r
  | .wait h s => s.suspend a { instr := i, looping := looping, hist := h }
  | .loop s => s.suspend a { instr := i, looping := true, hist := [] }
  | .fault f s => s.raise a f
  | .halted h s => s.suspend a { instr := i, looping := looping, hist := h }

/-- The command `i` with program `p`, run by the agent whose turn it is: checks (3) and (4) of R124, then
the program. A model fault is a next state (R333), so every command answers one. -/
def State.runCommand (s : State) (i : Instr) (p : Prog Result) : Host.Outcome State Fault Refusal :=
  .next (match entryFault s.cfg i s.cur with
    | some f => s.raise s.cur f
    | none => conclude s.cur i false (run s.cur p [] { s with presented := true }))

/-- OP[0..3] of the agent whose turn it is. -/
def State.operands (s : State) : Vector Word 4 := (s.ctx s.cur).op

/-! ## Between commands -/

/-- The agent has begun a command, and its next atomic step is enabled. -/
def State.canMove (s : State) (a : Agent) : Bool :=
  match (s.ctx a).task with
  | none => false
  | some k =>
    match s.standing a k with
    | .act d _ =>
      match d.apply a s with
      | .ok _ _ => true
      | .stay _ => false
      | .fault _ _ => true
    | _ => true

/-- The agent's command runs on from where it stands. -/
def State.resume (s : State) (a : Agent) : State :=
  match (s.ctx a).task with
  | none => s
  | some k =>
    conclude a k.instr k.looping (run a (s.standing a k) k.hist { s with cur := a, presented := true })

/-- The software agents. -/
def agentsOf (c : Params) : List Agent := [.hd, .bd] ++ (List.range c.nhost).map Agent.host

/-- With no script left: dispatchers whose line is 1 begin, and the first agent that can move runs on. -/
def State.arbitrate (s : State) : State :=
  if s.fault.flag then s
  else
    let s1 := (s.beginIrq false).beginIrq true
    match (agentsOf s1.cfg).find? s1.canMove with
    | some a => s1.resume a
    | none => s1

/-- A step of the machine when no command is presented. -/
def State.idle (s : State) : State :=
  match s.env.script with
  | _ :: _ => s.tick
  | [] => s.tick.arbitrate

end Sys2Proof.Machine
end

