-- ==== Sys2Proof/Machine/Execute.lean ====
section
/-! DEFINITION. The meaning of each command, as `exec` calls it: the command's program (its family's file)
run by the agent whose turn it is, on the parameters the machine carries and the operands in that
agent's OP[0..3]. -/

namespace Sys2Proof.Machine

/-- RP.WRITE_ROW (R152). -/
def execRpWriteRow (off : RowOff) (s : State) : Host.Outcome State Fault Refusal :=
  s.runCommand (.rpWriteRow off) (progRpWriteRow s.cfg s.operands off)

/-- RP.READ_ROW (R153). -/
def execRpReadRow (off : RowOff) (s : State) : Host.Outcome State Fault Refusal :=
  s.runCommand (.rpReadRow off) (progRpReadRow s.cfg off)

/-- RP.CAT_WRITE (R154). -/
def execRpCatWrite (ns : Ns) (ch : Chan) (v : SubField) (s : State) :
    Host.Outcome State Fault Refusal :=
  s.runCommand (.rpCatWrite ns ch v) (progRpCatWrite s.cfg ns ch v)

/-- CDT.INIT (R171). -/
def execCdtInit (ch : Chan) (ty : ChType) (dir : Dir) (s : State) :
    Host.Outcome State Fault Refusal :=
  s.runCommand (.cdtInit ch ty dir) (progCdtInit s.cfg s.operands ch ty dir)

/-- CDT.RESET_ALL (R172). -/
def execCdtResetAll (s : State) : Host.Outcome State Fault Refusal :=
  s.runCommand .cdtResetAll (progCdtResetAll s.cfg)

/-- CDT.CLEAR_STS (R173). -/
def execCdtClearSts (ch : Chan) (mask : BitVec 4) (s : State) : Host.Outcome State Fault Refusal :=
  s.runCommand (.cdtClearSts ch mask) (progCdtClearSts s.cfg ch mask)

/-- CAT.INIT (R191). -/
def execCatInit (ch : Chan) (ty : ChType) (dir : Dir) (dma : Dma) (en : Bool) (s : State) :
    Host.Outcome State Fault Refusal :=
  s.runCommand (.catInit ch ty dir dma en) (progCatInit s.cfg ch ty dir dma en)

/-- CAT.RESET_ALL (R192). -/
def execCatResetAll (s : State) : Host.Outcome State Fault Refusal :=
  s.runCommand .catResetAll (progCatResetAll s.cfg)

/-- CAT.UNMUTE_SYNC (R194). -/
def execCatUnmuteSync (rx : Chan) (tx : Chan) (s : State) : Host.Outcome State Fault Refusal :=
  s.runCommand (.catUnmuteSync rx tx) (progCatUnmuteSync s.cfg rx tx)

/-- ADT.INIT (R211). -/
def execAdtInit (ch : Chan) (ty : ChType) (s : State) : Host.Outcome State Fault Refusal :=
  s.runCommand (.adtInit ch ty) (progAdtInit s.cfg s.operands ch ty)

/-- ADT.REARM (R213). -/
def execAdtRearm (ch : Chan) (s : State) : Host.Outcome State Fault Refusal :=
  s.runCommand (.adtRearm ch) (progAdtRearm s.cfg s.operands ch)

/-- RB.TRY_ENQUEUE (R230). -/
def execRbTryEnqueue (n : NodeNo) (s : State) : Host.Outcome State Fault Refusal :=
  s.runCommand (.rbTryEnqueue n) (progRbTryEnqueue s.operands n)

/-- RB.DEQUEUE (R232). -/
def execRbDequeue (n : NodeNo) (blk : Bool) (s : State) : Host.Outcome State Fault Refusal :=
  s.runCommand (.rbDequeue n blk) (progRbDequeue s.cfg s.operands n blk)

/-- CH.OPEN (R250). -/
def execChOpen (n : NodeNo) (s : State) : Host.Outcome State Fault Refusal :=
  s.runCommand (.chOpen n) (progChOpen s.cfg n)

/-- CH.CLOSE (R255). -/
def execChClose (n : NodeNo) (s : State) : Host.Outcome State Fault Refusal :=
  s.runCommand (.chClose n) (progChClose s.cfg n)

/-- CH.START (R258). -/
def execChStart (n : NodeNo) (s : State) : Host.Outcome State Fault Refusal :=
  s.runCommand (.chStart n) (progChStart s.cfg n)

/-- CH.STOP (R262). -/
def execChStop (n : NodeNo) (s : State) : Host.Outcome State Fault Refusal :=
  s.runCommand (.chStop n) (progChStop s.cfg n)

/-- CH.WRITE (R265). -/
def execChWrite (n : NodeNo) (s : State) : Host.Outcome State Fault Refusal :=
  s.runCommand (.chWrite n) (progChWrite s.cfg s.operands n)

/-- CH.GET_EXCEPTIONS (R268). -/
def execChGetExceptions (n : NodeNo) (s : State) : Host.Outcome State Fault Refusal :=
  s.runCommand (.chGetExceptions n) (progChGetExceptions n)

/-- CH.SET_CHANNEL_ADDRESSES (R269). -/
def execChSetChannelAddresses (n : NodeNo) (s : State) : Host.Outcome State Fault Refusal :=
  s.runCommand (.chSetChannelAddresses n) (progChSetChannelAddresses s.cfg s.operands n)

/-- CH.POLL_READINESS (R270). -/
def execChPollReadiness (n : NodeNo) (s : State) : Host.Outcome State Fault Refusal :=
  s.runCommand (.chPollReadiness n) (progChPollReadiness n)

/-- SET_BUS_CLOCK_CLASS (R275). -/
def execSetBusClockClass (s : State) : Host.Outcome State Fault Refusal :=
  s.runCommand .setBusClockClass (progSetBusClockClass s.operands)

/-- SET_DEVICE_BUS_ADDRESS (R276). -/
def execSetDeviceBusAddress (s : State) : Host.Outcome State Fault Refusal :=
  s.runCommand .setDeviceBusAddress (progSetDeviceBusAddress s.operands)

/-- GET_PROTOCOL_VERSION (R277). -/
def execGetProtocolVersion (s : State) : Host.Outcome State Fault Refusal :=
  s.runCommand .getProtocolVersion progGetProtocolVersion

/-- IRQ.HOST_DISPATCH (R291). -/
def execIrqHostDispatch (s : State) : Host.Outcome State Fault Refusal :=
  s.runCommand .irqHostDispatch (progIrqHostDispatch s.cfg)

/-- IRQ.BUS_DISPATCH (R295). -/
def execIrqBusDispatch (s : State) : Host.Outcome State Fault Refusal :=
  s.runCommand .irqBusDispatch (progIrqBusDispatch s.cfg)

end Sys2Proof.Machine
end

