-- ==== Sys2Proof/Machine/Dispatch.lean ====
section
/-! DEFINITION. The dispatch of a command to its meaning: one arm per constructor of `Instr`. -/

namespace Sys2Proof.Machine

def exec (i : Instr) (s : State) : Host.Outcome State Fault Refusal :=
  match i with
  | .rpWriteRow off => Sys2Proof.Machine.execRpWriteRow off s
  | .rpReadRow off => Sys2Proof.Machine.execRpReadRow off s
  | .rpCatWrite ns ch v => Sys2Proof.Machine.execRpCatWrite ns ch v s
  | .cdtInit ch ty dir => Sys2Proof.Machine.execCdtInit ch ty dir s
  | .cdtResetAll => Sys2Proof.Machine.execCdtResetAll s
  | .cdtClearSts ch mask => Sys2Proof.Machine.execCdtClearSts ch mask s
  | .catInit ch ty dir dma en => Sys2Proof.Machine.execCatInit ch ty dir dma en s
  | .catResetAll => Sys2Proof.Machine.execCatResetAll s
  | .catUnmuteSync rx tx => Sys2Proof.Machine.execCatUnmuteSync rx tx s
  | .adtInit ch ty => Sys2Proof.Machine.execAdtInit ch ty s
  | .adtRearm ch => Sys2Proof.Machine.execAdtRearm ch s
  | .rbTryEnqueue n => Sys2Proof.Machine.execRbTryEnqueue n s
  | .rbDequeue n blk => Sys2Proof.Machine.execRbDequeue n blk s
  | .chOpen n => Sys2Proof.Machine.execChOpen n s
  | .chClose n => Sys2Proof.Machine.execChClose n s
  | .chStart n => Sys2Proof.Machine.execChStart n s
  | .chStop n => Sys2Proof.Machine.execChStop n s
  | .chWrite n => Sys2Proof.Machine.execChWrite n s
  | .chGetExceptions n => Sys2Proof.Machine.execChGetExceptions n s
  | .chSetChannelAddresses n => Sys2Proof.Machine.execChSetChannelAddresses n s
  | .chPollReadiness n => Sys2Proof.Machine.execChPollReadiness n s
  | .setBusClockClass => Sys2Proof.Machine.execSetBusClockClass s
  | .setDeviceBusAddress => Sys2Proof.Machine.execSetDeviceBusAddress s
  | .getProtocolVersion => Sys2Proof.Machine.execGetProtocolVersion s
  | .irqHostDispatch => Sys2Proof.Machine.execIrqHostDispatch s
  | .irqBusDispatch => Sys2Proof.Machine.execIrqBusDispatch s

end Sys2Proof.Machine
end

