-- ==== Sys2Proof/Machine/Step.lean ====
section
/-! DEFINITION. One step of the machine, and the placing of a command word where the next step takes its
command from: the CMD register of the agent whose turn it is (30_encoding.md R110; there is no
instruction fetch, 20_memory.md R97). -/

namespace Sys2Proof.Machine

/-- One step. After a model fault the model does not continue (R332). A command that is presented is run;
a word that is no command is fault IllegalCommand (R124). With no command presented, the environment and
the agents that have begun commands move. -/
def step (s : State) : Host.Outcome State Fault Refusal :=
  if s.fault.flag then .fault (.modelFault s.fault.reason)
  else if s.presented then
    match decode (s.ctx s.cur).cmd with
    | .ok i => exec i s
    | .error _ => .next (s.raise s.cur .illegalCommand)
  else .next s.idle

/-- The agent that issues a word: the dispatcher whose own command it is, else host thread 0. -/
def issuerOf (w : Word) : Agent :=
  if bits w 26 6 = 0x20 ∨ bits w 26 6 = 0x38 then .hd
  else if bits w 26 6 = 0x39 then .bd
  else .host 0

/-- `s` with the word placed in the CMD register of the agent that issues it, that agent idle, and the
next step being its. -/
def State.withFetchWord (s : State) (nbits w : Nat) : State :=
  let word := tableWord nbits w
  let a := issuerOf word
  let x : Ctx := { s.ctx a with cmd := word, blocked := false, woken := false, notified := false, task := none }
  { s.setCtx a x with cur := a, presented := true }

end Sys2Proof.Machine
end

