-- ==== Sys2Proof/Safety.lean ====
section
/-! DEFINITION. What counts as a safe run, and the vocabulary of the claims: which environments a claim is
about, what a command that ends leaves in its thread's context, what it leaves alone, and the invariant
that every step keeps. -/

namespace Sys2Proof.Machine

/-! ## Safe runs -/

/-- No model fault has been raised: the machine goes on (60_exceptions.md R332). -/
abbrev State.safe (s : State) : Prop := s.fault.flag = false

/-! ## Environments -/

/-- Between two atomic steps of a command the hardware performs and signals the pending transaction,
and nothing else moves (one of the behaviours 47_hardware_agent.md R318 admits). -/
abbrev State.Prompt (s : State) : Prop := s.env.script = [] ∧ s.env.rest = [.hw .perform, .hw .signal]

/-- Between two atomic steps of a command nothing moves: the hardware never performs or signals
(47_hardware_agent.md R318: no hardware step is forced). -/
abbrev State.Silent (s : State) : Prop := s.env.script = [] ∧ s.env.rest = []

/-- The register window is idle: no transaction is pending and XCMP is 0 (40_register_protocol.md R150). -/
abbrev State.Idle (s : State) : Prop := s.txPending = none ∧ s.txPerformed = false ∧ s.ctl = 0

/-- No model fault, an idle register window, and prompt hardware. -/
abbrev State.Calm (s : State) : Prop := s.safe ∧ s.Idle ∧ s.Prompt

/-- Nothing moves between two atomic steps: no script, and either no hardware step either or prompt
hardware with an idle window. -/
abbrev State.Still (s : State) : Prop :=
  s.env.script = [] ∧ (s.env.rest = [] ∨ (s.env.rest = [.hw .perform, .hw .signal] ∧ s.Idle))

/-- A table access can be made and completes: prompt hardware, an idle window, the engine lock free, and at
least one poll allowed (40_register_protocol.md R150, R151). -/
abbrev State.TableReady (s : State) : Prop :=
  s.Prompt ∧ s.Idle ∧ s.lock = none ∧ 1 ≤ s.cfg.rpRetries

/-- Agent `a` can run the command `i` now: no model fault, it is its turn, `a` may issue `i` and the
operands exist (30_encoding.md R124). -/
structure State.Ready (s : State) (a : Agent) (i : Instr) : Prop where
  safe : s.safe
  cur : s.cur = a
  threads : s.threads.length = s.cfg.nhost
  issuer : mayIssue s.cfg i a = true
  fields : i.wellFormed s.cfg = true

/-- The agents that have a context: the threads the state holds, and the two dispatchers. -/
abbrev State.has (s : State) : Agent → Prop
  | .host t => t < s.threads.length
  | .hd => True
  | .bd => True
  | .hw => False

/-! ## What a command that ends leaves in its context -/

/-- Agent `a` has ended a command with the code `rc` and the RES writes `res`: RC holds the code, each RES
word the value written to it, or what it held; CMD and OP are as before; nothing is in progress (10_state.md
R31, R32, 60_exceptions.md R330). -/
structure Ended (a : Agent) (s t : State) (rc : RC) (res : List (Fin 4 × Word)) : Prop where
  code : (t.ctx a).rc = RC.code rc
  results : ∀ i, (t.ctx a).resRead i =
    match res.find? (fun p => p.1 = i) with
    | some p => some p.2
    | none => (s.ctx a).resRead i
  command : (t.ctx a).cmd = (s.ctx a).cmd ∧ (t.ctx a).op = (s.ctx a).op
  resting : (t.ctx a).task = none ∧ (t.ctx a).blocked = false ∧ t.presented = false

/-- A dispatch command has ended: it returns nothing (46_interrupt_dispatch.md R291, R295). -/
structure Returned (a : Agent) (s t : State) : Prop where
  code : (t.ctx a).rc = (s.ctx a).rc
  results : ∀ i, (t.ctx a).resRead i = (s.ctx a).resRead i
  command : (t.ctx a).cmd = (s.ctx a).cmd ∧ (t.ctx a).op = (s.ctx a).op
  resting : (t.ctx a).task = none ∧ (t.ctx a).blocked = false ∧ t.presented = false

/-! ## Issue checks -/

/-- `ch` is a channel field of the command: field A of RP.CAT_WRITE, CDT.INIT, CDT.CLEAR_STS, CAT.INIT, ADT.INIT
and ADT.REARM, fields A and B of CAT.UNMUTE_SYNC (30_encoding.md R113 to R119, R124 check 4). -/
def channelField (i : Instr) (ch : Chan) : Prop :=
  (∃ ns v, i = .rpCatWrite ns ch v) ∨ (∃ ty dir, i = .cdtInit ch ty dir) ∨
  (∃ mask, i = .cdtClearSts ch mask) ∨ (∃ ty dir dma en, i = .catInit ch ty dir dma en) ∨
  (∃ tx, i = .catUnmuteSync ch tx) ∨ (∃ rx, i = .catUnmuteSync rx ch) ∨
  (∃ ty, i = .adtInit ch ty) ∨ i = .adtRearm ch

/-- `n` is the node field of the command: field A of the RB and CH commands (30_encoding.md R120, R121, R124
check 4). -/
def nodeField (i : Instr) (n : NodeNo) : Prop :=
  i = .rbTryEnqueue n ∨ (∃ blk, i = .rbDequeue n blk) ∨ i = .chOpen n ∨ i = .chClose n ∨ i = .chStart n ∨
  i = .chStop n ∨ i = .chWrite n ∨ i = .chGetExceptions n ∨ i = .chSetChannelAddresses n ∨
  i = .chPollReadiness n

/-! ## What a step leaves alone -/

/-- The parameters, the bus side's register, the lock and the fault record are as before: no command that
ends changes them. -/
structure KeepsEngine (s t : State) : Prop where
  cfg : t.cfg = s.cfg
  bstat : t.bstat = s.bstat
  lock : t.lock = s.lock
  fault : t.fault = s.fault

/-- Every command context but that of `a` is as before. -/
abbrev KeepsOthers (a : Agent) (s t : State) : Prop := ∀ b, b ≠ a → t.ctx b = s.ctx b

/-- `wake_all(n, Interrupted)`: every host thread but `a` that is blocked on node `n` is woken, every other
context but that of `a` is as before (45_channel.md R272 b). -/
abbrev WakesNode (n : NodeNo) (a : Agent) (s t : State) : Prop :=
  (∀ k, Agent.host k ≠ a → t.ctx (.host k) =
    if Ctx.waitsOn n (s.ctx (.host k)) then { s.ctx (.host k) with woken := true } else s.ctx (.host k)) ∧
  (Agent.hd ≠ a → t.hd = s.hd) ∧ (Agent.bd ≠ a → t.bd = s.bd)

/-- A wake (a) of 45_channel.md R272 reaches the contexts `W`: every host thread but `a` whose context is one of
them will check its condition again, every other context but that of `a` is as before. -/
abbrev Rechecks (W : Ctx → Prop) (a : Agent) (s t : State) : Prop :=
  (∀ k, Agent.host k ≠ a →
    (W (s.ctx (.host k)) → t.ctx (.host k) = { s.ctx (.host k) with notified := true }) ∧
    (¬ W (s.ctx (.host k)) → t.ctx (.host k) = s.ctx (.host k))) ∧
  (Agent.hd ≠ a → t.hd = s.hd) ∧ (Agent.bd ≠ a → t.bd = s.bd)

/-- What no command that ends changes: `KeepsEngine`, and every context but its own. -/
structure KeepsCore (a : Agent) (s t : State) : Prop where
  engine : KeepsEngine s t
  others : KeepsOthers a s t

/-- The registers of the window and the transaction unit are as before. -/
abbrev KeepsWindow (s t : State) : Prop :=
  t.dat = s.dat ∧ t.adr = s.adr ∧ t.ctl = s.ctl ∧ t.txPending = s.txPending ∧
  t.txPerformed = s.txPerformed

/-- The window after a row write of `off` whose last transaction completed: ADR names the row, with WNR unless a
read-back followed, and DAT holds the row's words (40_register_protocol.md R150, R152, R156). -/
abbrev WroteLast (off : RowOff) (t : State) : Prop :=
  t.readReg .adr = (if t.cfg.readbackCheck then off.setWidth 32 else 0x80000000 ||| off.setWidth 32) ∧
  ∀ i : Fin 4, t.readReg (.dat i) = bits (t.row off) (32 * i.val) 32

/-- The status registers HC_STS and HC_ERR are as before. -/
abbrev KeepsStatus (s t : State) : Prop := t.hcSts = s.hcSts ∧ t.hcErr = s.hcErr

/-- The mask registers are as before. -/
abbrev KeepsMasks (s t : State) : Prop := t.hcMsk = s.hcMsk ∧ t.busMsk = s.busMsk

/-- BUS_CLK_CLASS and DEV_ADDR are as before. -/
abbrev KeepsConfig (s t : State) : Prop := t.busClkClass = s.busClkClass ∧ t.devAddr = s.devAddr

/-- Every table row outside `offs`, with its written bit, is as before. -/
abbrev KeepsRowsBut (offs : List RowOff) (s t : State) : Prop :=
  ∀ off, off ∉ offs → t.row off = s.row off ∧ t.isWritten off = s.isWritten off

/-- Every sub-field of the CAT rows but those of the listed entries is as before. -/
abbrev KeepsEntriesBut (es : List (Ns × Chan)) (s t : State) : Prop :=
  ∀ ns ch, (ns, ch) ∉ es → t.catEntry ns ch = s.catEntry ns ch

/-- The half cursors of software are as before on every channel outside `chs`. -/
abbrev KeepsSwBut (chs : List Chan) (s t : State) : Prop := ∀ ch, ch ∉ chs → t.sw ch = s.sw ch

/-- The half cursors of the hardware and `armed_prev` are as before: no CAT row was written. -/
abbrev KeepsArming (s t : State) : Prop := t.hwHalf = s.hwHalf ∧ t.armedPrev = s.armedPrev

/-- Every node outside `ns` is as before. -/
abbrev KeepsNodesBut (ns : List NodeNo) (s t : State) : Prop := ∀ n, n ∉ ns → t.node n = s.node n

/-- Every byte of host memory reads as before. -/
abbrev KeepsMem (s t : State) : Prop := ∀ x, memRead t.mem x = memRead s.mem x

/-- Every byte of host memory outside the `len` bytes at `a` reads as before. -/
abbrev KeepsMemBut (a len : Nat) (s t : State) : Prop :=
  ∀ x, ¬ (a ≤ x ∧ x < a + len) → memRead t.mem x = memRead s.mem x

/-- The table RAM, the window and the arming state are as before: no transaction was made. -/
structure KeepsTable (s t : State) : Prop where
  rows : KeepsRowsBut [] s t
  window : KeepsWindow s t
  arming : KeepsArming s t

/-- Everything beside the table RAM, its window and the arming state is as before: the status, mask and
configuration registers, software's cursors outside `chs`, the nodes outside `ns`, LOGCNT and every byte
of host memory. -/
structure KeepsSoft (chs : List Chan) (ns : List NodeNo) (s t : State) : Prop where
  status : KeepsStatus s t
  masks : KeepsMasks s t
  config : KeepsConfig s t
  halves : KeepsSwBut chs s t
  nodes : KeepsNodesBut ns s t
  log : t.logcnt = s.logcnt
  mem : KeepsMem s t

/-- The arming state after CAT rows were written: `armed_prev` is `armed` on every channel of the engine,
and the hardware's cursor has moved, if at all, to the ping half (47_hardware_agent.md R311). -/
abbrev Rearmed (s t : State) : Prop :=
  ∀ ch : Chan, (ch.toNat < s.cfg.nch → t.prevArmed ch = t.armed ch) ∧
    (t.hwh ch = s.hwh ch ∨ (ch.toNat < s.cfg.nch ∧ t.hwh ch = .ping))

/-! ## Model faults a command raises (60_exceptions.md R333) -/

/-- Agent `a` has raised the model fault `f` and its command has stopped: the record names the fault, the word in
its CMD and the agent; its RC, RES, CMD and OP, the parameters, BSTAT and every other context are as before
(10_state.md R61, 60_exceptions.md R333). -/
structure Faulted (a : Agent) (f : FReason) (s t : State) : Prop where
  record : t.fault = { flag := true, reason := some f, cmd := (s.ctx a).cmd, agent := some a }
  code : (t.ctx a).rc = (s.ctx a).rc
  results : ∀ i, (t.ctx a).resRead i = (s.ctx a).resRead i
  command : (t.ctx a).cmd = (s.ctx a).cmd ∧ (t.ctx a).op = (s.ctx a).op
  resting : (t.ctx a).task = none ∧ (t.ctx a).blocked = false ∧ t.presented = false
  engine : t.cfg = s.cfg ∧ t.bstat = s.bstat
  others : KeepsOthers a s t

/-- Agent `a` has raised the model fault `f` before its command did anything: the record is all that moved. -/
structure TurnedAway (a : Agent) (f : FReason) (s t : State) : Prop where
  faulted : Faulted a f s t
  table : KeepsTable s t
  soft : KeepsSoft [] [] s t
  lock : t.lock = s.lock

/-- All that was done is a read of the row `off`, which completed: ADR names the row, DAT holds its words, no row
has changed (40_register_protocol.md R150, R156). -/
structure OnlyRead (off : RowOff) (s t : State) : Prop where
  rows : KeepsRowsBut [] s t
  arming : KeepsArming s t
  idle : t.Idle
  adr : t.adr = off.setWidth 32
  dat : ∀ i : Fin 4, t.readReg (.dat i) = bits (s.row off) (32 * i.val) 32
  soft : KeepsSoft [] [] s t

/-! ## Transfers, rings, runs -/

/-- The state after a transfer of half `h` of channel `ch`, memory apart (R312): RDY 0, DNE 1, ERR set and
HC_ERR raised after an error, HC_STS raised, the cursor moved when CE is 1, and nothing else moved. -/
def Transferred (s t : State) (ch : Chan) (h : Half) (ok : Bool) : Prop :=
  let r := s.row (adtOff ch)
  rdyOf (t.row (adtOff ch)) h = false ∧ dneOf (t.row (adtOff ch)) h = true ∧
  errOf (t.row (adtOff ch)) h = (errOf r h || !ok) ∧
  (∀ k, k ≠ flagLo h → k ≠ flagLo h + 1 → k ≠ flagLo h + 2 →
    (t.row (adtOff ch)).getLsbD k = r.getLsbD k) ∧
  KeepsRowsBut [adtOff ch] s t ∧
  t.hcSts = s.hcSts ||| chanBit ch ∧ t.hcErr = (if ok then s.hcErr else s.hcErr ||| chanBit ch) ∧
  t.hwh ch = (if contOf r then Half.other h else h) ∧ (∀ c, c ≠ ch → t.hwh c = s.hwh c) ∧
  t.armedPrev = s.armedPrev ∧ KeepsWindow s t ∧ KeepsMasks s t ∧ KeepsConfig s t ∧ KeepsSwBut [] s t ∧
  KeepsNodesBut [] s t ∧ t.logcnt = s.logcnt ∧ KeepsEngine s t ∧ (∀ a, t.ctx a = s.ctx a)

/-- `n` enqueues, oldest first. -/
def enqueueAll (cap : Nat) (r : Ring) (ps : List (List Byte)) : Ring :=
  ps.foldl (fun r p => (r.enqueue cap p).1) r

/-- `n` dequeues: what they read, oldest first, and the ring afterwards. -/
def dequeueAll (cap : Nat) : Nat → Ring → List (Option (List Byte)) × Ring
  | 0, r => ([], r)
  | n + 1, r =>
    let (x, r1) := r.dequeue cap
    let (xs, r2) := dequeueAll cap n r1
    (x :: xs, r2)

/-- The state in which a run stopped. -/
def Stop.state {α : Type} : Stop α → State
  | .done _ _ s => s
  | .wait _ s => s
  | .loop s => s
  | .fault _ s => s
  | .halted _ s => s

/-- The state an atomic step leaves. -/
def Eff.state : Eff → State
  | .ok s _ => s
  | .stay s => s
  | .fault _ s => s

/-! ## Reset -/

/-- Every piece of state R70 gives a value holds it (10_state.md R70). -/
structure State.AtReset (s : State) : Prop where
  window : (∀ i : Fin 4, s.readReg (.dat i) = 0) ∧ s.adr = 0 ∧ s.ctl = 0 ∧ s.bstat = 0
  status : s.hcSts = 0 ∧ s.hcErr = 0
  masks : s.hcMsk = 0 ∧ s.busMsk = 0
  config : s.busClkClass = 0 ∧ s.devAddr = 0 ∧ s.readReg .version = s.cfg.protocolVersion
  rows : ∀ off, s.isWritten off = false
  transaction : s.txPending = none ∧ s.txPerformed = false
  halves : ∀ ch, s.sw ch = .ping ∧ s.hwh ch = .ping ∧ s.prevArmed ch = false
  nodes : ∀ n : NodeNo, n.toNat < s.cfg.nnodes →
    (s.node n).lstate = .closed ∧ (s.node n).refcnt = 0 ∧ (s.node n).rxCh.toNat = 2 * n.toNat ∧
    (s.node n).txCh.toNat = 2 * n.toNat + 1 ∧ (s.node n).exc = 0 ∧ (s.node n).txBusy = false ∧
    (s.node n).bufs = none ∧ (s.node n).ring = none ∧ (s.node n).consumer = none ∧ (s.node n).nm = none
  lock : s.lock = none
  log : s.logcnt = 0
  fault : s.fault = { flag := false, reason := none, cmd := 0, agent := none }
  threads : s.threads.length = s.cfg.nhost
  contexts : ∀ k, (s.ctx (.host k)).rc = 0 ∧ (s.ctx (.host k)).blocked = false ∧
    ∀ i, (s.ctx (.host k)).resRead i = none

/-! ## The invariant -/

/-- The ring has the shape of 10_state.md R49 for a capacity `cap` and slots of `size` bytes. -/
structure Ring.Wf (cap size : Nat) (r : Ring) : Prop where
  slots : r.slots.length = cap + 1
  sizes : ∀ b, some b ∈ r.slots → b.length = size
  widx : r.widx < cap
  ridx : r.ridx < cap

/-- The agent exists on the engine and can hold the lock: a host thread or a dispatcher. -/
abbrev softwareAgent (c : Params) : Agent → Prop
  | .host t => t < c.nhost
  | .hd => True
  | .bd => True
  | .hw => False

/-- What every step keeps, whatever the environment does. -/
structure State.Inv (s : State) : Prop where
  /-- The parameters have the values R8 asks for. -/
  cfg : s.cfg.ok = true
  /-- Host memory is in canonical form. -/
  mem : memWf s.mem
  /-- There is one context for each host thread (R31). -/
  threads : s.threads.length = s.cfg.nhost
  /-- BSTAT: reserved bits 0, and LOCKED only while CLKRUN (R53, R316). -/
  bstat : s.bstat = 0 ∨ s.bstat = 1 ∨ s.bstat = 3
  /-- The bits of CTL but XCMP are 0 (R33). -/
  ctl : s.ctl = 0 ∨ s.ctl = 1
  /-- The reserved bits of ADR are 0 (R33). -/
  adr : s.adr &&& ~~~adrMask = 0
  /-- An access performed is of a pending transaction, and XCMP signals one performed (R310). -/
  performed : s.txPerformed = true → s.txPending.isSome = true
  signalled : s.ctl = 1 → s.txPerformed = true
  /-- The bits of channels NCH and above read 0 (R35). -/
  hcSts : s.hcSts &&& ~~~validChans s.cfg = 0
  hcErr : s.hcErr &&& ~~~validChans s.cfg = 0
  hcMsk : s.hcMsk &&& ~~~validChans s.cfg = 0
  busMsk : s.busMsk &&& ~~~validChans s.cfg = 0
  /-- The rings have the shape of R49, and a node has a ring exactly when it has buffers (R48). -/
  rings : ∀ n r, (s.node n).ring = some r → r.Wf (s.cfg.cap n) (s.cfg.slot n)
  buffers : ∀ n, (s.node n).ring.isSome = (s.node n).bufs.isSome
  /-- The lock, a node's mutex and a node's consumer field name software agents (R48, R51). -/
  lock : ∀ a, s.lock = some a → softwareAgent s.cfg a
  mutex : ∀ n a, (s.node n).nm = some a → softwareAgent s.cfg a
  consumer : ∀ n a, (s.node n).consumer = some a → softwareAgent s.cfg a
  /-- The channels of a node exist and differ (R48, R269). -/
  channels : ∀ n : NodeNo, n.toNat < s.cfg.nnodes →
    (s.node n).rxCh.toNat < s.cfg.nch ∧ (s.node n).txCh.toNat < s.cfg.nch ∧ (s.node n).rxCh ≠ (s.node n).txCh
  /-- RC of a dispatcher, which no host thread writes, holds one of the result codes (R330). -/
  codes : s.hd.rc.toNat ≤ 10 ∧ s.bd.rc.toNat ≤ 10
  /-- FREASON, FCMD and FAGENT are set exactly with FAULT (R61). -/
  record : s.fault.flag = s.fault.reason.isSome ∧ s.fault.flag = s.fault.agent.isSome

end Sys2Proof.Machine
end

