-- ==== Sys2Proof/Certificates/Slice0/Obligations.lean ====
section
/-! DEFINITION. The statements for the provers. Each says which rule of spec/ it formalises. A statement about
a command says where it completes: under hypotheses on the state and the operands alone it answers
a next state, with every result the rule gives and with what it leaves alone (Safety.lean). -/

section

open Sys2Proof Sys2Proof.Machine

/-! ## Encoding (30_encoding.md) -/

/-- Every command is what its word decodes to, with every operand at every value (R111 to R123). -/
def Obligations.DecodeOfEncodeIsTheCommand : Prop := ∀ i : Instr, decode (encode i) = .ok i

/-- A word that decodes is the one word of its command: no bit of it is free (R111: every bit a format does
not assign must be 0). -/
def Obligations.EncodeOfDecodeIsTheWord : Prop := ∀ (w : Word) (i : Instr), decode w = .ok i → encode i = w

/-- Words written out from the spec's formats decode to the commands they stand for: one for each family
and one reserved bit. -/
def Obligations.SpecWordsDecode : Prop :=
  decode 0x04000005 = .ok (.rpWriteRow 0x05) ∧
  decode 0x0C030903 = .ok (.rpCatWrite .bus 3 0x0903) ∧
  decode 0x20054000 = .ok (.cdtInit 5 .control .rx) ∧
  decode 0x40034000 = .ok (.catInit 3 .control .rx .inbound false) ∧
  decode 0x64040000 = .ok (.adtRearm 4) ∧
  decode 0x84000001 = .ok (.rbDequeue 0 true) ∧
  decode 0xB0010000 = .ok (.chWrite 1) ∧
  decode 0xC8000000 = .ok .getProtocolVersion ∧
  decode 0xE4000000 = .ok .irqBusDispatch ∧
  decode 0x24000001 = .error (.reservedBit "CDT.RESET_ALL")

/-! ## Steps and model faults (30_encoding.md R124, 60_exceptions.md R332, R333) -/

/-- A presented word that decodes is run: the step is the command's, at that state. The engine has no program
counter and no fetch, so a step adds nothing around it. -/
def Obligations.StepRunsTheDecodedCommand : Prop :=
  ∀ (s : State) (i : Instr), s.safe → s.presented = true → decode (s.ctx s.cur).cmd = .ok i →
    step s = exec i s

/-- A presented word that decodes to no command raises IllegalCommand and ends the turn: the record names the word
and the agent; the parameters, every register, the lock, the nodes, the table, memory, the other contexts
and the agent's own CMD, OP, RES and RC are as before (R124 checks 1 and 2, R333). -/
def Obligations.IllegalWordRaisesIllegalCommand : Prop :=
  ∀ (s : State) (e : DecodeError), s.safe → s.presented = true → decode (s.ctx s.cur).cmd = .error e →
    ∃ t, step s = .next t ∧
      t.fault = { flag := true, reason := some .illegalCommand, cmd := (s.ctx s.cur).cmd, agent := some s.cur } ∧
      (∀ b, (t.ctx b).rc = (s.ctx b).rc ∧ (t.ctx b).cmd = (s.ctx b).cmd ∧ (t.ctx b).op = (s.ctx b).op ∧
        ∀ i, (t.ctx b).resRead i = (s.ctx b).resRead i) ∧
      KeepsOthers s.cur s t ∧ t.lock = s.lock ∧ t.cfg = s.cfg ∧ t.bstat = s.bstat ∧
      KeepsTable s t ∧ KeepsSoft [] [] s t ∧ t.cur = s.cur ∧ t.env = s.env ∧ t.presented = false

/-- Who may issue what, and the checks of a command at issue in the order of R124: a host thread of the engine
may issue every command but the three of the dispatchers; the host-interrupt dispatcher ADT.REARM,
RB.TRY_ENQUEUE, IRQ.HOST_DISPATCH and no other; the bus-interrupt dispatcher CDT.CLEAR_STS, IRQ.BUS_DISPATCH
and no other. The agent is checked first, then every channel field (field A of the RP.CAT_WRITE, CDT, CAT and
ADT commands that have one, and field B of CAT.UNMUTE_SYNC) against NCH, then the node field (A of the RB and CH
commands) against NNODES, and the first check that fails is the fault raised, before anything else happens; a
command whose fields are all below their bounds is well-formed (R123, R124, R346). -/
def Obligations.IssueChecksComeInOrder : Prop :=
  let badChannel (c : Params) (i : Instr) := ∃ ch, channelField i ch ∧ c.nch ≤ ch.toNat
  let badNode (c : Params) (i : Instr) := ∃ n, nodeField i n ∧ c.nnodes ≤ n.toNat
  (∀ (c : Params) (i : Instr),
    (∀ k, k < c.nhost → (mayIssue c i (.host k) = false ↔
      (∃ n, i = .rbTryEnqueue n) ∨ i = .irqHostDispatch ∨ i = .irqBusDispatch)) ∧
    (mayIssue c i .hd = true ↔
      (∃ ch, i = .adtRearm ch) ∨ (∃ n, i = .rbTryEnqueue n) ∨ i = .irqHostDispatch) ∧
    (mayIssue c i .bd = true ↔ (∃ ch mask, i = .cdtClearSts ch mask) ∨ i = .irqBusDispatch) ∧
    (i.wellFormed c = true ↔ ¬ badChannel c i ∧ ¬ badNode c i)) ∧
  (∀ (i : Instr) (x : BitVec 6),
    (channelField i x → bits (encode i) 16 6 = x ∨
      (∃ rx, i = .catUnmuteSync rx x) ∧ bits (encode i) 8 6 = x) ∧
    (nodeField i x → bits (encode i) 16 6 = x)) ∧
  ∀ (s : State) (i : Instr),
    (mayIssue s.cfg i s.cur = false → exec i s = .next (s.raise s.cur .wrongAgent)) ∧
    (mayIssue s.cfg i s.cur = true → badChannel s.cfg i → exec i s = .next (s.raise s.cur .badChannel)) ∧
    (mayIssue s.cfg i s.cur = true → ¬ badChannel s.cfg i → badNode s.cfg i →
      exec i s = .next (s.raise s.cur .badNode))

/-- Taking a model fault: the first one sets FAULT, FREASON, FCMD and FAGENT, a later one leaves the record
as it is; either way the command stops, and RC, RES, CMD, OP, the lock, the other contexts and every other
piece of state keep their values (R332, R333, R61). After it no step and no event, engine reset among them,
moves anything: that engine reset does not either is the model's choice (notes/assumptions/5.md). -/
def Obligations.ModelFaultIsRecordedOnce : Prop :=
  (∀ (s : State) (a : Agent) (f : FReason),
    let t := s.raise a f
    t.fault =
      (if s.fault.flag then s.fault
       else { flag := true, reason := some f, cmd := s.cmdOf a, agent := some a }) ∧
    (∀ b, (t.ctx b).rc = (s.ctx b).rc ∧ (t.ctx b).cmd = (s.ctx b).cmd ∧ (t.ctx b).op = (s.ctx b).op ∧
      ∀ i, (t.ctx b).resRead i = (s.ctx b).resRead i) ∧
    (s.has a → (t.ctx a).task = none ∧ (t.ctx a).blocked = false) ∧
    KeepsOthers a s t ∧ t.lock = s.lock ∧ t.cfg = s.cfg ∧ t.bstat = s.bstat ∧
    KeepsTable s t ∧ KeepsSoft [] [] s t ∧ t.cur = s.cur ∧ t.env = s.env ∧
    t.presented = (if s.cur = a then false else s.presented)) ∧
  ∀ s : State, s.fault.flag = true →
    step s = .fault (.modelFault s.fault.reason) ∧ ∀ e, s.event e = s

/-! ## Reset (10_state.md R70, 70_reset_and_hazards.md R370, R371) -/

/-- The machine right after reset holds every value R70 gives. -/
def Obligations.ResetHoldsTheSpecValues : Prop := State.reset.AtReset

/-- Engine reset, from any state: every piece of state takes the value of R70, but host memory, the contents of
the table rows and the parameters, which are as before (R370, R371). Keeping the contents of the rows is the
model's choice among the values R371 leaves open (notes/assumptions/3.md). -/
def Obligations.EngineResetRestoresTheResetValues : Prop :=
  ∀ s : State, s.cfg.ok = true →
    s.engineReset.AtReset ∧ s.engineReset.cfg = s.cfg ∧ KeepsMem s s.engineReset ∧
    (∀ off, s.engineReset.row off = s.row off) ∧
    s.engineReset.hirq = false ∧ s.engineReset.birq = false ∧ s.engineReset.presented = false ∧
    ∀ a, (s.engineReset.ctx a).task = none

/-- The machine right after reset meets the invariant. -/
def Obligations.ResetMeetsTheInvariant : Prop := State.reset.Inv

/-- Every step keeps the parameters (00_scope.md R8) and the invariant, whatever command is presented, wherever
commands in progress stand and whatever the schedule lets the other agents and the hardware do. -/
def Obligations.EveryStepKeepsTheInvariant : Prop :=
  ∀ s t : State, step s = .next t → t.cfg = s.cfg ∧ (s.Inv → t.Inv)

/-! ## Registers (10_state.md R33 to R37) -/

/-- The interrupt block by group: HC_STS and HC_ERR are write-1-to-clear, a 0 leaves a bit; HC_MSK and BUS_MSK
hold what is written, but for the bits of channels NCH and above, which ignore writes; the other group and
every other register keep their values (R35). -/
def Obligations.InterruptRegistersAnswerWrites : Prop :=
  ∀ (s : State) (g : Fin 2) (w : Word),
    (s.writeReg (.hcSts g) w).readReg (.hcSts g) = s.readReg (.hcSts g) &&& ~~~w ∧
    (s.writeReg (.hcErr g) w).readReg (.hcErr g) = s.readReg (.hcErr g) &&& ~~~w ∧
    (s.writeReg (.hcMsk g) w).readReg (.hcMsk g) = w &&& groupOf (validChans s.cfg) g ∧
    (s.writeReg (.busMsk g) w).readReg (.busMsk g) = w &&& groupOf (validChans s.cfg) g ∧
    ∀ x, (x = .hcSts g ∨ x = .hcErr g ∨ x = .hcMsk g ∨ x = .busMsk g) →
      ∀ r, r ≠ x → (s.writeReg x w).readReg r = s.readReg r

/-- Software writes of the window: DAT holds the word; ADR holds WNR and OFF, reads 0 in its reserved bits
and issues a transaction, which clears XCMP; a 0 written to CTL clears the transaction, a 1 has no effect;
BSTAT and VERSION are read-only (R33, R37, 47_hardware_agent.md R310). -/
def Obligations.WindowRegistersAnswerWrites : Prop :=
  ∀ (s : State) (w : Word),
    (∀ i j : Fin 4, (s.writeReg (.dat i) w).readReg (.dat j) = if i = j then w else s.readReg (.dat j)) ∧
    (∀ k < 32, ((s.writeReg .adr w).readReg .adr).getLsbD k = (w.getLsbD k && (k < 8 || k == 31))) ∧
    (s.writeReg .adr w).readReg .ctl = 0 ∧ (s.writeReg .adr w).txPerformed = false ∧
    (s.writeReg .adr w).txPending =
      (if w.getLsbD 31 then
        some (.write (bits w 0 8) (s.readReg (.dat 3) ++ s.readReg (.dat 2) ++ s.readReg (.dat 1) ++
          s.readReg (.dat 0)))
       else some (.read (bits w 0 8))) ∧
    (w.getLsbD 0 = false → (s.writeReg .ctl w).Idle) ∧ (w.getLsbD 0 = true → s.writeReg .ctl w = s) ∧
    s.writeReg .bstat w = s ∧ s.writeReg .version w = s

/-- The two interrupt lines are derived from pending and mask bits: HIRQ is 1 when a channel's HC_STS and HC_MSK
bits are 1, BIRQ when a channel's CDT row has a nonzero STS field and its BUS_MSK bit is 1. They are level
signals: while its line is 1, and only then, an idle dispatcher can begin its dispatch command; beginning it
changes no line (R36). The mask bits of channels NCH and above are 0 (R35). -/
def Obligations.InterruptLinesAreDerived : Prop :=
  ∀ s : State, s.busMsk &&& ~~~validChans s.cfg = 0 →
    (s.hirq = true ↔ ∃ k, s.hcSts.getLsbD k = true ∧ s.hcMsk.getLsbD k = true) ∧
    (s.birq = true ↔ ∃ ch : Chan, stsOf (s.row (cdtOff ch)) ≠ 0 ∧ s.busMsk.getLsbD ch.toNat = true) ∧
    (s.safe → ∀ bus : Bool,
      let a : Agent := if bus then .bd else .hd
      let line := if bus then s.birq else s.hirq
      let i : Instr := if bus then .irqBusDispatch else .irqHostDispatch
      let t := s.event (.irq bus)
      s.busy a = false →
      (line = true → (t.ctx a).task = some { instr := i, looping := false, hist := [] } ∧
        (t.ctx a).cmd = encode i ∧ KeepsOthers a s t ∧ KeepsTable s t ∧ KeepsSoft [] [] s t ∧
        KeepsEngine s t ∧ t.hirq = s.hirq ∧ t.birq = s.birq) ∧
      (line = false → t = s))

/-- The registers of a host thread's context are its own: a thread without a command in progress writes CMD, OP,
RES or RC (the low 8 bits) by an access of its own, which changes that register alone, and stores to host
memory, which changes those bytes alone; and RC of any context changes otherwise only to a result code or to 0
(R31, 20_memory.md R92). Two clauses are the model's choice: that neither the register writes nor the stores
happen while a command of the thread is in progress (R31 does not say when; notes/assumptions/31.md and 23.md),
and that a RES the thread writes itself holds a value from then on (notes/assumptions/31.md). -/
def Obligations.RegistersOfAThreadAreItsOwn : Prop :=
  ∀ s : State, s.safe → s.threads.length = s.cfg.nhost →
    (∀ k, k < s.cfg.nhost → s.busy (.host k) = false →
      (∀ (r : CtxReg) (w : Word),
        let t := s.event (.own k r w)
        let x := s.ctx (.host k)
        let y := t.ctx (.host k)
        y.cmd = (if r = .cmd then w else x.cmd) ∧
        (∀ i : Fin 4, y.op[i] = (if r = .op i then w else x.op[i])) ∧
        (∀ i, y.resRead i = (if r = .res i then some w else x.resRead i)) ∧
        y.rc = (if r = .rc then w.setWidth 8 else x.rc) ∧
        y.task = none ∧ y.blocked = x.blocked ∧
        KeepsTable s t ∧ KeepsSoft [] [] s t ∧ KeepsCore (.host k) s t) ∧
      (∀ (b : Word) (bytes : List Byte), memWf s.mem → b.toNat + bytes.length ≤ 2 ^ 32 →
        let t := s.event (.store k b bytes)
        (∀ j, j < bytes.length → memRead t.mem (b.toNat + j) = bytes.getD j 0) ∧
        KeepsMemBut b.toNat bytes.length s t ∧ t = { s with mem := t.mem })) ∧
    (∀ k, s.busy (.host k) = true → (∀ r w, s.event (.own k r w) = s) ∧
      ∀ b bytes, s.event (.store k b bytes) = s) ∧
    ∀ (e : Event) (a : Agent), (∀ k r w, e ≠ .own k r w) →
      ((s.event e).ctx a).rc = (s.ctx a).rc ∨ ((s.event e).ctx a).rc.toNat ≤ 10

/-! ## The hardware side (47_hardware_agent.md R310 to R317) -/

/-- PERFORM of a write: the row holds the value and counts as written, every other row is as before, nothing
but the arming state moves with it, and the transaction is performed once (R310). -/
def Obligations.PerformOfAWriteStoresTheRow : Prop :=
  ∀ (s : State) (off : RowOff) (v : Row), s.txPending = some (.write off v) → s.txPerformed = false →
    s.perform.row off = v ∧ s.perform.isWritten off = true ∧ KeepsRowsBut [off] s s.perform ∧
    s.perform.txPerformed = true ∧ s.perform.txPending = s.txPending ∧ s.perform.dat = s.dat ∧
    s.perform.adr = s.adr ∧ s.perform.ctl = s.ctl ∧ KeepsSoft [] [] s s.perform ∧
    KeepsEngine s s.perform ∧ (∀ a, s.perform.ctx a = s.ctx a) ∧
    (isCatRow off = false → KeepsArming s s.perform) ∧
    s.perform.perform = s.perform

/-- PERFORM of a read: DAT takes the row's words when the row was written, else the fault UnwrittenRow is
recorded for the hardware with command word 0 and the transaction stays unperformed; SIGNAL then sets
XCMP, and only after the access (R310, 60_exceptions.md R333). -/
def Obligations.PerformOfAReadAndSignal : Prop :=
  ∀ (s : State) (off : RowOff), s.txPending = some (.read off) → s.txPerformed = false →
    (s.isWritten off = true →
      s.perform = { s with
        dat := Vector.ofFn (fun i => bits (s.row off) (32 * i.val) 32)
        txPerformed := true } ∧
      (s.ctl = 0 → s.perform.signalDone = { s.perform with ctl := 1 })) ∧
    (s.isWritten off = false → s.safe →
      s.perform = { s with
        fault := { flag := true, reason := some .unwrittenRow, cmd := 0, agent := some .hw } }) ∧
    s.signalDone = s

/-- A channel is armed exactly when bit 11, CE, of its BUS and of its HOST entry is 1 (R44); that an entry of a
CAT row not written since reset counts as CE = 0 is the model's reading (notes/assumptions/15.md). The arming
edge: after a CAT row is written, every channel of the engine that has gone from not armed to armed starts with
the ping half and `armed_prev` is `armed`; beside the row and the transaction nothing else moves (R311). That
channels NCH and above, which do not exist, keep their cursor and `armed_prev` is the model's choice
(notes/assumptions/16.md). -/
def Obligations.ArmingEdgeStartsWithPing : Prop :=
  (∀ (s : State) (ch : Chan), s.armed ch = true ↔
    ∀ ns, (s.catEntry ns ch).getLsbD 11 = true ∧ s.isWritten (catOff ns ch) = true) ∧
  ∀ (s : State) (off : RowOff) (v : Row), s.txPending = some (.write off v) → s.txPerformed = false →
    isCatRow off = true →
    let t := s.perform
    (∀ ch : Chan,
      if ch.toNat < s.cfg.nch then
        t.prevArmed ch = t.armed ch ∧
        t.hwh ch = (if t.armed ch = true ∧ s.prevArmed ch = false then .ping else s.hwh ch)
      else t.prevArmed ch = s.prevArmed ch ∧ t.hwh ch = s.hwh ch) ∧
    t.row off = v ∧ t.isWritten off = true ∧ KeepsRowsBut [off] s t ∧ t.txPerformed = true ∧
    t.txPending = s.txPending ∧ t.dat = s.dat ∧ t.adr = s.adr ∧ t.ctl = s.ctl ∧ KeepsSoft [] [] s t ∧
    KeepsEngine s t ∧ (∀ a, t.ctx a = s.ctx a) ∧ t.cur = s.cur ∧ t.presented = s.presented ∧ t.env = s.env

/-- XFER of a transmit channel (RNW of its BUS entry 1) reads memory, changes no byte of it and completes the half
`hw_half` names. XFER is enabled for a channel of the engine that is armed, whose ADT row was written and whose
half `hw_half` names is ready; one that is not enabled changes nothing (R312). That a half whose range passes 2^32
is the hardware's fault AddressWrap, whatever the direction (20_memory.md R81), is the model's reading
(notes/assumptions/17.md), and that a channel NCH or above has no such step its choice
(notes/assumptions/16.md). -/
def Obligations.TransmitTransferCompletesTheHalf : Prop :=
  ∀ (s : State) (ch : Chan) (ok : Bool) (bytes : List Byte),
    let r := s.row (adtOff ch)
    let h := s.hwh ch
    let enabled := ch.toNat < s.cfg.nch ∧ s.armed ch = true ∧ s.isWritten (adtOff ch) = true ∧ rdyOf r h = true
    (enabled → wraps (addrOf r h) (decodeDepth (bdOf r h)) = false → rnwBit (s.catEntry .bus ch) = true →
      Transferred s (s.xfer ch ok bytes) ch h ok ∧ KeepsMem s (s.xfer ch ok bytes)) ∧
    (enabled → wraps (addrOf r h) (decodeDepth (bdOf r h)) = true → s.safe →
      s.xfer ch ok bytes =
        { s with fault := { flag := true, reason := some .addressWrap, cmd := 0, agent := some .hw } }) ∧
    (¬ enabled → s.xfer ch ok bytes = s)

/-- XFER of a receive channel (RNW of its BUS entry 0) writes the bytes drawn from the half's address on, and no
other byte, and completes the half `hw_half` names: the whole half, or 1 to the whole half where the half has
packet start. XFER is enabled for a channel of the engine that is armed, whose ADT row was written and whose
half `hw_half` names is ready; one that is not enabled changes nothing (R312). That a channel NCH or above has
no such step is the model's choice (notes/assumptions/16.md). -/
def Obligations.ReceiveTransferStoresTheBytes : Prop :=
  ∀ (s : State) (ch : Chan) (ok : Bool) (bytes : List Byte),
    let r := s.row (adtOff ch)
    let h := s.hwh ch
    let len := decodeDepth (bdOf r h)
    let enabled := ch.toNat < s.cfg.nch ∧ s.armed ch = true ∧ s.isWritten (adtOff ch) = true ∧ rdyOf r h = true
    (enabled → memWf s.mem → rnwBit (s.catEntry .bus ch) = false → wraps (addrOf r h) len = false →
      (if ok then (if psOf r h then 1 ≤ bytes.length ∧ bytes.length ≤ len else bytes.length = len)
        else bytes.length = len) →
      Transferred s (s.xfer ch ok bytes) ch h ok ∧
      ∀ x, memRead (s.xfer ch ok bytes).mem x =
        if (addrOf r h).toNat ≤ x ∧ x < (addrOf r h).toNat + bytes.length
        then bytes.getD (x - (addrOf r h).toNat) 0 else memRead s.mem x) ∧
    (¬ enabled → s.xfer ch ok bytes = s)

/-- RAISE of a nonzero nibble is enabled for an armed channel whose CDT row was written and ORs the nibble into
STS of that row; PROGRESS, enabled alike, sets RDP and WRP to any values; no other bit of any row moves and
nothing else of the machine, and a step that is not enabled changes nothing (R314, R315). That a channel NCH or
above has no such step is the model's choice (notes/assumptions/16.md). -/
def Obligations.RaiseAndProgressChangeTheirBitsOnly : Prop :=
  ∀ (s : State) (ch : Chan) (b : BitVec 4) (rdp wrp : Bool), b ≠ 0 →
    let enabled := ch.toNat < s.cfg.nch ∧ s.armed ch = true ∧ s.isWritten (cdtOff ch) = true
    let old := s.row (cdtOff ch)
    let rowOnly (t : State) := KeepsRowsBut [cdtOff ch] s t ∧ KeepsSoft [] [] s t ∧ KeepsWindow s t ∧
      KeepsArming s t ∧ KeepsEngine s t ∧ (∀ a, t.ctx a = s.ctx a) ∧ t.cur = s.cur ∧
      t.presented = s.presented ∧ t.env = s.env
    (enabled →
      (let t := s.raiseSts ch b
       stsOf (t.row (cdtOff ch)) = stsOf old ||| b ∧
       (∀ k, k < 48 ∨ 52 ≤ k → (t.row (cdtOff ch)).getLsbD k = old.getLsbD k) ∧
       t.isWritten (cdtOff ch) = true ∧ rowOnly t) ∧
      let t := s.progress ch rdp wrp
      (t.row (cdtOff ch)).getLsbD 52 = rdp ∧ (t.row (cdtOff ch)).getLsbD 53 = wrp ∧
      (∀ k, k < 52 ∨ 54 ≤ k → (t.row (cdtOff ch)).getLsbD k = old.getLsbD k) ∧
      t.isWritten (cdtOff ch) = true ∧ rowOnly t) ∧
    (¬ enabled → s.raiseSts ch b = s ∧ s.progress ch rdp wrp = s)

/-- BUS(c, l) sets CLKRUN to c and LOCKED to l when l is at most c, and nothing else; BUS(0, 1) is no step, so
that the bus locks only while its clock runs; no other hardware step and no step of a command changes BSTAT
(R316, 10_state.md R34, R53). -/
def Obligations.OnlyTheBusStepChangesBusStatus : Prop :=
  ∀ s : State,
    (∀ c l : Bool, (l = true → c = true) →
      (s.busStep c l).bstat.getLsbD 0 = c ∧ (s.busStep c l).bstat.getLsbD 1 = l ∧
      (∀ k, 2 ≤ k → (s.busStep c l).bstat.getLsbD k = false) ∧
      s.busStep c l = { s with bstat := (s.busStep c l).bstat }) ∧
    s.busStep false true = s ∧
    (∀ h, (∀ c l, h ≠ .bus c l) → (s.hwStep h).bstat = s.bstat) ∧
    (∀ a d, (Act.apply a s d).state.bstat = s.bstat)

/-- What the hardware side never does (R317): beside a PERFORM no step writes a CAT row, a placement field of a
CDT row or an ADT field but RDY, DNE and ERR, and none sets RDY; no step at all touches a node, a ring, the
lock or a context. -/
def Obligations.HardwareWritesNothingElse : Prop :=
  ∀ (s : State) (h : HwStep),
    KeepsNodesBut [] s (s.hwStep h) ∧ (s.hwStep h).lock = s.lock ∧ (∀ a, (s.hwStep h).ctx a = s.ctx a) ∧
    (h ≠ .perform →
      (∀ off, isCatRow off = true → (s.hwStep h).row off = s.row off) ∧
      (∀ ch : Chan, ∀ k, k < 48 ∨ 54 ≤ k →
        ((s.hwStep h).row (cdtOff ch)).getLsbD k = (s.row (cdtOff ch)).getLsbD k) ∧
      (∀ ch : Chan, ∀ k, (k < 96 ∨ 99 ≤ k) → (k < 104 ∨ 107 ≤ k) →
        ((s.hwStep h).row (adtOff ch)).getLsbD k = (s.row (adtOff ch)).getLsbD k) ∧
      (∀ ch : Chan, ∀ x : Half, rdyOf ((s.hwStep h).row (adtOff ch)) x = true →
        rdyOf (s.row (adtOff ch)) x = true))

/-! ## Operand forms (10_state.md R40 to R45, R50, 41_cdt.md R170, 42_cat.md R190, 43_adt.md R210) -/

/-- A CAT row holds eight sub-fields: one written is the one read, the others are as before (R42). -/
def Obligations.CatSubFieldsAreIndependent : Prop :=
  ∀ (v : Row) (ch c : Chan) (x : SubField),
    getSub (putSub v ch x) c = if c.toNat % 8 = ch.toNat % 8 then x else getSub v c

/-- The rows and sub-fields the managers write have the fields of the layouts at their bits, and every other
bit 0; the names of the fields read those bits of any row and sub-field (R40, R43, R45). -/
def Obligations.ManagerRowsHaveTheLayoutsOfTheSpec : Prop :=
  (∀ (ba : BitVec 16) (bd : BitVec 13) (bs : BitVec 9), let r := cdtRow ba bd bs
    bits r 0 16 = ba ∧ bits r 16 13 = bd ∧ bits r 32 9 = bs ∧
    bits r 29 3 = 0 ∧ bits r 41 87 = 0) ∧
  (∀ (ch : Chan) (ty : ChType) (dma : Dma) (en : Bool), let v := catValue ch ty dma en
    bits v 0 6 = ch ∧ bits v 8 2 = ty.code ∧ v.getLsbD 11 = en ∧
    (v.getLsbD 12 = true ↔ dma = .outbound) ∧ (v.getLsbD 13 = true ↔ ty = .sync) ∧
    bits v 6 2 = 0 ∧ v.getLsbD 10 = false ∧ bits v 14 2 = 0) ∧
  (∀ (p q : Word) (bd : BitVec 13) (ps : Bool), let r := adtRow p q bd ps
    bits r 0 32 = p ∧ bits r 32 32 = q ∧ bits r 64 13 = bd ∧ bits r 80 13 = bd ∧
    (∀ k ∈ [96, 97, 98, 104, 105, 106], r.getLsbD k = false) ∧ r.getLsbD 99 = ps ∧ r.getLsbD 107 = ps ∧
    r.getLsbD 112 = true ∧ bits r 77 3 = 0 ∧ bits r 93 3 = 0 ∧ bits r 100 4 = 0 ∧ bits r 108 4 = 0 ∧
    bits r 113 15 = 0) ∧
  (∀ r : Row,
    (addrOf r .ping = bits r 0 32 ∧ bdOf r .ping = bits r 64 13 ∧ rdyOf r .ping = r.getLsbD 96 ∧
      dneOf r .ping = r.getLsbD 97 ∧ errOf r .ping = r.getLsbD 98 ∧ psOf r .ping = r.getLsbD 99) ∧
    (addrOf r .pong = bits r 32 32 ∧ bdOf r .pong = bits r 80 13 ∧ rdyOf r .pong = r.getLsbD 104 ∧
      dneOf r .pong = r.getLsbD 105 ∧ errOf r .pong = r.getLsbD 106 ∧ psOf r .pong = r.getLsbD 107) ∧
    contOf r = r.getLsbD 112 ∧ stsOf r = bits r 48 4) ∧
  ∀ v : SubField, ceBit v = v.getLsbD 11 ∧ rnwBit v = v.getLsbD 12

/-- The forms of the tables. R38, R42: the offsets of the CDT and ADT row of a channel and of the CAT row that
holds its sub-field, the reserved rows, and the place of the sub-field in its row, which is a half of one
word. R170, R171: the depths that are valid for each channel type, 0 for none; a depth within the field's range
is the depth its encoding decodes to, and every field value is the encoding of its depth; that this one
encoding holds for every channel type is the model's choice (notes/assumptions/10.md). R210: the half that
completed is the expected half when its DNE bit is 1, else the other when its bit is 1, else none. -/
def Obligations.OperandFormsFollowTheTables : Prop :=
  (∀ ch : Chan,
    (cdtOff ch).toNat = ch.toNat ∧ (adtOff ch).toNat = 0x40 + ch.toNat ∧
    (catOff .bus ch).toNat = 0x80 + ch.toNat / 8 ∧ (catOff .host ch).toNat = 0x88 + ch.toNat / 8) ∧
  (∀ (c : Params) (off : RowOff),
    (isCatRow off = true ↔ 0x80 ≤ off.toNat ∧ off.toNat < 0x90) ∧
    (reservedRow c off = true ↔
      0x90 ≤ off.toNat ∨ (off.toNat < 0x40 ∧ c.nch ≤ off.toNat) ∨
      (0x40 ≤ off.toNat ∧ off.toNat < 0x80 ∧ c.nch ≤ off.toNat - 0x40))) ∧
  (∀ (v : Row) (ch : Chan), let k := ch.toNat % 8
    getSub v ch = bits v (16 * k) 16 ∧ getSub v ch = bits (bits v (32 * (k / 2)) 32) (16 * (k % 2)) 16) ∧
  (∀ (c : Params) (d : Nat),
    (validDepth c .sync d = true ↔ d ≠ 0 ∧ d = 4 * c.syncSamples * c.syncFrameBytes) ∧
    (validDepth c .control d = true ↔ d ≠ 0 ∧ c.ctrlMaxPkt ≤ d ∧ d ≤ 8192) ∧
    (validDepth c .async d = true ↔ d ≠ 0 ∧ c.asyncMaxPkt ≤ d ∧ d ≤ 8192) ∧
    (validDepth c .iso d = true ↔ 1 ≤ d ∧ d ≤ 8192 ∧ d % (c.isoBs + 1) = 0)) ∧
  (∀ d : Nat, 1 ≤ d → d ≤ 8192 → decodeDepth (encodeDepth d) = d ∧ (encodeDepth d).toNat = d - 1) ∧
  (∀ bd : BitVec 13, encodeDepth (decodeDepth bd) = bd) ∧
  ∀ (v : Word) (h : Half),
    completed v h =
      if v.getLsbD (match h with | .ping => 1 | .pong => 9) then some h
      else if v.getLsbD (match h with | .ping => 9 | .pong => 1) then some (Half.other h)
      else none

/-- The namespace truth table: the four cases of direction and DMA mode, the namespace being BUS exactly when the
DIR and DMA bits are equal; a receive channel's two entries are (BUS, INBOUND) and (HOST, OUTBOUND), a
transmit channel's (BUS, OUTBOUND) and (HOST, INBOUND); every value of the two bits is one of the four
cases (R190). -/
def Obligations.NamespaceFollowsTheTruthTable : Prop :=
  (nsFor .rx .inbound = .bus ∧ nsFor .tx .outbound = .bus ∧ nsFor .tx .inbound = .host ∧
   nsFor .rx .outbound = .host) ∧
  (∀ dir dma, nsFor dir dma = if dir.code = dma.code then .bus else .host) ∧
  (∀ (ns : Ns) (dma : Dma),
    (nsFor .rx dma = ns ↔ (ns, dma) = (.bus, .inbound) ∨ (ns, dma) = (.host, .outbound)) ∧
    (nsFor .tx dma = ns ↔ (ns, dma) = (.bus, .outbound) ∨ (ns, dma) = (.host, .inbound))) ∧
  ∀ b : BitVec 1, (∃ dir : Dir, dir.code = b) ∧ ∃ dma : Dma, dma.code = b

/-- The FIFO law: fewer than `cap` enqueues started on an empty ring drop nothing, and the same number of
dequeues return their data in order, byte for byte (44_ring_buffer.md R233). -/
def Obligations.RingReturnsPacketsInOrder : Prop :=
  ∀ (cap size : Nat) (r : Ring) (ps : List (List Byte)), 2 ≤ cap → r.Wf cap size → r.empty = true →
    ps.length < cap →
    (dequeueAll cap ps.length (enqueueAll cap r ps)).1 = ps.map some ∧
    (enqueueAll cap r ps).dropcnt = r.dropcnt ∧
    (dequeueAll cap ps.length (enqueueAll cap r ps)).2.empty = true ∧
    ∀ i (h : i < ps.length), ((enqueueAll cap r (ps.take i)).enqueue cap ps[i]).2 = false

/-! ## Register Protocol (40_register_protocol.md) -/

/-- RP.WRITE_ROW completes: the row holds OP3 ++ OP2 ++ OP1 ++ OP0, DAT its words, ADR names the row (with WNR,
unless the read-back of READBACK_CHECK followed), the transaction is cleared, and nothing else moves but the
arming state when the row is a CAT row (R150, R152, R156). -/
def Obligations.WriteRowStoresTheOperands : Prop :=
  ∀ (s : State) (a : Agent) (off : RowOff), s.Ready a (.rpWriteRow off) → s.TableReady →
    reservedRow s.cfg off = false →
    ∃ t, exec (.rpWriteRow off) s = .next t ∧ Ended a s t .ok [] ∧
      t.row off = (s.ctx a).op[3] ++ (s.ctx a).op[2] ++ (s.ctx a).op[1] ++ (s.ctx a).op[0] ∧
      t.isWritten off = true ∧ KeepsRowsBut [off] s t ∧
      t.Idle ∧ t.dat = (s.ctx a).op ∧ WroteLast off t ∧
      (if isCatRow off then Rearmed s t else KeepsArming s t) ∧
      KeepsSoft [] [] s t ∧ KeepsCore a s t

/-- RP.READ_ROW of a written row completes: RES0 to RES3 and DAT take the row's words, ADR names the row, and no
row changes (R150, R153). -/
def Obligations.ReadRowReturnsTheRow : Prop :=
  ∀ (s : State) (a : Agent) (off : RowOff), s.Ready a (.rpReadRow off) → s.TableReady →
    reservedRow s.cfg off = false → s.isWritten off = true →
    ∃ t, exec (.rpReadRow off) s = .next t ∧
      Ended a s t .ok [(0, bits (s.row off) 0 32), (1, bits (s.row off) 32 32),
        (2, bits (s.row off) 64 32), (3, bits (s.row off) 96 32)] ∧
      OnlyRead off s t ∧ KeepsCore a s t

/-- A transaction on a reserved row (R38: 0x90 and above, and the CDT and ADT rows of channels NCH and above) is
fault ReservedRow before any register is written; RP.READ_ROW of a row never
written is fault UnwrittenRow, raised by the hardware's perform step with command word 0. The command had
taken the lock, which stays held, and does not end: its thread's RC and RES are as before (R150, R153,
10_state.md R39, 60_exceptions.md R333). -/
def Obligations.TransactionsFaultOnBadRows : Prop :=
  ∀ (s : State) (a : Agent) (off : RowOff),
    let reserved : Prop := 0x90 ≤ off.toNat ∨ (off.toNat < 0x40 ∧ s.cfg.nch ≤ off.toNat) ∨
      (0x40 ≤ off.toNat ∧ off.toNat < 0x80 ∧ s.cfg.nch ≤ off.toNat - 0x40)
    (∀ i : Instr, (i = .rpWriteRow off ∨ i = .rpReadRow off) → s.Ready a i → s.Still → s.lock = none →
      reserved →
      ∃ t, exec i s = .next t ∧ Faulted a .reservedRow s t ∧ t.lock = some a ∧ KeepsTable s t ∧
        KeepsSoft [] [] s t) ∧
    (s.Ready a (.rpReadRow off) → s.TableReady → ¬ reserved → s.isWritten off = false →
      ∃ t, exec (.rpReadRow off) s = .next t ∧
        t.fault = { flag := true, reason := some .unwrittenRow, cmd := 0, agent := some .hw } ∧
        (t.ctx a).rc = (s.ctx a).rc ∧ (∀ i, (t.ctx a).resRead i = (s.ctx a).resRead i) ∧
        t.lock = some a ∧ KeepsRowsBut [] s t ∧ KeepsSoft [] [] s t ∧ KeepsOthers a s t)

/-- A row access that sees no XCMP ends with RegisterTimeout after its polls, the transaction cleared, the lock
free and RES as before. With hardware that neither performs nor signals every row is as before; a write that
the hardware performs and never signals leaves the new row all the same. ADR and DAT hold what the access
wrote (R150, R152, R153, 47_hardware_agent.md R310, R318, 93_implementation_defined.md I3). -/
def Obligations.SilentHardwareTimesOut : Prop :=
  ∀ (s : State) (a : Agent) (off : RowOff),
    (∀ i : Instr, (i = .rpWriteRow off ∨ i = .rpReadRow off) → s.Ready a i → s.Silent → s.Idle →
      s.lock = none → reservedRow s.cfg off = false →
      ∃ t, exec i s = .next t ∧ Ended a s t .registerTimeout [] ∧ t.Idle ∧
        (i = .rpWriteRow off → t.adr = 0x80000000 ||| off.setWidth 32 ∧ t.dat = (s.ctx a).op) ∧
        (i = .rpReadRow off → t.adr = off.setWidth 32 ∧ t.dat = s.dat) ∧
        KeepsRowsBut [] s t ∧ KeepsArming s t ∧ KeepsSoft [] [] s t ∧ KeepsCore a s t) ∧
    (s.Ready a (.rpWriteRow off) → s.env.script = [] → s.env.rest = [.hw .perform] → s.Idle →
      s.lock = none → reservedRow s.cfg off = false →
      ∃ t, exec (.rpWriteRow off) s = .next t ∧ Ended a s t .registerTimeout [] ∧ t.Idle ∧
        t.row off = (s.ctx a).op[3] ++ (s.ctx a).op[2] ++ (s.ctx a).op[1] ++ (s.ctx a).op[0] ∧
        t.isWritten off = true ∧ KeepsRowsBut [off] s t ∧
        t.adr = 0x80000000 ||| off.setWidth 32 ∧ t.dat = (s.ctx a).op ∧
        (if isCatRow off then Rearmed s t else KeepsArming s t) ∧ KeepsSoft [] [] s t ∧ KeepsCore a s t)

/-- RP.CAT_WRITE completes: the sub-field of the namespace and channel is V16, and every other sub-field and
row is as before (R154). -/
def Obligations.CatWritePatchesOneSubField : Prop :=
  ∀ (s : State) (a : Agent) (ns : Ns) (ch : Chan) (v : SubField), s.Ready a (.rpCatWrite ns ch v) →
    s.TableReady → s.isWritten (catOff ns ch) = true →
    ∃ t, exec (.rpCatWrite ns ch v) s = .next t ∧ Ended a s t .ok [] ∧
      t.catEntry ns ch = v ∧ KeepsEntriesBut [(ns, ch)] s t ∧ KeepsRowsBut [catOff ns ch] s t ∧
      t.isWritten (catOff ns ch) = true ∧ t.Idle ∧ Rearmed s t ∧
      KeepsSoft [] [] s t ∧ KeepsCore a s t

/-! ## CDT Manager (41_cdt.md) -/

/-- CDT.INIT with a valid offset and depth completes: the row holds BA, BD and BS, every other bit 0, for
every channel type and direction (R171). -/
def Obligations.CdtInitProgramsTheRow : Prop :=
  ∀ (s : State) (a : Agent) (ch : Chan) (ty : ChType) (dir : Dir), s.Ready a (.cdtInit ch ty dir) →
    s.TableReady → (s.ctx a).op[0].toNat < 2 ^ 16 → validDepth s.cfg ty (s.ctx a).op[1].toNat = true →
    ∃ t, exec (.cdtInit ch ty dir) s = .next t ∧ Ended a s t .ok [] ∧
      bits (t.row (cdtOff ch)) 0 16 = (s.ctx a).op[0].setWidth 16 ∧
      bits (t.row (cdtOff ch)) 16 13 = BitVec.ofNat 13 ((s.ctx a).op[1].toNat - 1) ∧
      bits (t.row (cdtOff ch)) 32 9 = (if ty = .iso then BitVec.ofNat 9 s.cfg.isoBs else 0) ∧
      bits (t.row (cdtOff ch)) 29 3 = 0 ∧ bits (t.row (cdtOff ch)) 41 87 = 0 ∧
      t.isWritten (cdtOff ch) = true ∧ KeepsRowsBut [cdtOff ch] s t ∧ KeepsArming s t ∧ t.Idle ∧
      KeepsSoft [] [] s t ∧ KeepsCore a s t

/-- A bad operand ends the command before any register access: CDT.INIT with an offset of 2^16 or more or an
invalid depth and ADT.INIT with a depth of 0 or above 8192 in ValidationError; ADT.INIT with a valid depth and an
address that is not a multiple of 4 in fault Misaligned, and with two such multiples of which one passes 2^32
in fault AddressWrap; ADT.REARM with an address that is not a multiple of 4 in fault Misaligned, and with a
multiple and a done-status word that shows no half done in NoCompletion (R171, 43_adt.md R211, R213). -/
def Obligations.BadOperandsTouchNothing : Prop :=
  ∀ (s : State) (a : Agent), s.Still →
    let op := (s.ctx a).op
    let rejected (i : Instr) (rc : RC) := ∃ t, exec i s = .next t ∧ Ended a s t rc [] ∧
      KeepsTable s t ∧ KeepsSoft [] [] s t ∧ KeepsCore a s t
    let turned (i : Instr) (f : FReason) := ∃ t, exec i s = .next t ∧ TurnedAway a f s t
    (∀ ch ty dir, s.Ready a (.cdtInit ch ty dir) →
      (2 ^ 16 ≤ op[0].toNat ∨ validDepth s.cfg ty op[1].toNat = false) →
      rejected (.cdtInit ch ty dir) .validationError) ∧
    (∀ ch ty, s.Ready a (.adtInit ch ty) →
      (op[2].toNat < 1 ∨ 8192 < op[2].toNat → rejected (.adtInit ch ty) .validationError) ∧
      (1 ≤ op[2].toNat → op[2].toNat ≤ 8192 →
        (op[0].toNat % 4 ≠ 0 ∨ op[1].toNat % 4 ≠ 0 → turned (.adtInit ch ty) .misaligned) ∧
        (op[0].toNat % 4 = 0 → op[1].toNat % 4 = 0 →
          (2 ^ 32 < op[0].toNat + op[2].toNat ∨ 2 ^ 32 < op[1].toNat + op[2].toNat) →
          turned (.adtInit ch ty) .addressWrap))) ∧
    (∀ ch, s.Ready a (.adtRearm ch) →
      (op[1].toNat % 4 ≠ 0 → turned (.adtRearm ch) .misaligned) ∧
      (op[1].toNat % 4 = 0 → op[0].getLsbD 1 = false → op[0].getLsbD 9 = false →
        rejected (.adtRearm ch) .noCompletion))

/-- CDT.CLEAR_STS completes: RES0 is the raised bits of the mask, those bits of STS are 0 afterwards, and
every other bit of every row is as before (R173). -/
def Obligations.ClearStsReadsAndClears : Prop :=
  ∀ (s : State) (a : Agent) (ch : Chan) (mask : BitVec 4), s.Ready a (.cdtClearSts ch mask) →
    s.TableReady → s.isWritten (cdtOff ch) = true →
    ∃ t, exec (.cdtClearSts ch mask) s = .next t ∧
      Ended a s t .ok [(0, (stsOf (s.row (cdtOff ch)) &&& mask).setWidth 32)] ∧
      stsOf (t.row (cdtOff ch)) = stsOf (s.row (cdtOff ch)) &&& ~~~mask ∧
      (∀ k, k < 48 ∨ 52 ≤ k → (t.row (cdtOff ch)).getLsbD k = (s.row (cdtOff ch)).getLsbD k) ∧
      t.isWritten (cdtOff ch) = true ∧ KeepsRowsBut [cdtOff ch] s t ∧ KeepsArming s t ∧ t.Idle ∧
      KeepsSoft [] [] s t ∧ KeepsCore a s t

/-! ## CAT Manager (42_cat.md) -/

/-- CAT.INIT completes: the entry in the namespace the truth table names holds CL, CT, CE, RNW and LCK with
the reserved bits 0, and every other sub-field and row is as before (R190, R191). -/
def Obligations.CatInitProgramsTheEntry : Prop :=
  ∀ (s : State) (a : Agent) (ch : Chan) (ty : ChType) (dir : Dir) (dma : Dma) (en : Bool),
    s.Ready a (.catInit ch ty dir dma en) → s.TableReady →
    s.isWritten (catOff (nsFor dir dma) ch) = true →
    ∃ t, exec (.catInit ch ty dir dma en) s = .next t ∧ Ended a s t .ok [] ∧
      t.catEntry (nsFor dir dma) ch = catValue ch ty dma en ∧
      KeepsEntriesBut [(nsFor dir dma, ch)] s t ∧ KeepsRowsBut [catOff (nsFor dir dma) ch] s t ∧
      t.isWritten (catOff (nsFor dir dma) ch) = true ∧ t.Idle ∧ Rearmed s t ∧
      KeepsSoft [] [] s t ∧ KeepsCore a s t

/-- CDT.RESET_ALL completes: the CDT row of every channel of the engine is 0, and no other row changes
(R172). CAT.RESET_ALL completes: the 16 CAT rows are 0, so that no channel is armed, and no other row changes
(R192). -/
def Obligations.ResetAllZeroesTheTable : Prop :=
  ∀ (s : State) (a : Agent), s.TableReady →
    (s.Ready a .cdtResetAll → s.cfg.nch ≤ 64 →
      ∃ t, exec .cdtResetAll s = .next t ∧ Ended a s t .ok [] ∧
        (∀ ch : Chan, ch.toNat < s.cfg.nch → t.row (cdtOff ch) = 0 ∧ t.isWritten (cdtOff ch) = true) ∧
        (∀ off : RowOff, s.cfg.nch ≤ off.toNat →
          t.row off = s.row off ∧ t.isWritten off = s.isWritten off) ∧
        KeepsArming s t ∧ t.Idle ∧ KeepsSoft [] [] s t ∧ KeepsCore a s t) ∧
    (s.Ready a .catResetAll →
      ∃ t, exec .catResetAll s = .next t ∧ Ended a s t .ok [] ∧
        (∀ off, isCatRow off = true → t.row off = 0 ∧ t.isWritten off = true) ∧
        (∀ off, isCatRow off = false → t.row off = s.row off ∧ t.isWritten off = s.isWritten off) ∧
        (∀ ch, t.armed ch = false) ∧ Rearmed s t ∧ t.Idle ∧ KeepsSoft [] [] s t ∧ KeepsCore a s t)

/-- CAT.UNMUTE_SYNC on a running and locked bus completes: CE is 1 in the four entries, their other bits and
every other sub-field and row are as before, RES0 is 0; RX = TX is allowed (R194). -/
def Obligations.UnmuteSyncEnablesFourEntries : Prop :=
  ∀ (s : State) (a : Agent) (rx tx : Chan), s.Ready a (.catUnmuteSync rx tx) → s.TableReady →
    s.bstat.getLsbD 0 = true → s.bstat.getLsbD 1 = true → 1 ≤ s.cfg.unmuteRetries →
    (∀ ns, s.isWritten (catOff ns rx) = true ∧ s.isWritten (catOff ns tx) = true) →
    ∃ t, exec (.catUnmuteSync rx tx) s = .next t ∧ Ended a s t .ok [(0, 0)] ∧
      (∀ ns ch, ch = rx ∨ ch = tx → t.catEntry ns ch = s.catEntry ns ch ||| 0x0800) ∧
      KeepsEntriesBut [(.bus, rx), (.host, rx), (.bus, tx), (.host, tx)] s t ∧
      KeepsRowsBut [catOff .bus rx, catOff .host rx, catOff .bus tx, catOff .host tx] s t ∧
      t.Idle ∧ Rearmed s t ∧ KeepsSoft [] [] s t ∧ KeepsCore a s t

/-- CAT.UNMUTE_SYNC while the bus clock does not run, or does not lock, exhausts its polls and returns
RegisterTimeout with cause 1 or 2 in RES0, and no table row and no register is touched (R193, R194). -/
def Obligations.UnmuteSyncOnAnUnlockedBusTouchesNothing : Prop :=
  ∀ (s : State) (a : Agent) (rx tx : Chan), s.Ready a (.catUnmuteSync rx tx) → s.Still →
    (s.bstat.getLsbD 0 = false →
      ∃ t, exec (.catUnmuteSync rx tx) s = .next t ∧ Ended a s t .registerTimeout [(0, 1)] ∧
        KeepsTable s t ∧ KeepsSoft [] [] s t ∧ KeepsCore a s t) ∧
    (s.bstat.getLsbD 0 = true → 1 ≤ s.cfg.unmuteRetries → s.bstat.getLsbD 1 = false →
      ∃ t, exec (.catUnmuteSync rx tx) s = .next t ∧ Ended a s t .registerTimeout [(0, 2)] ∧
        KeepsTable s t ∧ KeepsSoft [] [] s t ∧ KeepsCore a s t)

/-! ## ADT Manager (43_adt.md) -/

/-- ADT.INIT completes: both halves hold their address and depth, PS is set for the control and async types,
CE is 1, no half is armed, every other bit is 0, and `sw_half` is PING (R211). -/
def Obligations.AdtInitProgramsBothHalves : Prop :=
  ∀ (s : State) (a : Agent) (ch : Chan) (ty : ChType), s.Ready a (.adtInit ch ty) → s.TableReady →
    let p := (s.ctx a).op[0]
    let q := (s.ctx a).op[1]
    let d := (s.ctx a).op[2].toNat
    1 ≤ d → d ≤ 8192 → aligned p = true → aligned q = true → wraps p d = false → wraps q d = false →
    ∃ t, exec (.adtInit ch ty) s = .next t ∧ Ended a s t .ok [] ∧
      (let r := t.row (adtOff ch)
       addrOf r .ping = p ∧ addrOf r .pong = q ∧
       (∀ h, bdOf r h = BitVec.ofNat 13 (d - 1) ∧ psOf r h = decide (ty = .control ∨ ty = .async) ∧
         rdyOf r h = false ∧ dneOf r h = false ∧ errOf r h = false) ∧
       contOf r = true ∧ bits r 77 3 = 0 ∧ bits r 93 3 = 0 ∧ bits r 100 4 = 0 ∧ bits r 108 4 = 0 ∧
       bits r 113 15 = 0) ∧
      t.isWritten (adtOff ch) = true ∧ KeepsRowsBut [adtOff ch] s t ∧ KeepsArming s t ∧ t.Idle ∧
      t.sw ch = .ping ∧ KeepsSoft [ch] [] s t ∧ KeepsCore a s t

/-- ADT.REARM completes: the completed half is armed with the address, its DNE and ERR cleared, every other bit
of the row and every other row as before, `sw_half` is the other half, RES0 names the half. Of a half that is
ready already it is fault DoubleArm, and with an address whose range passes 2^32 fault AddressWrap: the row has
been read and nothing more, and the lock is free again (R210, R213). -/
def Obligations.RearmHandsTheCompletedHalfBack : Prop :=
  ∀ (s : State) (a : Agent) (ch : Chan) (h : Half), s.Ready a (.adtRearm ch) → s.TableReady →
    aligned (s.ctx a).op[1] = true → completed (s.ctx a).op[0] (s.sw ch) = some h →
    s.isWritten (adtOff ch) = true →
    let old := s.row (adtOff ch)
    let wrap := wraps (s.ctx a).op[1] (decodeDepth (bdOf old h))
    let stopped (f : FReason) := ∃ t, exec (.adtRearm ch) s = .next t ∧ Faulted a f s t ∧
      OnlyRead (adtOff ch) s t ∧ t.lock = none
    (rdyOf old h = true → stopped .doubleArm) ∧
    (rdyOf old h = false → wrap = true → stopped .addressWrap) ∧
    (rdyOf old h = false → wrap = false →
      ∃ t, exec (.adtRearm ch) s = .next t ∧ Ended a s t .ok [(0, BitVec.ofNat 32 (Half.idx h))] ∧
        (let r := t.row (adtOff ch)
         addrOf r h = (s.ctx a).op[1] ∧ rdyOf r h = true ∧ dneOf r h = false ∧ errOf r h = false ∧
         ∀ k, (k < 32 * Half.idx h ∨ 32 * Half.idx h + 32 ≤ k) → (k < flagLo h ∨ flagLo h + 3 ≤ k) →
           r.getLsbD k = old.getLsbD k) ∧
        t.isWritten (adtOff ch) = true ∧ KeepsRowsBut [adtOff ch] s t ∧ KeepsArming s t ∧ t.Idle ∧
        t.sw ch = Half.other h ∧ KeepsSoft [ch] [] s t ∧ KeepsCore a s t)

/-! ## Ring Buffer (44_ring_buffer.md) -/

/-- RB.TRY_ENQUEUE never waits: the slot at `widx` takes the bytes and `widx` advances, RES0 is 0; on a full ring
the drop target takes them, `dropcnt` counts one more, and the command ends Dropped with RES0 = 1. A packet
stored wakes the threads blocked in a read of the node, a dropped one nobody. It takes no lock and makes no
transaction. On a node without a ring it is fault NotOpen, with a range that passes 2^32 fault AddressWrap, and
nothing else moves (R230, 45_channel.md R272 a). -/
def Obligations.TryEnqueueNeverWaits : Prop :=
  ∀ (s : State) (n : NodeNo), s.Ready .hd (.rbTryEnqueue n) → s.Still →
    let data := memReadBytes s.mem (s.ctx .hd).op[0].toNat (s.cfg.slot n)
    let cap := s.cfg.cap n
    let wrap := wraps (s.ctx .hd).op[0] (s.cfg.slot n)
    let turned (f : FReason) := ∃ t, exec (.rbTryEnqueue n) s = .next t ∧ TurnedAway .hd f s t
    ((s.node n).ring = none → turned .notOpen) ∧
    ((s.node n).ring ≠ none → wrap = true → turned .addressWrap) ∧
    ∀ r : Ring, (s.node n).ring = some r → wrap = false → ∃ t, exec (.rbTryEnqueue n) s = .next t ∧
      (if (r.widx + 1) % cap = r.ridx then
        Ended .hd s t .dropped [(0, 1)] ∧
        t.node n = { s.node n with ring := some { r with
          slots := r.slots.set cap (some data)
          dropcnt := r.dropcnt + 1 } } ∧
        KeepsOthers .hd s t
       else
        Ended .hd s t .ok [(0, 0)] ∧
        t.node n = { s.node n with ring := some { r with
          slots := r.slots.set r.widx (some data)
          widx := (r.widx + 1) % cap } } ∧
        Rechecks (fun x => x.waitsIn (readsFrom n)) .hd s t) ∧
      KeepsTable s t ∧ KeepsSoft [] [n] s t ∧ KeepsEngine s t

/-- RB.DEQUEUE of a ring that is not empty completes, blocking or not: the slot at `ridx` is copied to the
destination, no other byte of memory changes, `ridx` advances, RES0 is the slot size. Its checks, in their order:
a node without a ring is fault NotOpen, a node that has a consumer ConcurrentConsumer, a destination shorter
than a slot ShortBuffer, a range that passes 2^32 AddressWrap, and nothing else moves (R232). -/
def Obligations.DequeueCopiesTheOldestPacket : Prop :=
  ∀ (s : State) (a : Agent) (n : NodeNo) (blk : Bool), s.Ready a (.rbDequeue n blk) → s.Still →
    let x := s.node n
    let dst := (s.ctx a).op[0]
    let len := (s.ctx a).op[1].toNat
    let slot := s.cfg.slot n
    let turned (f : FReason) := ∃ t, exec (.rbDequeue n blk) s = .next t ∧ TurnedAway a f s t
    (x.ring = none → turned .notOpen) ∧
    (x.ring ≠ none → x.consumer ≠ none → turned .concurrentConsumer) ∧
    (x.ring ≠ none → x.consumer = none → len < slot → turned .shortBuffer) ∧
    (x.ring ≠ none → x.consumer = none → slot ≤ len → wraps dst slot = true → turned .addressWrap) ∧
    ∀ (r : Ring) (data : List Byte), memWf s.mem → x.ring = some r → r.Wf (s.cfg.cap n) slot →
      r.ridx ≠ r.widx → r.slots[r.ridx]? = some (some data) → x.consumer = none → slot ≤ len →
      wraps dst slot = false →
      ∃ t, exec (.rbDequeue n blk) s = .next t ∧ Ended a s t .ok [(0, BitVec.ofNat 32 slot)] ∧
        (∀ k, k < slot → memRead t.mem (dst.toNat + k) = data.getD k 0) ∧
        KeepsMemBut dst.toNat slot s t ∧
        t.node n = { x with ring := some { r with ridx := (r.ridx + 1) % s.cfg.cap n } } ∧
        KeepsNodesBut [n] s t ∧ KeepsTable s t ∧ KeepsStatus s t ∧ KeepsMasks s t ∧ KeepsConfig s t ∧
        KeepsSwBut [] s t ∧ t.logcnt = s.logcnt ∧ KeepsCore a s t

/-- RB.DEQUEUE of an empty ring: without BLK it returns WouldBlock at once and changes nothing; with BLK its
thread is blocked with the command in progress, as the node's consumer, RC and RES as before, and cannot
move; once a packet is enqueued it can move again; a signal ends it with Interrupted, and it is the consumer
no more (R230, R232, 45_channel.md R272). -/
def Obligations.DequeueOfAnEmptyRing : Prop :=
  ∀ (s : State) (k : Nat) (n : NodeNo) (r : Ring), s.Still → (s.node n).ring = some r → r.ridx = r.widx →
    (s.node n).consumer = none → s.cfg.slot n ≤ (s.ctx (.host k)).op[1].toNat →
    wraps (s.ctx (.host k)).op[0] (s.cfg.slot n) = false →
    (s.Ready (.host k) (.rbDequeue n false) →
      ∃ t, exec (.rbDequeue n false) s = .next t ∧ Ended (.host k) s t .wouldBlock [] ∧
        KeepsTable s t ∧ KeepsSoft [] [] s t ∧ KeepsCore (.host k) s t) ∧
    (s.Ready (.host k) (.rbDequeue n true) → s.lock ≠ some (.host k) →
      (s.ctx (.host k)).woken = false →
      ∃ t, exec (.rbDequeue n true) s = .next t ∧
        (t.ctx (.host k)).blocked = true ∧ (t.ctx (.host k)).task.isSome = true ∧
        (t.ctx (.host k)).rc = (s.ctx (.host k)).rc ∧
        (∀ i, (t.ctx (.host k)).resRead i = (s.ctx (.host k)).resRead i) ∧
        t.canMove (.host k) = false ∧
        (2 ≤ s.cfg.cap n → ∀ b, wraps b (s.cfg.slot n) = false →
          (Act.apply .hd t (.enqueue n b)).state.canMove (.host k) = true) ∧
        t.node n = { s.node n with consumer := some (.host k) } ∧
        KeepsTable s t ∧ KeepsSoft [] [n] s t ∧ KeepsCore (.host k) s t ∧
        Ended (.host k) s ((t.signalThread k).resume (.host k)) .interrupted [] ∧
        (((t.signalThread k).resume (.host k)).node n) = s.node n)

/-! ## Channel lifecycle (45_channel.md) -/

/-- CH.OPEN of an open node counts one reference more, CH.CLOSE of a node with more than one reference one
less; nothing else changes, and the lifecycle mutex is given back. CH.OPEN with 2^32 - 1 references is fault
RefOverflow with the count as it was; that the mutex is then held is the model's reading (R250, R255, R273,
notes/assumptions/11.md). -/
def Obligations.OpenAndCloseCountReferences : Prop :=
  ∀ (s : State) (a : Agent) (n : NodeNo), s.Still → s.lock ≠ some a → (s.node n).nm = none →
    (s.Ready a (.chOpen n) → (s.node n).refcnt ≠ 0 → (s.node n).refcnt ≠ 0xFFFFFFFF →
      ∃ t, exec (.chOpen n) s = .next t ∧ Ended a s t .ok [] ∧
        t.node n = { s.node n with refcnt := (s.node n).refcnt + 1 } ∧
        KeepsTable s t ∧ KeepsSoft [] [n] s t ∧ KeepsCore a s t) ∧
    (s.Ready a (.chOpen n) → (s.node n).refcnt = 0xFFFFFFFF →
      ∃ t, exec (.chOpen n) s = .next t ∧ Faulted a .refOverflow s t ∧
        t.node n = { s.node n with nm := some a } ∧
        KeepsTable s t ∧ KeepsSoft [] [n] s t ∧ t.lock = s.lock) ∧
    (s.Ready a (.chClose n) → (s.node n).refcnt ≠ 0 → (s.node n).refcnt ≠ 1 →
      ∃ t, exec (.chClose n) s = .next t ∧ Ended a s t .ok [] ∧
        t.node n = { s.node n with refcnt := (s.node n).refcnt - 1 } ∧
        KeepsTable s t ∧ KeepsSoft [] [n] s t ∧ KeepsCore a s t)

/-- The first CH.OPEN completes when the allocator answers legal buffers and the depth and the offsets are
valid: the node is Configured with one reference, an empty ring and the buffers; the CDT and ADT rows and the
four CAT entries of its channels hold what CDT.INIT, ADT.INIT and CAT.INIT with EN = 0 write; when
every other node is Closed the other CDT rows and CAT entries are 0, else they are as before (R250, R251).
Without every other node Closed, the four CAT rows must have been written. -/
def Obligations.FirstOpenConfiguresTheNode : Prop :=
  ∀ (s : State) (a : Agent) (n : NodeNo) (b : Bufs) (more : List (Option Bufs)),
    let c := s.cfg
    let x := s.node n
    let ty := c.nodeType n
    let d := c.depth n
    let alone := ∀ m : NodeNo, m.toNat < c.nnodes → m ≠ n → (s.node m).lstate = .closed
    s.Ready a (.chOpen n) → s.TableReady → c.ok = true → x.nm = none → x.refcnt = 0 →
    s.env.allocs = some b :: more → legalBufs d b = true → validDepth c ty d = true → d ≤ 8192 →
    c.dbrOffset x.rxCh < 2 ^ 16 → c.dbrOffset x.txCh < 2 ^ 16 →
    x.rxCh.toNat < c.nch → x.txCh.toNat < c.nch → x.rxCh ≠ x.txCh →
    (alone ∨ ∀ ns, s.isWritten (catOff ns x.rxCh) = true ∧ s.isWritten (catOff ns x.txCh) = true) →
    ∃ t, exec (.chOpen n) s = .next t ∧ Ended a s t .ok [] ∧
      t.node n = { x with
        lstate := .configured
        refcnt := 1
        exc := 0
        txBusy := false
        bufs := some b
        ring := some { slots := List.replicate (c.cap n + 1) none, widx := 0, ridx := 0, dropcnt := 0 } } ∧
      (∀ ch, ch = x.rxCh ∨ ch = x.txCh →
        t.row (cdtOff ch) = cdtRow (BitVec.ofNat 16 (c.dbrOffset ch)) (BitVec.ofNat 13 (d - 1))
          (if ty = .iso then BitVec.ofNat 9 c.isoBs else 0) ∧
        t.isWritten (cdtOff ch) = true ∧ t.isWritten (adtOff ch) = true ∧
        ∀ ns, t.isWritten (catOff ns ch) = true) ∧
      t.row (adtOff x.rxCh) = adtRow b.rxPing b.rxPong (BitVec.ofNat 13 (d - 1))
        (decide (ty = .control ∨ ty = .async)) ∧
      t.row (adtOff x.txCh) = adtRow b.txPing b.txPong (BitVec.ofNat 13 (d - 1))
        (decide (ty = .control ∨ ty = .async)) ∧
      t.catEntry .bus x.rxCh = catValue x.rxCh ty .inbound false ∧
      t.catEntry .host x.rxCh = catValue x.rxCh ty .outbound false ∧
      t.catEntry .bus x.txCh = catValue x.txCh ty .outbound false ∧
      t.catEntry .host x.txCh = catValue x.txCh ty .inbound false ∧
      (alone →
        (∀ ch : Chan, ch.toNat < c.nch → ch ≠ x.rxCh → ch ≠ x.txCh → t.row (cdtOff ch) = 0) ∧
        (∀ ns ch, ch ≠ x.rxCh → ch ≠ x.txCh → t.catEntry ns ch = 0) ∧
        (∀ off : RowOff, c.nch ≤ off.toNat → isCatRow off = false → off ≠ adtOff x.rxCh →
          off ≠ adtOff x.txCh → t.row off = s.row off ∧ t.isWritten off = s.isWritten off)) ∧
      (¬ alone →
        KeepsEntriesBut [(.bus, x.rxCh), (.host, x.rxCh), (.bus, x.txCh), (.host, x.txCh)] s t ∧
        KeepsRowsBut [cdtOff x.rxCh, cdtOff x.txCh, adtOff x.rxCh, adtOff x.txCh, catOff .bus x.rxCh,
          catOff .host x.rxCh, catOff .bus x.txCh, catOff .host x.txCh] s t) ∧
      t.sw x.rxCh = .ping ∧ t.sw x.txCh = .ping ∧ t.Idle ∧ Rearmed s t ∧
      KeepsSoft [x.rxCh, x.txCh] [n] s t ∧ KeepsCore a s t

/-- A first CH.OPEN that the allocator refuses returns AllocFailed: the node is Closed, and nothing else has
changed (R250, R251). -/
def Obligations.RefusedAllocationLeavesTheNodeClosed : Prop :=
  ∀ (s : State) (a : Agent) (n : NodeNo) (more : List (Option Bufs)), s.Ready a (.chOpen n) → s.Still →
    s.lock ≠ some a → (s.node n).nm = none → (s.node n).refcnt = 0 → s.env.allocs = none :: more →
    ∃ t, exec (.chOpen n) s = .next t ∧ Ended a s t .allocFailed [] ∧
      t.node n = { s.node n with lstate := .closed } ∧
      KeepsTable s t ∧ KeepsSoft [] [n] s t ∧ KeepsCore a s t

/-- The last CH.CLOSE completes: the CAT entries and the CDT and ADT rows of the node's channels are 0, every
other entry and row is as before, the node is Closed without ring and buffers, every thread blocked on it is
woken, and the four mask bits are cleared when it was Started (R255, R256). -/
def Obligations.LastCloseTearsTheNodeDown : Prop :=
  ∀ (s : State) (a : Agent) (n : NodeNo),
    let x := s.node n
    let both := chanBit x.rxCh ||| chanBit x.txCh
    s.Ready a (.chClose n) → s.TableReady → x.nm = none → x.refcnt = 1 →
    x.rxCh.toNat < s.cfg.nch → x.txCh.toNat < s.cfg.nch →
    (∀ ns, s.isWritten (catOff ns x.rxCh) = true ∧ s.isWritten (catOff ns x.txCh) = true) →
    ∃ t, exec (.chClose n) s = .next t ∧ Ended a s t .ok [] ∧
      t.node n = { x with
        lstate := .closed, refcnt := 0, exc := 0, txBusy := false, bufs := none, ring := none } ∧
      (∀ ch, ch = x.rxCh ∨ ch = x.txCh →
        t.row (cdtOff ch) = 0 ∧ t.row (adtOff ch) = 0 ∧ t.isWritten (cdtOff ch) = true ∧
        t.isWritten (adtOff ch) = true ∧ ∀ ns, t.catEntry ns ch = 0 ∧ t.isWritten (catOff ns ch) = true) ∧
      KeepsEntriesBut [(.bus, x.rxCh), (.host, x.rxCh), (.bus, x.txCh), (.host, x.txCh)] s t ∧
      KeepsRowsBut [cdtOff x.rxCh, cdtOff x.txCh, adtOff x.rxCh, adtOff x.txCh, catOff .bus x.rxCh,
        catOff .host x.rxCh, catOff .bus x.txCh, catOff .host x.txCh] s t ∧
      t.hcMsk = (if x.lstate = .started then s.hcMsk &&& ~~~both else s.hcMsk) ∧
      t.busMsk = (if x.lstate = .started then s.busMsk &&& ~~~both else s.busMsk) ∧
      WakesNode n a s t ∧ t.Idle ∧ Rearmed s t ∧ KeepsEngine s t ∧ KeepsStatus s t ∧
      KeepsConfig s t ∧ KeepsSwBut [] s t ∧ KeepsNodesBut [n] s t ∧ t.logcnt = s.logcnt ∧ KeepsMem s t

/-- CH.START of a Configured or Stopped node completes, a sync node's with the bus running and locked: CE is 1
in the four CAT entries (set in the old value for sync, written by CAT.INIT for the others), both receive
halves are armed and both transmit halves idle, stale status is dropped, the four mask bits are set, the
node is Started with `tx_busy` 0, and threads blocked in a write to it are woken. CH.START of a sync node while
the bus clock does not run or the bus is not locked returns BusNotLocked: the CAT entries, every other row, the
masks and the node are as before, and only the stale status of its channels is dropped (R258, R259, R272 a). -/
def Obligations.StartEnablesTheNode : Prop :=
  ∀ (s : State) (a : Agent) (n : NodeNo),
    let x := s.node n
    let ty := s.cfg.nodeType n
    let both := chanBit x.rxCh ||| chanBit x.txCh
    s.Ready a (.chStart n) → x.nm = none → x.lstate = .configured ∨ x.lstate = .stopped →
    (s.Still → s.lock ≠ some a → ty = .sync → s.bstat.getLsbD 0 = false ∨ s.bstat.getLsbD 1 = false →
      ∃ t, exec (.chStart n) s = .next t ∧ Ended a s t .busNotLocked [] ∧
        t.hcSts = s.hcSts &&& ~~~both ∧ t.hcErr = s.hcErr &&& ~~~both ∧ KeepsTable s t ∧ KeepsMasks s t ∧
        KeepsConfig s t ∧ KeepsSwBut [] s t ∧ KeepsNodesBut [] s t ∧ t.logcnt = s.logcnt ∧ KeepsMem s t ∧
        KeepsCore a s t) ∧
    (s.TableReady → x.rxCh.toNat < s.cfg.nch → x.txCh.toNat < s.cfg.nch → x.rxCh ≠ x.txCh →
      (∀ ns, s.isWritten (catOff ns x.rxCh) = true ∧ s.isWritten (catOff ns x.txCh) = true) →
      s.isWritten (adtOff x.rxCh) = true → s.isWritten (adtOff x.txCh) = true →
      (ty = .sync → s.bstat.getLsbD 0 = true ∧ s.bstat.getLsbD 1 = true ∧ 1 ≤ s.cfg.unmuteRetries) →
      ∃ t, exec (.chStart n) s = .next t ∧ Ended a s t .ok [] ∧
        t.node n = { x with lstate := .started, txBusy := false } ∧
        (if ty = .sync then
          ∀ ns ch, ch = x.rxCh ∨ ch = x.txCh → t.catEntry ns ch = s.catEntry ns ch ||| 0x0800
         else
          t.catEntry .bus x.rxCh = catValue x.rxCh ty .inbound true ∧
          t.catEntry .host x.rxCh = catValue x.rxCh ty .outbound true ∧
          t.catEntry .bus x.txCh = catValue x.txCh ty .outbound true ∧
          t.catEntry .host x.txCh = catValue x.txCh ty .inbound true) ∧
        (∀ ch, ch = x.rxCh ∨ ch = x.txCh →
          (∀ h, rdyOf (t.row (adtOff ch)) h = decide (ch = x.rxCh) ∧
            dneOf (t.row (adtOff ch)) h = false ∧ errOf (t.row (adtOff ch)) h = false) ∧
          (∀ k, (k < 96 ∨ 99 ≤ k) → (k < 104 ∨ 107 ≤ k) →
            (t.row (adtOff ch)).getLsbD k = (s.row (adtOff ch)).getLsbD k) ∧
          t.isWritten (adtOff ch) = true ∧ (∀ ns, t.isWritten (catOff ns ch) = true) ∧ t.sw ch = .ping) ∧
        t.hcSts = s.hcSts &&& ~~~both ∧ t.hcErr = s.hcErr &&& ~~~both ∧
        t.hcMsk = s.hcMsk ||| both ∧ t.busMsk = s.busMsk ||| both ∧
        KeepsEntriesBut [(.bus, x.rxCh), (.host, x.rxCh), (.bus, x.txCh), (.host, x.txCh)] s t ∧
        KeepsRowsBut [adtOff x.rxCh, adtOff x.txCh, catOff .bus x.rxCh, catOff .host x.rxCh,
          catOff .bus x.txCh, catOff .host x.txCh] s t ∧
        t.Idle ∧ Rearmed s t ∧ KeepsConfig s t ∧ KeepsSwBut [x.rxCh, x.txCh] s t ∧
        KeepsNodesBut [n] s t ∧ t.logcnt = s.logcnt ∧ KeepsMem s t ∧ KeepsEngine s t ∧
        Rechecks (fun x => x.waitsIn (writesTo n)) a s t)

/-- CH.STOP of a Started node completes: the four mask bits are 0, CE is 0 in the four CAT entries with their
other bits as before, the node is Stopped, every thread blocked on it is woken; ADT rows, ring, buffers and
`tx_busy` are as before (R262). -/
def Obligations.StopDisablesTheNode : Prop :=
  ∀ (s : State) (a : Agent) (n : NodeNo),
    let x := s.node n
    let both := chanBit x.rxCh ||| chanBit x.txCh
    s.Ready a (.chStop n) → s.TableReady → x.nm = none → x.lstate = .started →
    (∀ ns, s.isWritten (catOff ns x.rxCh) = true ∧ s.isWritten (catOff ns x.txCh) = true) →
    ∃ t, exec (.chStop n) s = .next t ∧ Ended a s t .ok [] ∧
      t.node n = { x with lstate := .stopped } ∧
      (∀ ns ch, ch = x.rxCh ∨ ch = x.txCh → t.catEntry ns ch = s.catEntry ns ch &&& ~~~0x0800) ∧
      KeepsEntriesBut [(.bus, x.rxCh), (.host, x.rxCh), (.bus, x.txCh), (.host, x.txCh)] s t ∧
      KeepsRowsBut [catOff .bus x.rxCh, catOff .host x.rxCh, catOff .bus x.txCh, catOff .host x.txCh] s t ∧
      (∀ ns, t.isWritten (catOff ns x.rxCh) = true ∧ t.isWritten (catOff ns x.txCh) = true) ∧
      t.hcMsk = s.hcMsk &&& ~~~both ∧ t.busMsk = s.busMsk &&& ~~~both ∧
      WakesNode n a s t ∧ t.Idle ∧ Rearmed s t ∧ KeepsEngine s t ∧ KeepsStatus s t ∧
      KeepsConfig s t ∧ KeepsSwBut [] s t ∧ KeepsNodesBut [n] s t ∧ t.logcnt = s.logcnt ∧ KeepsMem s t

/-- In a lifecycle state that does not allow them, CH.START, CH.STOP and CH.SET_CHANNEL_ADDRESSES return
InvalidState and change nothing; CH.CLOSE without a reference, and CH.WRITE, CH.GET_EXCEPTIONS and
CH.POLL_READINESS on a Closed or Configuring node, are fault NotOpen, with every node as before. The last
three take no lifecycle mutex and find it held by the opener of a Configuring node (R249, R255, R258, R262,
R265, R268 to R270, R273). -/
def Obligations.CommandsCheckTheLifecycle : Prop :=
  ∀ (s : State) (a : Agent) (n : NodeNo) (i : Instr), s.Ready a i → s.Still →
    (s.lock ≠ some a → (s.node n).nm = none →
     ((i = .chStart n ∧ (s.node n).lstate ≠ .configured ∧ (s.node n).lstate ≠ .stopped) ∨
      (i = .chStop n ∧ (s.node n).lstate ≠ .started) ∨
      (i = .chSetChannelAddresses n ∧ (s.node n).lstate ≠ .closed)) →
      ∃ t, exec i s = .next t ∧ Ended a s t .invalidState [] ∧
        KeepsTable s t ∧ KeepsSoft [] [] s t ∧ KeepsCore a s t) ∧
    ((i = .chClose n ∧ (s.node n).refcnt = 0 ∧ (s.node n).nm = none ∧ s.lock ≠ some a) ∨
     ((i = .chWrite n ∨ i = .chGetExceptions n ∨ i = .chPollReadiness n) ∧
      ((s.node n).lstate = .closed ∨ (s.node n).lstate = .configuring)) →
      ∃ t, exec i s = .next t ∧ TurnedAway a .notOpen s t)

/-! ## Data path, queries and configuration calls (45_channel.md) -/

/-- CH.WRITE of an open node that is not busy completes: the frame is copied to the transmit half `sw_half` names,
byte for byte as it was, that half is armed with its length, `tx_busy` is 1, `sw_half` is the other half,
RES0 is the length; no other byte of memory and no other bit of the row changes. A length of 0 or above the
depth is fault BadLength, a source range that passes 2^32 AddressWrap, and nothing else moves; a half that is
ready already is fault DoubleArm: the row has been read and nothing more, and the lock is free again (R265).
That a half whose own range passes 2^32 is fault AddressWrap at that point is the model's reading
(notes/assumptions/17.md). -/
def Obligations.WriteArmsTheFrame : Prop :=
  ∀ (s : State) (a : Agent) (n : NodeNo),
    let x := s.node n
    let src := (s.ctx a).op[0]
    let len := (s.ctx a).op[1].toNat
    let h := s.sw x.txCh
    let r := s.row (adtOff x.txCh)
    let dst := (addrOf r h).toNat
    let turned (f : FReason) := ∃ t, exec (.chWrite n) s = .next t ∧ TurnedAway a f s t
    let stopped (f : FReason) := ∃ t, exec (.chWrite n) s = .next t ∧ Faulted a f s t ∧
      OnlyRead (adtOff x.txCh) s t ∧ t.lock = none
    s.Ready a (.chWrite n) → x.lstate ≠ .closed → x.lstate ≠ .configuring →
    (s.Still → (len < 1 ∨ s.cfg.depth n < len → turned .badLength) ∧
      (1 ≤ len → len ≤ s.cfg.depth n → wraps src len = true → turned .addressWrap)) ∧
    (s.TableReady → 1 ≤ len → len ≤ s.cfg.depth n → wraps src len = false → x.txBusy = false →
      x.txCh.toNat < s.cfg.nch → s.isWritten (adtOff x.txCh) = true →
      (rdyOf r h = true → stopped .doubleArm) ∧
      (rdyOf r h = false → wraps (addrOf r h) len = true → stopped .addressWrap) ∧
      (memWf s.mem → rdyOf r h = false → wraps (addrOf r h) len = false →
        ∃ t, exec (.chWrite n) s = .next t ∧ Ended a s t .ok [(0, (s.ctx a).op[1])] ∧
          (∀ k, k < len → memRead t.mem (dst + k) = memRead s.mem (src.toNat + k)) ∧
          KeepsMemBut dst len s t ∧
          (let q := t.row (adtOff x.txCh)
           bdOf q h = BitVec.ofNat 13 (len - 1) ∧ rdyOf q h = true ∧ dneOf q h = false ∧ errOf q h = false ∧
           ∀ k, (k < 64 + 16 * Half.idx h ∨ 64 + 16 * Half.idx h + 13 ≤ k) →
             (k < flagLo h ∨ flagLo h + 3 ≤ k) → q.getLsbD k = r.getLsbD k) ∧
          t.isWritten (adtOff x.txCh) = true ∧ KeepsRowsBut [adtOff x.txCh] s t ∧ KeepsArming s t ∧ t.Idle ∧
          t.node n = { x with txBusy := true } ∧ t.sw x.txCh = Half.other h ∧ KeepsStatus s t ∧
          KeepsMasks s t ∧ KeepsConfig s t ∧ KeepsSwBut [x.txCh] s t ∧ KeepsNodesBut [n] s t ∧
          t.logcnt = s.logcnt ∧ KeepsCore a s t))

/-- CH.WRITE of a busy node blocks its thread with the command in progress: the lock is free again, nothing has
changed, RC and RES are as before, and the thread cannot move; once a transmit completion has cleared
`tx_busy` it can; a signal ends the command with Interrupted (R265, R272, R293). That the step of a teardown
that clears `tx_busy` does not let it move is no rule of the spec but the model's reading
(notes/assumptions/24.md). -/
def Obligations.WriteWaitsWhileBusy : Prop :=
  ∀ (s : State) (k : Nat) (n : NodeNo), s.Ready (.host k) (.chWrite n) → s.Still → s.lock = none →
    (s.node n).lstate ≠ .closed → (s.node n).lstate ≠ .configuring →
    1 ≤ (s.ctx (.host k)).op[1].toNat → (s.ctx (.host k)).op[1].toNat ≤ s.cfg.depth n →
    wraps (s.ctx (.host k)).op[0] (s.ctx (.host k)).op[1].toNat = false → (s.node n).txBusy = true →
    (s.ctx (.host k)).woken = false →
    ∃ t, exec (.chWrite n) s = .next t ∧
      (t.ctx (.host k)).blocked = true ∧ (t.ctx (.host k)).task.isSome = true ∧
      (t.ctx (.host k)).rc = (s.ctx (.host k)).rc ∧
      (∀ i, (t.ctx (.host k)).resRead i = (s.ctx (.host k)).resRead i) ∧
      t.canMove (.host k) = false ∧
      (Act.apply .hd t (.setBusy n false)).state.canMove (.host k) = true ∧
      (∀ b, (Act.apply b t (.clearPending n)).state.canMove (.host k) = false) ∧
      KeepsTable s t ∧ KeepsSoft [] [] s t ∧ KeepsCore (.host k) s t ∧
      Ended (.host k) s ((t.signalThread k).resume (.host k)) .interrupted []

/-- CH.GET_EXCEPTIONS completes: RES0 is the pending bitmap, which is 0 afterwards (R268). CH.POLL_READINESS
completes: RES0 holds the three readiness bits, RES1 the drop counter, and nothing changes (R270). -/
def Obligations.QueriesAnswerFromTheNode : Prop :=
  ∀ (s : State) (a : Agent) (n : NodeNo), s.Still → (s.node n).lstate ≠ .closed →
    (s.node n).lstate ≠ .configuring →
    (s.Ready a (.chGetExceptions n) →
      ∃ t, exec (.chGetExceptions n) s = .next t ∧
        Ended a s t .ok [(0, (s.node n).exc.setWidth 32)] ∧ t.node n = { s.node n with exc := 0 } ∧
        KeepsTable s t ∧ KeepsSoft [] [n] s t ∧ KeepsCore a s t) ∧
    (∀ r, s.Ready a (.chPollReadiness n) → (s.node n).ring = some r →
      ∃ t, exec (.chPollReadiness n) s = .next t ∧
        Ended a s t .ok
          [(0, (if r.ridx ≠ r.widx then 1 else 0) ||| (if (s.node n).txBusy then 0 else 2) |||
            (if (s.node n).exc ≠ 0 then 4 else 0)), (1, r.dropcnt)] ∧
        KeepsTable s t ∧ KeepsSoft [] [] s t ∧ KeepsCore a s t)

/-- CH.SET_CHANNEL_ADDRESSES of a Closed node: two different channels of the engine that no other node uses become
the node's; any other pair is ValidationError and changes nothing (R269). -/
def Obligations.SetChannelAddressesChecksThePair : Prop :=
  ∀ (s : State) (a : Agent) (n : NodeNo),
    let p := (s.ctx a).op[0]
    let q := (s.ctx a).op[1]
    let used := ∃ m : NodeNo, m.toNat < s.cfg.nnodes ∧ m ≠ n ∧
      ((s.node m).rxCh.toNat = p.toNat ∨ (s.node m).rxCh.toNat = q.toNat ∨
       (s.node m).txCh.toNat = p.toNat ∨ (s.node m).txCh.toNat = q.toNat)
    let bad := s.cfg.nch ≤ p.toNat ∨ s.cfg.nch ≤ q.toNat ∨ p = q ∨ used
    s.Ready a (.chSetChannelAddresses n) → s.Still → s.lock ≠ some a → (s.node n).nm = none →
    (s.node n).lstate = .closed → s.cfg.nch ≤ 64 →
    ∃ t, exec (.chSetChannelAddresses n) s = .next t ∧ KeepsTable s t ∧ KeepsCore a s t ∧
      (bad → Ended a s t .validationError [] ∧ KeepsSoft [] [] s t) ∧
      (¬ bad → Ended a s t .ok [] ∧ (t.node n).rxCh.toNat = p.toNat ∧ (t.node n).txCh.toNat = q.toNat ∧
        t.node n = { s.node n with rxCh := (t.node n).rxCh, txCh := (t.node n).txCh } ∧
        KeepsSoft [] [n] s t)

/-- SET_BUS_CLOCK_CLASS and SET_DEVICE_BUS_ADDRESS store OP0 in BUS_CLK_CLASS and DEV_ADDR, any value of it;
GET_PROTOCOL_VERSION returns VERSION in RES0 and changes nothing (R275 to R277). -/
def Obligations.ConfigurationCallsAccessTheirRegisters : Prop :=
  ∀ (s : State) (a : Agent), s.Still →
    (s.Ready a .setBusClockClass →
      ∃ t, exec .setBusClockClass s = .next t ∧ Ended a s t .ok [] ∧
        t.readReg .busClkClass = (s.ctx a).op[0] ∧ t.devAddr = s.devAddr ∧
        KeepsTable s t ∧ KeepsStatus s t ∧ KeepsMasks s t ∧ KeepsSwBut [] s t ∧ KeepsNodesBut [] s t ∧
        t.logcnt = s.logcnt ∧ KeepsMem s t ∧ KeepsCore a s t) ∧
    (s.Ready a .setDeviceBusAddress →
      ∃ t, exec .setDeviceBusAddress s = .next t ∧ Ended a s t .ok [] ∧
        t.readReg .devAddr = (s.ctx a).op[0] ∧ t.busClkClass = s.busClkClass ∧
        KeepsTable s t ∧ KeepsStatus s t ∧ KeepsMasks s t ∧ KeepsSwBut [] s t ∧ KeepsNodesBut [] s t ∧
        t.logcnt = s.logcnt ∧ KeepsMem s t ∧ KeepsCore a s t) ∧
    (s.Ready a .getProtocolVersion →
      ∃ t, exec .getProtocolVersion s = .next t ∧ Ended a s t .ok [(0, s.cfg.protocolVersion)] ∧
        KeepsTable s t ∧ KeepsSoft [] [] s t ∧ KeepsCore a s t)

/-! ## Interrupt Dispatcher (46_interrupt_dispatch.md) -/

/-- IRQ.HOST_DISPATCH over any set of channels none of which is the error-free receive channel of a Started node:
the status bits of the snapshot and their error bits are acknowledged; every Started node whose transmit
channel completed without error is no longer busy, and threads blocked in a write to it are woken; every other
channel of the snapshot is logged once and skipped; nothing else changes (R291, R293, R272 a). -/
def Obligations.HostDispatchServesTransmitCompletions : Prop :=
  ∀ s : State,
    let sts := s.hcSts &&& s.hcMsk
    let served (n : NodeNo) : Prop := n.toNat < s.cfg.nnodes ∧ (s.node n).lstate = .started ∧
      sts.getLsbD (s.node n).txCh.toNat = true ∧ s.hcErr.getLsbD (s.node n).txCh.toNat = false
    s.Ready .hd .irqHostDispatch → s.Still → s.cfg.ok = true → s.hcSts &&& ~~~validChans s.cfg = 0 →
    (∀ n m : NodeNo, n.toNat < s.cfg.nnodes → m.toNat < s.cfg.nnodes →
      (s.node n).txCh = (s.node m).txCh → n = m) →
    (∀ n : NodeNo, n.toNat < s.cfg.nnodes → (s.node n).lstate = .started →
      sts.getLsbD (s.node n).rxCh.toNat = true → s.hcErr.getLsbD (s.node n).rxCh.toNat = true) →
    ∃ t, exec .irqHostDispatch s = .next t ∧ Returned .hd s t ∧
      t.hcSts = s.hcSts &&& ~~~sts ∧ t.hcErr = s.hcErr &&& ~~~(sts &&& s.hcErr) ∧
      (∀ n, (served n → t.node n = { s.node n with txBusy := false }) ∧
        (¬ served n → t.node n = s.node n)) ∧
      (∀ l : List Chan, l.Nodup →
        (∀ ch : Chan, ch ∈ l ↔ sts.getLsbD ch.toNat = true ∧ ¬ ∃ n, served n ∧ (s.node n).txCh = ch) →
        t.logcnt = s.logcnt + BitVec.ofNat 32 l.length) ∧
      KeepsTable s t ∧ KeepsMasks s t ∧ KeepsConfig s t ∧ KeepsSwBut [] s t ∧ KeepsMem s t ∧
      KeepsEngine s t ∧ Rechecks (fun x => ∃ n, served n ∧ x.waitsIn (writesTo n)) .hd s t

/-- IRQ.HOST_DISPATCH of one error-free receive completion of a Started node: the half's bytes are enqueued in the
node's ring, which wakes the threads blocked in a read of it (or dropped when it is full), the same half is
armed again with its own address, `sw_half` is the other half, the status bit is acknowledged, ADR and DAT are
those of that row write, and nothing else changes (R291, R292, R272 a). -/
def Obligations.HostDispatchServesAReceiveCompletion : Prop :=
  ∀ (s : State) (n : NodeNo) (r : Ring) (h : Half),
    let ch := (s.node n).rxCh
    let row := s.row (adtOff ch)
    s.Ready .hd .irqHostDispatch → s.TableReady → s.cfg.ok = true → n.toNat < s.cfg.nnodes →
    (s.node n).lstate = .started → ch.toNat < s.cfg.nch →
    (∀ m : NodeNo, m.toNat < s.cfg.nnodes → (s.node m).rxCh = ch → m = n) →
    s.hcSts &&& s.hcMsk = chanBit ch → s.hcErr.getLsbD ch.toNat = false →
    (s.node n).ring = some r → s.isWritten (adtOff ch) = true →
    completed (bits row 96 32) (s.sw ch) = some h → errOf row h = false → rdyOf row h = false →
    aligned (addrOf row h) = true → wraps (addrOf row h) (s.cfg.slot n) = false →
    wraps (addrOf row h) (decodeDepth (bdOf row h)) = false →
    ∃ t, exec .irqHostDispatch s = .next t ∧ Returned .hd s t ∧
      t.hcSts = s.hcSts &&& ~~~chanBit ch ∧ t.hcErr = s.hcErr ∧
      t.node n = { s.node n with
        ring := some (r.enqueue (s.cfg.cap n)
          (memReadBytes s.mem (addrOf row h).toNat (s.cfg.slot n))).1 } ∧
      (let q := t.row (adtOff ch)
       rdyOf q h = true ∧ dneOf q h = false ∧ errOf q h = false ∧
       ∀ k, (k < flagLo h ∨ flagLo h + 3 ≤ k) → q.getLsbD k = row.getLsbD k) ∧
      t.isWritten (adtOff ch) = true ∧ KeepsRowsBut [adtOff ch] s t ∧ KeepsArming s t ∧ t.Idle ∧
      WroteLast (adtOff ch) t ∧ t.sw ch = Half.other h ∧ KeepsMasks s t ∧ KeepsConfig s t ∧ KeepsSwBut [ch] s t ∧
      KeepsNodesBut [n] s t ∧ t.logcnt = s.logcnt ∧ KeepsMem s t ∧ KeepsEngine s t ∧
      (if (r.widx + 1) % s.cfg.cap n = r.ridx then KeepsOthers .hd s t
       else Rechecks (fun x => x.waitsIn (readsFrom n)) .hd s t)

/-- IRQ.BUS_DISPATCH completes: the status nibble of every unmasked channel is read and cleared, every other bit of
every row is as before, every open node has the nibbles of its channels ORed into its pending exceptions, and
a nibble of no open node is logged (R295). -/
def Obligations.BusDispatchPostsTheNibbles : Prop :=
  ∀ s : State,
    let on (ch : Chan) : Prop := ch.toNat < s.cfg.nch ∧ s.busMsk.getLsbD ch.toNat = true
    let nib (ch : Chan) : BitVec 4 :=
      if ch.toNat < s.cfg.nch ∧ s.busMsk.getLsbD ch.toNat = true then stsOf (s.row (cdtOff ch)) else 0
    let opened (n : NodeNo) : Prop := n.toNat < s.cfg.nnodes ∧ (s.node n).lstate ≠ .closed
    s.Ready .bd .irqBusDispatch → s.TableReady → s.cfg.ok = true →
    (∀ ch, on ch → s.isWritten (cdtOff ch) = true) →
    (∀ n m : NodeNo, opened n → opened m →
      ((s.node n).rxCh = (s.node m).rxCh ∨ (s.node n).rxCh = (s.node m).txCh ∨
       (s.node n).txCh = (s.node m).txCh) → n = m) →
    ∃ t, exec .irqBusDispatch s = .next t ∧ Returned .bd s t ∧
      (∀ ch, on ch → stsOf (t.row (cdtOff ch)) = 0 ∧
        ∀ k, k < 48 ∨ 52 ≤ k → (t.row (cdtOff ch)).getLsbD k = (s.row (cdtOff ch)).getLsbD k) ∧
      (∀ off, (∀ ch, on ch → off ≠ cdtOff ch) → t.row off = s.row off) ∧
      (∀ off, t.isWritten off = s.isWritten off) ∧
      (∀ n, (opened n → t.node n = { s.node n with
          exc := (s.node n).exc ||| nib (s.node n).rxCh ||| nib (s.node n).txCh }) ∧
        (¬ opened n → t.node n = s.node n)) ∧
      (∀ l : List Chan, l.Nodup →
        (∀ ch : Chan, ch ∈ l ↔ nib ch ≠ 0 ∧
          ¬ ∃ n, opened n ∧ ((s.node n).rxCh = ch ∨ (s.node n).txCh = ch)) →
        t.logcnt = s.logcnt + BitVec.ofNat 32 l.length) ∧
      KeepsArming s t ∧ t.Idle ∧ KeepsStatus s t ∧ KeepsMasks s t ∧ KeepsConfig s t ∧
      KeepsSwBut [] s t ∧ KeepsMem s t ∧ KeepsCore .bd s t

end
end

