-- ==== Sys2Proof/Laws/Bits.lean ====
section
/-! SUPPORT. Bit fields: what a field of a concatenation is, and what a field of a row reads after
`setField`. -/

namespace Sys2Proof.Machine

/-- A field of a concatenation that lies in its low part. -/
theorem bits_append_low {n m : Nat} (a : BitVec n) (b : BitVec m) (lo len : Nat) (h : lo + len ≤ m) :
    bits (a ++ b) lo len = bits b lo len := by
  ext i hi
  simp [BitVec.getLsbD_append]
  omega

/-- A field of a concatenation that lies in its high part. -/
theorem bits_append_high {n m : Nat} (a : BitVec n) (b : BitVec m) (lo len : Nat) (h : m ≤ lo) :
    bits (a ++ b) lo len = bits a (lo - m) len := by
  ext i hi
  have : ¬ lo + i < m := by omega
  simp [BitVec.getLsbD_append, this]
  congr 1
  omega

/-- A field that is the whole vector. -/
@[simp] theorem bits_whole {n : Nat} (a : BitVec n) : bits a 0 n = a := by simp [bits]

/-- Each bit of a row after `setField`. -/
theorem getLsbD_setField {len : Nat} (v : Row) (lo : Nat) (x : BitVec len) (i : Nat) :
    (setField v lo x).getLsbD i =
      if lo ≤ i ∧ i < lo + len ∧ i < 128 then x.getLsbD (i - lo) else v.getLsbD i := by
  by_cases h128 : i < 128
  · simp only [setField, BitVec.getLsbD_or, BitVec.getLsbD_and, BitVec.getLsbD_not,
      BitVec.getLsbD_shiftLeft, BitVec.getLsbD_setWidth, BitVec.getLsbD_allOnes, h128]
    by_cases h1 : lo ≤ i
    · by_cases h2 : i < lo + len
      · have : i - lo < len := by omega
        have h3 : ¬ i < lo := by omega
        have h4 : i - lo < 128 := by omega
        simp [h1, h2, h3, h4, this]
      · have : ¬ i - lo < len := by omega
        have h5 : x.getLsbD (i - lo) = false := BitVec.getLsbD_of_ge _ _ (by omega)
        simp [h2, this, h5]
    · have h3 : i < lo := by omega
      simp [h1, h3]
  · rw [BitVec.getLsbD_of_ge _ _ (by omega), BitVec.getLsbD_of_ge v _ (by omega)]
    simp [h128]

/-- A field reads what was put into it. -/
theorem bits_setField_same {len : Nat} (v : Row) (lo : Nat) (x : BitVec len) (h : lo + len ≤ 128) :
    bits (setField v lo x) lo len = x := by
  ext i hi
  simp only [BitVec.getElem_extractLsb', getLsbD_setField]
  rw [if_pos (by omega), Nat.add_sub_cancel_left, BitVec.getLsbD_eq_getElem hi]

/-- A field that shares no bit with the one put is unchanged. -/
theorem bits_setField_other {len : Nat} (v : Row) (lo : Nat) (x : BitVec len) (lo' len' : Nat)
    (h : lo' + len' ≤ lo ∨ lo + len ≤ lo') :
    bits (setField v lo x) lo' len' = bits v lo' len' := by
  ext i hi
  simp only [BitVec.getElem_extractLsb', getLsbD_setField]
  rw [if_neg (by omega)]

/-- A bit outside the field put is unchanged. -/
theorem bit_setField_other {len : Nat} (v : Row) (lo : Nat) (x : BitVec len) (i : Nat)
    (h : i < lo ∨ lo + len ≤ i) : (setField v lo x).getLsbD i = v.getLsbD i := by
  rw [getLsbD_setField, if_neg (by omega)]

/-! ## Rows and words -/

/-- The words of the row made of four words. -/
theorem rowOf_words (v : Row) (w : Vector Word 4) :
    rowOf ((((w.set 0 (rowWord v 0)).set 1 (rowWord v 1)).set 2 (rowWord v 2)).set 3 (rowWord v 3)) = v := by
  have e : ∀ x0 x1 x2 x3 : Word,
      rowOf ((((w.set 0 x0).set 1 x1).set 2 x2).set 3 x3) = x3 ++ x2 ++ x1 ++ x0 := by
    intro x0 x1 x2 x3
    simp [rowOf]
  rw [e]
  apply BitVec.eq_of_getLsbD_eq
  intro i hi
  simp only [BitVec.getLsbD_append, rowWord, bits, BitVec.getLsbD_extractLsb']
  by_cases h0 : i < 32
  · simp [h0]
  · by_cases h1 : i < 64
    · have : i - 32 < 32 := by omega
      simp [h0, this]; congr 1; omega
    · by_cases h2 : i < 96
      · have h3 : ¬ i - 32 < 32 := by omega
        have h4 : i - 32 - 32 < 32 := by omega
        simp [h0, h3, h4]; congr 1; omega
      · have h3 : ¬ i - 32 < 32 := by omega
        have h4 : ¬ i - 32 - 32 < 32 := by omega
        have h5 : i - 32 - 32 - 32 < 32 := by omega
        simp [h0, h3, h4, h5]; congr 1; omega

/-- The four words of `v` are the words `wordsOf` lists. -/
theorem set_words (v : Row) (w : Vector Word 4) :
    (((w.set 0 (rowWord v 0)).set 1 (rowWord v 1)).set 2 (rowWord v 2)).set 3 (rowWord v 3)
      = wordsOf v := by
  ext i hi
  simp only [wordsOf, Vector.getElem_set, Vector.getElem_ofFn]
  have : i = 0 ∨ i = 1 ∨ i = 2 ∨ i = 3 := by omega
  rcases this with rfl | rfl | rfl | rfl <;> rfl

@[simp] theorem rowOf_wordsOf (v : Row) : rowOf (wordsOf v) = v := by
  rw [← set_words v (Vector.replicate 4 0), rowOf_words]

/-! ## CAT sub-fields (R42) -/

theorem subLo_le (ch : Chan) : subLo ch + 16 ≤ 128 := by
  simp only [subLo]; omega

/-- The sub-field put is the one read. -/
theorem getSub_putSub_same (v : Row) (ch : Chan) (x : SubField) : getSub (putSub v ch x) ch = x :=
  bits_setField_same v _ x (subLo_le ch)

/-- A sub-field of another position is unchanged. -/
theorem getSub_putSub_other (v : Row) (ch c : Chan) (x : SubField)
    (h : c.toNat % 8 ≠ ch.toNat % 8) : getSub (putSub v ch x) c = getSub v c := by
  refine bits_setField_other v _ x _ _ ?_
  simp only [subLo]
  omega

end Sys2Proof.Machine
end

