-- ==== Sys2Proof/Laws/State.lean ====
section
/-! SUPPORT. One lemma per field per named update of the state: what an update leaves unchanged, so that no
later proof unfolds a record update, and what its own accessor reads after it. -/

namespace Sys2Proof.Machine

variable (s : State)

/-! ### setCtx -/

@[simp] theorem setCtx_cfg (a : Agent) (x : Ctx) : (s.setCtx a x).cfg = s.cfg := by cases a <;> rfl
@[simp] theorem setCtx_dat (a : Agent) (x : Ctx) : (s.setCtx a x).dat = s.dat := by cases a <;> rfl
@[simp] theorem setCtx_adr (a : Agent) (x : Ctx) : (s.setCtx a x).adr = s.adr := by cases a <;> rfl
@[simp] theorem setCtx_ctl (a : Agent) (x : Ctx) : (s.setCtx a x).ctl = s.ctl := by cases a <;> rfl
@[simp] theorem setCtx_bstat (a : Agent) (x : Ctx) : (s.setCtx a x).bstat = s.bstat := by cases a <;> rfl
@[simp] theorem setCtx_hcSts (a : Agent) (x : Ctx) : (s.setCtx a x).hcSts = s.hcSts := by cases a <;> rfl
@[simp] theorem setCtx_hcErr (a : Agent) (x : Ctx) : (s.setCtx a x).hcErr = s.hcErr := by cases a <;> rfl
@[simp] theorem setCtx_hcMsk (a : Agent) (x : Ctx) : (s.setCtx a x).hcMsk = s.hcMsk := by cases a <;> rfl
@[simp] theorem setCtx_busMsk (a : Agent) (x : Ctx) : (s.setCtx a x).busMsk = s.busMsk := by cases a <;> rfl
@[simp] theorem setCtx_busClkClass (a : Agent) (x : Ctx) : (s.setCtx a x).busClkClass = s.busClkClass := by cases a <;> rfl
@[simp] theorem setCtx_devAddr (a : Agent) (x : Ctx) : (s.setCtx a x).devAddr = s.devAddr := by cases a <;> rfl
@[simp] theorem setCtx_rows (a : Agent) (x : Ctx) : (s.setCtx a x).rows = s.rows := by cases a <;> rfl
@[simp] theorem setCtx_written (a : Agent) (x : Ctx) : (s.setCtx a x).written = s.written := by cases a <;> rfl
@[simp] theorem setCtx_txPending (a : Agent) (x : Ctx) : (s.setCtx a x).txPending = s.txPending := by cases a <;> rfl
@[simp] theorem setCtx_txPerformed (a : Agent) (x : Ctx) : (s.setCtx a x).txPerformed = s.txPerformed := by cases a <;> rfl
@[simp] theorem setCtx_swHalf (a : Agent) (x : Ctx) : (s.setCtx a x).swHalf = s.swHalf := by cases a <;> rfl
@[simp] theorem setCtx_hwHalf (a : Agent) (x : Ctx) : (s.setCtx a x).hwHalf = s.hwHalf := by cases a <;> rfl
@[simp] theorem setCtx_armedPrev (a : Agent) (x : Ctx) : (s.setCtx a x).armedPrev = s.armedPrev := by cases a <;> rfl
@[simp] theorem setCtx_nodes (a : Agent) (x : Ctx) : (s.setCtx a x).nodes = s.nodes := by cases a <;> rfl
@[simp] theorem setCtx_lock (a : Agent) (x : Ctx) : (s.setCtx a x).lock = s.lock := by cases a <;> rfl
@[simp] theorem setCtx_logcnt (a : Agent) (x : Ctx) : (s.setCtx a x).logcnt = s.logcnt := by cases a <;> rfl
@[simp] theorem setCtx_fault (a : Agent) (x : Ctx) : (s.setCtx a x).fault = s.fault := by cases a <;> rfl
@[simp] theorem setCtx_mem (a : Agent) (x : Ctx) : (s.setCtx a x).mem = s.mem := by cases a <;> rfl
@[simp] theorem setCtx_cur (a : Agent) (x : Ctx) : (s.setCtx a x).cur = s.cur := by cases a <;> rfl
@[simp] theorem setCtx_presented (a : Agent) (x : Ctx) : (s.setCtx a x).presented = s.presented := by cases a <;> rfl
@[simp] theorem setCtx_env (a : Agent) (x : Ctx) : (s.setCtx a x).env = s.env := by cases a <;> rfl

/-! ### setNode -/

@[simp] theorem setNode_cfg (n : NodeNo) (x : Node) : (s.setNode n x).cfg = s.cfg := rfl
@[simp] theorem setNode_dat (n : NodeNo) (x : Node) : (s.setNode n x).dat = s.dat := rfl
@[simp] theorem setNode_adr (n : NodeNo) (x : Node) : (s.setNode n x).adr = s.adr := rfl
@[simp] theorem setNode_ctl (n : NodeNo) (x : Node) : (s.setNode n x).ctl = s.ctl := rfl
@[simp] theorem setNode_bstat (n : NodeNo) (x : Node) : (s.setNode n x).bstat = s.bstat := rfl
@[simp] theorem setNode_hcSts (n : NodeNo) (x : Node) : (s.setNode n x).hcSts = s.hcSts := rfl
@[simp] theorem setNode_hcErr (n : NodeNo) (x : Node) : (s.setNode n x).hcErr = s.hcErr := rfl
@[simp] theorem setNode_hcMsk (n : NodeNo) (x : Node) : (s.setNode n x).hcMsk = s.hcMsk := rfl
@[simp] theorem setNode_busMsk (n : NodeNo) (x : Node) : (s.setNode n x).busMsk = s.busMsk := rfl
@[simp] theorem setNode_busClkClass (n : NodeNo) (x : Node) : (s.setNode n x).busClkClass = s.busClkClass := rfl
@[simp] theorem setNode_devAddr (n : NodeNo) (x : Node) : (s.setNode n x).devAddr = s.devAddr := rfl
@[simp] theorem setNode_rows (n : NodeNo) (x : Node) : (s.setNode n x).rows = s.rows := rfl
@[simp] theorem setNode_written (n : NodeNo) (x : Node) : (s.setNode n x).written = s.written := rfl
@[simp] theorem setNode_txPending (n : NodeNo) (x : Node) : (s.setNode n x).txPending = s.txPending := rfl
@[simp] theorem setNode_txPerformed (n : NodeNo) (x : Node) : (s.setNode n x).txPerformed = s.txPerformed := rfl
@[simp] theorem setNode_swHalf (n : NodeNo) (x : Node) : (s.setNode n x).swHalf = s.swHalf := rfl
@[simp] theorem setNode_hwHalf (n : NodeNo) (x : Node) : (s.setNode n x).hwHalf = s.hwHalf := rfl
@[simp] theorem setNode_armedPrev (n : NodeNo) (x : Node) : (s.setNode n x).armedPrev = s.armedPrev := rfl
@[simp] theorem setNode_lock (n : NodeNo) (x : Node) : (s.setNode n x).lock = s.lock := rfl
@[simp] theorem setNode_logcnt (n : NodeNo) (x : Node) : (s.setNode n x).logcnt = s.logcnt := rfl
@[simp] theorem setNode_fault (n : NodeNo) (x : Node) : (s.setNode n x).fault = s.fault := rfl
@[simp] theorem setNode_mem (n : NodeNo) (x : Node) : (s.setNode n x).mem = s.mem := rfl
@[simp] theorem setNode_threads (n : NodeNo) (x : Node) : (s.setNode n x).threads = s.threads := rfl
@[simp] theorem setNode_hd (n : NodeNo) (x : Node) : (s.setNode n x).hd = s.hd := rfl
@[simp] theorem setNode_bd (n : NodeNo) (x : Node) : (s.setNode n x).bd = s.bd := rfl
@[simp] theorem setNode_cur (n : NodeNo) (x : Node) : (s.setNode n x).cur = s.cur := rfl
@[simp] theorem setNode_presented (n : NodeNo) (x : Node) : (s.setNode n x).presented = s.presented := rfl
@[simp] theorem setNode_env (n : NodeNo) (x : Node) : (s.setNode n x).env = s.env := rfl

/-! ### setSw -/

@[simp] theorem setSw_cfg (ch : Chan) (h : Half) : (s.setSw ch h).cfg = s.cfg := rfl
@[simp] theorem setSw_dat (ch : Chan) (h : Half) : (s.setSw ch h).dat = s.dat := rfl
@[simp] theorem setSw_adr (ch : Chan) (h : Half) : (s.setSw ch h).adr = s.adr := rfl
@[simp] theorem setSw_ctl (ch : Chan) (h : Half) : (s.setSw ch h).ctl = s.ctl := rfl
@[simp] theorem setSw_bstat (ch : Chan) (h : Half) : (s.setSw ch h).bstat = s.bstat := rfl
@[simp] theorem setSw_hcSts (ch : Chan) (h : Half) : (s.setSw ch h).hcSts = s.hcSts := rfl
@[simp] theorem setSw_hcErr (ch : Chan) (h : Half) : (s.setSw ch h).hcErr = s.hcErr := rfl
@[simp] theorem setSw_hcMsk (ch : Chan) (h : Half) : (s.setSw ch h).hcMsk = s.hcMsk := rfl
@[simp] theorem setSw_busMsk (ch : Chan) (h : Half) : (s.setSw ch h).busMsk = s.busMsk := rfl
@[simp] theorem setSw_busClkClass (ch : Chan) (h : Half) : (s.setSw ch h).busClkClass = s.busClkClass := rfl
@[simp] theorem setSw_devAddr (ch : Chan) (h : Half) : (s.setSw ch h).devAddr = s.devAddr := rfl
@[simp] theorem setSw_rows (ch : Chan) (h : Half) : (s.setSw ch h).rows = s.rows := rfl
@[simp] theorem setSw_written (ch : Chan) (h : Half) : (s.setSw ch h).written = s.written := rfl
@[simp] theorem setSw_txPending (ch : Chan) (h : Half) : (s.setSw ch h).txPending = s.txPending := rfl
@[simp] theorem setSw_txPerformed (ch : Chan) (h : Half) : (s.setSw ch h).txPerformed = s.txPerformed := rfl
@[simp] theorem setSw_hwHalf (ch : Chan) (h : Half) : (s.setSw ch h).hwHalf = s.hwHalf := rfl
@[simp] theorem setSw_armedPrev (ch : Chan) (h : Half) : (s.setSw ch h).armedPrev = s.armedPrev := rfl
@[simp] theorem setSw_nodes (ch : Chan) (h : Half) : (s.setSw ch h).nodes = s.nodes := rfl
@[simp] theorem setSw_lock (ch : Chan) (h : Half) : (s.setSw ch h).lock = s.lock := rfl
@[simp] theorem setSw_logcnt (ch : Chan) (h : Half) : (s.setSw ch h).logcnt = s.logcnt := rfl
@[simp] theorem setSw_fault (ch : Chan) (h : Half) : (s.setSw ch h).fault = s.fault := rfl
@[simp] theorem setSw_mem (ch : Chan) (h : Half) : (s.setSw ch h).mem = s.mem := rfl
@[simp] theorem setSw_threads (ch : Chan) (h : Half) : (s.setSw ch h).threads = s.threads := rfl
@[simp] theorem setSw_hd (ch : Chan) (h : Half) : (s.setSw ch h).hd = s.hd := rfl
@[simp] theorem setSw_bd (ch : Chan) (h : Half) : (s.setSw ch h).bd = s.bd := rfl
@[simp] theorem setSw_cur (ch : Chan) (h : Half) : (s.setSw ch h).cur = s.cur := rfl
@[simp] theorem setSw_presented (ch : Chan) (h : Half) : (s.setSw ch h).presented = s.presented := rfl
@[simp] theorem setSw_env (ch : Chan) (h : Half) : (s.setSw ch h).env = s.env := rfl

/-! ### setHwh -/

@[simp] theorem setHwh_cfg (ch : Chan) (h : Half) : (s.setHwh ch h).cfg = s.cfg := rfl
@[simp] theorem setHwh_dat (ch : Chan) (h : Half) : (s.setHwh ch h).dat = s.dat := rfl
@[simp] theorem setHwh_adr (ch : Chan) (h : Half) : (s.setHwh ch h).adr = s.adr := rfl
@[simp] theorem setHwh_ctl (ch : Chan) (h : Half) : (s.setHwh ch h).ctl = s.ctl := rfl
@[simp] theorem setHwh_bstat (ch : Chan) (h : Half) : (s.setHwh ch h).bstat = s.bstat := rfl
@[simp] theorem setHwh_hcSts (ch : Chan) (h : Half) : (s.setHwh ch h).hcSts = s.hcSts := rfl
@[simp] theorem setHwh_hcErr (ch : Chan) (h : Half) : (s.setHwh ch h).hcErr = s.hcErr := rfl
@[simp] theorem setHwh_hcMsk (ch : Chan) (h : Half) : (s.setHwh ch h).hcMsk = s.hcMsk := rfl
@[simp] theorem setHwh_busMsk (ch : Chan) (h : Half) : (s.setHwh ch h).busMsk = s.busMsk := rfl
@[simp] theorem setHwh_busClkClass (ch : Chan) (h : Half) : (s.setHwh ch h).busClkClass = s.busClkClass := rfl
@[simp] theorem setHwh_devAddr (ch : Chan) (h : Half) : (s.setHwh ch h).devAddr = s.devAddr := rfl
@[simp] theorem setHwh_rows (ch : Chan) (h : Half) : (s.setHwh ch h).rows = s.rows := rfl
@[simp] theorem setHwh_written (ch : Chan) (h : Half) : (s.setHwh ch h).written = s.written := rfl
@[simp] theorem setHwh_txPending (ch : Chan) (h : Half) : (s.setHwh ch h).txPending = s.txPending := rfl
@[simp] theorem setHwh_txPerformed (ch : Chan) (h : Half) : (s.setHwh ch h).txPerformed = s.txPerformed := rfl
@[simp] theorem setHwh_swHalf (ch : Chan) (h : Half) : (s.setHwh ch h).swHalf = s.swHalf := rfl
@[simp] theorem setHwh_armedPrev (ch : Chan) (h : Half) : (s.setHwh ch h).armedPrev = s.armedPrev := rfl
@[simp] theorem setHwh_nodes (ch : Chan) (h : Half) : (s.setHwh ch h).nodes = s.nodes := rfl
@[simp] theorem setHwh_lock (ch : Chan) (h : Half) : (s.setHwh ch h).lock = s.lock := rfl
@[simp] theorem setHwh_logcnt (ch : Chan) (h : Half) : (s.setHwh ch h).logcnt = s.logcnt := rfl
@[simp] theorem setHwh_fault (ch : Chan) (h : Half) : (s.setHwh ch h).fault = s.fault := rfl
@[simp] theorem setHwh_mem (ch : Chan) (h : Half) : (s.setHwh ch h).mem = s.mem := rfl
@[simp] theorem setHwh_threads (ch : Chan) (h : Half) : (s.setHwh ch h).threads = s.threads := rfl
@[simp] theorem setHwh_hd (ch : Chan) (h : Half) : (s.setHwh ch h).hd = s.hd := rfl
@[simp] theorem setHwh_bd (ch : Chan) (h : Half) : (s.setHwh ch h).bd = s.bd := rfl
@[simp] theorem setHwh_cur (ch : Chan) (h : Half) : (s.setHwh ch h).cur = s.cur := rfl
@[simp] theorem setHwh_presented (ch : Chan) (h : Half) : (s.setHwh ch h).presented = s.presented := rfl
@[simp] theorem setHwh_env (ch : Chan) (h : Half) : (s.setHwh ch h).env = s.env := rfl

/-! ### setPrevArmed -/

@[simp] theorem setPrevArmed_cfg (ch : Chan) (b : Bool) : (s.setPrevArmed ch b).cfg = s.cfg := rfl
@[simp] theorem setPrevArmed_dat (ch : Chan) (b : Bool) : (s.setPrevArmed ch b).dat = s.dat := rfl
@[simp] theorem setPrevArmed_adr (ch : Chan) (b : Bool) : (s.setPrevArmed ch b).adr = s.adr := rfl
@[simp] theorem setPrevArmed_ctl (ch : Chan) (b : Bool) : (s.setPrevArmed ch b).ctl = s.ctl := rfl
@[simp] theorem setPrevArmed_bstat (ch : Chan) (b : Bool) : (s.setPrevArmed ch b).bstat = s.bstat := rfl
@[simp] theorem setPrevArmed_hcSts (ch : Chan) (b : Bool) : (s.setPrevArmed ch b).hcSts = s.hcSts := rfl
@[simp] theorem setPrevArmed_hcErr (ch : Chan) (b : Bool) : (s.setPrevArmed ch b).hcErr = s.hcErr := rfl
@[simp] theorem setPrevArmed_hcMsk (ch : Chan) (b : Bool) : (s.setPrevArmed ch b).hcMsk = s.hcMsk := rfl
@[simp] theorem setPrevArmed_busMsk (ch : Chan) (b : Bool) : (s.setPrevArmed ch b).busMsk = s.busMsk := rfl
@[simp] theorem setPrevArmed_busClkClass (ch : Chan) (b : Bool) : (s.setPrevArmed ch b).busClkClass = s.busClkClass := rfl
@[simp] theorem setPrevArmed_devAddr (ch : Chan) (b : Bool) : (s.setPrevArmed ch b).devAddr = s.devAddr := rfl
@[simp] theorem setPrevArmed_rows (ch : Chan) (b : Bool) : (s.setPrevArmed ch b).rows = s.rows := rfl
@[simp] theorem setPrevArmed_written (ch : Chan) (b : Bool) : (s.setPrevArmed ch b).written = s.written := rfl
@[simp] theorem setPrevArmed_txPending (ch : Chan) (b : Bool) : (s.setPrevArmed ch b).txPending = s.txPending := rfl
@[simp] theorem setPrevArmed_txPerformed (ch : Chan) (b : Bool) : (s.setPrevArmed ch b).txPerformed = s.txPerformed := rfl
@[simp] theorem setPrevArmed_swHalf (ch : Chan) (b : Bool) : (s.setPrevArmed ch b).swHalf = s.swHalf := rfl
@[simp] theorem setPrevArmed_hwHalf (ch : Chan) (b : Bool) : (s.setPrevArmed ch b).hwHalf = s.hwHalf := rfl
@[simp] theorem setPrevArmed_nodes (ch : Chan) (b : Bool) : (s.setPrevArmed ch b).nodes = s.nodes := rfl
@[simp] theorem setPrevArmed_lock (ch : Chan) (b : Bool) : (s.setPrevArmed ch b).lock = s.lock := rfl
@[simp] theorem setPrevArmed_logcnt (ch : Chan) (b : Bool) : (s.setPrevArmed ch b).logcnt = s.logcnt := rfl
@[simp] theorem setPrevArmed_fault (ch : Chan) (b : Bool) : (s.setPrevArmed ch b).fault = s.fault := rfl
@[simp] theorem setPrevArmed_mem (ch : Chan) (b : Bool) : (s.setPrevArmed ch b).mem = s.mem := rfl
@[simp] theorem setPrevArmed_threads (ch : Chan) (b : Bool) : (s.setPrevArmed ch b).threads = s.threads := rfl
@[simp] theorem setPrevArmed_hd (ch : Chan) (b : Bool) : (s.setPrevArmed ch b).hd = s.hd := rfl
@[simp] theorem setPrevArmed_bd (ch : Chan) (b : Bool) : (s.setPrevArmed ch b).bd = s.bd := rfl
@[simp] theorem setPrevArmed_cur (ch : Chan) (b : Bool) : (s.setPrevArmed ch b).cur = s.cur := rfl
@[simp] theorem setPrevArmed_presented (ch : Chan) (b : Bool) : (s.setPrevArmed ch b).presented = s.presented := rfl
@[simp] theorem setPrevArmed_env (ch : Chan) (b : Bool) : (s.setPrevArmed ch b).env = s.env := rfl

/-! ### putRow -/

@[simp] theorem putRow_cfg (off : RowOff) (v : Row) : (s.putRow off v).cfg = s.cfg := rfl
@[simp] theorem putRow_dat (off : RowOff) (v : Row) : (s.putRow off v).dat = s.dat := rfl
@[simp] theorem putRow_adr (off : RowOff) (v : Row) : (s.putRow off v).adr = s.adr := rfl
@[simp] theorem putRow_ctl (off : RowOff) (v : Row) : (s.putRow off v).ctl = s.ctl := rfl
@[simp] theorem putRow_bstat (off : RowOff) (v : Row) : (s.putRow off v).bstat = s.bstat := rfl
@[simp] theorem putRow_hcSts (off : RowOff) (v : Row) : (s.putRow off v).hcSts = s.hcSts := rfl
@[simp] theorem putRow_hcErr (off : RowOff) (v : Row) : (s.putRow off v).hcErr = s.hcErr := rfl
@[simp] theorem putRow_hcMsk (off : RowOff) (v : Row) : (s.putRow off v).hcMsk = s.hcMsk := rfl
@[simp] theorem putRow_busMsk (off : RowOff) (v : Row) : (s.putRow off v).busMsk = s.busMsk := rfl
@[simp] theorem putRow_busClkClass (off : RowOff) (v : Row) : (s.putRow off v).busClkClass = s.busClkClass := rfl
@[simp] theorem putRow_devAddr (off : RowOff) (v : Row) : (s.putRow off v).devAddr = s.devAddr := rfl
@[simp] theorem putRow_txPending (off : RowOff) (v : Row) : (s.putRow off v).txPending = s.txPending := rfl
@[simp] theorem putRow_txPerformed (off : RowOff) (v : Row) : (s.putRow off v).txPerformed = s.txPerformed := rfl
@[simp] theorem putRow_swHalf (off : RowOff) (v : Row) : (s.putRow off v).swHalf = s.swHalf := rfl
@[simp] theorem putRow_hwHalf (off : RowOff) (v : Row) : (s.putRow off v).hwHalf = s.hwHalf := rfl
@[simp] theorem putRow_armedPrev (off : RowOff) (v : Row) : (s.putRow off v).armedPrev = s.armedPrev := rfl
@[simp] theorem putRow_nodes (off : RowOff) (v : Row) : (s.putRow off v).nodes = s.nodes := rfl
@[simp] theorem putRow_lock (off : RowOff) (v : Row) : (s.putRow off v).lock = s.lock := rfl
@[simp] theorem putRow_logcnt (off : RowOff) (v : Row) : (s.putRow off v).logcnt = s.logcnt := rfl
@[simp] theorem putRow_fault (off : RowOff) (v : Row) : (s.putRow off v).fault = s.fault := rfl
@[simp] theorem putRow_mem (off : RowOff) (v : Row) : (s.putRow off v).mem = s.mem := rfl
@[simp] theorem putRow_threads (off : RowOff) (v : Row) : (s.putRow off v).threads = s.threads := rfl
@[simp] theorem putRow_hd (off : RowOff) (v : Row) : (s.putRow off v).hd = s.hd := rfl
@[simp] theorem putRow_bd (off : RowOff) (v : Row) : (s.putRow off v).bd = s.bd := rfl
@[simp] theorem putRow_cur (off : RowOff) (v : Row) : (s.putRow off v).cur = s.cur := rfl
@[simp] theorem putRow_presented (off : RowOff) (v : Row) : (s.putRow off v).presented = s.presented := rfl
@[simp] theorem putRow_env (off : RowOff) (v : Row) : (s.putRow off v).env = s.env := rfl

/-! ### log -/

@[simp] theorem log_cfg : s.log.cfg = s.cfg := rfl
@[simp] theorem log_dat : s.log.dat = s.dat := rfl
@[simp] theorem log_adr : s.log.adr = s.adr := rfl
@[simp] theorem log_ctl : s.log.ctl = s.ctl := rfl
@[simp] theorem log_bstat : s.log.bstat = s.bstat := rfl
@[simp] theorem log_hcSts : s.log.hcSts = s.hcSts := rfl
@[simp] theorem log_hcErr : s.log.hcErr = s.hcErr := rfl
@[simp] theorem log_hcMsk : s.log.hcMsk = s.hcMsk := rfl
@[simp] theorem log_busMsk : s.log.busMsk = s.busMsk := rfl
@[simp] theorem log_busClkClass : s.log.busClkClass = s.busClkClass := rfl
@[simp] theorem log_devAddr : s.log.devAddr = s.devAddr := rfl
@[simp] theorem log_rows : s.log.rows = s.rows := rfl
@[simp] theorem log_written : s.log.written = s.written := rfl
@[simp] theorem log_txPending : s.log.txPending = s.txPending := rfl
@[simp] theorem log_txPerformed : s.log.txPerformed = s.txPerformed := rfl
@[simp] theorem log_swHalf : s.log.swHalf = s.swHalf := rfl
@[simp] theorem log_hwHalf : s.log.hwHalf = s.hwHalf := rfl
@[simp] theorem log_armedPrev : s.log.armedPrev = s.armedPrev := rfl
@[simp] theorem log_nodes : s.log.nodes = s.nodes := rfl
@[simp] theorem log_lock : s.log.lock = s.lock := rfl
@[simp] theorem log_fault : s.log.fault = s.fault := rfl
@[simp] theorem log_mem : s.log.mem = s.mem := rfl
@[simp] theorem log_threads : s.log.threads = s.threads := rfl
@[simp] theorem log_hd : s.log.hd = s.hd := rfl
@[simp] theorem log_bd : s.log.bd = s.bd := rfl
@[simp] theorem log_cur : s.log.cur = s.cur := rfl
@[simp] theorem log_presented : s.log.presented = s.presented := rfl
@[simp] theorem log_env : s.log.env = s.env := rfl

/-! ### wakeAll -/

@[simp] theorem wakeAll_cfg (n : NodeNo) : (s.wakeAll n).cfg = s.cfg := rfl
@[simp] theorem wakeAll_dat (n : NodeNo) : (s.wakeAll n).dat = s.dat := rfl
@[simp] theorem wakeAll_adr (n : NodeNo) : (s.wakeAll n).adr = s.adr := rfl
@[simp] theorem wakeAll_ctl (n : NodeNo) : (s.wakeAll n).ctl = s.ctl := rfl
@[simp] theorem wakeAll_bstat (n : NodeNo) : (s.wakeAll n).bstat = s.bstat := rfl
@[simp] theorem wakeAll_hcSts (n : NodeNo) : (s.wakeAll n).hcSts = s.hcSts := rfl
@[simp] theorem wakeAll_hcErr (n : NodeNo) : (s.wakeAll n).hcErr = s.hcErr := rfl
@[simp] theorem wakeAll_hcMsk (n : NodeNo) : (s.wakeAll n).hcMsk = s.hcMsk := rfl
@[simp] theorem wakeAll_busMsk (n : NodeNo) : (s.wakeAll n).busMsk = s.busMsk := rfl
@[simp] theorem wakeAll_busClkClass (n : NodeNo) : (s.wakeAll n).busClkClass = s.busClkClass := rfl
@[simp] theorem wakeAll_devAddr (n : NodeNo) : (s.wakeAll n).devAddr = s.devAddr := rfl
@[simp] theorem wakeAll_rows (n : NodeNo) : (s.wakeAll n).rows = s.rows := rfl
@[simp] theorem wakeAll_written (n : NodeNo) : (s.wakeAll n).written = s.written := rfl
@[simp] theorem wakeAll_txPending (n : NodeNo) : (s.wakeAll n).txPending = s.txPending := rfl
@[simp] theorem wakeAll_txPerformed (n : NodeNo) : (s.wakeAll n).txPerformed = s.txPerformed := rfl
@[simp] theorem wakeAll_swHalf (n : NodeNo) : (s.wakeAll n).swHalf = s.swHalf := rfl
@[simp] theorem wakeAll_hwHalf (n : NodeNo) : (s.wakeAll n).hwHalf = s.hwHalf := rfl
@[simp] theorem wakeAll_armedPrev (n : NodeNo) : (s.wakeAll n).armedPrev = s.armedPrev := rfl
@[simp] theorem wakeAll_nodes (n : NodeNo) : (s.wakeAll n).nodes = s.nodes := rfl
@[simp] theorem wakeAll_lock (n : NodeNo) : (s.wakeAll n).lock = s.lock := rfl
@[simp] theorem wakeAll_logcnt (n : NodeNo) : (s.wakeAll n).logcnt = s.logcnt := rfl
@[simp] theorem wakeAll_fault (n : NodeNo) : (s.wakeAll n).fault = s.fault := rfl
@[simp] theorem wakeAll_mem (n : NodeNo) : (s.wakeAll n).mem = s.mem := rfl
@[simp] theorem wakeAll_hd (n : NodeNo) : (s.wakeAll n).hd = s.hd := rfl
@[simp] theorem wakeAll_bd (n : NodeNo) : (s.wakeAll n).bd = s.bd := rfl
@[simp] theorem wakeAll_cur (n : NodeNo) : (s.wakeAll n).cur = s.cur := rfl
@[simp] theorem wakeAll_presented (n : NodeNo) : (s.wakeAll n).presented = s.presented := rfl
@[simp] theorem wakeAll_env (n : NodeNo) : (s.wakeAll n).env = s.env := rfl

/-! ### notify -/

@[simp] theorem notify_cfg (p : Instr → Bool) : (s.notify p).cfg = s.cfg := rfl
@[simp] theorem notify_dat (p : Instr → Bool) : (s.notify p).dat = s.dat := rfl
@[simp] theorem notify_adr (p : Instr → Bool) : (s.notify p).adr = s.adr := rfl
@[simp] theorem notify_ctl (p : Instr → Bool) : (s.notify p).ctl = s.ctl := rfl
@[simp] theorem notify_bstat (p : Instr → Bool) : (s.notify p).bstat = s.bstat := rfl
@[simp] theorem notify_hcSts (p : Instr → Bool) : (s.notify p).hcSts = s.hcSts := rfl
@[simp] theorem notify_hcErr (p : Instr → Bool) : (s.notify p).hcErr = s.hcErr := rfl
@[simp] theorem notify_hcMsk (p : Instr → Bool) : (s.notify p).hcMsk = s.hcMsk := rfl
@[simp] theorem notify_busMsk (p : Instr → Bool) : (s.notify p).busMsk = s.busMsk := rfl
@[simp] theorem notify_busClkClass (p : Instr → Bool) : (s.notify p).busClkClass = s.busClkClass := rfl
@[simp] theorem notify_devAddr (p : Instr → Bool) : (s.notify p).devAddr = s.devAddr := rfl
@[simp] theorem notify_rows (p : Instr → Bool) : (s.notify p).rows = s.rows := rfl
@[simp] theorem notify_written (p : Instr → Bool) : (s.notify p).written = s.written := rfl
@[simp] theorem notify_txPending (p : Instr → Bool) : (s.notify p).txPending = s.txPending := rfl
@[simp] theorem notify_txPerformed (p : Instr → Bool) : (s.notify p).txPerformed = s.txPerformed := rfl
@[simp] theorem notify_swHalf (p : Instr → Bool) : (s.notify p).swHalf = s.swHalf := rfl
@[simp] theorem notify_hwHalf (p : Instr → Bool) : (s.notify p).hwHalf = s.hwHalf := rfl
@[simp] theorem notify_armedPrev (p : Instr → Bool) : (s.notify p).armedPrev = s.armedPrev := rfl
@[simp] theorem notify_nodes (p : Instr → Bool) : (s.notify p).nodes = s.nodes := rfl
@[simp] theorem notify_lock (p : Instr → Bool) : (s.notify p).lock = s.lock := rfl
@[simp] theorem notify_logcnt (p : Instr → Bool) : (s.notify p).logcnt = s.logcnt := rfl
@[simp] theorem notify_fault (p : Instr → Bool) : (s.notify p).fault = s.fault := rfl
@[simp] theorem notify_mem (p : Instr → Bool) : (s.notify p).mem = s.mem := rfl
@[simp] theorem notify_hd (p : Instr → Bool) : (s.notify p).hd = s.hd := rfl
@[simp] theorem notify_bd (p : Instr → Bool) : (s.notify p).bd = s.bd := rfl
@[simp] theorem notify_cur (p : Instr → Bool) : (s.notify p).cur = s.cur := rfl
@[simp] theorem notify_presented (p : Instr → Bool) : (s.notify p).presented = s.presented := rfl
@[simp] theorem notify_env (p : Instr → Bool) : (s.notify p).env = s.env := rfl

/-! ### record -/

@[simp] theorem record_cfg (a : Agent) (f : FReason) : (s.record a f).cfg = s.cfg := by unfold State.record; split <;> rfl
@[simp] theorem record_dat (a : Agent) (f : FReason) : (s.record a f).dat = s.dat := by unfold State.record; split <;> rfl
@[simp] theorem record_adr (a : Agent) (f : FReason) : (s.record a f).adr = s.adr := by unfold State.record; split <;> rfl
@[simp] theorem record_ctl (a : Agent) (f : FReason) : (s.record a f).ctl = s.ctl := by unfold State.record; split <;> rfl
@[simp] theorem record_bstat (a : Agent) (f : FReason) : (s.record a f).bstat = s.bstat := by unfold State.record; split <;> rfl
@[simp] theorem record_hcSts (a : Agent) (f : FReason) : (s.record a f).hcSts = s.hcSts := by unfold State.record; split <;> rfl
@[simp] theorem record_hcErr (a : Agent) (f : FReason) : (s.record a f).hcErr = s.hcErr := by unfold State.record; split <;> rfl
@[simp] theorem record_hcMsk (a : Agent) (f : FReason) : (s.record a f).hcMsk = s.hcMsk := by unfold State.record; split <;> rfl
@[simp] theorem record_busMsk (a : Agent) (f : FReason) : (s.record a f).busMsk = s.busMsk := by unfold State.record; split <;> rfl
@[simp] theorem record_busClkClass (a : Agent) (f : FReason) : (s.record a f).busClkClass = s.busClkClass := by unfold State.record; split <;> rfl
@[simp] theorem record_devAddr (a : Agent) (f : FReason) : (s.record a f).devAddr = s.devAddr := by unfold State.record; split <;> rfl
@[simp] theorem record_rows (a : Agent) (f : FReason) : (s.record a f).rows = s.rows := by unfold State.record; split <;> rfl
@[simp] theorem record_written (a : Agent) (f : FReason) : (s.record a f).written = s.written := by unfold State.record; split <;> rfl
@[simp] theorem record_txPending (a : Agent) (f : FReason) : (s.record a f).txPending = s.txPending := by unfold State.record; split <;> rfl
@[simp] theorem record_txPerformed (a : Agent) (f : FReason) : (s.record a f).txPerformed = s.txPerformed := by unfold State.record; split <;> rfl
@[simp] theorem record_swHalf (a : Agent) (f : FReason) : (s.record a f).swHalf = s.swHalf := by unfold State.record; split <;> rfl
@[simp] theorem record_hwHalf (a : Agent) (f : FReason) : (s.record a f).hwHalf = s.hwHalf := by unfold State.record; split <;> rfl
@[simp] theorem record_armedPrev (a : Agent) (f : FReason) : (s.record a f).armedPrev = s.armedPrev := by unfold State.record; split <;> rfl
@[simp] theorem record_nodes (a : Agent) (f : FReason) : (s.record a f).nodes = s.nodes := by unfold State.record; split <;> rfl
@[simp] theorem record_lock (a : Agent) (f : FReason) : (s.record a f).lock = s.lock := by unfold State.record; split <;> rfl
@[simp] theorem record_logcnt (a : Agent) (f : FReason) : (s.record a f).logcnt = s.logcnt := by unfold State.record; split <;> rfl
@[simp] theorem record_mem (a : Agent) (f : FReason) : (s.record a f).mem = s.mem := by unfold State.record; split <;> rfl
@[simp] theorem record_threads (a : Agent) (f : FReason) : (s.record a f).threads = s.threads := by unfold State.record; split <;> rfl
@[simp] theorem record_hd (a : Agent) (f : FReason) : (s.record a f).hd = s.hd := by unfold State.record; split <;> rfl
@[simp] theorem record_bd (a : Agent) (f : FReason) : (s.record a f).bd = s.bd := by unfold State.record; split <;> rfl
@[simp] theorem record_cur (a : Agent) (f : FReason) : (s.record a f).cur = s.cur := by unfold State.record; split <;> rfl
@[simp] theorem record_presented (a : Agent) (f : FReason) : (s.record a f).presented = s.presented := by unfold State.record; split <;> rfl
@[simp] theorem record_env (a : Agent) (f : FReason) : (s.record a f).env = s.env := by unfold State.record; split <;> rfl

/-! ### release -/

@[simp] theorem release_cfg (a : Agent) : (s.release a).cfg = s.cfg := by unfold State.release; dsimp only; split <;> simp
@[simp] theorem release_dat (a : Agent) : (s.release a).dat = s.dat := by unfold State.release; dsimp only; split <;> simp
@[simp] theorem release_adr (a : Agent) : (s.release a).adr = s.adr := by unfold State.release; dsimp only; split <;> simp
@[simp] theorem release_ctl (a : Agent) : (s.release a).ctl = s.ctl := by unfold State.release; dsimp only; split <;> simp
@[simp] theorem release_bstat (a : Agent) : (s.release a).bstat = s.bstat := by unfold State.release; dsimp only; split <;> simp
@[simp] theorem release_hcSts (a : Agent) : (s.release a).hcSts = s.hcSts := by unfold State.release; dsimp only; split <;> simp
@[simp] theorem release_hcErr (a : Agent) : (s.release a).hcErr = s.hcErr := by unfold State.release; dsimp only; split <;> simp
@[simp] theorem release_hcMsk (a : Agent) : (s.release a).hcMsk = s.hcMsk := by unfold State.release; dsimp only; split <;> simp
@[simp] theorem release_busMsk (a : Agent) : (s.release a).busMsk = s.busMsk := by unfold State.release; dsimp only; split <;> simp
@[simp] theorem release_busClkClass (a : Agent) : (s.release a).busClkClass = s.busClkClass := by unfold State.release; dsimp only; split <;> simp
@[simp] theorem release_devAddr (a : Agent) : (s.release a).devAddr = s.devAddr := by unfold State.release; dsimp only; split <;> simp
@[simp] theorem release_rows (a : Agent) : (s.release a).rows = s.rows := by unfold State.release; dsimp only; split <;> simp
@[simp] theorem release_written (a : Agent) : (s.release a).written = s.written := by unfold State.release; dsimp only; split <;> simp
@[simp] theorem release_txPending (a : Agent) : (s.release a).txPending = s.txPending := by unfold State.release; dsimp only; split <;> simp
@[simp] theorem release_txPerformed (a : Agent) : (s.release a).txPerformed = s.txPerformed := by unfold State.release; dsimp only; split <;> simp
@[simp] theorem release_swHalf (a : Agent) : (s.release a).swHalf = s.swHalf := by unfold State.release; dsimp only; split <;> simp
@[simp] theorem release_hwHalf (a : Agent) : (s.release a).hwHalf = s.hwHalf := by unfold State.release; dsimp only; split <;> simp
@[simp] theorem release_armedPrev (a : Agent) : (s.release a).armedPrev = s.armedPrev := by unfold State.release; dsimp only; split <;> simp
@[simp] theorem release_nodes (a : Agent) : (s.release a).nodes = s.nodes := by unfold State.release; dsimp only; split <;> simp
@[simp] theorem release_lock (a : Agent) : (s.release a).lock = s.lock := by unfold State.release; dsimp only; split <;> simp
@[simp] theorem release_logcnt (a : Agent) : (s.release a).logcnt = s.logcnt := by unfold State.release; dsimp only; split <;> simp
@[simp] theorem release_fault (a : Agent) : (s.release a).fault = s.fault := by unfold State.release; dsimp only; split <;> simp
@[simp] theorem release_mem (a : Agent) : (s.release a).mem = s.mem := by unfold State.release; dsimp only; split <;> simp
@[simp] theorem release_cur (a : Agent) : (s.release a).cur = s.cur := by unfold State.release; dsimp only; split <;> simp
@[simp] theorem release_env (a : Agent) : (s.release a).env = s.env := by unfold State.release; dsimp only; split <;> simp

/-! ### finish -/

@[simp] theorem finish_cfg (a : Agent) (r : Result) : (s.finish a r).cfg = s.cfg := by simp [State.finish]
@[simp] theorem finish_dat (a : Agent) (r : Result) : (s.finish a r).dat = s.dat := by simp [State.finish]
@[simp] theorem finish_adr (a : Agent) (r : Result) : (s.finish a r).adr = s.adr := by simp [State.finish]
@[simp] theorem finish_ctl (a : Agent) (r : Result) : (s.finish a r).ctl = s.ctl := by simp [State.finish]
@[simp] theorem finish_bstat (a : Agent) (r : Result) : (s.finish a r).bstat = s.bstat := by simp [State.finish]
@[simp] theorem finish_hcSts (a : Agent) (r : Result) : (s.finish a r).hcSts = s.hcSts := by simp [State.finish]
@[simp] theorem finish_hcErr (a : Agent) (r : Result) : (s.finish a r).hcErr = s.hcErr := by simp [State.finish]
@[simp] theorem finish_hcMsk (a : Agent) (r : Result) : (s.finish a r).hcMsk = s.hcMsk := by simp [State.finish]
@[simp] theorem finish_busMsk (a : Agent) (r : Result) : (s.finish a r).busMsk = s.busMsk := by simp [State.finish]
@[simp] theorem finish_busClkClass (a : Agent) (r : Result) : (s.finish a r).busClkClass = s.busClkClass := by simp [State.finish]
@[simp] theorem finish_devAddr (a : Agent) (r : Result) : (s.finish a r).devAddr = s.devAddr := by simp [State.finish]
@[simp] theorem finish_rows (a : Agent) (r : Result) : (s.finish a r).rows = s.rows := by simp [State.finish]
@[simp] theorem finish_written (a : Agent) (r : Result) : (s.finish a r).written = s.written := by simp [State.finish]
@[simp] theorem finish_txPending (a : Agent) (r : Result) : (s.finish a r).txPending = s.txPending := by simp [State.finish]
@[simp] theorem finish_txPerformed (a : Agent) (r : Result) : (s.finish a r).txPerformed = s.txPerformed := by simp [State.finish]
@[simp] theorem finish_swHalf (a : Agent) (r : Result) : (s.finish a r).swHalf = s.swHalf := by simp [State.finish]
@[simp] theorem finish_hwHalf (a : Agent) (r : Result) : (s.finish a r).hwHalf = s.hwHalf := by simp [State.finish]
@[simp] theorem finish_armedPrev (a : Agent) (r : Result) : (s.finish a r).armedPrev = s.armedPrev := by simp [State.finish]
@[simp] theorem finish_nodes (a : Agent) (r : Result) : (s.finish a r).nodes = s.nodes := by simp [State.finish]
@[simp] theorem finish_lock (a : Agent) (r : Result) : (s.finish a r).lock = s.lock := by simp [State.finish]
@[simp] theorem finish_logcnt (a : Agent) (r : Result) : (s.finish a r).logcnt = s.logcnt := by simp [State.finish]
@[simp] theorem finish_fault (a : Agent) (r : Result) : (s.finish a r).fault = s.fault := by simp [State.finish]
@[simp] theorem finish_mem (a : Agent) (r : Result) : (s.finish a r).mem = s.mem := by simp [State.finish]
@[simp] theorem finish_cur (a : Agent) (r : Result) : (s.finish a r).cur = s.cur := by simp [State.finish]
@[simp] theorem finish_env (a : Agent) (r : Result) : (s.finish a r).env = s.env := by simp [State.finish]

/-! ### suspend -/

@[simp] theorem suspend_cfg (a : Agent) (k : Task) : (s.suspend a k).cfg = s.cfg := by unfold State.suspend; dsimp only; split <;> simp
@[simp] theorem suspend_dat (a : Agent) (k : Task) : (s.suspend a k).dat = s.dat := by unfold State.suspend; dsimp only; split <;> simp
@[simp] theorem suspend_adr (a : Agent) (k : Task) : (s.suspend a k).adr = s.adr := by unfold State.suspend; dsimp only; split <;> simp
@[simp] theorem suspend_ctl (a : Agent) (k : Task) : (s.suspend a k).ctl = s.ctl := by unfold State.suspend; dsimp only; split <;> simp
@[simp] theorem suspend_bstat (a : Agent) (k : Task) : (s.suspend a k).bstat = s.bstat := by unfold State.suspend; dsimp only; split <;> simp
@[simp] theorem suspend_hcSts (a : Agent) (k : Task) : (s.suspend a k).hcSts = s.hcSts := by unfold State.suspend; dsimp only; split <;> simp
@[simp] theorem suspend_hcErr (a : Agent) (k : Task) : (s.suspend a k).hcErr = s.hcErr := by unfold State.suspend; dsimp only; split <;> simp
@[simp] theorem suspend_hcMsk (a : Agent) (k : Task) : (s.suspend a k).hcMsk = s.hcMsk := by unfold State.suspend; dsimp only; split <;> simp
@[simp] theorem suspend_busMsk (a : Agent) (k : Task) : (s.suspend a k).busMsk = s.busMsk := by unfold State.suspend; dsimp only; split <;> simp
@[simp] theorem suspend_busClkClass (a : Agent) (k : Task) : (s.suspend a k).busClkClass = s.busClkClass := by unfold State.suspend; dsimp only; split <;> simp
@[simp] theorem suspend_devAddr (a : Agent) (k : Task) : (s.suspend a k).devAddr = s.devAddr := by unfold State.suspend; dsimp only; split <;> simp
@[simp] theorem suspend_rows (a : Agent) (k : Task) : (s.suspend a k).rows = s.rows := by unfold State.suspend; dsimp only; split <;> simp
@[simp] theorem suspend_written (a : Agent) (k : Task) : (s.suspend a k).written = s.written := by unfold State.suspend; dsimp only; split <;> simp
@[simp] theorem suspend_txPending (a : Agent) (k : Task) : (s.suspend a k).txPending = s.txPending := by unfold State.suspend; dsimp only; split <;> simp
@[simp] theorem suspend_txPerformed (a : Agent) (k : Task) : (s.suspend a k).txPerformed = s.txPerformed := by unfold State.suspend; dsimp only; split <;> simp
@[simp] theorem suspend_swHalf (a : Agent) (k : Task) : (s.suspend a k).swHalf = s.swHalf := by unfold State.suspend; dsimp only; split <;> simp
@[simp] theorem suspend_hwHalf (a : Agent) (k : Task) : (s.suspend a k).hwHalf = s.hwHalf := by unfold State.suspend; dsimp only; split <;> simp
@[simp] theorem suspend_armedPrev (a : Agent) (k : Task) : (s.suspend a k).armedPrev = s.armedPrev := by unfold State.suspend; dsimp only; split <;> simp
@[simp] theorem suspend_nodes (a : Agent) (k : Task) : (s.suspend a k).nodes = s.nodes := by unfold State.suspend; dsimp only; split <;> simp
@[simp] theorem suspend_lock (a : Agent) (k : Task) : (s.suspend a k).lock = s.lock := by unfold State.suspend; dsimp only; split <;> simp
@[simp] theorem suspend_logcnt (a : Agent) (k : Task) : (s.suspend a k).logcnt = s.logcnt := by unfold State.suspend; dsimp only; split <;> simp
@[simp] theorem suspend_fault (a : Agent) (k : Task) : (s.suspend a k).fault = s.fault := by unfold State.suspend; dsimp only; split <;> simp
@[simp] theorem suspend_mem (a : Agent) (k : Task) : (s.suspend a k).mem = s.mem := by unfold State.suspend; dsimp only; split <;> simp
@[simp] theorem suspend_cur (a : Agent) (k : Task) : (s.suspend a k).cur = s.cur := by unfold State.suspend; dsimp only; split <;> simp
@[simp] theorem suspend_env (a : Agent) (k : Task) : (s.suspend a k).env = s.env := by unfold State.suspend; dsimp only; split <;> simp

/-! ### raise -/

@[simp] theorem raise_cfg (a : Agent) (f : FReason) : (s.raise a f).cfg = s.cfg := by simp [State.raise]
@[simp] theorem raise_dat (a : Agent) (f : FReason) : (s.raise a f).dat = s.dat := by simp [State.raise]
@[simp] theorem raise_adr (a : Agent) (f : FReason) : (s.raise a f).adr = s.adr := by simp [State.raise]
@[simp] theorem raise_ctl (a : Agent) (f : FReason) : (s.raise a f).ctl = s.ctl := by simp [State.raise]
@[simp] theorem raise_bstat (a : Agent) (f : FReason) : (s.raise a f).bstat = s.bstat := by simp [State.raise]
@[simp] theorem raise_hcSts (a : Agent) (f : FReason) : (s.raise a f).hcSts = s.hcSts := by simp [State.raise]
@[simp] theorem raise_hcErr (a : Agent) (f : FReason) : (s.raise a f).hcErr = s.hcErr := by simp [State.raise]
@[simp] theorem raise_hcMsk (a : Agent) (f : FReason) : (s.raise a f).hcMsk = s.hcMsk := by simp [State.raise]
@[simp] theorem raise_busMsk (a : Agent) (f : FReason) : (s.raise a f).busMsk = s.busMsk := by simp [State.raise]
@[simp] theorem raise_busClkClass (a : Agent) (f : FReason) : (s.raise a f).busClkClass = s.busClkClass := by simp [State.raise]
@[simp] theorem raise_devAddr (a : Agent) (f : FReason) : (s.raise a f).devAddr = s.devAddr := by simp [State.raise]
@[simp] theorem raise_rows (a : Agent) (f : FReason) : (s.raise a f).rows = s.rows := by simp [State.raise]
@[simp] theorem raise_written (a : Agent) (f : FReason) : (s.raise a f).written = s.written := by simp [State.raise]
@[simp] theorem raise_txPending (a : Agent) (f : FReason) : (s.raise a f).txPending = s.txPending := by simp [State.raise]
@[simp] theorem raise_txPerformed (a : Agent) (f : FReason) : (s.raise a f).txPerformed = s.txPerformed := by simp [State.raise]
@[simp] theorem raise_swHalf (a : Agent) (f : FReason) : (s.raise a f).swHalf = s.swHalf := by simp [State.raise]
@[simp] theorem raise_hwHalf (a : Agent) (f : FReason) : (s.raise a f).hwHalf = s.hwHalf := by simp [State.raise]
@[simp] theorem raise_armedPrev (a : Agent) (f : FReason) : (s.raise a f).armedPrev = s.armedPrev := by simp [State.raise]
@[simp] theorem raise_nodes (a : Agent) (f : FReason) : (s.raise a f).nodes = s.nodes := by simp [State.raise]
@[simp] theorem raise_lock (a : Agent) (f : FReason) : (s.raise a f).lock = s.lock := by simp [State.raise]
@[simp] theorem raise_logcnt (a : Agent) (f : FReason) : (s.raise a f).logcnt = s.logcnt := by simp [State.raise]
@[simp] theorem raise_mem (a : Agent) (f : FReason) : (s.raise a f).mem = s.mem := by simp [State.raise]
@[simp] theorem raise_cur (a : Agent) (f : FReason) : (s.raise a f).cur = s.cur := by simp [State.raise]
@[simp] theorem raise_env (a : Agent) (f : FReason) : (s.raise a f).env = s.env := by simp [State.raise]

/-! ### What an accessor reads after its own update -/

@[simp] theorem row_putRow_same (off : RowOff) (v : Row) : (s.putRow off v).row off = v := by
  simp [State.row, State.putRow]

theorem row_putRow_other {off off' : RowOff} (v : Row) (h : off' ≠ off) :
    (s.putRow off v).row off' = s.row off' := by
  have h1 : off.toNat ≠ off'.toNat := fun e => h (BitVec.eq_of_toNat_eq e.symm)
  simp [State.row, State.putRow, h1]

theorem row_putRow (off off' : RowOff) (v : Row) :
    (s.putRow off v).row off' = if off' = off then v else s.row off' := by
  split
  · next h => subst h; simp
  · next h => exact row_putRow_other s v h

theorem isWritten_putRow (off off' : RowOff) (v : Row) :
    (s.putRow off v).isWritten off' = (decide (off' = off) || s.isWritten off') := by
  by_cases h : off' = off
  · subst h; simp [State.isWritten, State.putRow]
  · have h1 : off.toNat ≠ off'.toNat := fun e => h (BitVec.eq_of_toNat_eq e.symm)
    simp [State.isWritten, State.putRow, h1, h]

@[simp] theorem node_setNode_same (n : NodeNo) (x : Node) : (s.setNode n x).node n = x := by
  simp [State.node, State.setNode]

theorem node_setNode (n m : NodeNo) (x : Node) :
    (s.setNode n x).node m = if m = n then x else s.node m := by
  by_cases h : m = n
  · subst h; simp
  · have h1 : n.toNat ≠ m.toNat := fun e => h (BitVec.eq_of_toNat_eq e.symm)
    simp [State.node, State.setNode, h1, h]

theorem sw_setSw (ch c : Chan) (h : Half) :
    (s.setSw ch h).sw c = if c = ch then h else s.sw c := by
  by_cases hc : c = ch
  · subst hc; simp [State.sw, State.setSw]
  · have h1 : ch.toNat ≠ c.toNat := fun e => hc (BitVec.eq_of_toNat_eq e.symm)
    simp [State.sw, State.setSw, h1, hc]

theorem hwh_setHwh (ch c : Chan) (h : Half) :
    (s.setHwh ch h).hwh c = if c = ch then h else s.hwh c := by
  by_cases hc : c = ch
  · subst hc; simp [State.hwh, State.setHwh]
  · have h1 : ch.toNat ≠ c.toNat := fun e => hc (BitVec.eq_of_toNat_eq e.symm)
    simp [State.hwh, State.setHwh, h1, hc]

theorem prevArmed_setPrevArmed (ch c : Chan) (b : Bool) :
    (s.setPrevArmed ch b).prevArmed c = if c = ch then b else s.prevArmed c := by
  by_cases hc : c = ch
  · subst hc; simp [State.prevArmed, State.setPrevArmed]
  · have h1 : ch.toNat ≠ c.toNat := fun e => hc (BitVec.eq_of_toNat_eq e.symm)
    simp [State.prevArmed, State.setPrevArmed, h1, hc]

theorem ctx_setCtx_same {a : Agent} (x : Ctx) (h : s.has a) : (s.setCtx a x).ctx a = x := by
  cases a with
  | host t => simp_all [State.ctx, State.setCtx]
  | hd => rfl
  | bd => rfl
  | hw => exact absurd h id

theorem ctx_setCtx_other {a b : Agent} (x : Ctx) (h : b ≠ a) : (s.setCtx a x).ctx b = s.ctx b := by
  cases a <;> cases b <;> simp_all [State.ctx, State.setCtx, List.getElem?_set]
  next t u => rw [if_neg (fun e => h e.symm)]

@[simp] theorem has_setCtx (a b : Agent) (x : Ctx) : (s.setCtx a x).has b ↔ s.has b := by
  cases a <;> cases b <;> simp [State.setCtx]

@[simp] theorem threads_length_setCtx (a : Agent) (x : Ctx) :
    (s.setCtx a x).threads.length = s.threads.length := by
  cases a <;> simp [State.setCtx]

/-- A write to another part of the state leaves a context as it is. -/
theorem ctx_congr {s t : State} (h : t.threads = s.threads) (hd : t.hd = s.hd) (bd : t.bd = s.bd)
    (a : Agent) : t.ctx a = s.ctx a := by
  cases a <;> simp [State.ctx, h, hd, bd]

end Sys2Proof.Machine
end

