-- ==== Sys2Proof/Laws/Run.lean ====
section
/-! SUPPORT. Running programs: the run of `p`, then what follows it; the calculus of runs that end (`Ends`);
and what every event and every atomic step keeps, a run keeps. -/

namespace Sys2Proof.Machine

variable {α β : Type}

/-! ## Programs -/

@[simp] theorem bind_ret (x : α) (k : α → Prog β) : (Prog.ret x).bind k = k x := rfl
@[simp] theorem bind_raise (f : FReason) (k : α → Prog β) : (Prog.raise f : Prog α).bind k = .raise f := rfl
@[simp] theorem bind_act (d : Act) (j : Resp → Prog α) (k : α → Prog β) :
    (Prog.act d j).bind k = .act d (fun r => (j r).bind k) := rfl
@[simp] theorem bind_after (d : Act) (p : Prog α) (k : α → Prog β) :
    (Prog.after d p).bind k = .after d (p.bind k) := rfl

/-! ## Runs -/

/-- The run of `p.bind k`: the run of `p`, and where that ended, the run of what `k` makes of its value. -/
theorem run_bind (a : Agent) (p : Prog α) (k : α → Prog β) (h : List Resp) (s : State) :
    run a (p.bind k) h s =
      match run a p h s with
      | .done x h1 s1 => run a (k x) h1 s1
      | .wait h1 s1 => .wait h1 s1
      | .loop s1 => .loop s1
      | .fault f s1 => .fault f s1
      | .halted h1 s1 => .halted h1 s1 := by
  induction p generalizing h s with
  | ret x => rfl
  | raise f => rfl
  | loop => rfl
  | act d j ih =>
    simp only [Prog.bind, run]
    split
    · rfl
    · split <;> rename_i heq
      · rw [ih]
      · rfl
      · rfl

/-- The run of `p` by `a` from `s` ends with value `x` in `t`. -/
def Ends (a : Agent) (p : Prog α) (s : State) (x : α) (t : State) : Prop :=
  ∀ h, ∃ h1, run a p h s = .done x h1 t

theorem Ends.ret (a : Agent) (x : α) (s : State) : Ends a (.ret x) s x s := fun h => ⟨h, rfl⟩

theorem Ends.bind {a : Agent} {p : Prog α} {k : α → Prog β} {s s1 t : State} {x : α} {y : β}
    (hp : Ends a p s x s1) (hk : Ends a (k x) s1 y t) : Ends a (p.bind k) s y t := by
  intro h
  obtain ⟨h1, e1⟩ := hp h
  obtain ⟨h2, e2⟩ := hk h1
  exact ⟨h2, by rw [run_bind, e1]; exact e2⟩

theorem Ends.act {a : Agent} {d : Act} {k : Resp → Prog α} {s s1 s2 t : State} {r : Resp} {x : α}
    (ht : s.tick = s1) (hf : s1.fault.flag = false) (hd : d.apply a s1 = .ok s2 r)
    (hk : Ends a (k r) s2 x t) : Ends a (.act d k) s x t := by
  intro h
  obtain ⟨h1, e1⟩ := hk (r :: h)
  exact ⟨h1, by simp [run, ht, hf, hd, e1]⟩

/-- A program whose run ends gives its result to the whole command. -/
theorem conclude_of_ends {a : Agent} {p : Prog Result} {s t : State} {r : Result} (i : Instr)
    (looping : Bool) (e : Ends a p s r t) : conclude a i looping (run a p [] s) = t.finish a r := by
  obtain ⟨h, e⟩ := e []
  rw [e]; rfl

/-- The run of `p` by `a` from `s` raises `f` in `t`. -/
def Raises (a : Agent) (p : Prog α) (s : State) (f : FReason) (t : State) : Prop :=
  ∀ h, run a p h s = .fault f t

theorem Raises.raise (a : Agent) (f : FReason) (s : State) : Raises a (.raise f : Prog α) s f s :=
  fun _ => rfl

theorem Raises.bind_left {a : Agent} {p : Prog α} (k : α → Prog β) {s t : State} {f : FReason}
    (hp : Raises a p s f t) : Raises a (p.bind k) s f t := by
  intro h
  rw [run_bind, hp h]

theorem Raises.bind_right {a : Agent} {p : Prog α} {k : α → Prog β} {s s1 t : State} {x : α}
    {f : FReason} (hp : Ends a p s x s1) (hk : Raises a (k x) s1 f t) : Raises a (p.bind k) s f t := by
  intro h
  obtain ⟨h1, e1⟩ := hp h
  rw [run_bind, e1]
  exact hk h1

theorem Raises.act {a : Agent} {d : Act} {k : Resp → Prog α} {s s1 s2 t : State} {r : Resp}
    {f : FReason} (ht : s.tick = s1) (hf : s1.fault.flag = false) (hd : d.apply a s1 = .ok s2 r)
    (hk : Raises a (k r) s2 f t) : Raises a (.act d k) s f t := by
  intro h
  have := hk (r :: h)
  simp [run, ht, hf, hd, this]

theorem Raises.step {a : Agent} {d : Act} {k : Resp → Prog α} {s s1 t : State} {f : FReason}
    (ht : s.tick = s1) (hf : s1.fault.flag = false) (hd : d.apply a s1 = .fault f t) :
    Raises a (.act d k) s f t := by
  intro h
  simp [run, ht, hf, hd]

theorem conclude_of_raises {a : Agent} {p : Prog Result} {s t : State} {f : FReason} (i : Instr)
    (looping : Bool) (e : Raises a p s f t) : conclude a i looping (run a p [] s) = t.raise a f := by
  rw [e []]; rfl

/-- The run of `p` by `a` from `s` stops in `t` because another agent or the hardware raised a fault. -/
def Halts (a : Agent) (p : Prog α) (s t : State) : Prop := ∀ h, ∃ h1, run a p h s = .halted h1 t

theorem Halts.bind_left {a : Agent} {p : Prog α} (k : α → Prog β) {s t : State} (hp : Halts a p s t) :
    Halts a (p.bind k) s t := by
  intro h
  obtain ⟨h1, e⟩ := hp h
  exact ⟨h1, by rw [run_bind, e]⟩

theorem Halts.act {a : Agent} {d : Act} {k : Resp → Prog α} {s s1 s2 t : State} {r : Resp}
    (ht : s.tick = s1) (hf : s1.fault.flag = false) (hd : d.apply a s1 = .ok s2 r)
    (hk : Halts a (k r) s2 t) : Halts a (.act d k) s t := by
  intro h
  obtain ⟨h1, e⟩ := hk (r :: h)
  exact ⟨h1, by simp [run, ht, hf, hd, e]⟩

theorem Halts.step {a : Agent} {d : Act} {k : Resp → Prog α} {s t : State} (ht : s.tick = t)
    (hf : t.fault.flag = true) : Halts a (.act d k) s t := by
  intro h
  exact ⟨h, by simp [run, ht, hf]⟩

/-- The run of `p` by `a` from `s`, with answers `h` so far, stops in `t` at a step that is not enabled, with
answers `h1`. -/
def Waits (a : Agent) (p : Prog α) (h : List Resp) (s : State) (h1 : List Resp) (t : State) : Prop :=
  run a p h s = .wait h1 t

theorem Waits.act {a : Agent} {d : Act} {k : Resp → Prog α} {s s1 s2 t : State} {r : Resp}
    {h h1 : List Resp} (ht : s.tick = s1) (hf : s1.fault.flag = false) (hd : d.apply a s1 = .ok s2 r)
    (hk : Waits a (k r) (r :: h) s2 h1 t) : Waits a (.act d k) h s h1 t := by
  unfold Waits at *
  simp [run, ht, hf, hd, hk]

theorem Waits.step {a : Agent} {d : Act} {k : Resp → Prog α} {s s1 t : State} {h : List Resp}
    (ht : s.tick = s1) (hf : s1.fault.flag = false) (hd : d.apply a s1 = .stay t) :
    Waits a (.act d k) h s h t := by
  simp [Waits, run, ht, hf, hd]

/-! ## What every event and every atomic step keeps -/

/-- What each event keeps, whatever the schedule, a batch keeps. -/
theorem tick_keeps (P : State → Prop) (henv : ∀ s e, P s → P { s with env := e })
    (hev : ∀ s e, P s → P (s.event e)) {s : State} (hs : P s) : P s.tick := by
  have fold : ∀ (b : List Event) (s : State), P s → P (b.foldl State.event s) := by
    intro b
    induction b with
    | nil => exact fun s h => h
    | cons e b ih => exact fun s h => ih _ (hev s e h)
  unfold State.tick
  split
  · exact fold _ _ (henv s _ hs)
  · exact fold _ _ hs

/-- Every atomic step of the program, whatever the answers, satisfies `Q`. -/
def Prog.All (Q : Act → Prop) : Prog α → Prop
  | .act d k => Q d ∧ ∀ r, (k r).All Q
  | .ret _ => True
  | .raise _ => True
  | .loop => True

theorem Prog.All.bind {Q : Act → Prop} {p : Prog α} {k : α → Prog β} (hp : p.All Q)
    (hk : ∀ x, (k x).All Q) : (p.bind k).All Q := by
  induction p with
  | ret x => exact hk x
  | raise f => trivial
  | loop => trivial
  | act d j ih => exact ⟨hp.1, fun r => ih r (hp.2 r)⟩

theorem Prog.All.after {Q : Act → Prop} {d : Act} {p : Prog α} (hd : Q d) (hp : p.All Q) :
    (Prog.after d p).All Q := ⟨hd, fun _ => hp⟩

theorem Prog.All.each {γ : Type} {Q : Act → Prop} {body : γ → Prog Unit} (h : ∀ x, (body x).All Q) :
    ∀ l, (Prog.each body l).All Q
  | [] => trivial
  | x :: xs => Prog.All.bind (h x) (fun _ => Prog.All.each h xs)

theorem Prog.All.replay {Q : Act → Prop} {p : Prog α} (hp : p.All Q) (rs : List Resp) :
    (p.replay rs).All Q := by
  induction p generalizing rs with
  | ret x => trivial
  | raise f => trivial
  | loop => trivial
  | act d k ih =>
    cases rs with
    | nil => exact hp
    | cons r rs => exact ih r (hp.2 r) rs

theorem Prog.All.trivial (p : Prog α) : p.All (fun _ => True) := by
  induction p with
  | ret x => exact True.intro
  | raise f => exact True.intro
  | loop => exact True.intro
  | act d k ih => exact ⟨True.intro, ih⟩

/-- What each event and each atomic step of a program of `a` keeps, its run keeps. -/
theorem run_keeps (P : State → Prop) (Q : Act → Prop) (a : Agent) (htick : ∀ s, P s → P s.tick)
    (hact : ∀ s d, P s → Q d → P (Act.apply a s d).state) (p : Prog α) (hp : p.All Q) (h : List Resp)
    (s : State) (hs : P s) : P (run a p h s).state := by
  induction p generalizing h s with
  | ret x => exact hs
  | raise f => exact hs
  | loop => exact hs
  | act d k ih =>
    simp only [run]
    have h1 := htick s hs
    split
    · exact h1
    · have h2 := hact _ d h1 hp.1
      split <;> rename_i heq <;> rw [heq] at h2
      · exact ih _ (hp.2 _) _ _ h2
      · exact h2
      · exact h2

/-- What ends, suspends and raises keep, the end of a run keeps. -/
theorem conclude_keeps (P : State → Prop) (a : Agent) (hfin : ∀ s r, P s → P (s.finish a r))
    (hsus : ∀ s k, P s → P (s.suspend a k)) (hrai : ∀ s f, P s → P (s.raise a f))
    (i : Instr) (looping : Bool) (x : Stop Result) (hx : P x.state) : P (conclude a i looping x) := by
  cases x with
  | done r h s => exact hfin s r hx
  | wait h s => exact hsus s _ hx
  | loop s => exact hsus s _ hx
  | fault f s => exact hrai s f hx
  | halted h s => exact hsus s _ hx

end Sys2Proof.Machine
end

