-- ==== Sys2Proof/Laws/Transaction.lean ====
section
/-! SUPPORT. One transaction with prompt hardware: what the row helpers of 40_register_protocol.md do, said
once (`readRow_ends`, `writeRow_ends`, `lockedWrite_ends`, `lockedUpdate_ends`, `zeroRows_ends`), so
that no proof about a command unfolds a transaction again. -/

namespace Sys2Proof.Machine

/-! ## The word written to ADR -/

theorem adrWord_mask (b : Bool) (off : RowOff) : adrWord b off &&& adrMask = adrWord b off := by
  cases b <;> revert off <;> decide

theorem adrWord_off (b : Bool) (off : RowOff) : bits (adrWord b off) 0 8 = off := by
  cases b <;> revert off <;> decide

theorem adrWord_wnr (b : Bool) (off : RowOff) : (adrWord b off).getLsbD 31 = b := by
  cases b <;> revert off <;> decide

theorem txnOf_write (off : RowOff) (dat : Vector Word 4) :
    txnOf (adrWord true off) dat = .write off (rowOf dat) := by
  unfold txnOf; rw [adrWord_wnr, adrWord_off]; rfl

theorem txnOf_read (off : RowOff) (dat : Vector Word 4) :
    txnOf (adrWord false off) dat = .read off := by
  unfold txnOf; rw [adrWord_wnr, adrWord_off]; rfl

/-! ## Prompt hardware -/

/-- A calm state waits for its agent: no event changes it. -/
theorem tick_calm {s : State} (h : s.Calm) : s.tick = s := by
  obtain ⟨hf, ⟨h1, h2, h3⟩, hs, hr⟩ := h
  simp [State.tick, hs, hr, State.event, hf, State.hwStep, State.perform, State.signalDone, h1, h2]

/-- Without a script and without a `rest`, no event happens. -/
theorem tick_silent {s : State} (h : s.Silent) : s.tick = s := by
  obtain ⟨hs, hr⟩ := h
  simp [State.tick, hs, hr]

/-- In a still state no event happens. -/
theorem tick_still {s : State} (hf : s.safe) (h : s.Still) : s.tick = s := by
  obtain ⟨hs, hr | ⟨hr, hi⟩⟩ := h
  · exact tick_silent ⟨hs, hr⟩
  · exact tick_calm ⟨hf, hi, hs, hr⟩

/-- A pending read of a written row is performed and signalled. -/
theorem tick_read {s : State} {off : RowOff} (hf : s.safe) (hp : s.Prompt)
    (ht : s.txPending = some (.read off)) (hn : s.txPerformed = false) (hc : s.ctl = 0)
    (hw : s.isWritten off = true) :
    s.tick = { s with dat := wordsOf (s.row off), txPerformed := true, ctl := 1 } := by
  obtain ⟨hs, hr⟩ := hp
  simp [State.tick, hs, hr, State.event, hf, State.hwStep, State.perform, hn, ht, hw, State.signalDone, hc]

/-- What the table RAM and the arming logic make of a row write (R310, R311). -/
def State.storeRow (s : State) (off : RowOff) (v : Row) : State :=
  if isCatRow off then (s.putRow off v).armEdges else s.putRow off v

theorem armEdges_frame (s : State) :
    ∃ hw ap, s.armEdges = { s with hwHalf := hw, armedPrev := ap } := by
  have one : ∀ (s : State) ch, ∃ hw ap, s.armEdge ch = { s with hwHalf := hw, armedPrev := ap } := by
    intro s ch
    unfold State.armEdge
    dsimp only
    split
    · exact ⟨_, _, rfl⟩
    · exact ⟨s.hwHalf, _, rfl⟩
  have all : ∀ (l : List Chan) (s : State),
      ∃ hw ap, l.foldl State.armEdge s = { s with hwHalf := hw, armedPrev := ap } := by
    intro l
    induction l with
    | nil => exact fun s => ⟨s.hwHalf, s.armedPrev, rfl⟩
    | cons ch l ih =>
      intro s
      obtain ⟨hw, ap, e⟩ := one s ch
      obtain ⟨hw2, ap2, e2⟩ := ih (s.armEdge ch)
      refine ⟨hw2, ap2, ?_⟩
      rw [List.foldl_cons, e2, e]
  exact all _ s

/-- A row store changes the row, its written bit and, for a CAT row, the arming state; nothing else. -/
theorem storeRow_frame (s : State) (off : RowOff) (v : Row) :
    ∃ hw ap, s.storeRow off v = { s.putRow off v with hwHalf := hw, armedPrev := ap } := by
  unfold State.storeRow
  split
  · exact armEdges_frame _
  · exact ⟨s.hwHalf, s.armedPrev, rfl⟩

/-- A row store does not look at the window, the lock or the turn. -/
theorem storeRow_window (s : State) (off : RowOff) (v : Row) (d : Vector Word 4) (w : Word)
    (x : Option Txn) (l : Option Agent) (b : Bool) :
    State.storeRow { s with dat := d, adr := w, txPending := x, lock := l, presented := b } off v =
      { s.storeRow off v with dat := d, adr := w, txPending := x, lock := l, presented := b } := by
  have one : ∀ (s : State) ch,
      State.armEdge { s with dat := d, adr := w, txPending := x, lock := l, presented := b } ch =
        { s.armEdge ch with dat := d, adr := w, txPending := x, lock := l, presented := b } := by
    intro s ch
    unfold State.armEdge State.armed State.ceSet State.isWritten State.catEntry State.row State.prevArmed
    dsimp only
    split <;> rfl
  have all : ∀ (cs : List Chan) (s : State),
      cs.foldl State.armEdge { s with dat := d, adr := w, txPending := x, lock := l, presented := b } =
        { cs.foldl State.armEdge s with dat := d, adr := w, txPending := x, lock := l, presented := b } := by
    intro cs
    induction cs with
    | nil => exact fun s => rfl
    | cons ch cs ih => intro s; rw [List.foldl_cons, one, ih, List.foldl_cons]
  unfold State.storeRow
  split
  · exact all (chansOf s.cfg) (s.putRow off v)
  · rfl

/-- A pending write is performed and signalled. -/
theorem tick_write {s : State} {off : RowOff} {v : Row} (hf : s.safe) (hp : s.Prompt)
    (ht : s.txPending = some (.write off v)) (hn : s.txPerformed = false) (hc : s.ctl = 0) :
    s.tick = { s.storeRow off v with txPerformed := true, ctl := 1 } := by
  obtain ⟨hs, hr⟩ := hp
  obtain ⟨hw, ap, e⟩ := storeRow_frame s off v
  have e2 : (if isCatRow off = true then (s.putRow off v).armEdges else s.putRow off v) =
      { s.putRow off v with hwHalf := hw, armedPrev := ap } := e
  simp only [State.tick, hs, hr, List.foldl_cons, List.foldl_nil, State.event, hf, State.hwStep,
    State.perform, hn, ht, Bool.false_eq_true, if_false]
  rw [e, e2]
  simp [State.putRow, hf, ht, State.signalDone, hc]

/-! ## Transactions -/

/-- A poll that sees XCMP. -/
theorem pollCtl_ends {a : Agent} {s u : State} (n : Nat) (ht : s.tick = u) (hf : u.fault.flag = false)
    (hc : u.ctl = 1) : Ends a (pollCtl (n + 1)) s true u := by
  refine Ends.act ht hf (s2 := u) (r := u.ctl.setWidth 128) rfl ?_
  rw [hc]
  exact Ends.ret a true u

/-- The four data words read. -/
theorem readDats_ends {a : Agent} {s : State} (ht : s.tick = s) (hf : s.safe) :
    Ends a readDats s (rowOf s.dat) s := by
  unfold readDats
  refine Ends.act ht hf (s2 := s) rfl ?_
  refine Ends.act ht hf (s2 := s) rfl ?_
  refine Ends.act ht hf (s2 := s) rfl ?_
  refine Ends.act ht hf (s2 := s) rfl ?_
  have e : ∀ x : Word, (x.setWidth 128).setWidth 32 = x := by intro x; simp
  simp only [e]
  exact Ends.ret a _ s

/-- A calm state after a row read: the row's words stand in DAT, ADR names the read. -/
def State.afterRead (s : State) (off : RowOff) : State :=
  { s with dat := wordsOf (s.row off), adr := adrWord false off }

/-- A calm state after a row write (`rb`: READBACK_CHECK, whose read leaves ADR naming a read). -/
def State.afterWrite (s : State) (rb : Bool) (off : RowOff) (v : Row) : State :=
  { s.storeRow off v with dat := wordsOf v, adr := adrWord (!rb) off }

theorem calm_afterRead {s : State} (off : RowOff) (h : s.Calm) : (s.afterRead off).Calm := h

theorem calm_afterWrite {s : State} (rb : Bool) (off : RowOff) (v : Row) (h : s.Calm) :
    (s.afterWrite rb off v).Calm := by
  obtain ⟨hw, ap, e⟩ := storeRow_frame s off v
  unfold State.afterWrite
  rw [e]
  exact h

/-- Txn(read, off, -) that completes (R150): the row, and nothing changed but the window. -/
theorem readRow_ends {a : Agent} {s : State} {off : RowOff} (c : Params) (h : s.Calm)
    (hl : s.lock = some a) (hr : reservedRow s.cfg off = false) (hw : s.isWritten off = true)
    (hn : 1 ≤ c.rpRetries) : Ends a (readRow c off) s (.ok (s.row off)) (s.afterRead off) := by
  obtain ⟨n, hn⟩ : ∃ n, c.rpRetries = n + 1 := ⟨c.rpRetries - 1, by omega⟩
  obtain ⟨hf, ⟨h1, h2, h3⟩, hp⟩ := id h
  unfold readRow Prog.after
  rw [hn]
  refine Ends.act (tick_calm h) hf (s2 := s) (r := 0) (by simp [Act.apply, actTxnGuard, hl, hr]) ?_
  let u : State := { s with adr := adrWord false off, txPending := some (.read off) }
  refine Ends.act (tick_calm h) hf (s2 := u) (r := 0) ?_ ?_
  · simp only [Act.apply, State.writeReg, adrWord_mask, txnOf_read, u]
    congr 1
    rw [← h2, ← h3]
  let u2 : State := { u with dat := wordsOf (s.row off), txPerformed := true, ctl := 1 }
  have t1 : u.tick = u2 := tick_read (s := u) hf hp rfl h2 h3 hw
  refine Ends.bind (pollCtl_ends n t1 hf rfl) ?_
  simp only [if_true]
  have t2 : u2.tick = u2 := by
    simp [State.tick, u2, u, hp.1, hp.2, State.event, hf, State.hwStep, State.perform, State.signalDone]
  refine Ends.bind (readDats_ends t2 hf) ?_
  rw [show u2.dat = wordsOf (s.row off) from rfl, rowOf_wordsOf]
  refine Ends.act t2 hf (s2 := s.afterRead off) (r := 0) ?_ ?_
  · simp only [Act.apply, State.writeReg, u2, u, State.afterRead]
    rw [if_neg (by decide)]
    congr 1
    rw [← h1, ← h2, ← h3]
  exact Ends.ret a (TxnRes.ok (s.row off)) (s.afterRead off)

/-- The four data words written; every one of them finds the state calm. -/
theorem writeDats_ends {α : Type} {a : Agent} {s t : State} {v : Row} {p : Prog α} {x : α} (h : s.Calm)
    (hp : Ends a p { s with dat := wordsOf v } x t) : Ends a (writeDats v p) s x t := by
  have step : ∀ (s : State) (i : Fin 4) (w : Word) (q : Prog α), s.Calm →
      Ends a q { s with dat := s.dat.set i w } x t → Ends a (.after (.writeReg (.dat i) w) q) s x t :=
    fun s i w q h hq => Ends.act (tick_calm h) h.1 (s2 := { s with dat := s.dat.set i w }) (r := 0) rfl hq
  rw [← set_words v s.dat] at hp
  exact step _ _ _ _ h (step _ _ _ _ h (step _ _ _ _ h (step _ _ _ _ h hp)))

/-- Txn(write, off, v) that completes (R150). -/
theorem writeTxn_ends {a : Agent} {s : State} {off : RowOff} {v : Row} (c : Params) (h : s.Calm)
    (hl : s.lock = some a) (hr : reservedRow s.cfg off = false) (hn : 1 ≤ c.rpRetries) :
    Ends a (writeTxn c off v) s (.ok v) (s.afterWrite false off v) := by
  obtain ⟨n, hn⟩ : ∃ n, c.rpRetries = n + 1 := ⟨c.rpRetries - 1, by omega⟩
  obtain ⟨hf, ⟨h1, h2, h3⟩, hp⟩ := id h
  unfold writeTxn Prog.after
  rw [hn]
  refine Ends.act (tick_calm h) hf (s2 := s) (r := 0) (by simp [Act.apply, actTxnGuard, hl, hr]) ?_
  refine writeDats_ends h ?_
  let u : State := { s with dat := wordsOf v, adr := adrWord true off, txPending := some (.write off v) }
  refine Ends.act (tick_calm (s := { s with dat := wordsOf v }) h) hf (s2 := u) (r := 0) ?_ ?_
  · simp only [Act.apply, State.writeReg, adrWord_mask, txnOf_write, rowOf_wordsOf, u]
    congr 1
    rw [← h2, ← h3]
  have e : u.storeRow off v = { s.storeRow off v with
      dat := wordsOf v, adr := adrWord true off, txPending := some (.write off v) } := by
    obtain ⟨hw, ap, e⟩ := storeRow_frame s off v
    have := storeRow_window s off v (wordsOf v) (adrWord true off) (some (.write off v)) s.lock s.presented
    rw [e] at this ⊢
    exact this
  let u2 : State := { u.storeRow off v with txPerformed := true, ctl := 1 }
  have t1 : u.tick = u2 := tick_write (s := u) hf hp rfl h2 h3
  obtain ⟨hw, ap, e3⟩ := storeRow_frame s off v
  have f2 : u2.fault.flag = false := by simp only [u2, e, e3]; exact hf
  refine Ends.bind (pollCtl_ends n t1 f2 rfl) ?_
  have t2 : u2.tick = u2 := by
    simp only [u2, e, e3]
    simp [State.putRow, State.tick, hp.1, hp.2, State.event, hf, State.hwStep, State.perform,
      State.signalDone]
  refine Ends.act t2 f2 (s2 := s.afterWrite false off v) (r := 0) ?_ (Ends.ret a _ _)
  simp only [Act.apply, State.writeReg, u2, e, State.afterWrite]
  rw [if_neg (by decide), e3]
  simp [State.putRow, h1, h2, h3]

/-! ## What a row write leaves -/

section

variable (s : State) (rb : Bool) (off : RowOff) (v : Row)

@[simp] theorem afterWrite_cfg : (s.afterWrite rb off v).cfg = s.cfg := by
  obtain ⟨hw, ap, e⟩ := storeRow_frame s off v; unfold State.afterWrite; rw [e]; rfl
@[simp] theorem afterWrite_bstat : (s.afterWrite rb off v).bstat = s.bstat := by
  obtain ⟨hw, ap, e⟩ := storeRow_frame s off v; unfold State.afterWrite; rw [e]; rfl
@[simp] theorem afterWrite_ctl : (s.afterWrite rb off v).ctl = s.ctl := by
  obtain ⟨hw, ap, e⟩ := storeRow_frame s off v; unfold State.afterWrite; rw [e]; rfl
@[simp] theorem afterWrite_hcSts : (s.afterWrite rb off v).hcSts = s.hcSts := by
  obtain ⟨hw, ap, e⟩ := storeRow_frame s off v; unfold State.afterWrite; rw [e]; rfl
@[simp] theorem afterWrite_hcErr : (s.afterWrite rb off v).hcErr = s.hcErr := by
  obtain ⟨hw, ap, e⟩ := storeRow_frame s off v; unfold State.afterWrite; rw [e]; rfl
@[simp] theorem afterWrite_hcMsk : (s.afterWrite rb off v).hcMsk = s.hcMsk := by
  obtain ⟨hw, ap, e⟩ := storeRow_frame s off v; unfold State.afterWrite; rw [e]; rfl
@[simp] theorem afterWrite_busMsk : (s.afterWrite rb off v).busMsk = s.busMsk := by
  obtain ⟨hw, ap, e⟩ := storeRow_frame s off v; unfold State.afterWrite; rw [e]; rfl
@[simp] theorem afterWrite_busClkClass : (s.afterWrite rb off v).busClkClass = s.busClkClass := by
  obtain ⟨hw, ap, e⟩ := storeRow_frame s off v; unfold State.afterWrite; rw [e]; rfl
@[simp] theorem afterWrite_devAddr : (s.afterWrite rb off v).devAddr = s.devAddr := by
  obtain ⟨hw, ap, e⟩ := storeRow_frame s off v; unfold State.afterWrite; rw [e]; rfl
@[simp] theorem afterWrite_txPending : (s.afterWrite rb off v).txPending = s.txPending := by
  obtain ⟨hw, ap, e⟩ := storeRow_frame s off v; unfold State.afterWrite; rw [e]; rfl
@[simp] theorem afterWrite_txPerformed : (s.afterWrite rb off v).txPerformed = s.txPerformed := by
  obtain ⟨hw, ap, e⟩ := storeRow_frame s off v; unfold State.afterWrite; rw [e]; rfl
@[simp] theorem afterWrite_swHalf : (s.afterWrite rb off v).swHalf = s.swHalf := by
  obtain ⟨hw, ap, e⟩ := storeRow_frame s off v; unfold State.afterWrite; rw [e]; rfl
@[simp] theorem afterWrite_nodes : (s.afterWrite rb off v).nodes = s.nodes := by
  obtain ⟨hw, ap, e⟩ := storeRow_frame s off v; unfold State.afterWrite; rw [e]; rfl
@[simp] theorem afterWrite_lock : (s.afterWrite rb off v).lock = s.lock := by
  obtain ⟨hw, ap, e⟩ := storeRow_frame s off v; unfold State.afterWrite; rw [e]; rfl
@[simp] theorem afterWrite_logcnt : (s.afterWrite rb off v).logcnt = s.logcnt := by
  obtain ⟨hw, ap, e⟩ := storeRow_frame s off v; unfold State.afterWrite; rw [e]; rfl
@[simp] theorem afterWrite_fault : (s.afterWrite rb off v).fault = s.fault := by
  obtain ⟨hw, ap, e⟩ := storeRow_frame s off v; unfold State.afterWrite; rw [e]; rfl
@[simp] theorem afterWrite_mem : (s.afterWrite rb off v).mem = s.mem := by
  obtain ⟨hw, ap, e⟩ := storeRow_frame s off v; unfold State.afterWrite; rw [e]; rfl
@[simp] theorem afterWrite_threads : (s.afterWrite rb off v).threads = s.threads := by
  obtain ⟨hw, ap, e⟩ := storeRow_frame s off v; unfold State.afterWrite; rw [e]; rfl
@[simp] theorem afterWrite_hd : (s.afterWrite rb off v).hd = s.hd := by
  obtain ⟨hw, ap, e⟩ := storeRow_frame s off v; unfold State.afterWrite; rw [e]; rfl
@[simp] theorem afterWrite_bd : (s.afterWrite rb off v).bd = s.bd := by
  obtain ⟨hw, ap, e⟩ := storeRow_frame s off v; unfold State.afterWrite; rw [e]; rfl
@[simp] theorem afterWrite_cur : (s.afterWrite rb off v).cur = s.cur := by
  obtain ⟨hw, ap, e⟩ := storeRow_frame s off v; unfold State.afterWrite; rw [e]; rfl
@[simp] theorem afterWrite_presented : (s.afterWrite rb off v).presented = s.presented := by
  obtain ⟨hw, ap, e⟩ := storeRow_frame s off v; unfold State.afterWrite; rw [e]; rfl
@[simp] theorem afterWrite_env : (s.afterWrite rb off v).env = s.env := by
  obtain ⟨hw, ap, e⟩ := storeRow_frame s off v; unfold State.afterWrite; rw [e]; rfl
@[simp] theorem afterWrite_ctx (a : Agent) : (s.afterWrite rb off v).ctx a = s.ctx a := by
  apply ctx_congr <;> simp
@[simp] theorem afterWrite_node (n : NodeNo) : (s.afterWrite rb off v).node n = s.node n := by
  simp [State.node]
@[simp] theorem afterWrite_sw (ch : Chan) : (s.afterWrite rb off v).sw ch = s.sw ch := by
  simp [State.sw]
theorem afterWrite_row (o : RowOff) :
    (s.afterWrite rb off v).row o = if o = off then v else s.row o := by
  obtain ⟨hw, ap, e⟩ := storeRow_frame s off v; unfold State.afterWrite; rw [e]
  exact row_putRow s off o v
theorem afterWrite_isWritten (o : RowOff) :
    (s.afterWrite rb off v).isWritten o = if o = off then true else s.isWritten o := by
  obtain ⟨hw, ap, e⟩ := storeRow_frame s off v; unfold State.afterWrite; rw [e]
  refine (isWritten_putRow s off o v).trans ?_
  by_cases h : o = off <;> simp [h]
@[simp] theorem afterWrite_row_same : (s.afterWrite rb off v).row off = v := by
  simp [afterWrite_row]
@[simp] theorem afterWrite_isWritten_same : (s.afterWrite rb off v).isWritten off = true := by
  simp [afterWrite_isWritten]

/-- A row that is no CAT row leaves the hardware's cursors and the arming state alone. -/
theorem afterWrite_arming (h : isCatRow off = false) : KeepsArming s (s.afterWrite rb off v) := by
  simp [KeepsArming, State.afterWrite, State.storeRow, h, State.putRow]

/-- The window after a row write: DAT holds the row. -/
@[simp] theorem afterWrite_dat : (s.afterWrite rb off v).dat = wordsOf v := rfl
@[simp] theorem afterWrite_adr : (s.afterWrite rb off v).adr = adrWord (!rb) off := rfl

end

/-- The lock held, or not, or the turn: a row write does not look at it. -/
theorem afterWrite_lock_comm (s : State) (rb : Bool) (off : RowOff) (v : Row) (l : Option Agent) :
    State.afterWrite { s with lock := l } rb off v = { s.afterWrite rb off v with lock := l } := by
  unfold State.afterWrite
  have := storeRow_window s off v s.dat s.adr s.txPending l s.presented
  obtain ⟨hw, ap, e⟩ := storeRow_frame s off v
  rw [e] at this ⊢
  exact congrArg (fun t : State => { t with dat := wordsOf v, adr := adrWord (!rb) off }) this

/-- A read before a write leaves no trace: the write's window stays. -/
theorem afterWrite_afterRead (s : State) (rb : Bool) (off o : RowOff) (v : Row) :
    (s.afterRead o).afterWrite rb off v = s.afterWrite rb off v := by
  unfold State.afterWrite State.afterRead
  have := storeRow_window s off v (wordsOf (s.row o)) (adrWord false o) s.txPending s.lock s.presented
  obtain ⟨hw, ap, e⟩ := storeRow_frame s off v
  rw [e] at this ⊢
  exact congrArg (fun t : State => { t with dat := wordsOf v, adr := adrWord (!rb) off }) this

/-- The release that ends a hold of L: the state is the one without the hold. -/
theorem actRelease_held {a : Agent} {s t : State} (hl : s.lock = none)
    (e : t = { s with lock := some a }) : Act.apply a t .release = .ok s 0 := by
  subst e
  simp only [Act.apply, actRelease, if_true]
  rw [← hl]

/-- A step of a calm state that is enabled. -/
theorem Ends.calm {α : Type} {a : Agent} {d : Act} {k : Resp → Prog α} {s s2 t : State} {r : Resp} {x : α}
    (h : s.Calm) (hd : d.apply a s = .ok s2 r) (hk : Ends a (k r) s2 x t) : Ends a (.act d k) s x t :=
  Ends.act (tick_calm h) h.1 hd hk

/-- `acquire L` when it is free. -/
theorem Ends.acquire {α : Type} {a : Agent} {p : Prog α} {s t : State} {x : α} (h : s.Calm)
    (hl : s.lock = none) (hp : Ends a p { s with lock := some a } x t) :
    Ends a (.after .acquire p) s x t :=
  Ends.calm h (s2 := { s with lock := some a }) (r := 0) (by simp [Act.apply, actAcquire, hl]) hp

/-- `release L` by its holder. -/
theorem Ends.release {α : Type} {a : Agent} {p : Prog α} {s t : State} {x : α} (h : s.Calm)
    (hl : s.lock = some a) (hp : Ends a p { s with lock := none } x t) :
    Ends a (.after .release p) s x t :=
  Ends.calm h (s2 := { s with lock := none }) (r := 0) (by simp [Act.apply, actRelease, hl]) hp

/-! ## The row helpers -/

/-- WriteRow(off, v) that completes (R156); the read-back finds the row written. -/
theorem writeRow_ends {a : Agent} {s : State} {off : RowOff} {v : Row} (c : Params) (h : s.Calm)
    (hl : s.lock = some a) (hr : reservedRow s.cfg off = false) (hn : 1 ≤ c.rpRetries) :
    Ends a (writeRow c off v) s .ok (s.afterWrite c.readbackCheck off v) := by
  unfold writeRow
  refine Ends.bind (writeTxn_ends c h hl hr hn) ?_
  dsimp only
  by_cases hc : c.readbackCheck = true
  · rw [if_pos hc]
    have h2 := calm_afterWrite false off v h
    refine Ends.bind (readRow_ends c h2 (by simpa using hl) (by simpa using hr) (by simp) hn) ?_
    simp only [afterWrite_row_same, if_true]
    have e : (s.afterWrite false off v).afterRead off = s.afterWrite c.readbackCheck off v := by
      rw [hc]
      simp [State.afterRead, State.afterWrite, State.row]
      have := afterWrite_row_same s false off v
      simpa [State.afterWrite, State.row] using congrArg wordsOf this
    rw [e]
    exact Ends.ret a _ _
  · have hc : c.readbackCheck = false := by simpa using hc
    rw [hc, if_neg (by simp)]
    exact Ends.ret a _ _

/-- One row write under one hold of L that completes (R151). -/
theorem lockedWrite_ends {a : Agent} {s : State} {off : RowOff} {v : Row} (c : Params) (h : s.Calm)
    (hl : s.lock = none) (hr : reservedRow s.cfg off = false) (hn : 1 ≤ c.rpRetries) :
    Ends a (lockedWrite c off v) s .ok (s.afterWrite c.readbackCheck off v) := by
  unfold lockedWrite Prog.after
  let u : State := { s with lock := some a }
  refine Ends.act (tick_calm h) h.1 (s2 := u) (r := 0) (by simp [Act.apply, actAcquire, hl, u]) ?_
  refine Ends.bind (writeRow_ends (s := u) c h rfl hr hn) ?_
  have hc : (u.afterWrite c.readbackCheck off v).Calm := calm_afterWrite (s := u) _ off v h
  refine Ends.act (tick_calm hc) hc.1 (s2 := s.afterWrite c.readbackCheck off v) (r := 0) ?_
    (Ends.ret a _ _)
  exact actRelease_held (s := s.afterWrite c.readbackCheck off v) (by simpa using hl)
    (afterWrite_lock_comm s _ off v (some a))

/-- A read, a patch and a write back under a hold of L that complete (R154). -/
theorem updateRow_ends {a : Agent} {s : State} {off : RowOff} {f : Row → Row} (c : Params) (h : s.Calm)
    (hl : s.lock = some a) (hr : reservedRow s.cfg off = false) (hw : s.isWritten off = true)
    (hn : 1 ≤ c.rpRetries) :
    Ends a (updateRow c off f) s .ok (s.afterWrite c.readbackCheck off (f (s.row off))) := by
  unfold updateRow
  refine Ends.bind (readRow_ends c h hl hr hw hn) ?_
  rw [← afterWrite_afterRead s c.readbackCheck off off]
  exact writeRow_ends (s := s.afterRead off) c (calm_afterRead off h) hl hr hn

/-- The same under a hold of L of its own (R154). -/
theorem lockedUpdate_ends {a : Agent} {s : State} {off : RowOff} {f : Row → Row} (c : Params)
    (h : s.Calm) (hl : s.lock = none) (hr : reservedRow s.cfg off = false)
    (hw : s.isWritten off = true) (hn : 1 ≤ c.rpRetries) :
    Ends a (lockedUpdate c off f) s .ok (s.afterWrite c.readbackCheck off (f (s.row off))) := by
  unfold lockedUpdate Prog.after
  let u : State := { s with lock := some a }
  refine Ends.act (tick_calm h) h.1 (s2 := u) (r := 0) (by simp [Act.apply, actAcquire, hl, u]) ?_
  refine Ends.bind (updateRow_ends (s := u) c h rfl hr hw hn) ?_
  have hc := calm_afterWrite (s := u) c.readbackCheck off (f (s.row off)) h
  refine Ends.act (tick_calm hc) hc.1 (s2 := s.afterWrite c.readbackCheck off (f (s.row off))) (r := 0) ?_
    (Ends.ret a _ _)
  exact actRelease_held (s := s.afterWrite c.readbackCheck off (f (s.row off))) (by simpa using hl)
    (afterWrite_lock_comm s _ off _ (some a))

/-- Zero rows written one after the other (R172, R192). -/
theorem zeroRows_ends {a : Agent} (c : Params) (hn : 1 ≤ c.rpRetries) (offs : List RowOff) :
    ∀ {s : State}, s.Calm → s.lock = none → (∀ off ∈ offs, reservedRow s.cfg off = false) →
    Ends a (zeroRows c offs) s { rc := some .ok }
      (offs.foldl (fun t off => t.afterWrite c.readbackCheck off 0) s) := by
  induction offs with
  | nil => intro s _ _ _; exact Ends.ret a _ s
  | cons off offs ih =>
    intro s h hl hr
    unfold zeroRows
    refine Ends.bind (lockedWrite_ends c h hl (hr off (by simp)) hn) ?_
    refine ih (calm_afterWrite _ off 0 h) (by simpa using hl) ?_
    intro o ho
    simpa using hr o (by simp [ho])

end Sys2Proof.Machine
end

