-- ==== Sys2Proof/Laws/Finish.lean ====
section
/-! SUPPORT. How a command that is ready begins, and what its end leaves: `runCommand_ends` turns a run that
ends into the command's next state, `ended_finish`, `returned_finish` and `keepsCore_finish` say what
that state holds; `faulted_raise` and `runCommand_turnedAway` say the same of a command that raises. -/

namespace Sys2Proof.Machine

/-! ## Beginning -/

/-- An agent that may issue a command has a context. -/
theorem has_of_mayIssue {s : State} {a : Agent} {i : Instr} (ht : s.threads.length = s.cfg.nhost)
    (h : mayIssue s.cfg i a = true) : s.has a := by
  have host : isHost s.cfg a = true → s.has a := by
    intro h
    cases a <;> simp_all [isHost, State.has]
  cases i <;> simp [mayIssue] at h <;> first
    | exact host h
    | (subst h; trivial)
    | (rcases h with h | h
       · exact host h
       · subst h; trivial)

theorem entryFault_ready {s : State} {a : Agent} {i : Instr} (h : s.Ready a i) :
    entryFault s.cfg i s.cur = none := by
  have hw := h.fields
  simp only [Instr.wellFormed, Bool.and_eq_true] at hw
  simp [entryFault, h.cur, h.issuer, hw.1, hw.2]

/-- The state in which the program of a command starts. -/
def State.begun (s : State) : State := { s with presented := true }

theorem begun_calm {s : State} (h : s.safe) (ht : s.TableReady) : s.begun.Calm :=
  ⟨h, ht.2.1, ht.1⟩

/-- A ready command whose run ends answers a next state: the one its run left, finished. -/
theorem runCommand_ends {s t : State} {a : Agent} {i : Instr} {p : Prog Result} {r : Result}
    (h : s.Ready a i) (e : Ends a p s.begun r t) : s.runCommand i p = .next (t.finish a r) := by
  obtain rfl := h.cur
  unfold State.runCommand
  rw [entryFault_ready h]
  exact congrArg _ (conclude_of_ends i false e)

/-- A ready command whose run raises answers a next state with the fault taken. -/
theorem runCommand_raises {s t : State} {a : Agent} {i : Instr} {p : Prog Result} {f : FReason}
    (h : s.Ready a i) (e : Raises a p s.begun f t) : s.runCommand i p = .next (t.raise a f) := by
  obtain rfl := h.cur
  unfold State.runCommand
  rw [entryFault_ready h]
  exact congrArg _ (conclude_of_raises i false e)

/-! ## The end -/

theorem resRead_writeRes (x : Ctx) (i j : Fin 4) (w : Word) :
    (x.writeRes i w).resRead j = if i = j then some w else x.resRead j := by
  simp only [Ctx.resRead, Ctx.writeRes, Fin.getElem_fin, Vector.getElem_set]
  by_cases h : i = j
  · subst h; simp
  · have : (i : Nat) ≠ j := fun e => h (Fin.ext e)
    simp [h, this]

/-- RES after the writes `l`, each index at most once. -/
theorem resRead_foldl (l : List (Fin 4 × Word)) (nd : (l.map (·.1)).Nodup) (x : Ctx) (i : Fin 4) :
    (l.foldl (fun c p => Ctx.writeRes c p.1 p.2) x).resRead i =
      match l.find? (fun p => p.1 = i) with
      | some p => some p.2
      | none => x.resRead i := by
  induction l generalizing x with
  | nil => rfl
  | cons p l ih =>
    simp only [List.map_cons, List.nodup_cons] at nd
    rw [List.foldl_cons, ih nd.2, List.find?_cons]
    by_cases h : p.1 = i
    · have : l.find? (fun q => q.1 = i) = none := by
        rw [List.find?_eq_none]
        intro q hq he
        simp only [decide_eq_true_eq] at he
        exact nd.1 (List.mem_map.mpr ⟨q, hq, by rw [he, h]⟩)
      rw [this]
      simp [resRead_writeRes, h]
    · simp [h, resRead_writeRes]

@[simp] theorem foldl_writeRes_fields (l : List (Fin 4 × Word)) (x : Ctx) :
    (l.foldl (fun c p => Ctx.writeRes c p.1 p.2) x).rc = x.rc ∧
    (l.foldl (fun c p => Ctx.writeRes c p.1 p.2) x).cmd = x.cmd ∧
    (l.foldl (fun c p => Ctx.writeRes c p.1 p.2) x).op = x.op := by
  induction l generalizing x with
  | nil => exact ⟨rfl, rfl, rfl⟩
  | cons p l ih => exact ih (x.writeRes p.1 p.2)

/-- The context of the agent after its command has ended. -/
theorem ctx_finish {s : State} {a : Agent} (r : Result) (h : s.has a) :
    (s.finish a r).ctx a =
      { Ctx.put (s.ctx a) r with task := none, blocked := false, woken := false, notified := false } := by
  unfold State.finish State.release
  dsimp only
  have h2 : (s.setCtx a (Ctx.put (s.ctx a) r)).has a := (has_setCtx s a a _).mpr h
  have e := ctx_setCtx_same (s.setCtx a (Ctx.put (s.ctx a) r))
    { (s.setCtx a (Ctx.put (s.ctx a) r)).ctx a with task := none, blocked := false, woken := false, notified := false } h2
  rw [ctx_setCtx_same s _ h] at e ⊢
  split
  · exact e
  · exact e

theorem ctx_finish_other {s : State} {a b : Agent} (r : Result) (h : b ≠ a) :
    (s.finish a r).ctx b = s.ctx b := by
  unfold State.finish State.release
  dsimp only
  split
  · exact (ctx_setCtx_other _ _ h).trans (ctx_setCtx_other s _ h)
  · exact (ctx_setCtx_other _ _ h).trans (ctx_setCtx_other s _ h)

theorem presented_finish {s : State} {a : Agent} (r : Result) (h : s.cur = a) :
    (s.finish a r).presented = false := by
  unfold State.finish State.release
  simp [h]

/-- What a run gives its agent at the end, when the agent's registers are as they were. -/
theorem ended_finish {s u : State} {a : Agent} {rc : RC} {res : List (Fin 4 × Word)} (hu : u.has a)
    (hc : u.cur = a) (er : ∀ i, (u.ctx a).resRead i = (s.ctx a).resRead i)
    (ec : (u.ctx a).cmd = (s.ctx a).cmd ∧ (u.ctx a).op = (s.ctx a).op) (nd : (res.map (·.1)).Nodup) :
    Ended a s (u.finish a { rc := some rc, res := res }) rc res := by
  have f := foldl_writeRes_fields res (u.ctx a)
  refine ⟨?_, ?_, ?_, ?_⟩
  · rw [ctx_finish _ hu]; rfl
  · intro i
    rw [ctx_finish _ hu]
    refine (resRead_foldl res nd (u.ctx a) i).trans ?_
    cases res.find? (fun p => p.1 = i) with
    | none => exact er i
    | some p => rfl
  · rw [ctx_finish _ hu, ← ec.1, ← ec.2]; exact f.2
  · rw [ctx_finish _ hu]; exact ⟨rfl, rfl, presented_finish _ hc⟩

/-- The same for a command that returns nothing. -/
theorem returned_finish {s u : State} {a : Agent} (hu : u.has a) (hc : u.cur = a)
    (e : u.ctx a = s.ctx a) : Returned a s (u.finish a { rc := none }) := by
  refine ⟨?_, ?_, ?_, ?_⟩
  · rw [ctx_finish _ hu, ← e]; rfl
  · intro i; rw [ctx_finish _ hu, ← e]; rfl
  · rw [ctx_finish _ hu, ← e]; exact ⟨rfl, rfl⟩
  · rw [ctx_finish _ hu]; exact ⟨rfl, rfl, presented_finish _ hc⟩

/-- What a run left alone, the end of the command leaves alone. -/
theorem keepsEngine_finish {s u : State} {a : Agent} (r : Result) (hc : u.cfg = s.cfg)
    (hb : u.bstat = s.bstat) (hl : u.lock = s.lock) (hf : u.fault = s.fault) :
    KeepsEngine s (u.finish a r) :=
  ⟨by simpa using hc, by simpa using hb, by simpa using hl, by simpa using hf⟩

theorem keepsCore_finish {s u : State} {a : Agent} (r : Result) (he : KeepsEngine s u)
    (ho : KeepsOthers a s u) : KeepsCore a s (u.finish a r) :=
  ⟨keepsEngine_finish r he.1 he.2 he.3 he.4, fun b h => (ctx_finish_other r h).trans (ho b h)⟩

/-- A ready command whose run leaves its agent's registers alone ends with its code and its RES writes. -/
theorem runCommand_ended {s u : State} {a : Agent} {i : Instr} {p : Prog Result} {rc : RC}
    {res : List (Fin 4 × Word)} (h : s.Ready a i) (e : Ends a p s.begun { rc := some rc, res := res } u)
    (hc : u.cur = s.cur) (ht : u.threads.length = s.threads.length)
    (er : ∀ k, (u.ctx a).resRead k = (s.ctx a).resRead k)
    (ec : (u.ctx a).cmd = (s.ctx a).cmd ∧ (u.ctx a).op = (s.ctx a).op) (nd : (res.map (·.1)).Nodup) :
    s.runCommand i p = .next (u.finish a { rc := some rc, res := res }) ∧
    Ended a s (u.finish a { rc := some rc, res := res }) rc res := by
  have hu : u.has a := by
    have := has_of_mayIssue h.threads h.issuer
    cases a <;> simp_all [State.has]
  exact ⟨runCommand_ends h e, ended_finish hu (hc.trans h.cur) er ec nd⟩

/-! ## Model faults -/

/-- The context of the agent after its command has raised: nothing in progress, its registers as they were. -/
theorem ctx_raise {s : State} {a : Agent} (f : FReason) (h : s.has a) :
    (s.raise a f).ctx a =
      { s.ctx a with task := none, blocked := false, woken := false, notified := false } := by
  have e : ∀ u : State, u.has a →
      (u.release a).ctx a =
        { u.ctx a with task := none, blocked := false, woken := false, notified := false } := by
    intro u hu
    unfold State.release
    dsimp only
    split <;> exact ctx_setCtx_same u _ hu
  have k : ∀ b, (s.record a f).ctx b = s.ctx b := by
    intro b
    unfold State.record
    split
    · rfl
    · cases b <;> rfl
  have hk : (s.record a f).has a := by
    have : (s.record a f).threads = s.threads := by unfold State.record; split <;> rfl
    cases a <;> simp_all [State.has]
  exact (e _ hk).trans (by rw [k])

theorem ctx_raise_other {s : State} {a b : Agent} (f : FReason) (h : b ≠ a) :
    (s.raise a f).ctx b = s.ctx b := by
  have k : (s.record a f).ctx b = s.ctx b := by
    unfold State.record
    split
    · rfl
    · cases b <;> rfl
  unfold State.raise State.release
  dsimp only
  split <;> exact (ctx_setCtx_other _ _ h).trans k

/-- What a raise changes beside the raising agent's context: the record, and the turn. -/
theorem raise_frame (s : State) (a : Agent) (f : FReason) :
    ∃ r th h b p, s.raise a f = { s with fault := r, threads := th, hd := h, bd := b, presented := p } := by
  unfold State.raise State.release State.record
  dsimp only
  cases a <;> split <;> split <;> exact ⟨_, _, _, _, _, rfl⟩

/-- A raise by an agent whose registers are as they were. -/
theorem faulted_raise {s u : State} {a : Agent} (f : FReason) (hu : u.has a) (hc : u.cur = a)
    (hf : u.safe) (ex : ∀ b, u.ctx b = s.ctx b) (eg : u.cfg = s.cfg) (eb : u.bstat = s.bstat) :
    Faulted a f s (u.raise a f) := by
  have hw : u.cmdOf a = (s.ctx a).cmd := by
    rw [← ex a]
    cases a with
    | hw => exact hu.elim
    | _ => rfl
  have h : (u.raise a f).cfg = u.cfg ∧ (u.raise a f).bstat = u.bstat := by
    obtain ⟨_, _, _, _, _, e⟩ := raise_frame u a f
    rw [e]
    exact ⟨rfl, rfl⟩
  refine ⟨?_, ?_, ?_, ?_, ⟨?_, ?_, ?_⟩, ⟨h.1.trans eg, h.2.trans eb⟩,
    fun b hb => (ctx_raise_other f hb).trans (ex b)⟩
  · have : (u.raise a f).fault = (u.record a f).fault := by
      unfold State.raise State.release
      dsimp only
      cases a <;> split <;> rfl
    rw [this, ← hw]
    simp [State.record, hf]
  · rw [ctx_raise f hu, ← ex a]
  · intro i
    rw [ctx_raise f hu, ← ex a]
    rfl
  · rw [ctx_raise f hu, ← ex a]
    exact ⟨rfl, rfl⟩
  · rw [ctx_raise f hu]
  · rw [ctx_raise f hu]
  · simp [State.raise, State.release, State.record, hc]
    split <;> simp_all

/-- A ready command that raises before it did anything answers a next state with the fault taken and nothing
else moved. -/
theorem runCommand_turnedAway {s : State} {a : Agent} {i : Instr} {p : Prog Result} {f : FReason}
    (h : s.Ready a i) (e : Raises a p s.begun f s.begun) :
    ∃ t, s.runCommand i p = .next t ∧ TurnedAway a f s t := by
  refine ⟨_, runCommand_raises h e, ?_, ?_, ?_, ?_⟩
  · exact faulted_raise f (has_of_mayIssue (s := s) h.threads h.issuer) h.cur h.safe (fun b => by cases b <;> rfl) rfl rfl
  all_goals obtain ⟨_, _, _, _, _, e⟩ := raise_frame s.begun a f; rw [e]
  · exact ⟨fun _ _ => ⟨rfl, rfl⟩, ⟨rfl, rfl, rfl, rfl, rfl⟩, rfl, rfl⟩
  · exact ⟨⟨rfl, rfl⟩, ⟨rfl, rfl⟩, ⟨rfl, rfl⟩, fun _ _ => rfl, fun _ _ => rfl, rfl, fun _ => rfl⟩
  · rfl

end Sys2Proof.Machine
end

