-- ==== Sys2Proof/Laws/Keeps.lean ====
section
/-! SUPPORT. What every part of a step keeps, a step keeps (`step_keeps`): one induction over the machine,
cited by every invariant. -/

namespace Sys2Proof.Machine

/-! ## The parameters -/

theorem armEdges_cfg (s : State) : s.armEdges.cfg = s.cfg := by
  have one : ∀ (s : State) ch, (s.armEdge ch).cfg = s.cfg := by
    intro s ch; unfold State.armEdge; dsimp only; split <;> rfl
  have all : ∀ (l : List Chan) (s : State), (l.foldl State.armEdge s).cfg = s.cfg := by
    intro l
    induction l with
    | nil => exact fun s => rfl
    | cons ch l ih => exact fun s => (ih _).trans (one s ch)
  exact all _ s

theorem hwStep_cfg (s : State) (h : HwStep) : (s.hwStep h).cfg = s.cfg := by
  cases h with
  | perform =>
    simp only [State.hwStep, State.perform]
    repeat' split
    all_goals simp [armEdges_cfg]
  | signal => simp only [State.hwStep, State.signalDone]; split <;> rfl
  | xfer ch ok bytes =>
    simp only [State.hwStep, State.xfer, State.xferDone]
    repeat' split
    all_goals simp
  | raiseSts ch b => simp only [State.hwStep, State.raiseSts]; split <;> simp
  | progress ch r w => simp only [State.hwStep, State.progress]; split <;> simp
  | bus c l => simp only [State.hwStep, State.busStep]; split <;> rfl

theorem wait_cfg (a : Agent) (b : Bool) (s : State) : (actWait a b s).state.cfg = s.cfg := by
  unfold actWait
  dsimp only
  repeat' split
  all_goals simp [Eff.state]

theorem setBusy_cfg (n : NodeNo) (b : Bool) (s : State) : (actSetBusy n b s).state.cfg = s.cfg := by
  cases b <;> rfl

theorem apply_cfg (a : Agent) (s : State) (d : Act) : (Act.apply a s d).state.cfg = s.cfg := by
  cases d
  case waitRing n => exact wait_cfg a _ s
  case waitTx n => exact wait_cfg a _ s
  case setBusy n b => exact setBusy_cfg n b s
  case snapshot => rfl
  case writeReg r w =>
    cases r <;> simp [Act.apply, Eff.state, State.writeReg]
    split <;> rfl
  case enqueueOrLate n b =>
    simp only [Act.apply, actEnqueueOrLate, actEnqueue]
    repeat' split
    all_goals simp [Eff.state]
  case allocate n =>
    simp only [Act.apply, actAllocate]
    repeat' split
    all_goals simp [Eff.state]
  all_goals
    simp only [Act.apply, actAcquire, actRelease, actTxnGuard, actTakeMutex, actNode, actEnqueue,
      actDeqEnter, actDeqTake, actWriteEnter, actCopy, actTakeExc, actReadiness, actPostExc]
    repeat' split
    all_goals simp [Eff.state]

/-! ## Every part, every step -/

/-- Every command's meaning is the run of its program by the agent whose turn it is. -/
theorem exec_eq (i : Instr) (s : State) : exec i s = s.runCommand i (progOf s.cfg s.operands false i) := by
  cases i <;> rfl

/-- `P` is kept by every part of a step; `Q` is what the atomic steps of commands satisfy, `S` what the
agents that take them do. -/
structure Keeper (P : State → Prop) (Q : Params → Act → Prop) (S : Params → Agent → Prop) : Prop where
  env : ∀ s e, P s → P { s with env := e }
  turn : ∀ s b, P s → P { s with presented := b }
  cur : ∀ s a, P s → P { s with cur := a }
  task : ∀ s a, P s → (s.ctx a).task ≠ none → S s.cfg a
  issue : ∀ s a i, P s → mayIssue s.cfg i a = true → S s.cfg a
  ctx : ∀ s a x, P s → ((∃ t, a = .host t) ∨ x.rc = (s.ctx a).rc ∨ x.rc.toNat ≤ 10) → P (s.setCtx a x)
  record : ∀ s a f, P s → P (s.record a f)
  store : ∀ s a bs, P s → P { s with mem := memWriteBytes s.mem a bs }
  hw : ∀ s h, P s → P (s.hwStep h)
  reset : ∀ s, P s → P s.engineReset
  act : ∀ s a d, P s → S s.cfg a → Q s.cfg d → P (Act.apply a s d).state

section

variable {P : State → Prop} {Q : Params → Act → Prop} {S : Params → Agent → Prop}

theorem Keeper.release (K : Keeper P Q S) (s : State) (a : Agent) (h : P s) : P (s.release a) := by
  unfold State.release
  dsimp only
  have h1 := K.ctx s a { s.ctx a with task := none, blocked := false, woken := false, notified := false } h (.inr (.inl rfl))
  split
  · exact K.turn _ false h1
  · exact h1

theorem Keeper.suspend (K : Keeper P Q S) (s : State) (a : Agent) (k : Task) (h : P s) :
    P (s.suspend a k) := by
  unfold State.suspend
  dsimp only
  have h1 := K.ctx s a { s.ctx a with task := some k } h (.inr (.inl rfl))
  split
  · exact K.turn _ false h1
  · exact h1

theorem Keeper.raise (K : Keeper P Q S) (s : State) (a : Agent) (f : FReason) (h : P s) :
    P (s.raise a f) := K.release _ a (K.record s a f h)

theorem foldl_writeRes_rc (l : List (Fin 4 × Word)) (x : Ctx) :
    (l.foldl (fun c p => Ctx.writeRes c p.1 p.2) x).rc = x.rc := by
  induction l generalizing x with
  | nil => rfl
  | cons p l ih => exact ih (x.writeRes p.1 p.2)

theorem Keeper.finish (K : Keeper P Q S) (s : State) (a : Agent) (r : Result) (h : P s) :
    P (s.finish a r) := by
  refine K.release _ a (K.ctx s a _ h ?_)
  unfold Ctx.put
  dsimp only
  split
  · rename_i rc _
    right; right
    show (RC.code rc).toNat ≤ 10
    cases rc <;> decide
  · right; left
    exact foldl_writeRes_rc r.res (s.ctx a)

/-- An agent with a command in progress is a software agent of the engine. -/
theorem software_of_task {s : State} {a : Agent} (ht : s.threads.length = s.cfg.nhost)
    (h : (s.ctx a).task ≠ none) : softwareAgent s.cfg a := by
  cases a with
  | host t =>
    rw [softwareAgent, ← ht]
    by_contra hn
    apply h
    simp [State.ctx, List.getD_eq_getElem?_getD, List.getElem?_eq_none (Nat.le_of_not_lt hn), Ctx.reset]
  | hd => trivial
  | bd => trivial
  | hw => exact absurd rfl h

theorem Keeper.beginCmd (K : Keeper P Q S) (s : State) (a : Agent) (h : P s) : P (s.beginCmd a) := by
  unfold State.beginCmd
  split
  · exact K.raise s a _ h
  · split
    · exact K.raise s a _ h
    · exact K.ctx s a _ h (.inr (.inl rfl))

theorem Keeper.goOn (K : Keeper P Q S) (s : State) (a : Agent) (k : Task) (hist : List Resp)
    (p : Prog Result) (h : P s) : P (s.goOn a k hist p) := by
  cases p with
  | ret r => exact K.finish s a r h
  | raise f => exact K.raise s a f h
  | loop => exact K.suspend s a _ h
  | act d j => exact K.suspend s a _ h

theorem Keeper.microStep (K : Keeper P Q S) (hQ : ∀ c op l i, (progOf c op l i).All (Q c)) (s : State)
    (a : Agent) (h : P s) : P (s.microStep a) := by
  unfold State.microStep
  split
  · exact h
  · split
    · exact h
    · rename_i k hk
      have sw := K.task s a h (by rw [hk]; exact fun e => nomatch e)
      have hp : (s.standing a k).All (Q s.cfg) := Prog.All.replay (hQ _ _ _ _) _
      split
      · rename_i d next heq
        rw [heq] at hp
        have h2 := K.act s a d h sw hp.1
        split <;> rename_i e2 <;> rw [e2] at h2
        · exact K.goOn _ a k _ _ h2
        · exact h2
        · exact K.raise _ a _ h2
      · exact K.goOn s a k _ _ h

theorem Keeper.event (K : Keeper P Q S) (hQ : ∀ c op l i, (progOf c op l i).All (Q c)) (s : State)
    (e : Event) (h : P s) : P (s.event e) := by
  unfold State.event
  split
  · exact h
  · cases e with
    | hw x => exact K.hw s x h
    | issue t cmd op =>
      simp only [State.issueBy]
      split
      · exact K.beginCmd _ _ (K.ctx s _ _ h (.inr (.inl rfl)))
      · exact h
    | irq bus =>
      simp only [State.beginIrq]
      repeat' split
      all_goals first
        | exact h
        | exact K.beginCmd _ _ (K.ctx s _ _ h (.inr (.inl rfl)))
    | agent a => exact K.microStep hQ s a h
    | signal t =>
      simp only [State.signalThread]
      split
      · exact K.ctx s _ _ h (.inr (.inl rfl))
      · exact h
    | own t r w =>
      simp only [State.ownWrite]
      split
      · exact K.ctx s _ _ h (.inl ⟨t, rfl⟩)
      · exact h
    | store t addr bytes =>
      simp only [State.storeBy]
      split
      · exact K.store s _ _ h
      · exact h
    | reset =>
      dsimp only
      split
      · exact h
      · exact K.reset s h

theorem Keeper.tick (K : Keeper P Q S) (hQ : ∀ c op l i, (progOf c op l i).All (Q c)) (s : State)
    (h : P s) : P s.tick := tick_keeps P K.env (K.event hQ) h

/-- The parameters are kept by everything. -/
theorem keeper_cfg (c : Params) : Keeper (fun s => s.cfg = c) (fun _ _ => True) (fun _ _ => True) where
  env s e h := h
  turn s b h := h
  cur s a h := h
  task s a h _ := trivial
  issue s a i h _ := trivial
  ctx s a x h _ := by simpa using h
  record s a f h := by simpa using h
  store s a bs h := h
  hw s x h := by rw [hwStep_cfg]; exact h
  reset s h := h
  act s a d h _ _ := by rw [apply_cfg]; exact h

theorem Keeper.run (K : Keeper P Q S) (hQ : ∀ c op l i, (progOf c op l i).All (Q c)) (s : State) (a : Agent)
    (p : Prog Result) (hp : p.All (Q s.cfg)) (h : P s) (sw : S s.cfg a) (hist : List Resp) :
    P (run a p hist s).state := by
  have := run_keeps (fun t => P t ∧ t.cfg = s.cfg) (Q s.cfg) a
    (fun t ht => ⟨K.tick hQ t ht.1,
      (keeper_cfg s.cfg).tick (fun _ _ _ _ => Prog.All.trivial _) t ht.2⟩)
    (fun t d ht hd => ⟨K.act t a d ht.1 (by rw [ht.2]; exact sw) (by rw [ht.2]; exact hd),
      (keeper_cfg s.cfg).act t a d ht.2 trivial trivial⟩)
    p hp hist s ⟨h, rfl⟩
  exact this.1

theorem software_of_issue {c : Params} {i : Instr} {a : Agent} (h : mayIssue c i a = true) :
    softwareAgent c a := by
  cases a with
  | host t => cases i <;> simp_all [mayIssue, isHost, softwareAgent]
  | hd => trivial
  | bd => trivial
  | hw => cases i <;> simp [mayIssue, isHost] at h

/-- What every part of a step keeps, a command keeps. -/
theorem Keeper.exec (K : Keeper P Q S) (hQ : ∀ c op l i, (progOf c op l i).All (Q c)) {s t : State}
    (i : Instr) (h : P s) (e : exec i s = .next t) : P t := by
  rw [exec_eq] at e
  unfold State.runCommand at e
  injection e with e
  subst e
  split
  · exact K.raise s _ _ h
  · rename_i hn
    have hm : mayIssue s.cfg i s.cur = true := by
      cases hm : mayIssue s.cfg i s.cur
      · simp [entryFault, hm] at hn
      · rfl
    refine conclude_keeps P s.cur (fun s r => K.finish s _ r) (fun s k => K.suspend s _ k)
      (fun s f => K.raise s _ f) i false _ ?_
    exact K.run hQ _ _ _ (hQ _ _ _ _) (K.turn s true h) (K.issue s _ _ h hm) []

/-- What every part of a step keeps, a step keeps. -/
theorem Keeper.step (K : Keeper P Q S) (hQ : ∀ c op l i, (progOf c op l i).All (Q c)) {s t : State}
    (h : P s) (e : step s = .next t) : P t := by
  unfold Machine.step at e
  split at e
  · cases e
  · split at e
    · split at e
      · exact K.exec hQ _ h e
      · injection e with e
        subst e
        exact K.raise s _ _ h
    · injection e with e
      subst e
      unfold State.idle
      split
      · exact K.tick hQ s h
      · have h1 := K.tick hQ s h
        generalize s.tick = u at h1
        unfold State.arbitrate
        split
        · exact h1
        · have hi : ∀ (v : State) b, P v → P (v.beginIrq b) := by
            intro v b hv
            unfold State.beginIrq
            repeat' split
            all_goals first
              | exact hv
              | exact K.beginCmd _ _ (K.ctx v _ _ hv (.inr (.inl rfl)))
          have h2 := hi _ true (hi u false h1)
          generalize (u.beginIrq false).beginIrq true = v at h2
          dsimp only
          split
          · rename_i a ha
            unfold State.resume
            split
            · exact h2
            · rename_i k hk
              have sw := K.task v a h2 (by rw [hk]; exact fun e => nomatch e)
              refine conclude_keeps P a (fun s r => K.finish s _ r) (fun s k => K.suspend s _ k)
                (fun s f => K.raise s _ f) k.instr k.looping _ ?_
              exact K.run hQ _ _ _ (Prog.All.replay (hQ _ _ _ _) _) (K.turn _ true (K.cur v a h2)) sw _
          · exact h2

end

end Sys2Proof.Machine
end

