-- ==== Sys2Proof/Laws/Memory.lean ====
section
/-! SUPPORT. Host memory: what a byte reads after each store, and that each store keeps the canonical
form (`memWf`). -/

namespace Sys2Proof.Machine

/-- A byte reads what was inserted at its address; every other byte is unchanged. -/
theorem memRead_memInsert (m : List Host.Cell) (a : Nat) (b : Byte) (x : Nat)
    (h : m.Pairwise (fun c d => c.1 < d.1)) :
    memRead (memInsert m a b) x = if x = a then b else memRead m x := by
  induction m with
  | nil =>
    by_cases hx : x = a <;> simp only [memInsert] <;> split <;> rename_i hb
    · simp [memRead, hb]
    · simp [memRead, hx]
    · simp [memRead]
    · simp [memRead, Ne.symm hx]
  | cons c m ih =>
    obtain ⟨k, v⟩ := c
    have hm := (List.pairwise_cons.mp h).2
    have hk := (List.pairwise_cons.mp h).1
    have gone : ∀ y, y ≤ k → memRead m y = 0 := by
      intro y hy
      clear ih h hm
      induction m with
      | nil => rfl
      | cons d m ih2 =>
        have h1 := hk d (by simp)
        simp only [memRead]
        rw [if_neg (by simp only at h1; omega)]
        exact ih2 (fun e he => hk e (by simp [he]))
    simp only [memInsert]
    split
    · rename_i hak
      split
      · rename_i hb
        by_cases hx : x = a
        · subst hx
          simp [memRead, hb, gone x (by omega)]
          omega
        · simp [hx]
      · by_cases hx : x = a
        · simp [memRead, hx]
        · simp only [memRead, if_neg (Ne.symm hx), if_neg hx]
    · split
      · rename_i hak hak2
        subst hak2
        split
        · rename_i hb
          by_cases hx : x = a
          · subst hx; simp [hb, gone]
          · simp [memRead, hx, Ne.symm hx]
        · by_cases hx : x = a
          · simp [memRead, hx]
          · simp [memRead, hx, Ne.symm hx]
      · simp only [memRead]
        rw [ih hm]
        by_cases hx : x = a
        · have : ¬ k = x := by omega
          simp [hx]; omega
        · simp [hx]

/-- Every address listed after an insertion was listed before, or is the one inserted. -/
theorem mem_memInsert {m : List Host.Cell} {a : Nat} {b : Byte} {c : Host.Cell}
    (h : c ∈ memInsert m a b) : c ∈ m ∨ (c = (a, b) ∧ b ≠ 0) := by
  induction m with
  | nil =>
    simp only [memInsert] at h
    split at h
    · cases h
    · simp at h; exact .inr ⟨h, by assumption⟩
  | cons d m ih =>
    obtain ⟨k, v⟩ := d
    simp only [memInsert] at h
    split at h
    · split at h
      · exact .inl h
      · rcases List.mem_cons.mp h with h | h
        · exact .inr ⟨h, by assumption⟩
        · exact .inl h
    · split at h
      · split at h
        · exact .inl (List.mem_cons_of_mem _ h)
        · rcases List.mem_cons.mp h with h | h
          · exact .inr ⟨h, by assumption⟩
          · exact .inl (List.mem_cons_of_mem _ h)
      · rcases List.mem_cons.mp h with h | h
        · exact .inl (by simp [h])
        · rcases ih h with h | h
          · exact .inl (List.mem_cons_of_mem _ h)
          · exact .inr h

theorem pairwise_memInsert (m : List Host.Cell) (a : Nat) (b : Byte)
    (h : m.Pairwise (fun c d => c.1 < d.1)) :
    (memInsert m a b).Pairwise (fun c d => c.1 < d.1) := by
  induction m with
  | nil => simp only [memInsert]; split <;> simp
  | cons d m ih =>
    obtain ⟨k, v⟩ := d
    have hk := (List.pairwise_cons.mp h).1
    have hm := (List.pairwise_cons.mp h).2
    simp only [memInsert]
    split
    · split
      · exact h
      · refine List.pairwise_cons.mpr ⟨?_, h⟩
        intro c hc
        rcases List.mem_cons.mp hc with rfl | hc
        · simpa using by assumption
        · have := hk c hc
          simp only at this ⊢; omega
    · split
      · split
        · exact hm
        · refine List.pairwise_cons.mpr ⟨?_, hm⟩
          intro c hc
          have := hk c hc
          simp only at this ⊢; omega
      · refine List.pairwise_cons.mpr ⟨?_, ih hm⟩
        intro c hc
        rcases mem_memInsert hc with hc | ⟨rfl, -⟩
        · exact hk c hc
        · simp only; omega

/-- A store of one byte keeps the canonical form. -/
theorem memWf_memWrite {m : List Host.Cell} (a : Nat) (b : Byte) (h : memWf m) :
    memWf (memWrite m a b) := by
  unfold memWrite
  split
  · refine ⟨pairwise_memInsert m a b h.1, ?_⟩
    intro c hc
    rcases mem_memInsert hc with hc | ⟨rfl, hb⟩
    · exact h.2 c hc
    · exact ⟨by assumption, hb⟩
  · exact h

/-- A store of several bytes keeps the canonical form. -/
theorem memWf_memWriteBytes {m : List Host.Cell} (a : Nat) (bs : List Byte) (h : memWf m) :
    memWf (memWriteBytes m a bs) := by
  induction bs generalizing m a with
  | nil => exact h
  | cons b bs ih => exact ih (a + 1) (memWf_memWrite a b h)

/-- Read after a store of one byte. -/
theorem memRead_memWrite {m : List Host.Cell} (a : Nat) (b : Byte) (x : Nat) (h : memWf m) :
    memRead (memWrite m a b) x = if x = a ∧ a < memSize then b else memRead m x := by
  unfold memWrite
  split
  · rw [memRead_memInsert m a b x h.1]
    simp [*]
  · simp [*]

/-- Read after a store of several bytes: a byte of the range reads what was stored to it, every other
byte is unchanged. -/
theorem memRead_memWriteBytes {m : List Host.Cell} (a : Nat) (bs : List Byte) (x : Nat)
    (h : memWf m) (fit : a + bs.length ≤ memSize) :
    memRead (memWriteBytes m a bs) x =
      if a ≤ x ∧ x < a + bs.length then bs.getD (x - a) 0 else memRead m x := by
  induction bs generalizing m a with
  | nil =>
    rw [if_neg (by simp only [List.length_nil]; omega)]; rfl
  | cons b bs ih =>
    simp only [List.length_cons] at fit
    simp only [memWriteBytes]
    rw [ih (a + 1) (memWf_memWrite a b h) (by omega), memRead_memWrite a b x h]
    simp only [List.length_cons]
    by_cases h1 : x = a
    · subst h1
      rw [if_neg (by omega), if_pos ⟨rfl, by omega⟩, if_pos (by omega)]
      simp
    · by_cases h2 : a + 1 ≤ x ∧ x < a + 1 + bs.length
      · rw [if_pos h2, if_pos (by omega)]
        have : x - a = (x - (a + 1)) + 1 := by omega
        rw [this, List.getD_cons_succ]
      · rw [if_neg h2, if_neg (by simp [h1]), if_neg (by omega)]

@[simp] theorem length_memReadBytes (m : List Host.Cell) (a n : Nat) :
    (memReadBytes m a n).length = n := by simp [memReadBytes]

@[simp] theorem getElem_memReadBytes (m : List Host.Cell) (a n k : Nat)
    (h : k < (memReadBytes m a n).length) : (memReadBytes m a n)[k] = memRead m (a + k) := by
  simp [memReadBytes]

/-- After a reset nothing is listed. -/
theorem memWf_nil : memWf [] := ⟨List.Pairwise.nil, by simp⟩

end Sys2Proof.Machine
end

