-- ==== Sys2Proof/Laws/PerInstr.lean ====
section
/-! SUPPORT. Per-command families: one lemma for each constructor of `Instr`. -/

namespace Sys2Proof.Laws.OpcodeField

open Sys2Proof Sys2Proof.Machine

/-- The opcode of a command (30_encoding.md R123). -/
def opcode : Instr → BitVec 6
  | .rpWriteRow _ => 0x01
  | .rpReadRow _ => 0x02
  | .rpCatWrite _ _ _ => 0x03
  | .cdtInit _ _ _ => 0x08
  | .cdtResetAll => 0x09
  | .cdtClearSts _ _ => 0x0A
  | .catInit _ _ _ _ _ => 0x10
  | .catResetAll => 0x11
  | .catUnmuteSync _ _ => 0x12
  | .adtInit _ _ => 0x18
  | .adtRearm _ => 0x19
  | .rbTryEnqueue _ => 0x20
  | .rbDequeue _ _ => 0x21
  | .chOpen _ => 0x28
  | .chClose _ => 0x29
  | .chStart _ => 0x2A
  | .chStop _ => 0x2B
  | .chWrite _ => 0x2C
  | .chGetExceptions _ => 0x2D
  | .chSetChannelAddresses _ => 0x2E
  | .chPollReadiness _ => 0x2F
  | .setBusClockClass => 0x30
  | .setDeviceBusAddress => 0x31
  | .getProtocolVersion => 0x32
  | .irqHostDispatch => 0x38
  | .irqBusDispatch => 0x39

/-- C[31:26] of a command's word is its opcode (R110). -/
def Statement (i : Instr) : Prop := bits (encode i) 26 6 = opcode i

theorem rpWriteRow (off : RowOff) : Statement (.rpWriteRow off) := by
  simp (disch := omega) only [Statement, opcode, encode, bits_append_high]
  rfl

theorem rpReadRow (off : RowOff) : Statement (.rpReadRow off) := by
  simp (disch := omega) only [Statement, opcode, encode, bits_append_high]
  rfl

theorem rpCatWrite (ns : Ns) (ch : Chan) (v : SubField) : Statement (.rpCatWrite ns ch v) := by
  simp (disch := omega) only [Statement, opcode, encode, bits_append_high]
  rfl

theorem cdtInit (ch : Chan) (ty : ChType) (dir : Dir) : Statement (.cdtInit ch ty dir) := by
  simp (disch := omega) only [Statement, opcode, encode, bits_append_high]
  rfl

theorem cdtResetAll : Statement (.cdtResetAll) := rfl

theorem cdtClearSts (ch : Chan) (mask : BitVec 4) : Statement (.cdtClearSts ch mask) := by
  simp (disch := omega) only [Statement, opcode, encode, bits_append_high]
  rfl

theorem catInit (ch : Chan) (ty : ChType) (dir : Dir) (dma : Dma) (en : Bool) : Statement (.catInit ch ty dir dma en) := by
  simp (disch := omega) only [Statement, opcode, encode, bits_append_high]
  rfl

theorem catResetAll : Statement (.catResetAll) := rfl

theorem catUnmuteSync (rx : Chan) (tx : Chan) : Statement (.catUnmuteSync rx tx) := by
  simp (disch := omega) only [Statement, opcode, encode, bits_append_high]
  rfl

theorem adtInit (ch : Chan) (ty : ChType) : Statement (.adtInit ch ty) := by
  simp (disch := omega) only [Statement, opcode, encode, bits_append_high]
  rfl

theorem adtRearm (ch : Chan) : Statement (.adtRearm ch) := by
  simp (disch := omega) only [Statement, opcode, encode, wordA, bits_append_high]
  rfl

theorem rbTryEnqueue (n : NodeNo) : Statement (.rbTryEnqueue n) := by
  simp (disch := omega) only [Statement, opcode, encode, wordA, bits_append_high]
  rfl

theorem rbDequeue (n : NodeNo) (blk : Bool) : Statement (.rbDequeue n blk) := by
  simp (disch := omega) only [Statement, opcode, encode, bits_append_high]
  rfl

theorem chOpen (n : NodeNo) : Statement (.chOpen n) := by
  simp (disch := omega) only [Statement, opcode, encode, wordA, bits_append_high]
  rfl

theorem chClose (n : NodeNo) : Statement (.chClose n) := by
  simp (disch := omega) only [Statement, opcode, encode, wordA, bits_append_high]
  rfl

theorem chStart (n : NodeNo) : Statement (.chStart n) := by
  simp (disch := omega) only [Statement, opcode, encode, wordA, bits_append_high]
  rfl

theorem chStop (n : NodeNo) : Statement (.chStop n) := by
  simp (disch := omega) only [Statement, opcode, encode, wordA, bits_append_high]
  rfl

theorem chWrite (n : NodeNo) : Statement (.chWrite n) := by
  simp (disch := omega) only [Statement, opcode, encode, wordA, bits_append_high]
  rfl

theorem chGetExceptions (n : NodeNo) : Statement (.chGetExceptions n) := by
  simp (disch := omega) only [Statement, opcode, encode, wordA, bits_append_high]
  rfl

theorem chSetChannelAddresses (n : NodeNo) : Statement (.chSetChannelAddresses n) := by
  simp (disch := omega) only [Statement, opcode, encode, wordA, bits_append_high]
  rfl

theorem chPollReadiness (n : NodeNo) : Statement (.chPollReadiness n) := by
  simp (disch := omega) only [Statement, opcode, encode, wordA, bits_append_high]
  rfl

theorem setBusClockClass : Statement (.setBusClockClass) := rfl

theorem setDeviceBusAddress : Statement (.setDeviceBusAddress) := rfl

theorem getProtocolVersion : Statement (.getProtocolVersion) := rfl

theorem irqHostDispatch : Statement (.irqHostDispatch) := rfl

theorem irqBusDispatch : Statement (.irqBusDispatch) := rfl

end Sys2Proof.Laws.OpcodeField
end

