-- ==== Sys2Proof/Laws/Tables.lean ====
section
/-! SUPPORT. The tables: where rows and sub-fields lie, what the arming edge does to each channel, and what a
row write does to the CAT entries. -/

namespace Sys2Proof.Machine

/-! ## Offsets -/

theorem toNat_cdtOff (ch : Chan) : (cdtOff ch).toNat = ch.toNat := by
  have := ch.isLt
  simp only [cdtOff, BitVec.toNat_setWidth]; omega

theorem toNat_adtOff (ch : Chan) : (adtOff ch).toNat = 0x40 + ch.toNat := by
  have := ch.isLt
  have e : (0x40 : RowOff).toNat = 64 := rfl
  simp only [adtOff, BitVec.toNat_add, BitVec.toNat_setWidth, e]; omega

theorem toNat_catOff (ns : Ns) (ch : Chan) :
    (catOff ns ch).toNat = (match ns with | .bus => 0x80 | .host => 0x88) + ch.toNat / 8 := by
  have := ch.isLt
  have e : (0x80 : RowOff).toNat = 128 := rfl
  have e2 : (0x88 : RowOff).toNat = 136 := rfl
  cases ns <;>
    simp only [catOff, catBase, BitVec.toNat_add, BitVec.toNat_setWidth, e, e2,
      BitVec.toNat_ushiftRight, Nat.shiftRight_eq_div_pow] <;> omega

theorem isCatRow_iff (off : RowOff) : isCatRow off = true ↔ 0x80 ≤ off.toNat ∧ off.toNat < 0x90 := by
  simp [isCatRow]

theorem isCatRow_catOff (ns : Ns) (ch : Chan) : isCatRow (catOff ns ch) = true := by
  have := ch.isLt
  rw [isCatRow_iff, toNat_catOff]
  cases ns <;> dsimp only <;> omega

theorem isCatRow_cdtOff (ch : Chan) : isCatRow (cdtOff ch) = false := by
  have := ch.isLt
  rw [← Bool.not_eq_true, isCatRow_iff, toNat_cdtOff]; omega

theorem isCatRow_adtOff (ch : Chan) : isCatRow (adtOff ch) = false := by
  have := ch.isLt
  rw [← Bool.not_eq_true, isCatRow_iff, toNat_adtOff]; omega

theorem reserved_of_cat (c : Params) {off : RowOff} (h : isCatRow off = true) :
    reservedRow c off = false := by
  rw [isCatRow_iff] at h
  simp [reservedRow]; omega

theorem reserved_catOff (c : Params) (ns : Ns) (ch : Chan) : reservedRow c (catOff ns ch) = false :=
  reserved_of_cat c (isCatRow_catOff ns ch)

theorem reserved_cdtOff {c : Params} {ch : Chan} (h : ch.toNat < c.nch) :
    reservedRow c (cdtOff ch) = false := by
  have := ch.isLt
  simp [reservedRow, toNat_cdtOff]; omega

theorem reserved_adtOff {c : Params} {ch : Chan} (h : ch.toNat < c.nch) :
    reservedRow c (adtOff ch) = false := by
  have := ch.isLt
  simp [reservedRow, toNat_adtOff]; omega

theorem cdtOff_inj {a b : Chan} (h : cdtOff a = cdtOff b) : a = b := by
  have := congrArg BitVec.toNat h
  rw [toNat_cdtOff, toNat_cdtOff] at this
  exact BitVec.eq_of_toNat_eq this

theorem adtOff_inj {a b : Chan} (h : adtOff a = adtOff b) : a = b := by
  have := congrArg BitVec.toNat h
  rw [toNat_adtOff, toNat_adtOff] at this
  exact BitVec.eq_of_toNat_eq (by omega)

theorem cdtOff_ne_adtOff (a b : Chan) : cdtOff a ≠ adtOff b := by
  intro h
  have := congrArg BitVec.toNat h
  rw [toNat_cdtOff, toNat_adtOff] at this
  have := a.isLt
  omega

theorem cdtOff_ne_catOff (a b : Chan) (ns : Ns) : cdtOff a ≠ catOff ns b := by
  intro h
  have := isCatRow_cdtOff a
  rw [h, isCatRow_catOff] at this
  cases this

theorem adtOff_ne_catOff (a b : Chan) (ns : Ns) : adtOff a ≠ catOff ns b := by
  intro h
  have := isCatRow_adtOff a
  rw [h, isCatRow_catOff] at this
  cases this

/-- Two entries in one row at one position are one entry. -/
theorem entry_unique {ns ns' : Ns} {ch ch' : Chan} (h : catOff ns ch = catOff ns' ch')
    (hk : ch.toNat % 8 = ch'.toNat % 8) : ns = ns' ∧ ch = ch' := by
  have h1 := congrArg BitVec.toNat h
  rw [toNat_catOff, toNat_catOff] at h1
  have := ch.isLt
  have := ch'.isLt
  have hn : ns = ns' := by cases ns <;> cases ns' <;> dsimp only at h1 <;> first | rfl | omega
  subst hn
  exact ⟨rfl, BitVec.eq_of_toNat_eq (by omega)⟩

/-! ## Channels of the engine -/

theorem mem_chansOf (c : Params) (ch : Chan) : ch ∈ chansOf c ↔ ch.toNat < c.nch := by
  have := ch.isLt
  simp only [chansOf, List.mem_map, List.mem_range]
  constructor
  · rintro ⟨k, hk, rfl⟩
    simp only [BitVec.toNat_ofNat]; omega
  · intro h
    exact ⟨ch.toNat, by omega, by simp⟩

theorem nodup_chansOf (c : Params) : (chansOf c).Nodup := by
  refine List.Nodup.map_on ?_ List.nodup_range
  intro x hx y hy e
  have := congrArg BitVec.toNat e
  simp only [List.mem_range, BitVec.toNat_ofNat] at *
  omega

/-! ## The arming edge (R311) -/

theorem armed_armEdge (s : State) (ch c : Chan) : (s.armEdge ch).armed c = s.armed c := by
  unfold State.armEdge
  dsimp only
  split <;> rfl

theorem armEdge_at (s : State) (ch c : Chan) :
    (s.armEdge ch).prevArmed c = (if c = ch then s.armed ch else s.prevArmed c) ∧
    (s.armEdge ch).hwh c =
      (if c = ch ∧ s.armed ch = true ∧ s.prevArmed ch = false then .ping else s.hwh c) := by
  have k : ∀ (t : State) b, (t.setPrevArmed ch b).hwh c = t.hwh c := fun t b => rfl
  unfold State.armEdge
  dsimp only
  refine ⟨?_, ?_⟩
  · rw [prevArmed_setPrevArmed]
    split
    · rfl
    · split <;> rfl
  · rw [k]
    cases ha : s.armed ch <;> cases hp : s.prevArmed ch <;> simp [hwh_setHwh]

/-- The arming edge, channel by channel. -/
theorem armEdges_at (s : State) (c : Chan) :
    s.armEdges.armed c = s.armed c ∧
    s.armEdges.prevArmed c = (if c.toNat < s.cfg.nch then s.armed c else s.prevArmed c) ∧
    s.armEdges.hwh c =
      (if c.toNat < s.cfg.nch ∧ s.armed c = true ∧ s.prevArmed c = false then .ping else s.hwh c) := by
  have all : ∀ (l : List Chan) (s : State), l.Nodup →
      (l.foldl State.armEdge s).armed c = s.armed c ∧
      (l.foldl State.armEdge s).prevArmed c = (if c ∈ l then s.armed c else s.prevArmed c) ∧
      (l.foldl State.armEdge s).hwh c =
        (if c ∈ l ∧ s.armed c = true ∧ s.prevArmed c = false then .ping else s.hwh c) := by
    intro l
    induction l with
    | nil => intro s _; simp
    | cons ch l ih =>
      intro s nd
      obtain ⟨hn, nd⟩ := List.nodup_cons.mp nd
      obtain ⟨i1, i2, i3⟩ := ih (s.armEdge ch) nd
      obtain ⟨e1, e2⟩ := armEdge_at s ch c
      rw [List.foldl_cons, i1, i2, i3, armed_armEdge, e1, e2]
      by_cases hc : c = ch
      · subst hc; simp [hn]
      · simp [hc]
  have := all (chansOf s.cfg) s (nodup_chansOf s.cfg)
  simp only [mem_chansOf] at this
  exact this

/-! ## Row writes -/

/-- A row write that is of a CAT row leaves the arming state settled. -/
theorem rearmed_afterWrite (s : State) (rb : Bool) {off : RowOff} (v : Row) (h : isCatRow off = true) :
    Rearmed s (s.afterWrite rb off v) := by
  intro ch
  have e := armEdges_at (s.putRow off v) ch
  have k : s.afterWrite rb off v =
      { (s.putRow off v).armEdges with dat := wordsOf v, adr := adrWord (!rb) off } := by
    simp [State.afterWrite, State.storeRow, h]
  rw [k]
  refine ⟨fun hc => e.2.1.trans ((if_pos hc).trans e.1.symm), ?_⟩
  have h3 : (s.putRow off v).armEdges.hwh ch = _ := e.2.2
  by_cases hc : ch.toNat < s.cfg.nch ∧ (s.putRow off v).armed ch = true ∧
      (s.putRow off v).prevArmed ch = false
  · exact .inr ⟨hc.1, h3.trans (if_pos hc)⟩
  · exact .inl (h3.trans (if_neg hc))

/-- A write of a row that is no CAT row moves no entry. -/
theorem catEntry_afterWrite_other (s : State) (rb : Bool) {off : RowOff} (v : Row)
    (h : isCatRow off = false) (ns : Ns) (ch : Chan) :
    (s.afterWrite rb off v).catEntry ns ch = s.catEntry ns ch := by
  have : catOff ns ch ≠ off := by
    intro e
    rw [← e, isCatRow_catOff] at h
    cases h
  simp [State.catEntry, afterWrite_row, this]

/-- The write back of a CAT row with one sub-field patched moves that entry only. -/
theorem catEntry_afterWrite (s : State) (rb : Bool) (ns ns' : Ns) (ch ch' : Chan) (x : SubField) :
    (s.afterWrite rb (catOff ns ch) (putSub (s.row (catOff ns ch)) ch x)).catEntry ns' ch' =
      if ns' = ns ∧ ch' = ch then x else s.catEntry ns' ch' := by
  unfold State.catEntry
  rw [afterWrite_row]
  by_cases ho : catOff ns' ch' = catOff ns ch
  · rw [if_pos ho]
    by_cases hk : ch'.toNat % 8 = ch.toNat % 8
    · obtain ⟨rfl, rfl⟩ := entry_unique ho hk
      simp [getSub_putSub_same]
    · have : ¬ (ns' = ns ∧ ch' = ch) := fun e => hk (by rw [e.2])
      rw [if_neg this, getSub_putSub_other _ _ _ _ hk, ho]
  · have : ¬ (ns' = ns ∧ ch' = ch) := fun e => ho (by rw [e.1, e.2])
    rw [if_neg ho, if_neg this]

end Sys2Proof.Machine
end

