-- ==== Sys2Proof/Laws/Sequences.lean ====
section
/-! SUPPORT. Sequences of transactions, told by what they leave rather than by the state they build: `Does` says
that a run ends and what then holds, `Moved` that only the table RAM, the window and the arming state may
differ, and one lemma per helper says what it does to rows and entries. -/

namespace Sys2Proof.Machine

variable {α β : Type}

/-! ## Runs that end in a state that satisfies something -/

/-- The run of `p` by `a` from `s` ends, with a value and in a state that satisfy `Q`. -/
def Does (a : Agent) (p : Prog α) (s : State) (Q : α → State → Prop) : Prop :=
  ∃ x t, Ends a p s x t ∧ Q x t

theorem Does.ret {a : Agent} {x : α} {s : State} {Q : α → State → Prop} (h : Q x s) :
    Does a (.ret x) s Q := ⟨x, s, Ends.ret a x s, h⟩

theorem Does.bind {a : Agent} {p : Prog α} {k : α → Prog β} {s : State} {P : α → State → Prop}
    {Q : β → State → Prop} (hp : Does a p s P) (hk : ∀ x t, P x t → Does a (k x) t Q) :
    Does a (p.bind k) s Q := by
  obtain ⟨x, t, e, h⟩ := hp
  obtain ⟨y, u, e2, h2⟩ := hk x t h
  exact ⟨y, u, Ends.bind e e2, h2⟩

theorem Does.act {a : Agent} {d : Act} {k : Resp → Prog α} {s s2 : State} {r : Resp}
    {Q : α → State → Prop} (ht : s.tick = s) (hf : s.safe) (hd : d.apply a s = .ok s2 r)
    (hk : Does a (k r) s2 Q) : Does a (.act d k) s Q := by
  obtain ⟨x, t, e, h⟩ := hk
  exact ⟨x, t, Ends.act ht hf hd e, h⟩

/-- A step of a calm state that is enabled. -/
theorem Does.calm {a : Agent} {d : Act} {k : Resp → Prog α} {s s2 : State} {r : Resp}
    {Q : α → State → Prop} (h : s.Calm) (hd : d.apply a s = .ok s2 r) (hk : Does a (k r) s2 Q) :
    Does a (.act d k) s Q := Does.act (tick_calm h) h.1 hd hk

theorem Does.mono {a : Agent} {p : Prog α} {s : State} {P Q : α → State → Prop} (hp : Does a p s P)
    (h : ∀ x t, P x t → Q x t) : Does a p s Q := by
  obtain ⟨x, t, e, hx⟩ := hp
  exact ⟨x, t, e, h x t hx⟩

/-! ## What transactions may move -/

/-- `t` is `s` but for the table rows, the window's data and address, and the arming state. -/
def Moved (s t : State) : Prop :=
  ∃ rows wr d w hw ap, t = { s with
    rows := rows, written := wr, dat := d, adr := w, hwHalf := hw, armedPrev := ap }

theorem Moved.refl (s : State) : Moved s s := ⟨_, _, _, _, _, _, rfl⟩

theorem Moved.trans {s t u : State} (h1 : Moved s t) (h2 : Moved t u) : Moved s u := by
  obtain ⟨_, _, _, _, _, _, rfl⟩ := h1
  obtain ⟨_, _, _, _, _, _, rfl⟩ := h2
  exact ⟨_, _, _, _, _, _, rfl⟩

theorem Moved.calm {s t : State} (h : Moved s t) (hc : s.Calm) : t.Calm := by
  obtain ⟨_, _, _, _, _, _, rfl⟩ := h
  exact hc

theorem Moved.lock {s t : State} (h : Moved s t) : t.lock = s.lock := by
  obtain ⟨_, _, _, _, _, _, rfl⟩ := h
  rfl

theorem Moved.cfg {s t : State} (h : Moved s t) : t.cfg = s.cfg := by
  obtain ⟨_, _, _, _, _, _, rfl⟩ := h
  rfl

theorem Moved.node {s t : State} (h : Moved s t) (n : NodeNo) : t.node n = s.node n := by
  obtain ⟨_, _, _, _, _, _, rfl⟩ := h
  rfl

theorem Moved.sw {s t : State} (h : Moved s t) (ch : Chan) : t.sw ch = s.sw ch := by
  obtain ⟨_, _, _, _, _, _, rfl⟩ := h
  rfl

/-- The same step of the lock on both sides. -/
theorem Moved.withLock {s t : State} (h : Moved s t) (l : Option Agent) :
    Moved { s with lock := l } { t with lock := l } := by
  obtain ⟨_, _, _, _, _, _, rfl⟩ := h
  exact ⟨_, _, _, _, _, _, rfl⟩

theorem moved_afterRead (s : State) (off : RowOff) : Moved s (s.afterRead off) :=
  ⟨_, _, _, _, _, _, rfl⟩

theorem moved_afterWrite (s : State) (rb : Bool) (off : RowOff) (v : Row) :
    Moved s (s.afterWrite rb off v) := by
  obtain ⟨hw, ap, e⟩ := storeRow_frame s off v
  unfold State.afterWrite
  rw [e]
  exact ⟨_, _, _, _, _, _, rfl⟩

/-! ## Arming over sequences -/

/-- The arming state and the entries are as before. -/
def SameArming (s t : State) : Prop := KeepsArming s t ∧ ∀ ch, t.armed ch = s.armed ch

theorem SameArming.refl (s : State) : SameArming s s := ⟨⟨rfl, rfl⟩, fun _ => rfl⟩

theorem SameArming.trans {s t u : State} (h1 : SameArming s t) (h2 : SameArming t u) :
    SameArming s u :=
  ⟨⟨h2.1.1.trans h1.1.1, h2.1.2.trans h1.1.2⟩, fun ch => (h2.2 ch).trans (h1.2 ch)⟩

theorem KeepsArming.hwh {s t : State} (h : KeepsArming s t) (ch : Chan) :
    t.hwh ch = s.hwh ch ∧ t.prevArmed ch = s.prevArmed ch := by
  simp [State.hwh, State.prevArmed, h.1, h.2]

theorem Rearmed.after {s t u : State} (h : Rearmed s t) (h2 : SameArming t u) : Rearmed s u := by
  intro ch
  obtain ⟨k1, k2⟩ := h2.1.hwh ch
  rw [k1, k2, h2.2 ch]
  exact h ch

theorem Rearmed.before {s t u : State} (h : KeepsArming s t) (hc : t.cfg = s.cfg) (h2 : Rearmed t u) :
    Rearmed s u := by
  intro ch
  have := h2 ch
  rw [hc, (h.hwh ch).1] at this
  exact this

theorem Rearmed.trans {s t u : State} (h : Rearmed s t) (hc : t.cfg = s.cfg) (h2 : Rearmed t u) :
    Rearmed s u := by
  intro ch
  obtain ⟨a1, a2⟩ := h ch
  obtain ⟨b1, b2⟩ := h2 ch
  rw [hc] at b1 b2
  refine ⟨b1, ?_⟩
  rcases b2 with b2 | b2
  · rw [b2]; exact a2
  · exact .inr b2

/-! ## One row -/

/-- What one row write does. -/
structure Wrote (off : RowOff) (v : Row) (s t : State) : Prop where
  moved : Moved s t
  row : ∀ o, t.row o = if o = off then v else s.row o
  written : ∀ o, t.isWritten o = if o = off then true else s.isWritten o
  other : isCatRow off = false → SameArming s t ∧ ∀ ns ch, t.catEntry ns ch = s.catEntry ns ch
  cat : isCatRow off = true → Rearmed s t

theorem armed_of_entries {s t : State} (h : ∀ ns ch, t.catEntry ns ch = s.catEntry ns ch)
    (hw : ∀ ns ch, t.isWritten (catOff ns ch) = s.isWritten (catOff ns ch)) (ch : Chan) :
    t.armed ch = s.armed ch := by
  unfold State.armed State.ceSet
  rw [h, h, hw, hw]

theorem wrote_afterWrite (s : State) (rb : Bool) (off : RowOff) (v : Row) :
    Wrote off v s (s.afterWrite rb off v) where
  moved := moved_afterWrite s rb off v
  row := afterWrite_row s rb off v
  written := afterWrite_isWritten s rb off v
  other h :=
    have e := catEntry_afterWrite_other s rb v h
    have w ns ch : (s.afterWrite rb off v).isWritten (catOff ns ch) = s.isWritten (catOff ns ch) :=
      (afterWrite_isWritten s rb off v _).trans
        (if_neg (by intro e; rw [← e, isCatRow_catOff] at h; cases h))
    ⟨⟨afterWrite_arming s rb off v h, armed_of_entries e w⟩, e⟩
  cat h := rearmed_afterWrite s rb v h

theorem lockedWrite_does {a : Agent} {s : State} {off : RowOff} (c : Params) (v : Row) (h : s.Calm)
    (hl : s.lock = none) (hr : reservedRow s.cfg off = false) (hn : 1 ≤ c.rpRetries) :
    Does a (lockedWrite c off v) s (fun x t => x = .ok ∧ Wrote off v s t) :=
  ⟨_, _, lockedWrite_ends c h hl hr hn, rfl, wrote_afterWrite ..⟩

theorem writeRow_does {a : Agent} {s : State} {off : RowOff} (c : Params) (v : Row) (h : s.Calm)
    (hl : s.lock = some a) (hr : reservedRow s.cfg off = false) (hn : 1 ≤ c.rpRetries) :
    Does a (writeRow c off v) s (fun x t => x = .ok ∧ Wrote off v s t) :=
  ⟨_, _, writeRow_ends c h hl hr hn, rfl, wrote_afterWrite ..⟩

theorem lockedUpdate_does {a : Agent} {s : State} {off : RowOff} (c : Params) (f : Row → Row)
    (h : s.Calm) (hl : s.lock = none) (hr : reservedRow s.cfg off = false)
    (hw : s.isWritten off = true) (hn : 1 ≤ c.rpRetries) :
    Does a (lockedUpdate c off f) s (fun x t => x = .ok ∧ Wrote off (f (s.row off)) s t) :=
  ⟨_, _, lockedUpdate_ends c h hl hr hw hn, rfl, wrote_afterWrite ..⟩

/-- What one row read does: the window's data and address move. -/
def Looked (s t : State) : Prop := ∃ d w, t = { s with dat := d, adr := w }

theorem Looked.refl (s : State) : Looked s s := ⟨_, _, rfl⟩

theorem Looked.trans {s t u : State} (h1 : Looked s t) (h2 : Looked t u) : Looked s u := by
  obtain ⟨_, _, rfl⟩ := h1
  obtain ⟨_, _, rfl⟩ := h2
  exact ⟨_, _, rfl⟩

theorem Looked.moved {s t : State} (h : Looked s t) : Moved s t := by
  obtain ⟨_, _, rfl⟩ := h
  exact ⟨_, _, _, _, _, _, rfl⟩

theorem readRow_does {a : Agent} {s : State} {off : RowOff} (c : Params) (h : s.Calm)
    (hl : s.lock = some a) (hr : reservedRow s.cfg off = false) (hw : s.isWritten off = true)
    (hn : 1 ≤ c.rpRetries) :
    Does a (readRow c off) s (fun x t => x = .ok (s.row off) ∧ Looked s t) :=
  ⟨_, _, readRow_ends c h hl hr hw hn, rfl, ⟨_, _, rfl⟩⟩

/-! ## Entries -/

/-- What a change of CAT entries does: those of `es` take the values `g` gives, in rows written already. -/
structure Patched (es : List (Ns × Chan)) (g : Ns → Chan → SubField) (s t : State) : Prop where
  moved : Moved s t
  entry : ∀ ns ch, t.catEntry ns ch = if (ns, ch) ∈ es then g ns ch else s.catEntry ns ch
  row : ∀ o, (∀ e ∈ es, o ≠ catOff e.1 e.2) → t.row o = s.row o
  written : ∀ o, t.isWritten o = s.isWritten o
  arming : if es = [] then SameArming s t else Rearmed s t

theorem patched_one {s : State} {ns : Ns} {ch : Chan} (rb : Bool) (x : SubField)
    (hw : s.isWritten (catOff ns ch) = true) :
    Patched [(ns, ch)] (fun _ _ => x) s
      (s.afterWrite rb (catOff ns ch) (putSub (s.row (catOff ns ch)) ch x)) where
  moved := moved_afterWrite ..
  entry ns' ch' := by
    rw [catEntry_afterWrite]
    simp
  row o ho := by
    rw [afterWrite_row, if_neg (ho (ns, ch) (by simp))]
  written o := by
    rw [afterWrite_isWritten]
    split
    · rename_i e; rw [e, hw]
    · rfl
  arming := by
    rw [if_neg (by simp)]
    exact rearmed_afterWrite s rb _ (isCatRow_catOff ns ch)

theorem Patched.then {s t u : State} {es fs : List (Ns × Chan)} {g : Ns → Chan → SubField}
    (h1 : Patched es g s t) (h2 : Patched fs g t u) : Patched (es ++ fs) g s u where
  moved := h1.moved.trans h2.moved
  entry ns ch := by
    rw [h2.entry, h1.entry]
    simp only [List.mem_append]
    by_cases a : (ns, ch) ∈ es <;> by_cases b : (ns, ch) ∈ fs <;> simp [a, b]
  row o ho := by
    rw [h2.row o (fun e he => ho e (by simp [he])), h1.row o (fun e he => ho e (by simp [he]))]
  written o := (h2.written o).trans (h1.written o)
  arming := by
    have a1 := h1.arming
    have a2 := h2.arming
    by_cases he : es = [] <;> by_cases hf : fs = []
    · rw [if_pos he] at a1
      rw [if_pos hf] at a2
      rw [if_pos (by simp [he, hf])]
      exact a1.trans a2
    · rw [if_pos he] at a1
      rw [if_neg hf] at a2
      rw [if_neg (by simp [hf])]
      exact Rearmed.before a1.1 h1.moved.cfg a2
    · rw [if_neg he] at a1
      rw [if_pos hf] at a2
      rw [if_neg (by simp [he])]
      exact a1.after a2
    · rw [if_neg he] at a1
      rw [if_neg hf] at a2
      rw [if_neg (by simp [he])]
      exact a1.trans h1.moved.cfg a2

theorem Patched.nil (g : Ns → Chan → SubField) {s t : State} (h : Looked s t) : Patched [] g s t where
  moved := h.moved
  entry ns ch := by
    obtain ⟨_, _, rfl⟩ := h
    simp [State.catEntry, State.row]
  row o _ := by
    obtain ⟨_, _, rfl⟩ := h
    rfl
  written o := by
    obtain ⟨_, _, rfl⟩ := h
    rfl
  arming := by
    obtain ⟨_, _, rfl⟩ := h
    rw [if_pos rfl]
    exact SameArming.refl s

/-- Only the values at the entries matter. -/
theorem Patched.congr {s t : State} {es : List (Ns × Chan)} {g g' : Ns → Chan → SubField}
    (h : Patched es g s t) (hg : ∀ ns ch, (ns, ch) ∈ es → g ns ch = g' ns ch) : Patched es g' s t where
  moved := h.moved
  entry ns ch := by
    rw [h.entry]
    split
    · rename_i he; exact hg ns ch he
    · rfl
  row := h.row
  written := h.written
  arming := h.arming

theorem catRead_does {a : Agent} {s : State} (c : Params) (ns : Ns) (ch : Chan) (h : s.Calm)
    (hl : s.lock = some a) (hw : s.isWritten (catOff ns ch) = true) (hn : 1 ≤ c.rpRetries) :
    Does a (catRead c ns ch) s (fun x t => x = some (s.catEntry ns ch) ∧ Looked s t) := by
  unfold catRead
  refine Does.bind (readRow_does c h hl (reserved_catOff _ _ _) hw hn) ?_
  rintro x t ⟨rfl, ht⟩
  exact Does.ret ⟨rfl, ht⟩

theorem readEntries_does {a : Agent} (c : Params) (hn : 1 ≤ c.rpRetries) (es : List Entry) :
    ∀ {s : State}, s.Calm → s.lock = some a → (∀ e ∈ es, s.isWritten (catOff e.1 e.2) = true) →
    Does a (readEntries c es) s (fun x t =>
      x = some (es.map fun e => (e, s.catEntry e.1 e.2)) ∧ Looked s t) := by
  induction es with
  | nil => intro s _ _ _; exact Does.ret ⟨rfl, Looked.refl s⟩
  | cons e es ih =>
    intro s h hl hw
    unfold readEntries
    refine Does.bind (catRead_does c e.1 e.2 h hl (hw e (by simp)) hn) ?_
    · rintro x t ⟨rfl, ht⟩
      refine Does.bind (ih (ht.moved.calm h) (ht.moved.lock.trans hl) ?_) ?_
      · obtain ⟨_, _, rfl⟩ := ht
        exact fun e he => hw e (by simp [he])
      · rintro x u ⟨rfl, hu⟩
        refine Does.ret ⟨?_, ht.trans hu⟩
        obtain ⟨_, _, rfl⟩ := ht
        rfl

theorem setSub_does {a : Agent} {s : State} (c : Params) (ns : Ns) (ch : Chan) (x : SubField)
    (h : s.Calm) (hl : s.lock = some a) (hw : s.isWritten (catOff ns ch) = true)
    (hn : 1 ≤ c.rpRetries) :
    Does a (setSub c ns ch x) s (fun y t => y = .ok ∧ Patched [(ns, ch)] (fun _ _ => x) s t) :=
  ⟨_, _, updateRow_ends c h hl (reserved_catOff _ _ _) hw hn, rfl, patched_one _ _ hw⟩

theorem writeEntries_does {a : Agent} (c : Params) (hn : 1 ≤ c.rpRetries) (f : SubField → SubField)
    (g : Ns → Chan → SubField) (xs : List (Entry × SubField)) :
    ∀ {s : State} {done}, s.Calm → s.lock = some a →
    (∀ x ∈ xs, s.isWritten (catOff x.1.1 x.1.2) = true ∧ f x.2 = g x.1.1 x.1.2) →
    Does a (writeEntries c f done xs) s (fun y t => y = .ok ∧ Patched (xs.map (·.1)) g s t) := by
  induction xs with
  | nil => intro s _ _ _ _; exact Does.ret ⟨rfl, Patched.nil g (Looked.refl s)⟩
  | cons x xs ih =>
    intro s done h hl hw
    unfold writeEntries
    have hx := hw x (by simp)
    refine Does.bind (setSub_does c x.1.1 x.1.2 (f x.2) h hl hx.1 hn) ?_
    rintro y t ⟨rfl, ht⟩
    have ht : Patched [x.1] g s t := ht.congr (by
      intro ns ch he
      simp only [List.mem_singleton, Prod.mk.injEq] at he
      rw [hx.2, he.1, he.2])
    refine Does.mono (ih (ht.moved.calm h) (ht.moved.lock.trans hl) ?_) ?_
    · intro y hy
      exact ⟨(ht.written _).trans (hw y (by simp [hy])).1, (hw y (by simp [hy])).2⟩
    · rintro y u ⟨rfl, hu⟩
      exact ⟨rfl, ht.then hu⟩

/-! ## Pieces of the lifecycle commands -/

/-- The four mask bits of a node's channels cleared, as one update of the two masks (R256, R262). -/
theorem maskNode_does {a : Agent} {s : State} {rx tx : Chan} {p : Prog α} {Q : α → State → Prop}
    (h : s.Calm)
    (hp : Does a p { s with
      hcMsk := s.hcMsk &&& ~~~(chanBit rx ||| chanBit tx)
      busMsk := s.busMsk &&& ~~~(chanBit rx ||| chanBit tx) } Q) :
    Does a (maskNode rx tx false p) s Q := by
  have e : ∀ v : ChanSet,
      v &&& ~~~(chanBit rx ||| chanBit tx) = v &&& ~~~chanBit rx &&& ~~~chanBit tx := by
    intro v
    ext i hi
    simp
    cases v[i] <;> simp
  rw [e, e] at hp
  unfold maskNode Prog.after
  refine Does.calm h rfl ?_
  refine Does.calm (by exact h) rfl ?_
  refine Does.calm (by exact h) rfl ?_
  exact Does.calm (by exact h) rfl hp

/-- wake_all(n): only the threads move, and each as R272 (b) says. -/
theorem wakeAll_frame (s : State) (n : NodeNo) :
    ∃ th, s.wakeAll n = { s with threads := th } ∧ th.length = s.threads.length ∧
      ∀ k, th.getD k Ctx.reset =
        if Ctx.waitsOn n (s.ctx (.host k)) then { s.ctx (.host k) with woken := true }
        else s.ctx (.host k) := by
  refine ⟨_, rfl, by simp, ?_⟩
  intro k
  simp only [State.ctx, List.getD_eq_getElem?_getD, List.getElem?_map]
  cases h : s.threads[k]? with
  | none => simp [Ctx.waitsOn, Ctx.waitsIn, Ctx.reset]
  | some x => simp

/-- A wake (a): only the threads move, and each as R272 (a) says. -/
theorem notify_frame (s : State) (p : Instr → Bool) :
    ∃ th, s.notify p = { s with threads := th } ∧ th.length = s.threads.length ∧
      ∀ k, th.getD k Ctx.reset =
        if Ctx.waitsIn p (s.ctx (.host k)) then { s.ctx (.host k) with notified := true }
        else s.ctx (.host k) := by
  refine ⟨_, rfl, by simp, ?_⟩
  intro k
  simp only [State.ctx, List.getD_eq_getElem?_getD, List.getElem?_map]
  cases h : s.threads[k]? with
  | none => simp [Ctx.waitsIn, Ctx.reset]
  | some x => simp

/-- The two channels in the answer of `Act.getChans`. -/
theorem chans_of_answer (rx tx : Chan) :
    rxOf ((tx.setWidth 8 ++ rx.setWidth 8 : BitVec 16).setWidth 128) = rx ∧
    txOf ((tx.setWidth 8 ++ rx.setWidth 8 : BitVec 16).setWidth 128) = tx := by
  constructor <;>
  · simp only [rxOf, txOf, bits]
    apply BitVec.eq_of_getLsbD_eq
    intro i hi
    simp only [BitVec.getLsbD_extractLsb', BitVec.getLsbD_setWidth, BitVec.getLsbD_append]
    simp [show i < 8 by omega, show i < 128 by omega, show 8 + i < 128 by omega, hi]

/-- The four entries of a pair are those of its channels. -/
theorem mem_pairEntries {rx tx : Chan} {ns : Ns} {ch : Chan} :
    (ns, ch) ∈ pairEntries rx tx ↔ ch = rx ∨ ch = tx := by
  cases ns <;> simp [pairEntries]

/-! ## Whole commands -/

/-- The agent's registers and its place among the threads are as before. -/
structure SameAgent (a : Agent) (s u : State) : Prop where
  cur : u.cur = s.cur
  threads : u.threads.length = s.threads.length
  res : ∀ k, (u.ctx a).resRead k = (s.ctx a).resRead k
  rc : (u.ctx a).rc = (s.ctx a).rc
  command : (u.ctx a).cmd = (s.ctx a).cmd ∧ (u.ctx a).op = (s.ctx a).op

/-- A ready command whose run ends with a code and RES writes. -/
theorem Does.command {a : Agent} {s : State} {i : Instr} {p : Prog Result} {rc : RC}
    {res : List (Fin 4 × Word)} {R : State → Prop} (h : s.Ready a i)
    (d : Does a p s.begun (fun x u => x = { rc := some rc, res := res } ∧ SameAgent a s u ∧ R u))
    (nd : (res.map (·.1)).Nodup) :
    ∃ u, R u ∧ s.runCommand i p = .next (u.finish a { rc := some rc, res := res }) ∧
      Ended a s (u.finish a { rc := some rc, res := res }) rc res := by
  obtain ⟨x, u, e, rfl, k, hr⟩ := d
  exact ⟨u, hr, runCommand_ended h e k.cur k.threads k.res k.command nd⟩

end Sys2Proof.Machine
end

