-- ==== Sys2Proof/Tests/Slice0.lean ====
section
/-! SUPPORT. Own tests. Expected values come from the spec: words from the formats of 30_encoding.md, results
from the examples of the rules and of 95_test_vectors.md. The `witness_…` theorems show, for each statement
with hypotheses, a state and operands that meet them; a state is the reset state with a few fields set. -/

namespace Sys2Proof.Tests

set_option Elab.async false

open Sys2Proof Sys2Proof.Machine

/-! ## WellFormed: one ill-formed term for each check -/

/-- An engine with 8 channels, so that channel 8 does not exist. -/
def smallParams : Params := { Params.default with nch := 8 }

theorem test_wellFormed_refuses_channel : (Instr.adtRearm 8).wellFormed smallParams = false := by decide
theorem test_wellFormed_takes_channel : (Instr.adtRearm 7).wellFormed smallParams = true := by decide
theorem test_wellFormed_refuses_second_channel :
    (Instr.catUnmuteSync 7 8).wellFormed smallParams = false := by decide
theorem test_wellFormed_refuses_node : (Instr.chOpen 2).wellFormed Params.default = false := by decide
theorem test_wellFormed_takes_node : (Instr.chOpen 1).wellFormed Params.default = true := by decide

/-! ## Decode: each command's word, written out from its format (R112 to R123) -/

theorem test_decode_rpWriteRow : decode 0x04000005 = .ok (.rpWriteRow 5) := by decide
theorem test_decode_rpReadRow : decode 0x0800008F = .ok (.rpReadRow 0x8F) := by decide
theorem test_decode_rpCatWrite : decode 0x0E2AABCD = .ok (.rpCatWrite .host 42 0xABCD) := by decide
theorem test_decode_cdtInit : decode 0x203FE000 = .ok (.cdtInit 63 .iso .tx) := by decide
theorem test_decode_cdtResetAll : decode 0x24000000 = .ok (.cdtResetAll) := by decide
theorem test_decode_cdtClearSts : decode 0x2815000A = .ok (.cdtClearSts 21 0xA) := by decide
theorem test_decode_catInit : decode 0x40036800 = .ok (.catInit 3 .control .tx .inbound true) := by decide
theorem test_decode_catResetAll : decode 0x44000000 = .ok (.catResetAll) := by decide
theorem test_decode_catUnmuteSync : decode 0x48020300 = .ok (.catUnmuteSync 2 3) := by decide
theorem test_decode_adtInit : decode 0x60048000 = .ok (.adtInit 4 .async) := by decide
theorem test_decode_adtRearm : decode 0x64200000 = .ok (.adtRearm 32) := by decide
theorem test_decode_rbTryEnqueue : decode 0x80010000 = .ok (.rbTryEnqueue 1) := by decide
theorem test_decode_rbDequeue : decode 0x84010001 = .ok (.rbDequeue 1 true) := by decide
theorem test_decode_chOpen : decode 0xA0000000 = .ok (.chOpen 0) := by decide
theorem test_decode_chClose : decode 0xA4010000 = .ok (.chClose 1) := by decide
theorem test_decode_chStart : decode 0xA8010000 = .ok (.chStart 1) := by decide
theorem test_decode_chStop : decode 0xAC010000 = .ok (.chStop 1) := by decide
theorem test_decode_chWrite : decode 0xB0010000 = .ok (.chWrite 1) := by decide
theorem test_decode_chGetExceptions : decode 0xB4010000 = .ok (.chGetExceptions 1) := by decide
theorem test_decode_chSetChannelAddresses : decode 0xB8010000 = .ok (.chSetChannelAddresses 1) := by decide
theorem test_decode_chPollReadiness : decode 0xBC000000 = .ok (.chPollReadiness 0) := by decide
theorem test_decode_setBusClockClass : decode 0xC0000000 = .ok (.setBusClockClass) := by decide
theorem test_decode_setDeviceBusAddress : decode 0xC4000000 = .ok (.setDeviceBusAddress) := by decide
theorem test_decode_getProtocolVersion : decode 0xC8000000 = .ok (.getProtocolVersion) := by decide
theorem test_decode_irqHostDispatch : decode 0xE0000000 = .ok (.irqHostDispatch) := by decide
theorem test_decode_irqBusDispatch : decode 0xE4000000 = .ok (.irqBusDispatch) := by decide
theorem test_decode_reserved_bit : decode 0x24000001 = .error (.reservedBit "CDT.RESET_ALL") := by decide
theorem test_decode_unknown : decode 0x00000000 = .error (.unknownOpcode 0) := by decide

/-! ## States -/

/-- Reset, with the words `ops` in OP of every host thread and of the two dispatchers. -/
def withOps (a b c d : Word) : State :=
  { State.reset with
    threads := State.reset.threads.map fun x => { x with op := #v[a, b, c, d] }
    hd := { Ctx.reset with op := #v[a, b, c, d] } }

/-- `s` with every row written. -/
def allWritten (s : State) : State := { s with written := Vector.replicate 256 true }

/-- Node `n` of `s` changed. -/
def onNode (s : State) (n : NodeNo) (f : Node → Node) : State := s.setNode n (f (s.node n))

/-- An opened node: Configured with one reference, an empty ring and buffers at 0x1000, 0x2000, … -/
def opened (x : Node) : Node :=
  { x with lstate := .configured, refcnt := 1, ring := some (Ring.new 10),
           bufs := some ⟨0x1000, 0x2000, 0x3000, 0x4000⟩ }

/-- A step of the machine whose next state has the property `p`. -/
def nextHas (o : Host.Outcome State Fault Refusal) (p : State → Bool) : Bool :=
  match o with
  | .next t => p t
  | .fault _ => false
  | .refused _ => false

/-- The command ends with the code `rc` and RES0 = `r`. -/
def endsWith (s : State) (i : Instr) (rc : BitVec 8) (p : State → Bool) : Bool :=
  nextHas (exec i s) fun t => decide ((t.ctx s.cur).rc = rc) && !t.fault.flag && p t

/-! ## Single steps -/

theorem test_rpWriteRow : endsWith (withOps 0x003F0100 0 0 0) (.rpWriteRow 5) 0
    (fun t => decide (t.row 5 = 0x003F0100 ∧ t.isWritten 5 = true ∧ t.adr = 0x80000005 ∧
      t.ctl = 0)) = true := by
  decide +kernel
theorem test_rpReadRow : endsWith ((State.reset.putRow 5 0x00000004000000030000000200000001)) (.rpReadRow 5) 0
    (fun t => decide ((t.ctx (.host 0)).res = #v[1, 2, 3, 4] ∧ t.adr = 5)) = true := by decide +kernel
theorem test_rpCatWrite_keeps_sibling :
    endsWith (State.reset.putRow 0x80 0x1111111100000000) (.rpCatWrite .bus 3 0x0903) 0
      (fun t => decide (t.row 0x80 = 0x0903111100000000)) = true := by decide +kernel
theorem test_cdtInit_iso : endsWith (withOps 0x0200 591 0 0) (.cdtInit 6 .iso .rx) 0
    (fun t => decide (t.row 6 = 0x000000C4024E0200)) = true := by decide +kernel
theorem test_cdtInit_rejects : endsWith (withOps 0 500 0 0) (.cdtInit 6 .iso .rx) 3
    (fun t => decide (t.isWritten 6 = false ∧ t.adr = 0)) = true := by decide +kernel
theorem test_cdtClearSts : endsWith (State.reset.putRow 5 0x0035000000000000) (.cdtClearSts 5 0x1) 0
    (fun t => decide (t.row 5 = 0x0034000000000000 ∧ (t.ctx (.host 0)).res[0] = 1)) = true := by
  decide +kernel
theorem test_cdtResetAll :
    endsWith { State.reset.putRow 7 0xFF with cfg := smallParams } .cdtResetAll 0
      (fun t => decide (t.row 7 = 0 ∧ t.isWritten 0 = true ∧ t.isWritten 8 = false)) = true := by
  decide +kernel
theorem test_catInit : endsWith (State.reset.putRow 0x80 0x11010100) (.catInit 0 .control .rx .inbound true) 0
    (fun t => decide (t.row 0x80 = 0x11010900)) = true := by decide +kernel
theorem test_catResetAll : endsWith { State.reset.putRow 0x8F 1 with cfg := smallParams } .catResetAll 0
    (fun t => decide (t.row 0x8F = 0 ∧ t.isWritten 0x80 = true ∧ t.isWritten 0x90 = false)) = true := by
  decide +kernel
theorem test_catUnmuteSync :
    endsWith { (State.reset.putRow 0x80 0x3003200200000000).putRow 0x88 0x2003300200000000 with
      bstat := 3, cfg := smallParams } (.catUnmuteSync 2 3) 0
      (fun t => decide (t.row 0x80 = 0x3803280200000000 ∧ t.row 0x88 = 0x2803380200000000)) = true := by
  decide +kernel
theorem test_adtInit : endsWith (withOps 0x1000 0x1040 64 0) (.adtInit 4 .control) 0
    (fun t => decide (t.row 0x44 = 0x00010808003F003F0000104000001000)) = true := by decide +kernel
theorem test_adtRearm : endsWith ((withOps 0x0001090A 0x1000 0 0).putRow 0x44 0x0001090A003F003F0000104000001000)
    (.adtRearm 4) 0
    (fun t => decide (t.row 0x44 = 0x00010909003F003F0000104000001000 ∧ t.sw 4 = .pong)) = true := by
  decide +kernel
theorem test_adtRearm_twice_faults :
    nextHas (exec (.adtRearm 4) ((withOps 0x0001090A 0x1000 0 0).putRow 0x44 0x00010909003F003F0000104000001000))
      (fun t => decide (t.fault.reason = some .doubleArm)) = true := by decide +kernel
theorem test_rbTryEnqueue_wraps :
    endsWith { onNode (withOps 0x1000 0 0 0) 0 (fun x => { x with
      ring := some { Ring.new 10 with widx := 9, ridx := 1 } }) with cur := .hd } (.rbTryEnqueue 0) 0
      (fun t => decide ((t.node 0).ring.map (·.widx) = some 0)) = true := by decide +kernel
theorem test_rbTryEnqueue_drops :
    endsWith { onNode (withOps 0x1000 0 0 0) 0 (fun x => { x with
      ring := some { Ring.new 10 with widx := 9, dropcnt := 0xFFFFFFFF } }) with cur := .hd } (.rbTryEnqueue 0) 9
      (fun t => decide ((t.node 0).ring.map (·.dropcnt) = some 0)) = true := by decide +kernel
theorem test_rbDequeue :
    endsWith (onNode (withOps 0x2000 100 0 0) 0 (fun x => { x with ring := some { Ring.new 10 with
      slots := (List.replicate 11 none).set 9 (some (List.replicate 64 7)), widx := 0, ridx := 9 } }))
      (.rbDequeue 0 false) 0
      (fun t => decide (memRead t.mem 0x203F = 7 ∧ memRead t.mem 0x2040 = 0 ∧
        (t.node 0).ring.map (·.ridx) = some 0)) = true := by decide +kernel
theorem test_rbDequeue_wouldBlock : endsWith (onNode (withOps 0x2000 64 0 0) 0 opened) (.rbDequeue 0 false) 7
    (fun t => decide ((t.node 0).consumer = none)) = true := by decide +kernel
theorem test_chOpen_first :
    endsWith { State.reset with
      cfg := smallParams, env := { Env.prompt with allocs := [some ⟨0x1000, 0x2000, 0x3000, 0x4000⟩] } }
      (.chOpen 0) 0
      (fun t => decide ((t.node 0).lstate = .configured ∧ t.row 0x40 = 0x00010808003F003F0000200000001000 ∧
        t.catEntry .host 1 = 0x0101)) = true := by decide +kernel
theorem test_chClose_last : endsWith { onNode (allWritten State.reset) 0 opened with cfg := smallParams }
    (.chClose 0) 0
    (fun t => decide ((t.node 0).lstate = .closed ∧ (t.node 0).refcnt = 0)) = true := by decide +kernel
theorem test_chStart : endsWith { onNode (allWritten State.reset) 0 opened with cfg := smallParams }
    (.chStart 0) 0
    (fun t => decide ((t.node 0).lstate = .started ∧ t.hcMsk = 3 ∧ t.armed 0 = true ∧
      rowWord (t.row 0x40) 3 = 0x00000101)) = true := by decide +kernel
theorem test_chStart_twice :
    endsWith (onNode State.reset 0 (fun x => { opened x with lstate := .started })) (.chStart 0) 5
      (fun _ => true) = true := by decide +kernel
theorem test_chStop :
    endsWith { onNode (allWritten State.reset) 0 (fun x => { opened x with lstate := .started }) with
      hcMsk := 7, busMsk := 3, cfg := smallParams } (.chStop 0) 0
      (fun t => decide ((t.node 0).lstate = .stopped ∧ t.hcMsk = 4 ∧ t.busMsk = 0)) = true := by
  decide +kernel
theorem test_chWrite :
    endsWith { onNode ((withOps 0x5000 10 0 0).putRow 0x41 0x00010808003F003F0000400000003000) 0 opened with
      mem := [(0x5009, 9)] } (.chWrite 0) 0
      (fun t => decide (t.row 0x41 = 0x00010809003F00090000400000003000 ∧ memRead t.mem 0x3009 = 9 ∧
        (t.node 0).txBusy = true ∧ t.sw 1 = .pong)) = true := by decide +kernel
theorem test_chGetExceptions : endsWith (onNode State.reset 0 (fun x => { opened x with exc := 4 }))
    (.chGetExceptions 0) 0
    (fun t => decide ((t.ctx (.host 0)).res[0] = 4 ∧ (t.node 0).exc = 0)) = true := by decide +kernel
theorem test_chSetChannelAddresses : endsWith (withOps 8 9 0 0) (.chSetChannelAddresses 0) 0
    (fun t => decide ((t.node 0).rxCh = 8 ∧ (t.node 0).txCh = 9)) = true := by decide +kernel
theorem test_chSetChannelAddresses_used : endsWith (withOps 8 2 0 0) (.chSetChannelAddresses 0) 3
    (fun t => decide ((t.node 0).rxCh = 0)) = true := by decide +kernel
theorem test_chPollReadiness : endsWith (onNode State.reset 0 opened) (.chPollReadiness 0) 0
    (fun t => decide ((t.ctx (.host 0)).res[0] = 2 ∧ (t.ctx (.host 0)).res[1] = 0)) = true := by
  decide +kernel
theorem test_setBusClockClass : endsWith (withOps 3 0 0 0) .setBusClockClass 0
    (fun t => decide (t.busClkClass = 3 ∧ t.devAddr = 0)) = true := by decide +kernel
theorem test_setDeviceBusAddress : endsWith (withOps 0x180 0 0 0) .setDeviceBusAddress 0
    (fun t => decide (t.devAddr = 0x180 ∧ t.busClkClass = 0)) = true := by decide +kernel
theorem test_getProtocolVersion : endsWith State.reset .getProtocolVersion 0
    (fun t => decide ((t.ctx (.host 0)).res[0] = 0x00010000)) = true := by decide +kernel
theorem test_irqHostDispatch_tx :
    nextHas (exec .irqHostDispatch { onNode State.reset 0 (fun x => { opened x with
      lstate := .started, txBusy := true }) with cur := .hd, hcSts := 0x12, hcMsk := 0x12, hcErr := 0x10 })
      (fun t => decide ((t.node 0).txBusy = false ∧ t.hcSts = 0 ∧ t.hcErr = 0 ∧ t.logcnt = 1)) = true := by
  decide +kernel
theorem test_irqBusDispatch :
    nextHas (exec .irqBusDispatch { onNode (State.reset.putRow 2 0x0002000000000000) 1 opened with
      cur := .bd, busMsk := 4 })
      (fun t => decide (t.row 2 = 0 ∧ (t.node 1).exc = 2)) = true := by decide +kernel

/-! ## Witnesses: each statement's hypotheses are met -/

/-- `Ready`, from its five facts at once. -/
theorem ready {s : State} {a : Agent} {i : Instr}
    (h : s.fault.flag = false ∧ s.cur = a ∧ s.threads.length = s.cfg.nhost ∧
      mayIssue s.cfg i a = true ∧ i.wellFormed s.cfg = true) : s.Ready a i :=
  ⟨h.1, h.2.1, h.2.2.1, h.2.2.2.1, h.2.2.2.2⟩

/-- `Ready` of each command of a list, from one decision. -/
theorem ready_each {s : State} {a : Agent} {l : List Instr}
    (h : ∀ i ∈ l, s.fault.flag = false ∧ s.cur = a ∧ s.threads.length = s.cfg.nhost ∧
      mayIssue s.cfg i a = true ∧ i.wellFormed s.cfg = true) : ∀ i ∈ l, s.Ready a i :=
  fun i hi => ready (h i hi)

theorem exists_next {o : Host.Outcome State Fault Refusal} {p : State → Bool} (h : nextHas o p = true) :
    ∃ t, o = .next t := by
  cases o with
  | next t => exact ⟨t, rfl⟩
  | fault _ => cases h
  | refused _ => cases h

theorem forall_ns {p : Ns → Prop} (h : p .bus ∧ p .host) : ∀ ns, p ns := by
  intro ns
  cases ns
  · exact h.1
  · exact h.2

theorem witness_EncodeOfDecodeIsTheWord : decode 0x84010001 = .ok (.rbDequeue 1 true) := by decide

/-- Reset with the word of GET_PROTOCOL_VERSION presented. -/
def presentedState : State := State.reset.withFetchWord 32 0xC8000000

theorem witness_StepRunsTheDecodedCommand :
    presentedState.safe ∧ presentedState.presented = true ∧
    decode (presentedState.ctx presentedState.cur).cmd = .ok .getProtocolVersion := by decide +kernel

theorem witness_IllegalWordRaisesIllegalCommand :
    (State.reset.withFetchWord 32 0x24000001).safe ∧
    (State.reset.withFetchWord 32 0x24000001).presented = true ∧
    decode ((State.reset.withFetchWord 32 0x24000001).ctx (.host 0)).cmd =
      .error (.reservedBit "CDT.RESET_ALL") := by decide +kernel

theorem witness_IssueChecksComeInOrder :
    1 < Params.default.nhost ∧
    mayIssue State.reset.cfg (.rbTryEnqueue 0) State.reset.cur = false ∧
    (mayIssue smallParams (.adtRearm 8) (.host 0) = true ∧ smallParams.nch ≤ (8 : Chan).toNat) ∧
    (mayIssue smallParams (.catUnmuteSync 7 8) (.host 0) = true ∧ ¬ smallParams.nch ≤ (7 : Chan).toNat) ∧
    (mayIssue State.reset.cfg (.chOpen 2) State.reset.cur = true ∧
      State.reset.cfg.nnodes ≤ (2 : NodeNo).toNat) := by
  decide +kernel

/-- The fields of the commands above are channel and node fields, and CH.OPEN has no channel field. -/
theorem witness_IssueChecksComeInOrder_fields :
    channelField (.adtRearm 8) 8 ∧ channelField (.catUnmuteSync 7 8) 8 ∧ channelField (.catUnmuteSync 7 8) 7 ∧
    nodeField (.chOpen 2) 2 ∧ ∀ ch, ¬ channelField (.chOpen 2) ch := by
  simp [channelField, nodeField]

/-- Reset after a model fault of the hardware. -/
def faulted : State := State.reset.record .hw .unwrittenRow

theorem witness_ModelFaultIsRecordedOnce :
    State.reset.has (.host 1) ∧ faulted.fault.flag = true ∧
    faulted.fault = { flag := true, reason := some .unwrittenRow, cmd := 0, agent := some .hw } := by
  decide +kernel

theorem witness_EngineResetRestoresTheResetValues : State.reset.cfg.ok = true := by decide +kernel

theorem presentedState_nodes : ∀ n, (presentedState.node n).ring = none ∧ (presentedState.node n).bufs = none ∧
    (presentedState.node n).nm = none ∧ (presentedState.node n).consumer = none := by decide +kernel

theorem presentedState_registers :
    (presentedState.bstat = 0 ∧ presentedState.ctl = 0 ∧ presentedState.adr &&& ~~~adrMask = 0 ∧
      presentedState.txPerformed = false) ∧
    (presentedState.hcSts = 0 ∧ presentedState.hcErr = 0 ∧ presentedState.hcMsk = 0 ∧
      presentedState.busMsk = 0) := by decide +kernel

theorem presentedState_rest :
    (presentedState.cfg.ok = true ∧ memWf presentedState.mem ∧
      presentedState.threads.length = presentedState.cfg.nhost) ∧
    (∀ n : NodeNo, n.toNat < presentedState.cfg.nnodes →
      (presentedState.node n).rxCh.toNat < presentedState.cfg.nch ∧
      (presentedState.node n).txCh.toNat < presentedState.cfg.nch ∧
      (presentedState.node n).rxCh ≠ (presentedState.node n).txCh) ∧
    presentedState.hd.rc = 0 ∧ presentedState.bd.rc = 0 ∧ presentedState.lock = none ∧
    presentedState.fault = FaultRecord.clear := by decide +kernel

theorem witness_EveryStepKeepsTheInvariant :
    presentedState.Inv ∧ ∃ t, step presentedState = .next t := by
  obtain ⟨⟨b, c, adr, x⟩, sts, err, hmsk, bmsk⟩ := presentedState_registers
  obtain ⟨⟨cfg, mem, threads⟩, channels, hrc, brc, lock, clear⟩ := presentedState_rest
  refine ⟨?_, exists_next (p := fun _ => true) (by decide +kernel)⟩
  exact {
    cfg, mem, threads, adr, channels
    bstat := .inl b
    ctl := .inl c
    performed := by simp [x]
    signalled := by simp [c]
    hcSts := by simp [sts]
    hcErr := by simp [err]
    hcMsk := by simp [hmsk]
    busMsk := by simp [bmsk]
    rings := fun n r h => by simp [presentedState_nodes n] at h
    buffers := fun n => by simp [presentedState_nodes n]
    lock := fun a h => by simp [lock] at h
    mutex := fun n a h => by simp [presentedState_nodes n] at h
    consumer := fun n a h => by simp [presentedState_nodes n] at h
    codes := by simp [hrc, brc]
    record := by simp [clear, FaultRecord.clear] }

theorem witness_InterruptRegistersAnswerWrites : Reg.hcSts 1 ≠ Reg.hcSts 0 ∧ Reg.hcMsk 1 ≠ Reg.hcErr 1 := by
  decide

theorem witness_WindowRegistersAnswerWrites :
    (0xFFFFFFFE : Word).getLsbD 0 = false ∧ (1 : Word).getLsbD 0 = true ∧ 31 < 32 := by decide

theorem witness_InterruptLinesAreDerived :
    let s : State := { State.reset.putRow 63 0x0001000000000000 with hcSts := 1, hcMsk := 1, busMsk := chanBit 63 }
    s.busMsk &&& ~~~validChans s.cfg = 0 ∧ s.safe ∧ s.busy .hd = false ∧ s.busy .bd = false ∧
    s.hirq = true ∧ s.birq = true ∧ State.reset.busMsk &&& ~~~validChans State.reset.cfg = 0 ∧
    State.reset.hirq = false ∧ State.reset.birq = false := by decide +kernel

theorem witness_RegistersOfAThreadAreItsOwn :
    State.reset.safe ∧ State.reset.threads.length = State.reset.cfg.nhost ∧ 1 < State.reset.cfg.nhost ∧
    State.reset.busy (.host 1) = false ∧ memWf State.reset.mem ∧
    (0xFFFFFFFC : Word).toNat + [(1 : Byte), 2, 3, 4].length ≤ 2 ^ 32 ∧ presentedState.safe ∧
    presentedState.threads.length = presentedState.cfg.nhost ∧ presentedState.busy (.host 0) = true := by
  decide +kernel

/-- R31: RC takes the low 8 bits of the word its own thread writes; R92: no store of a thread falls inside its
own command. -/
theorem test_own_accesses :
    ((State.reset.event (.own 1 .rc 0x1FF)).ctx (.host 1)).rc = 0xFF ∧
    ((State.reset.event (.own 1 (.res 3) 7)).ctx (.host 1)).resRead 3 = some 7 ∧
    memRead (State.reset.event (.store 0 0x5000 [9])).mem 0x5000 = 9 ∧
    memRead (presentedState.event (.store 0 0x5000 [9])).mem 0x5000 = 0 := by decide +kernel

/-- Channel 1 armed: both its CAT entries have CE = 1, its ADT row has the ping half ready, its CDT row is
written; `v` is its BUS entry. -/
def armedState (v : Row) : State :=
  (((State.reset.putRow 0x80 (v <<< 16)).putRow 0x88 0x08010000).putRow 0x41
    0x00010809003F003F0000400000003000).putRow 1 0

/-- R343: a completion of a channel of the snapshot after the snapshot stays pending, and the line stays 1. -/
theorem test_irqHostDispatch_later_completion :
    nextHas (exec .irqHostDispatch { armedState 0x1801 with
      cur := .hd, hcSts := 2, hcMsk := 2
      env := { Env.prompt with script := [[], [.hw (.xfer 1 true [])]] } })
      (fun t => decide (t.hcSts = 2 ∧ t.hirq = true ∧ t.logcnt = 1)) = true := by decide +kernel

theorem witness_PerformOfAWriteStoresTheRow :
    ({ State.reset with txPending := some (.write 0x7F 1) }).txPending = some (.write 0x7F 1) ∧
    State.reset.txPerformed = false ∧ isCatRow 0x7F = false := by decide +kernel

theorem witness_PerformOfAReadAndSignal :
    let s : State := { State.reset.putRow 5 7 with txPending := some (.read 5) }
    let u : State := { State.reset with txPending := some (.read 5) }
    s.txPending = some (.read 5) ∧ s.txPerformed = false ∧ s.isWritten 5 = true ∧ s.ctl = 0 ∧
    u.txPending = some (.read 5) ∧ u.txPerformed = false ∧ u.isWritten 5 = false ∧ u.safe := by
  decide +kernel

theorem witness_ArmingEdgeStartsWithPing :
    let s : State := { State.reset.putRow 0x88 0x0800 with txPending := some (.write 0x80 0x0800) }
    s.txPending = some (.write 0x80 0x0800) ∧ s.txPerformed = false ∧ isCatRow 0x80 = true ∧
    s.perform.armed 0 = true ∧ s.prevArmed 0 = false := by decide +kernel

theorem witness_TransmitTransferCompletesTheHalf :
    let s := armedState 0x1801
    let u := s.putRow 0x41 0x00010809003F003F00004000FFFFFFC4
    ((1 : Chan).toNat < s.cfg.nch ∧ s.armed 1 = true ∧ s.isWritten (adtOff 1) = true ∧ s.hwh 1 = .ping ∧
      rdyOf (s.row (adtOff 1)) .ping = true ∧ rnwBit (s.catEntry .bus 1) = true ∧
      wraps (addrOf (s.row (adtOff 1)) .ping) (decodeDepth (bdOf (s.row (adtOff 1)) .ping)) = false) ∧
    (u.armed 1 = true ∧ u.isWritten (adtOff 1) = true ∧ u.hwh 1 = .ping ∧ u.safe ∧
      rdyOf (u.row (adtOff 1)) .ping = true ∧
      wraps (addrOf (u.row (adtOff 1)) .ping) (decodeDepth (bdOf (u.row (adtOff 1)) .ping)) = true) ∧
    s.armed 0 = false := by
  decide +kernel

theorem witness_ReceiveTransferStoresTheBytes :
    let s := armedState 0x0801
    let row := s.row (adtOff 1)
    memWf s.mem ∧ (1 : Chan).toNat < s.cfg.nch ∧ s.armed 1 = true ∧ s.isWritten (adtOff 1) = true ∧
    s.hwh 1 = .ping ∧ rdyOf row .ping = true ∧ rnwBit (s.catEntry .bus 1) = false ∧
    wraps (addrOf row .ping) (decodeDepth (bdOf row .ping)) = false ∧ psOf row .ping = true ∧
    1 ≤ [(0xAB : Byte)].length ∧ (List.replicate 64 (0 : Byte)).length = decodeDepth (bdOf row .ping) ∧
    s.armed 0 = false := by
  decide +kernel

/-- R371, R39: after an engine reset the CAT rows kept from before arm no channel, so a receive half armed again
is not transferred until CAT rows have been written. -/
theorem test_reset_disarms :
    let s := (armedState 0x0801).engineReset.putRow 0x41 0x00010809003F003F0000400000003000
    (armedState 0x0801).armed 1 = true ∧ s.row 0x80 = (armedState 0x0801).row 0x80 ∧ s.armed 1 = false ∧
    memRead (s.xfer 1 true [0xAB]).mem 0x3000 = 0 ∧
    memRead ((armedState 0x0801).xfer 1 true [0xAB]).mem 0x3000 = 0xAB := by
  decide +kernel

theorem witness_RaiseAndProgressChangeTheirBitsOnly :
    (1 : BitVec 4) ≠ 0 ∧ (1 : Chan).toNat < (armedState 0x0801).cfg.nch ∧ (armedState 0x0801).armed 1 = true ∧
    (armedState 0x0801).isWritten (cdtOff 1) = true ∧ (armedState 0x0801).armed 0 = false := by decide +kernel

theorem witness_OnlyTheBusStepChangesBusStatus :
    ((false = true → false = true) ∧ (true = true → true = true)) ∧ ∀ c l, HwStep.perform ≠ .bus c l := by
  refine ⟨⟨id, id⟩, ?_⟩
  intro c l h
  cases h

theorem witness_HardwareWritesNothingElse : HwStep.signal ≠ .perform := by decide

theorem witness_RingReturnsPacketsInOrder :
    let r : Ring := { Ring.new 2 with widx := 1, ridx := 1 }
    r.Wf 2 64 ∧ r.empty = true ∧ [List.replicate 64 (7 : Byte)].length < 2 := by
  refine ⟨⟨by decide, ?_, by decide, by decide⟩, by decide, by decide⟩
  intro b h
  simp [Ring.new] at h

theorem witness_OperandForms_depth : 1 ≤ 8192 ∧ 8192 ≤ 8192 := by decide

theorem witness_WriteRowStoresTheOperands :
    (withOps 1 2 3 4).Ready (.host 0) (.rpWriteRow 0x7F) ∧ (withOps 1 2 3 4).TableReady ∧
    reservedRow (withOps 1 2 3 4).cfg 0x7F = false ∧ isCatRow 0x7F = false ∧
    (withOps 1 2 3 4).Ready (.host 0) (.rpWriteRow 0x8F) ∧ reservedRow (withOps 1 2 3 4).cfg 0x8F = false ∧
    isCatRow 0x8F = true :=
  ⟨ready (by decide +kernel), by decide +kernel, by decide +kernel, by decide, ready (by decide +kernel),
    by decide +kernel, by decide⟩

theorem witness_ReadRowReturnsTheRow :
    (State.reset.putRow 0x8F 7).Ready (.host 0) (.rpReadRow 0x8F) ∧ (State.reset.putRow 0x8F 7).TableReady ∧
    reservedRow State.reset.cfg 0x8F = false ∧ (State.reset.putRow 0x8F 7).isWritten 0x8F = true :=
  ⟨ready (by decide +kernel), by decide +kernel⟩

/-- Reset of an engine with 8 channels: the CDT row 8 and the ADT row 0x48 are reserved. -/
def smallState : State := State.resetOf smallParams

theorem witness_TransactionsFaultOnBadRows :
    (∀ i ∈ [Instr.rpWriteRow 0x08, .rpReadRow 0x48, .rpWriteRow 0x90],
      smallState.Ready (.host 0) i) ∧
    (smallState.Still ∧ smallState.lock = none ∧ smallState.cfg.nch = 8) ∧
    State.reset.Ready (.host 0) (.rpReadRow 0x8F) ∧ State.reset.TableReady ∧
    State.reset.isWritten 0x8F = false ∧ State.reset.Ready (.host 0) (.rpReadRow 0x7F) ∧
    State.reset.isWritten 0x7F = false ∧ ¬ State.reset.cfg.nch ≤ 0x7F - 0x40 :=
  ⟨ready_each (by decide +kernel), by decide +kernel, ready (by decide +kernel), by decide +kernel,
    by decide +kernel, ready (by decide +kernel), by decide +kernel⟩

/-- Reset with hardware that never moves. -/
def silentState : State := { State.reset with env := { script := [], rest := [], allocs := [], draws := 0 } }

/-- Reset with hardware that performs and never signals. -/
def performsOnly : State := { silentState with env := { silentState.env with rest := [.hw .perform] } }

theorem witness_SilentHardwareTimesOut :
    silentState.Ready (.host 0) (.rpReadRow 0) ∧ silentState.Ready (.host 0) (.rpWriteRow 0) ∧
    (silentState.Silent ∧ silentState.Idle ∧ silentState.lock = none ∧ reservedRow silentState.cfg 0 = false) ∧
    performsOnly.Ready (.host 0) (.rpWriteRow 0x8F) ∧ performsOnly.env.script = [] ∧
    performsOnly.env.rest = [.hw .perform] ∧ performsOnly.Idle ∧ performsOnly.lock = none ∧
    reservedRow performsOnly.cfg 0x8F = false ∧ isCatRow 0x8F = true ∧ isCatRow 0 = false :=
  ⟨ready (by decide +kernel), ready (by decide +kernel), by decide +kernel, ready (by decide +kernel),
    by decide +kernel⟩

/-- Reset with every row written. -/
def writtenState : State := allWritten State.reset

theorem writtenState_ready : writtenState.TableReady ∧ writtenState.Still := by decide +kernel

theorem witness_CatWritePatchesOneSubField :
    writtenState.Ready (.host 0) (.rpCatWrite .host 63 0xFFFF) ∧ writtenState.TableReady ∧
    writtenState.isWritten (catOff .host 63) = true :=
  ⟨ready (by decide +kernel), writtenState_ready.1, by decide +kernel⟩

theorem witness_CdtInitProgramsTheRow :
    (withOps 0xFFFF 8192 0 0).Ready (.host 0) (.cdtInit 63 .control .tx) ∧
    (withOps 0xFFFF 8192 0 0).TableReady ∧ ((withOps 0xFFFF 8192 0 0).ctx (.host 0)).op[0].toNat < 2 ^ 16 ∧
    validDepth (withOps 0xFFFF 8192 0 0).cfg .control ((withOps 0xFFFF 8192 0 0).ctx (.host 0)).op[1].toNat = true :=
  ⟨ready (by decide +kernel), by decide +kernel⟩

theorem witness_BadOperandsTouchNothing :
    let s := withOps 0x10000 8193 0 0
    let u := withOps 0 0x1000 8193 0
    s.Ready (.host 0) (.cdtInit 0 .control .rx) ∧ s.Ready (.host 0) (.adtInit 0 .control) ∧
    u.Ready (.host 0) (.adtInit 0 .control) ∧ u.Ready (.host 0) (.adtRearm 0) ∧ s.Still ∧ u.Still ∧
    2 ^ 16 ≤ (s.ctx (.host 0)).op[0].toNat ∧
    validDepth s.cfg .control (s.ctx (.host 0)).op[1].toNat = false ∧ (s.ctx (.host 0)).op[2].toNat < 1 ∧
    8192 < (u.ctx (.host 0)).op[2].toNat ∧ (u.ctx (.host 0)).op[1].toNat % 4 = 0 ∧
    (u.ctx (.host 0)).op[0].getLsbD 1 = false ∧ (u.ctx (.host 0)).op[0].getLsbD 9 = false :=
  ⟨ready (by decide +kernel), ready (by decide +kernel), ready (by decide +kernel),
    ready (by decide +kernel), by decide +kernel⟩

theorem witness_BadOperandsTouchNothing_addresses :
    let m := withOps 0xFFFFE000 0x1003 8192 0
    let w := withOps 0 0xFFFFFFFC 5 0
    m.Ready (.host 0) (.adtInit 63 .sync) ∧ m.Ready (.host 0) (.adtRearm 63) ∧
    w.Ready (.host 0) (.adtInit 63 .sync) ∧
    (m.Still ∧ (m.ctx (.host 0)).op[2].toNat = 8192 ∧ (m.ctx (.host 0)).op[1].toNat % 4 = 3) ∧
    w.Still ∧ (w.ctx (.host 0)).op[0].toNat % 4 = 0 ∧ (w.ctx (.host 0)).op[1].toNat % 4 = 0 ∧
    (w.ctx (.host 0)).op[1].toNat + (w.ctx (.host 0)).op[2].toNat = 2 ^ 32 + 1 :=
  ⟨ready (by decide +kernel), ready (by decide +kernel), ready (by decide +kernel), by decide +kernel⟩

theorem witness_ResetAllZeroesTheTable :
    State.reset.Ready (.host 0) .cdtResetAll ∧ State.reset.Ready (.host 0) .catResetAll ∧
    State.reset.TableReady ∧ State.reset.cfg.nch ≤ 64 :=
  ⟨ready (by decide +kernel), ready (by decide +kernel), by decide +kernel⟩

theorem witness_ClearStsReadsAndClears :
    writtenState.Ready (.host 0) (.cdtClearSts 63 0xF) ∧
    ({ writtenState with cur := .bd }).Ready .bd (.cdtClearSts 63 0) ∧ writtenState.TableReady ∧
    writtenState.isWritten (cdtOff 63) = true :=
  ⟨ready (by decide +kernel), ready (by decide +kernel), writtenState_ready.1, by decide +kernel⟩

theorem witness_CatInitProgramsTheEntry :
    writtenState.Ready (.host 0) (.catInit 63 .iso .tx .outbound true) ∧ writtenState.TableReady ∧
    writtenState.isWritten (catOff (nsFor .tx .outbound) 63) = true :=
  ⟨ready (by decide +kernel), writtenState_ready.1, by decide +kernel⟩

/-- Every row written, the bus clock running and locked. -/
def lockedBus : State := { writtenState with bstat := 3 }

theorem witness_UnmuteSyncEnablesFourEntries :
    lockedBus.Ready (.host 0) (.catUnmuteSync 0 63) ∧ lockedBus.Ready (.host 0) (.catUnmuteSync 2 2) ∧
    (lockedBus.TableReady ∧ lockedBus.bstat.getLsbD 0 = true ∧ lockedBus.bstat.getLsbD 1 = true ∧
    1 ≤ lockedBus.cfg.unmuteRetries) ∧
    ∀ ns, lockedBus.isWritten (catOff ns 0) = true ∧ lockedBus.isWritten (catOff ns 63) = true :=
  ⟨ready (by decide +kernel), ready (by decide +kernel), by decide +kernel, forall_ns (by decide +kernel)⟩

theorem witness_UnmuteSyncOnAnUnlockedBusTouchesNothing :
    State.reset.Ready (.host 0) (.catUnmuteSync 2 3) ∧
    ({ State.reset with bstat := 1 }).Ready (.host 0) (.catUnmuteSync 2 3) ∧ State.reset.Still ∧
    State.reset.bstat.getLsbD 0 = false ∧ ({ State.reset with bstat := 1 }).bstat.getLsbD 0 = true ∧
    1 ≤ State.reset.cfg.unmuteRetries ∧ ({ State.reset with bstat := 1 }).bstat.getLsbD 1 = false :=
  ⟨ready (by decide +kernel), ready (by decide +kernel), by decide +kernel⟩

theorem witness_AdtInitProgramsBothHalves :
    let s := withOps 0xFFFFE000 0 8192 0
    s.Ready (.host 0) (.adtInit 63 .iso) ∧ s.TableReady ∧ 1 ≤ (s.ctx (.host 0)).op[2].toNat ∧
    (s.ctx (.host 0)).op[2].toNat ≤ 8192 ∧ aligned (s.ctx (.host 0)).op[0] = true ∧
    aligned (s.ctx (.host 0)).op[1] = true ∧
    wraps (s.ctx (.host 0)).op[0] (s.ctx (.host 0)).op[2].toNat = false ∧
    wraps (s.ctx (.host 0)).op[1] (s.ctx (.host 0)).op[2].toNat = false :=
  ⟨ready (by decide +kernel), by decide +kernel⟩

theorem witness_RearmHandsTheCompletedHalfBack :
    let s := (withOps 0x00000200 0x1040 0 0).putRow 0x7F 0x00010A09003F003F0000104000001000
    s.Ready (.host 0) (.adtRearm 63) ∧ s.TableReady ∧ aligned (s.ctx (.host 0)).op[1] = true ∧
    completed (s.ctx (.host 0)).op[0] (s.sw 63) = some .pong ∧ s.isWritten (adtOff 63) = true ∧
    rdyOf (s.row (adtOff 63)) .pong = false ∧
    wraps (s.ctx (.host 0)).op[1] (decodeDepth (bdOf (s.row (adtOff 63)) .pong)) = false :=
  ⟨ready (by decide +kernel), by decide +kernel⟩

theorem witness_RearmHandsTheCompletedHalfBack_faults :
    let s := (withOps 0x00000200 0xFFFFFFC4 0 0).putRow 0x7F 0x00010A09003F003F0000104000001000
    let u := s.putRow 0x7F 0x00010909003F003F0000104000001000
    s.Ready (.host 0) (.adtRearm 63) ∧ u.Ready (.host 0) (.adtRearm 63) ∧
    (s.TableReady ∧ aligned (s.ctx (.host 0)).op[1] = true ∧
      completed (s.ctx (.host 0)).op[0] (s.sw 63) = some .pong ∧ s.isWritten (adtOff 63) = true ∧
      rdyOf (s.row (adtOff 63)) .pong = false ∧
      wraps (s.ctx (.host 0)).op[1] (decodeDepth (bdOf (s.row (adtOff 63)) .pong)) = true) ∧
    u.TableReady ∧ u.isWritten (adtOff 63) = true ∧ rdyOf (u.row (adtOff 63)) .pong = true :=
  ⟨ready (by decide +kernel), ready (by decide +kernel), by decide +kernel⟩

/-- Node 0 of `s` with the ring `r`. -/
def withRing (s : State) (r : Ring) : State := onNode s 0 (fun x => { opened x with ring := some r })

theorem witness_TryEnqueueNeverWaits :
    let s := { withRing (withOps 0xFFFFFFC0 0 0 0) { Ring.new 10 with widx := 9 } with cur := .hd }
    let u := { withRing (withOps 0xFFFFFFC0 0 0 0) { Ring.new 10 with widx := 9, ridx := 1 } with cur := .hd }
    s.Ready .hd (.rbTryEnqueue 0) ∧ u.Ready .hd (.rbTryEnqueue 0) ∧ s.Still ∧
    (s.node 0).ring = some { Ring.new 10 with widx := 9 } ∧ wraps (s.ctx .hd).op[0] (s.cfg.slot 0) = false ∧
    u.Still ∧ (u.node 0).ring = some { Ring.new 10 with widx := 9, ridx := 1 } ∧ s.cfg.cap 0 = 10 :=
  ⟨ready (by decide +kernel), ready (by decide +kernel), by decide +kernel⟩

theorem witness_TryEnqueueNeverWaits_faults :
    let s : State := { withOps 0x1000 0 0 0 with cur := .hd }
    let u := { withRing (withOps 0xFFFFFFC1 0 0 0) (Ring.new 10) with cur := .hd }
    s.Ready .hd (.rbTryEnqueue 0) ∧ u.Ready .hd (.rbTryEnqueue 0) ∧ s.Still ∧ (s.node 0).ring = none ∧
    u.Still ∧ (u.node 0).ring ≠ none ∧ wraps (u.ctx .hd).op[0] (u.cfg.slot 0) = true :=
  ⟨ready (by decide +kernel), ready (by decide +kernel), by decide +kernel⟩

/-- A ring with one packet of 64 bytes in its last index slot. -/
def onePacket : Ring :=
  { Ring.new 10 with slots := (List.replicate 11 none).set 9 (some (List.replicate 64 7)), widx := 0, ridx := 9 }

theorem onePacket_wf : onePacket.Wf 10 64 := by
  refine ⟨by decide, ?_, by decide, by decide⟩
  intro b h
  have : ∀ x ∈ onePacket.slots, x = none ∨ x = some (List.replicate 64 7) := by decide +kernel
  rcases this _ h with h | h
  · cases h
  · cases h; decide

theorem witness_DequeueCopiesTheOldestPacket :
    let s := withRing (withOps 0xFFFFFFC0 64 0 0) onePacket
    s.Ready (.host 0) (.rbDequeue 0 true) ∧ s.Ready (.host 0) (.rbDequeue 0 false) ∧
    onePacket.Wf (s.cfg.cap 0) (s.cfg.slot 0) ∧ s.Still ∧ memWf s.mem ∧ (s.node 0).ring = some onePacket ∧
    onePacket.ridx ≠ onePacket.widx ∧ onePacket.slots[onePacket.ridx]? = some (some (List.replicate 64 7)) ∧
    (s.node 0).consumer = none ∧ s.cfg.slot 0 ≤ (s.ctx (.host 0)).op[1].toNat ∧
    wraps (s.ctx (.host 0)).op[0] (s.cfg.slot 0) = false :=
  ⟨ready (by decide +kernel), ready (by decide +kernel), onePacket_wf, by decide +kernel⟩

/-- RB.DEQUEUE of a node without a ring, of one that has a consumer, into 63 bytes, and past 2^32. -/
theorem witness_DequeueCopiesTheOldestPacket_faults :
    let s := withRing (withOps 0xFFFFFFC1 63 0 0) onePacket
    let u := onNode s 0 (fun x => { x with consumer := some (.host 1) })
    let w := withRing (withOps 0xFFFFFFC1 64 0 0) onePacket
    State.reset.Ready (.host 0) (.rbDequeue 0 true) ∧ s.Ready (.host 0) (.rbDequeue 0 false) ∧
    u.Ready (.host 0) (.rbDequeue 0 true) ∧ w.Ready (.host 0) (.rbDequeue 0 true) ∧
    (State.reset.Still ∧ (State.reset.node 0).ring = none) ∧
    (s.Still ∧ (s.node 0).ring ≠ none ∧ (s.node 0).consumer = none ∧ s.cfg.slot 0 = 64 ∧
      (s.ctx (.host 0)).op[1].toNat = 63) ∧
    (u.Still ∧ (u.node 0).ring ≠ none ∧ (u.node 0).consumer ≠ none) ∧
    w.Still ∧ (w.node 0).ring ≠ none ∧ (w.node 0).consumer = none ∧
    w.cfg.slot 0 ≤ (w.ctx (.host 0)).op[1].toNat ∧ wraps (w.ctx (.host 0)).op[0] (w.cfg.slot 0) = true :=
  ⟨ready (by decide +kernel), ready (by decide +kernel), ready (by decide +kernel), ready (by decide +kernel),
    by decide +kernel⟩

theorem witness_DequeueOfAnEmptyRing :
    let s := withRing (withOps 0xFFFFFFC0 64 0 0) (Ring.new 10)
    s.Ready (.host 0) (.rbDequeue 0 false) ∧ s.Ready (.host 0) (.rbDequeue 0 true) ∧ s.Still ∧
    (s.node 0).ring = some (Ring.new 10) ∧ (Ring.new 10).ridx = (Ring.new 10).widx ∧
    (s.node 0).consumer = none ∧ s.cfg.slot 0 ≤ (s.ctx (.host 0)).op[1].toNat ∧
    wraps (s.ctx (.host 0)).op[0] (s.cfg.slot 0) = false ∧ s.lock ≠ some (.host 0) ∧
    (s.ctx (.host 0)).woken = false ∧ 2 ≤ s.cfg.cap 0 ∧ wraps 0xFFFFFFC0 (s.cfg.slot 0) = false :=
  ⟨ready (by decide +kernel), ready (by decide +kernel), by decide +kernel⟩

/-! ### Channel lifecycle -/

/-- Node 0 opened, every row written. -/
def openState : State := onNode (allWritten (withOps 0x5000 64 0 0)) 0 opened

theorem openState_ready : openState.TableReady ∧ openState.Still ∧ openState.lock ≠ some (.host 0) ∧
    (openState.node 0).nm = none := by decide +kernel

theorem witness_OpenAndCloseCountReferences :
    openState.Ready (.host 0) (.chOpen 0) ∧
    (onNode openState 0 (fun x => { x with refcnt := 0xFFFFFFFF })).Ready (.host 0) (.chOpen 0) ∧
    (onNode openState 0 (fun x => { x with refcnt := 0xFFFFFFFF })).Ready (.host 0) (.chClose 0) ∧
    openState.Still ∧ openState.lock ≠ some (.host 0) ∧ (openState.node 0).nm = none ∧
    (openState.node 0).refcnt ≠ 0 ∧ (openState.node 0).refcnt ≠ 0xFFFFFFFF ∧
    ((onNode openState 0 (fun x => { x with refcnt := 0xFFFFFFFF })).node 0).refcnt = 0xFFFFFFFF :=
  ⟨ready (by decide +kernel), ready (by decide +kernel), ready (by decide +kernel), by decide +kernel⟩

/-- Reset with an allocator that answers four buffers. -/
def allocState : State :=
  { State.reset with env := { Env.prompt with allocs := [some ⟨0x1000, 0x2000, 0x3000, 0x4000⟩] } }

theorem witness_FirstOpenConfiguresTheNode_alone :
    allocState.Ready (.host 0) (.chOpen 0) ∧ allocState.TableReady ∧ allocState.cfg.ok = true ∧
    (allocState.node 0).nm = none ∧ (allocState.node 0).refcnt = 0 ∧
    allocState.env.allocs = some ⟨0x1000, 0x2000, 0x3000, 0x4000⟩ :: [] ∧
    legalBufs (allocState.cfg.depth 0) ⟨0x1000, 0x2000, 0x3000, 0x4000⟩ = true ∧
    validDepth allocState.cfg (allocState.cfg.nodeType 0) (allocState.cfg.depth 0) = true ∧
    allocState.cfg.depth 0 ≤ 8192 ∧ allocState.cfg.dbrOffset (allocState.node 0).rxCh < 2 ^ 16 ∧
    allocState.cfg.dbrOffset (allocState.node 0).txCh < 2 ^ 16 ∧
    (allocState.node 0).rxCh.toNat < allocState.cfg.nch ∧
    (allocState.node 0).txCh.toNat < allocState.cfg.nch ∧
    (allocState.node 0).rxCh ≠ (allocState.node 0).txCh ∧
    (∀ m : NodeNo, m.toNat < allocState.cfg.nnodes → m ≠ 0 → (allocState.node m).lstate = .closed) :=
  ⟨ready (by decide +kernel), by decide +kernel⟩

/-- Node 0 is open and its CAT rows are written; node 1, a sync node, is to be opened. -/
def secondOpen : State := { openState with env := allocState.env }

theorem witness_FirstOpenConfiguresTheNode_notAlone :
    secondOpen.Ready (.host 0) (.chOpen 1) ∧ (secondOpen.TableReady ∧ secondOpen.cfg.ok = true ∧
    (secondOpen.node 1).nm = none ∧ (secondOpen.node 1).refcnt = 0 ∧
    secondOpen.env.allocs = some ⟨0x1000, 0x2000, 0x3000, 0x4000⟩ :: [] ∧
    legalBufs (secondOpen.cfg.depth 1) ⟨0x1000, 0x2000, 0x3000, 0x4000⟩ = true ∧
    validDepth secondOpen.cfg (secondOpen.cfg.nodeType 1) (secondOpen.cfg.depth 1) = true ∧
    secondOpen.cfg.depth 1 ≤ 8192 ∧ secondOpen.cfg.dbrOffset (secondOpen.node 1).rxCh < 2 ^ 16 ∧
    secondOpen.cfg.dbrOffset (secondOpen.node 1).txCh < 2 ^ 16 ∧
    (secondOpen.node 1).rxCh.toNat < secondOpen.cfg.nch ∧
    (secondOpen.node 1).txCh.toNat < secondOpen.cfg.nch ∧
    (secondOpen.node 1).rxCh ≠ (secondOpen.node 1).txCh ∧ (secondOpen.node 0).lstate ≠ .closed) ∧
    ∀ ns, secondOpen.isWritten (catOff ns (secondOpen.node 1).rxCh) = true ∧
      secondOpen.isWritten (catOff ns (secondOpen.node 1).txCh) = true :=
  ⟨ready (by decide +kernel), by decide +kernel, forall_ns (by decide +kernel)⟩

theorem witness_RefusedAllocationLeavesTheNodeClosed :
    let s : State := { State.reset with env := { Env.prompt with allocs := [none] } }
    s.Ready (.host 0) (.chOpen 0) ∧ s.Still ∧ s.lock ≠ some (.host 0) ∧ (s.node 0).nm = none ∧
    (s.node 0).refcnt = 0 ∧ s.env.allocs = none :: [] :=
  ⟨ready (by decide +kernel), by decide +kernel⟩

/-- Node 0 Started, every row written. -/
def startedState : State := onNode openState 0 (fun x => { x with lstate := .started })

theorem witness_LastCloseTearsTheNodeDown :
    startedState.Ready (.host 0) (.chClose 0) ∧ openState.Ready (.host 0) (.chClose 0) ∧
    (startedState.TableReady ∧ (startedState.node 0).nm = none ∧ (startedState.node 0).refcnt = 1 ∧
    (startedState.node 0).rxCh.toNat < startedState.cfg.nch ∧
    (startedState.node 0).txCh.toNat < startedState.cfg.nch ∧ (startedState.node 0).lstate = .started ∧
    (openState.node 0).lstate ≠ .started) ∧
    ∀ ns, startedState.isWritten (catOff ns (startedState.node 0).rxCh) = true ∧
      startedState.isWritten (catOff ns (startedState.node 0).txCh) = true :=
  ⟨ready (by decide +kernel), ready (by decide +kernel), by decide +kernel, forall_ns (by decide +kernel)⟩

/-- Node 1, a sync node, Stopped, on a bus with the status `v`. -/
def syncOnBus (v : Word) : State :=
  { onNode openState 1 (fun x => { opened x with lstate := .stopped }) with bstat := v }

theorem witness_StartEnablesTheNode :
    let u : State := syncOnBus 3
    openState.Ready (.host 0) (.chStart 0) ∧ u.Ready (.host 0) (.chStart 1) ∧ openState.TableReady ∧
    (openState.node 0).nm = none ∧ (openState.node 0).lstate = .configured ∧
    openState.cfg.nodeType 0 = .control ∧ (openState.node 0).rxCh ≠ (openState.node 0).txCh ∧ u.TableReady ∧
    (u.node 1).nm = none ∧ (u.node 1).lstate = .stopped ∧ u.cfg.nodeType 1 = .sync ∧
    u.bstat.getLsbD 0 = true ∧ u.bstat.getLsbD 1 = true ∧ 1 ≤ u.cfg.unmuteRetries ∧
    (u.node 1).rxCh.toNat < u.cfg.nch ∧ (u.node 1).txCh.toNat < u.cfg.nch ∧
    (u.node 1).rxCh ≠ (u.node 1).txCh ∧ (∀ off, u.isWritten off = true) ∧
    (openState.node 0).rxCh.toNat < openState.cfg.nch ∧ (openState.node 0).txCh.toNat < openState.cfg.nch ∧
    (∀ off, openState.isWritten off = true) :=
  ⟨ready (by decide +kernel), ready (by decide +kernel), by decide +kernel⟩

theorem witness_StartEnablesTheNode_unlocked :
    (syncOnBus 0).Ready (.host 0) (.chStart 1) ∧ (syncOnBus 1).Ready (.host 0) (.chStart 1) ∧
    (((syncOnBus 0).node 1).nm = none ∧ ((syncOnBus 0).node 1).lstate = .stopped ∧ (syncOnBus 0).Still ∧
      (syncOnBus 0).lock ≠ some (.host 0) ∧ (syncOnBus 0).cfg.nodeType 1 = .sync) ∧
    (syncOnBus 0).bstat.getLsbD 0 = false ∧ (syncOnBus 1).bstat.getLsbD 0 = true ∧
    (syncOnBus 1).bstat.getLsbD 1 = false :=
  ⟨ready (by decide +kernel), ready (by decide +kernel), by decide +kernel⟩

theorem witness_StopDisablesTheNode :
    startedState.Ready (.host 0) (.chStop 0) ∧ (startedState.TableReady ∧ (startedState.node 0).nm = none ∧
    (startedState.node 0).lstate = .started) ∧
    ∀ ns, startedState.isWritten (catOff ns (startedState.node 0).rxCh) = true ∧
      startedState.isWritten (catOff ns (startedState.node 0).txCh) = true :=
  ⟨ready (by decide +kernel), by decide +kernel, forall_ns (by decide +kernel)⟩

/-- Node 0 while host thread 1 opens it: Configuring, its mutex held (R249). -/
def openingState : State := onNode openState 0 (fun x => { x with lstate := .configuring, nm := some (.host 1) })

/-- The commands that ask for an open node and take no lifecycle mutex. -/
def openOnly : List Instr := [.chWrite 0, .chGetExceptions 0, .chPollReadiness 0]

theorem witness_CommandsCheckTheLifecycle_ready :
    (∀ i ∈ [Instr.chStart 0], startedState.Ready (.host 0) i) ∧
    (∀ i ∈ [Instr.chStop 0, .chSetChannelAddresses 0], openState.Ready (.host 0) i) ∧
    (∀ i ∈ Instr.chClose 0 :: openOnly, State.reset.Ready (.host 0) i) ∧
    ∀ i ∈ openOnly, openingState.Ready (.host 0) i := by
  refine ⟨ready_each ?_, ready_each ?_, ready_each ?_, ready_each ?_⟩ <;> decide +kernel

theorem witness_CommandsCheckTheLifecycle :
    (startedState.Still ∧ (startedState.node 0).lstate = .started ∧ startedState.lock ≠ some (.host 0) ∧
      (startedState.node 0).nm = none) ∧
    (openState.Still ∧ (openState.node 0).lstate = .configured) ∧
    (State.reset.Still ∧ State.reset.lock ≠ some (.host 0) ∧ (State.reset.node 0).nm = none ∧
      (State.reset.node 0).lstate = .closed ∧ (State.reset.node 0).refcnt = 0) ∧
    openingState.Still ∧ (openingState.node 0).lstate = .configuring ∧
    (openingState.node 0).nm = some (.host 1) := by decide +kernel

theorem witness_WriteArmsTheFrame :
    let s := openState.putRow 0x41 0x00010808003F003F0000400000003000
    s.Ready (.host 0) (.chWrite 0) ∧ s.TableReady ∧ memWf s.mem ∧ (s.node 0).lstate ≠ .closed ∧
    (s.node 0).lstate ≠ .configuring ∧ 1 ≤ (s.ctx (.host 0)).op[1].toNat ∧
    (s.ctx (.host 0)).op[1].toNat ≤ s.cfg.depth 0 ∧
    wraps (s.ctx (.host 0)).op[0] (s.ctx (.host 0)).op[1].toNat = false ∧ (s.node 0).txBusy = false ∧
    (s.node 0).txCh.toNat < s.cfg.nch ∧ s.isWritten (adtOff (s.node 0).txCh) = true ∧
    rdyOf (s.row (adtOff (s.node 0).txCh)) (s.sw (s.node 0).txCh) = false ∧
    wraps (addrOf (s.row (adtOff (s.node 0).txCh)) (s.sw (s.node 0).txCh)) (s.ctx (.host 0)).op[1].toNat = false :=
  ⟨ready (by decide +kernel), by decide +kernel⟩

/-- CH.WRITE of no byte, of 65 bytes and past 2^32. -/
theorem witness_WriteArmsTheFrame_operands :
    let s (src len : Word) := onNode (allWritten (withOps src len 0 0)) 0 opened
    (s 0 0).Ready (.host 0) (.chWrite 0) ∧ (s 0 65).Ready (.host 0) (.chWrite 0) ∧
    (s 0xFFFFFFC1 64).Ready (.host 0) (.chWrite 0) ∧
    (s 0 0).Still ∧ (s 0 0).cfg.depth 0 = 64 ∧ ((s 0 0).node 0).lstate = .configured ∧
    wraps ((s 0xFFFFFFC1 64).ctx (.host 0)).op[0] 64 = true :=
  ⟨ready (by decide +kernel), ready (by decide +kernel), ready (by decide +kernel), by decide +kernel⟩

/-- CH.WRITE with a transmit half that is ready, and with one that passes 2^32. -/
theorem witness_WriteArmsTheFrame_half :
    let d := openState.putRow 0x41 0x00010809003F003F0000400000003000
    let w := openState.putRow 0x41 0x00010808003F003F00004000FFFFFFC4
    d.Ready (.host 0) (.chWrite 0) ∧ w.Ready (.host 0) (.chWrite 0) ∧
    (d.TableReady ∧ (d.node 0).txBusy = false ∧ (d.node 0).txCh = 1 ∧ d.isWritten (adtOff 1) = true ∧
      d.sw 1 = .ping ∧ rdyOf (d.row (adtOff 1)) .ping = true) ∧
    w.TableReady ∧ (w.ctx (.host 0)).op[1] = 64 ∧ rdyOf (w.row (adtOff 1)) .ping = false ∧
    wraps (addrOf (w.row (adtOff 1)) .ping) 64 = true :=
  ⟨ready (by decide +kernel), ready (by decide +kernel), by decide +kernel⟩

theorem witness_WriteWaitsWhileBusy :
    let s := onNode openState 0 (fun x => { x with txBusy := true })
    s.Ready (.host 0) (.chWrite 0) ∧ s.Still ∧ s.lock = none ∧ (s.node 0).lstate ≠ .closed ∧
    (s.node 0).lstate ≠ .configuring ∧ 1 ≤ (s.ctx (.host 0)).op[1].toNat ∧
    (s.ctx (.host 0)).op[1].toNat ≤ s.cfg.depth 0 ∧
    wraps (s.ctx (.host 0)).op[0] (s.ctx (.host 0)).op[1].toNat = false ∧ (s.node 0).txBusy = true ∧
    (s.ctx (.host 0)).woken = false :=
  ⟨ready (by decide +kernel), by decide +kernel⟩

theorem witness_QueriesAnswerFromTheNode :
    openState.Ready (.host 0) (.chGetExceptions 0) ∧ openState.Ready (.host 0) (.chPollReadiness 0) ∧
    openState.Still ∧ (openState.node 0).lstate ≠ .closed ∧ (openState.node 0).lstate ≠ .configuring ∧
    (openState.node 0).ring = some (Ring.new 10) :=
  ⟨ready (by decide +kernel), ready (by decide +kernel), by decide +kernel⟩

theorem witness_SetChannelAddressesChecksThePair :
    (withOps 63 62 0 0).Ready (.host 0) (.chSetChannelAddresses 0) ∧
    (withOps 64 62 0 0).Ready (.host 0) (.chSetChannelAddresses 0) ∧ (withOps 63 62 0 0).Still ∧
    (withOps 63 62 0 0).lock ≠ some (.host 0) ∧ ((withOps 63 62 0 0).node 0).nm = none ∧
    ((withOps 63 62 0 0).node 0).lstate = .closed ∧ (withOps 63 62 0 0).cfg.nch ≤ 64 ∧
    (withOps 64 62 0 0).cfg.nch ≤ ((withOps 64 62 0 0).ctx (.host 0)).op[0].toNat ∧
    ((withOps 63 62 0 0).ctx (.host 0)).op[0].toNat < (withOps 63 62 0 0).cfg.nch ∧
    ((withOps 63 62 0 0).ctx (.host 0)).op[0] ≠ ((withOps 63 62 0 0).ctx (.host 0)).op[1] ∧
    ((withOps 63 62 0 0).node 1).rxCh = 2 ∧ ((withOps 63 62 0 0).node 1).txCh = 3 :=
  ⟨ready (by decide +kernel), ready (by decide +kernel), by decide +kernel⟩

theorem witness_ConfigurationCallsAccessTheirRegisters :
    State.reset.Ready (.host 0) .setBusClockClass ∧ State.reset.Ready (.host 0) .setDeviceBusAddress ∧
    State.reset.Ready (.host 0) .getProtocolVersion ∧ State.reset.Still :=
  ⟨ready (by decide +kernel), ready (by decide +kernel), ready (by decide +kernel), by decide +kernel⟩

/-! ### Dispatchers -/

theorem witness_HostDispatchServesTransmitCompletions :
    let s : State := { startedState with cur := .hd, hcSts := 0x12, hcMsk := 0x12, hcErr := 0x10 }
    let sts := s.hcSts &&& s.hcMsk
    s.Ready .hd .irqHostDispatch ∧ s.Still ∧ s.cfg.ok = true ∧ s.hcSts &&& ~~~validChans s.cfg = 0 ∧
    (∀ n m : NodeNo, n.toNat < s.cfg.nnodes → m.toNat < s.cfg.nnodes → (s.node n).txCh = (s.node m).txCh → n = m) ∧
    (∀ n : NodeNo, n.toNat < s.cfg.nnodes → (s.node n).lstate = .started → sts.getLsbD (s.node n).rxCh.toNat = true → s.hcErr.getLsbD (s.node n).rxCh.toNat = true) ∧
    (s.node 0).lstate = .started ∧ sts.getLsbD (s.node 0).txCh.toNat = true ∧
    s.hcErr.getLsbD (s.node 0).txCh.toNat = false :=
  ⟨ready (by decide +kernel), by decide +kernel⟩

theorem witness_HostDispatchServesAReceiveCompletion :
    let s : State := { startedState.putRow 0x40 0x0001080A003F003F0000200000001000 with
      cur := .hd, hcSts := 1, hcMsk := 1 }
    let row := s.row (adtOff (s.node 0).rxCh)
    s.Ready .hd .irqHostDispatch ∧ s.TableReady ∧ s.cfg.ok = true ∧ (0 : NodeNo).toNat < s.cfg.nnodes ∧
    (s.node 0).lstate = .started ∧ (s.node 0).rxCh.toNat < s.cfg.nch ∧
    (∀ m : NodeNo, m.toNat < s.cfg.nnodes → (s.node m).rxCh = (s.node 0).rxCh → m = 0) ∧
    s.hcSts &&& s.hcMsk = chanBit (s.node 0).rxCh ∧ s.hcErr.getLsbD (s.node 0).rxCh.toNat = false ∧
    (s.node 0).ring = some (Ring.new 10) ∧ s.isWritten (adtOff (s.node 0).rxCh) = true ∧
    completed (bits row 96 32) (s.sw (s.node 0).rxCh) = some .ping ∧ errOf row .ping = false ∧
    rdyOf row .ping = false ∧ aligned (addrOf row .ping) = true ∧
    wraps (addrOf row .ping) (s.cfg.slot 0) = false ∧
    wraps (addrOf row .ping) (decodeDepth (bdOf row .ping)) = false :=
  ⟨ready (by decide +kernel), by decide +kernel⟩

theorem witness_BusDispatchPostsTheNibbles :
    let s : State := { openState.putRow 1 0x0002000000000000 with cur := .bd, busMsk := 0x8000000000000002 }
    s.Ready .bd .irqBusDispatch ∧ s.TableReady ∧ s.cfg.ok = true ∧
    (∀ ch : Chan, ch.toNat < s.cfg.nch → s.busMsk.getLsbD ch.toNat = true → s.isWritten (cdtOff ch) = true) ∧
    (∀ n m : NodeNo, (n.toNat < s.cfg.nnodes ∧ (s.node n).lstate ≠ .closed) → (m.toNat < s.cfg.nnodes ∧
      (s.node m).lstate ≠ .closed) → ((s.node n).rxCh = (s.node m).rxCh ∨ (s.node n).rxCh = (s.node m).txCh ∨ (s.node n).txCh = (s.node m).txCh) → n = m) :=
  ⟨ready (by decide +kernel), by decide +kernel⟩

end Sys2Proof.Tests
end

section
/-! PROOFS. The state (10_state.md): the values after reset (R70) and the two interrupt lines (R36). -/

namespace Sys2Proof.Machine

/-! ## Reset (R70) -/

@[simp] theorem node_resetOf (c : Params) (n : NodeNo) : (State.resetOf c).node n = Node.reset n.toNat := by
  simp [State.node, State.resetOf]

/-- The channel number 2n fits six bits while n is below 32. -/
theorem toNat_rxCh_nodeReset {n : Nat} (h : n < 32) : (Node.reset n).rxCh.toNat = 2 * n := by
  simp only [Node.reset, BitVec.toNat_ofNat]
  omega

theorem toNat_txCh_nodeReset {n : Nat} (h : n < 32) : (Node.reset n).txCh.toNat = 2 * n + 1 := by
  simp only [Node.reset, BitVec.toNat_ofNat]
  omega

/-- A thread at or above NHOST reads as a context after reset too. -/
@[simp] theorem ctx_host_resetOf (c : Params) (k : Nat) : (State.resetOf c).ctx (.host k) = Ctx.reset := by
  simp only [State.ctx, State.resetOf, List.getD_eq_getElem?_getD, List.getElem?_replicate]
  split <;> rfl

@[simp] theorem resRead_reset (i : Fin 4) : Ctx.reset.resRead i = none := by
  simp [Ctx.resRead, Ctx.reset]

/-- NCH is at most 64 and every node has two channels of its own (R8), so there are at most 32 nodes. -/
theorem nnodes_le_of_ok {c : Params} (h : c.ok = true) : c.nnodes ≤ 32 := by
  simp only [Params.ok, Bool.and_eq_true, decide_eq_true_eq] at h
  omega

/-- The machine with any parameters R8 admits holds the values of R70 after reset. -/
theorem atReset_resetOf {c : Params} (h : c.ok = true) : (State.resetOf c).AtReset where
  window := ⟨fun i => by simp [State.readReg, State.resetOf], rfl, rfl, rfl⟩
  status := ⟨rfl, rfl⟩
  masks := ⟨rfl, rfl⟩
  config := ⟨rfl, rfl, rfl⟩
  rows := fun off => by simp [State.isWritten, State.resetOf]
  transaction := ⟨rfl, rfl⟩
  halves := fun ch => by simp [State.sw, State.hwh, State.prevArmed, State.resetOf]
  nodes := fun n hn => by
    have hlt : n.toNat < 32 := Nat.lt_of_lt_of_le hn (nnodes_le_of_ok h)
    rw [node_resetOf]
    exact ⟨rfl, rfl, toNat_rxCh_nodeReset hlt, toNat_txCh_nodeReset hlt, rfl, rfl, rfl, rfl, rfl, rfl⟩
  lock := rfl
  log := rfl
  fault := rfl
  threads := List.length_replicate
  contexts := fun k => by
    rw [ctx_host_resetOf]
    exact ⟨rfl, rfl, resRead_reset⟩

/-- Settles O8: the default parameters are ones R8 admits. -/
theorem resetHoldsTheSpecValues : Obligations.ResetHoldsTheSpecValues :=
  atReset_resetOf (c := Params.default) (by decide)

/-! ## The interrupt lines (R36) -/

/-- Bit `k` of the channels below NCH. -/
theorem getLsbD_validChans (c : Params) (k : Nat) :
    (validChans c).getLsbD k = (decide (k < 64) && decide (k < c.nch)) := by
  simp [validChans, BitVec.getLsbD_ofNat, Nat.testBit_two_pow_sub_one]

/-- A channel set without bits at or above NCH names channels of the engine only (R35). -/
theorem lt_nch_of_getLsbD {c : Params} {v : ChanSet} {k : Nat} (h : v &&& ~~~validChans c = 0)
    (hk : v.getLsbD k = true) : k < c.nch := by
  have hlt : k < 64 := BitVec.lt_of_getLsbD hk
  have hbit : (v &&& ~~~validChans c).getLsbD k = false := by simp [h]
  simp only [BitVec.getLsbD_and, BitVec.getLsbD_not, getLsbD_validChans, hk, hlt] at hbit
  simpa using hbit

/-- A set is not empty when some bit of it is 1. -/
theorem chanSet_ne_zero_iff (v : ChanSet) : v ≠ 0 ↔ ∃ k, v.getLsbD k = true := by
  refine ⟨fun h => ⟨_, BitVec.getLsbD_true_ctz_of_ne_zero h⟩, ?_⟩
  rintro ⟨k, hk⟩ rfl
  simp at hk

/-- HIRQ is 1 exactly when a channel is pending and unmasked. -/
theorem hirq_iff (s : State) :
    s.hirq = true ↔ ∃ k, s.hcSts.getLsbD k = true ∧ s.hcMsk.getLsbD k = true := by
  rw [State.hirq, decide_eq_true_iff, chanSet_ne_zero_iff]
  simp only [BitVec.getLsbD_and, Bool.and_eq_true]

/-- BIRQ is 1 exactly when an unmasked channel has a nonzero STS field: no mask bit lies outside the channels
the line is taken over. -/
theorem birq_iff {s : State} (h : s.busMsk &&& ~~~validChans s.cfg = 0) :
    s.birq = true ↔
      ∃ ch : Chan, stsOf (s.row (cdtOff ch)) ≠ 0 ∧ s.busMsk.getLsbD ch.toNat = true := by
  simp only [State.birq, List.any_eq_true, Bool.and_eq_true, decide_eq_true_eq, mem_chansOf]
  constructor
  · rintro ⟨ch, -, hmask, hsts⟩
    exact ⟨ch, hsts, hmask⟩
  · rintro ⟨ch, hsts, hmask⟩
    exact ⟨ch, lt_nch_of_getLsbD h hmask, hmask, hsts⟩

/-! ## A new context -/

theorem setCtx_setCtx (s : State) (a : Agent) (x y : Ctx) :
    (s.setCtx a x).setCtx a y = s.setCtx a y := by
  cases a with
  | host t => simp [State.setCtx]
  | hd => rfl
  | bd => rfl
  | hw => rfl

/-- All that a new context of an agent can move are the contexts. -/
theorem setCtx_frame (s : State) (a : Agent) (x : Ctx) :
    ∃ th h b, s.setCtx a x = { s with threads := th, hd := h, bd := b } := by
  cases a <;> exact ⟨_, _, _, rfl⟩

theorem keepsTable_setCtx (s : State) (a : Agent) (x : Ctx) : KeepsTable s (s.setCtx a x) := by
  obtain ⟨_, _, _, e⟩ := setCtx_frame s a x
  rw [e]
  exact ⟨fun _ _ => ⟨rfl, rfl⟩, ⟨rfl, rfl, rfl, rfl, rfl⟩, rfl, rfl⟩

theorem keepsSoft_setCtx (s : State) (a : Agent) (x : Ctx) : KeepsSoft [] [] s (s.setCtx a x) := by
  obtain ⟨_, _, _, e⟩ := setCtx_frame s a x
  rw [e]
  exact ⟨⟨rfl, rfl⟩, ⟨rfl, rfl⟩, ⟨rfl, rfl⟩, fun _ _ => rfl, fun _ _ => rfl, rfl, fun _ => rfl⟩

theorem keepsEngine_setCtx (s : State) (a : Agent) (x : Ctx) : KeepsEngine s (s.setCtx a x) :=
  ⟨setCtx_cfg s a x, setCtx_bstat s a x, setCtx_lock s a x, setCtx_fault s a x⟩

theorem hirq_setCtx (s : State) (a : Agent) (x : Ctx) : (s.setCtx a x).hirq = s.hirq := by
  obtain ⟨_, _, _, e⟩ := setCtx_frame s a x
  rw [e]
  rfl

theorem birq_setCtx (s : State) (a : Agent) (x : Ctx) : (s.setCtx a x).birq = s.birq := by
  obtain ⟨_, _, _, e⟩ := setCtx_frame s a x
  rw [e]
  rfl

/-! ## Beginning an invocation (R290) -/

/-- A context that has begun the command `i`: its word in CMD, none of its atomic steps taken. -/
def Ctx.begin (x : Ctx) (i : Instr) : Ctx :=
  { x with cmd := encode i, task := some { instr := i, looping := false, hist := [] } }

/-- An agent whose CMD holds the word of a command that passes the checks of R124 begins that command. -/
theorem beginCmd_encode {s : State} {a : Agent} {i : Instr} (ha : s.has a)
    (hdec : decode (encode i) = .ok i) (hchk : entryFault s.cfg i a = none) :
    (s.setCtx a { s.ctx a with cmd := encode i }).beginCmd a = s.setCtx a ((s.ctx a).begin i) := by
  simp only [State.beginCmd, ctx_setCtx_same s _ ha, hdec, setCtx_cfg, hchk, setCtx_setCtx, Ctx.begin]

/-- The event by which an idle host dispatcher begins: nothing while HIRQ is 0. -/
theorem event_irq_host {s : State} (hs : s.safe) (hidle : s.busy .hd = false) :
    s.event (.irq false) = if s.hirq then s.setCtx .hd ((s.ctx .hd).begin .irqHostDispatch) else s := by
  have e := beginCmd_encode (s := s) (a := .hd) (i := .irqHostDispatch) trivial (by decide) rfl
  simp [State.event, State.beginIrq, hs, hidle, e]

/-- The event by which an idle bus dispatcher begins: nothing while BIRQ is 0. -/
theorem event_irq_bus {s : State} (hs : s.safe) (hidle : s.busy .bd = false) :
    s.event (.irq true) = if s.birq then s.setCtx .bd ((s.ctx .bd).begin .irqBusDispatch) else s := by
  have e := beginCmd_encode (s := s) (a := .bd) (i := .irqBusDispatch) trivial (by decide) rfl
  simp [State.event, State.beginIrq, hs, hidle, e]

/-- A dispatcher that begins the command `i` while `line` is 1, and only then: its task and its CMD are those of
`i`; every other context, the table, the registers and both lines are as before. -/
theorem begins_while_line {s t : State} {a : Agent} {i : Instr} {line : Bool} (ha : s.has a)
    (ht : t = if line then s.setCtx a ((s.ctx a).begin i) else s) :
    (line = true → (t.ctx a).task = some { instr := i, looping := false, hist := [] } ∧
      (t.ctx a).cmd = encode i ∧ KeepsOthers a s t ∧ KeepsTable s t ∧ KeepsSoft [] [] s t ∧
      KeepsEngine s t ∧ t.hirq = s.hirq ∧ t.birq = s.birq) ∧
    (line = false → t = s) := by
  subst ht
  cases line with
  | false => exact ⟨nofun, fun _ => rfl⟩
  | true =>
    refine ⟨fun _ => ?_, nofun⟩
    rw [if_pos rfl]
    have hctx : (s.setCtx a ((s.ctx a).begin i)).ctx a = (s.ctx a).begin i := ctx_setCtx_same s _ ha
    exact ⟨congrArg Ctx.task hctx, congrArg Ctx.cmd hctx, fun b hb => ctx_setCtx_other s _ hb,
      keepsTable_setCtx s a _, keepsSoft_setCtx s a _, keepsEngine_setCtx s a _,
      hirq_setCtx s a _, birq_setCtx s a _⟩

/-- Settles O14: what makes each line 1, then each dispatcher's event. -/
theorem interruptLinesAreDerived : Obligations.InterruptLinesAreDerived := by
  intro s hmask
  refine ⟨hirq_iff s, birq_iff hmask, fun hs bus => ?_⟩
  cases bus with
  | false => exact fun hidle => begins_while_line (a := .hd) trivial (event_irq_host hs hidle)
  | true => exact fun hidle => begins_while_line (a := .bd) trivial (event_irq_bus hs hidle)

end Sys2Proof.Machine
end

section
/-! PROOFS. The CAT Manager (42_cat.md): the namespace truth table (R190). -/

namespace Sys2Proof.Machine

/-! ## The bits of a direction and of a DMA mode (R13) -/

@[simp] theorem code_dirOf (b : BitVec 1) : (dirOf b).code = b := by
  obtain rfl | rfl := b.eq_zero_or_eq_one
  · rfl
  · rfl

@[simp] theorem code_dmaOf (b : BitVec 1) : (dmaOf b).code = b := by
  obtain rfl | rfl := b.eq_zero_or_eq_one
  · rfl
  · rfl

/-! ## The namespace of an entry -/

theorem nsFor_eq_ite_code (dir : Dir) (dma : Dma) :
    nsFor dir dma = if dir.code = dma.code then .bus else .host := by
  cases dir with
  | rx => cases dma with
    | inbound => rfl
    | outbound => rfl
  | tx => cases dma with
    | inbound => rfl
    | outbound => rfl

/-- The two entries of a receive channel. -/
theorem nsFor_rx_iff (ns : Ns) (dma : Dma) :
    nsFor .rx dma = ns ↔ (ns, dma) = (.bus, .inbound) ∨ (ns, dma) = (.host, .outbound) := by
  cases dma with
  | inbound => simp [nsFor, eq_comm]
  | outbound => simp [nsFor, eq_comm]

/-- The two entries of a transmit channel. -/
theorem nsFor_tx_iff (ns : Ns) (dma : Dma) :
    nsFor .tx dma = ns ↔ (ns, dma) = (.bus, .outbound) ∨ (ns, dma) = (.host, .inbound) := by
  cases dma with
  | inbound => simp [nsFor, eq_comm]
  | outbound => simp [nsFor, eq_comm]

/-- Settles O27: the table by its four cases, and each bit is the code of the field decoded from it. -/
theorem namespaceFollowsTheTruthTable : Obligations.NamespaceFollowsTheTruthTable :=
  ⟨⟨rfl, rfl, rfl, rfl⟩, nsFor_eq_ite_code,
    fun ns dma => ⟨nsFor_rx_iff ns dma, nsFor_tx_iff ns dma⟩,
    fun b => ⟨⟨dirOf b, code_dirOf b⟩, ⟨dmaOf b, code_dmaOf b⟩⟩⟩

end Sys2Proof.Machine
end

section
/-! PROOFS. The command word (30_encoding.md): `decode` and `encode` are inverse to each other. -/

namespace Sys2Proof.Machine

open Sys2Proof.Laws.OpcodeField (opcode)

/-! ## The codes of the operand enumerations (R13, R43) -/

@[simp] theorem typeOf_code (ty : ChType) : typeOf ty.code = ty := by cases ty <;> rfl
@[simp] theorem dirOf_code (d : Dir) : dirOf d.code = d := by cases d <;> rfl
@[simp] theorem dmaOf_code (d : Dma) : dmaOf d.code = d := by cases d <;> rfl
@[simp] theorem nsOf_code (ns : Ns) : nsOf ns.code = ns := by cases ns <;> rfl

@[simp] theorem code_typeOf (v : BitVec 2) : (typeOf v).code = v := by revert v; decide
@[simp] theorem code_nsOf (v : BitVec 1) : (nsOf v).code = v := by revert v; decide

@[simp] theorem ofBool_beq_one (b : Bool) : (BitVec.ofBool b == 1#1) = b := by cases b <;> rfl
@[simp] theorem ofBool_of_beq_one (v : BitVec 1) : BitVec.ofBool (v == 1#1) = v := by revert v; decide

/-! ## Reserved fields (R111) -/

/-- A format's command is taken exactly when its reserved fields are 0. -/
theorem ifClear_eq_ok_iff {w : Word} {reserved : List (Nat × Nat)} {mnemonic : String} {i j : Instr} :
    ifClear w reserved mnemonic i = .ok j ↔ (∀ f ∈ reserved, bits w f.1 f.2 = 0#f.2) ∧ i = j := by
  unfold ifClear
  split
  · next h => simpa using fun _ => h
  · next h => simpa using fun h' => absurd (by simpa using h') h

/-- C[31:26] of a command's word is the opcode of the map (R123). -/
theorem bits_encode_opcode (i : Instr) : bits (encode i) 26 6 = opcode i := by
  cases i
  case rpWriteRow => exact Laws.OpcodeField.rpWriteRow _
  case rpReadRow => exact Laws.OpcodeField.rpReadRow _
  case rpCatWrite => exact Laws.OpcodeField.rpCatWrite ..
  case cdtInit => exact Laws.OpcodeField.cdtInit ..
  case cdtResetAll => exact Laws.OpcodeField.cdtResetAll
  case cdtClearSts => exact Laws.OpcodeField.cdtClearSts ..
  case catInit => exact Laws.OpcodeField.catInit ..
  case catResetAll => exact Laws.OpcodeField.catResetAll
  case catUnmuteSync => exact Laws.OpcodeField.catUnmuteSync ..
  case adtInit => exact Laws.OpcodeField.adtInit ..
  case adtRearm => exact Laws.OpcodeField.adtRearm _
  case rbTryEnqueue => exact Laws.OpcodeField.rbTryEnqueue _
  case rbDequeue => exact Laws.OpcodeField.rbDequeue ..
  case chOpen => exact Laws.OpcodeField.chOpen _
  case chClose => exact Laws.OpcodeField.chClose _
  case chStart => exact Laws.OpcodeField.chStart _
  case chStop => exact Laws.OpcodeField.chStop _
  case chWrite => exact Laws.OpcodeField.chWrite _
  case chGetExceptions => exact Laws.OpcodeField.chGetExceptions _
  case chSetChannelAddresses => exact Laws.OpcodeField.chSetChannelAddresses _
  case chPollReadiness => exact Laws.OpcodeField.chPollReadiness _
  case setBusClockClass => exact Laws.OpcodeField.setBusClockClass
  case setDeviceBusAddress => exact Laws.OpcodeField.setDeviceBusAddress
  case getProtocolVersion => exact Laws.OpcodeField.getProtocolVersion
  case irqHostDispatch => exact Laws.OpcodeField.irqHostDispatch
  case irqBusDispatch => exact Laws.OpcodeField.irqBusDispatch

/-- Settles O1: the opcode picks the format's line of the decoder; its reserved fields are 0 in the encoded word
and its operand fields are the operands. -/
theorem decodeOfEncodeIsTheCommand : Obligations.DecodeOfEncodeIsTheCommand := by
  intro i
  have hopc := bits_encode_opcode i
  cases i
  all_goals
    unfold decode
    rw [hopc]
    refine ifClear_eq_ok_iff.mpr ⟨?_, ?_⟩
    · simp (disch := omega) only [List.forall_mem_cons, encode, wordA, wordGlob, bits_append_low,
        bits_append_high, bits_whole]
      simp
    · simp (disch := omega) only [encode, wordA, bits_append_low, bits_append_high, bits_whole, typeOf_code,
        dirOf_code, dmaOf_code, nsOf_code, ofBool_beq_one, Nat.reduceSub, BitVec.ofNat_eq_ofNat]

/-! ## The word of its fields -/

theorem eq_ofNat_of_toNat_eq {n k : Nat} {v : BitVec n} (h : v.toNat = k) : v = BitVec.ofNat n k := by
  rw [← h, BitVec.ofNat_toNat, BitVec.setWidth_eq]

/-- Settles O2: the line of the decoder that took the word names every field of it, and put side by side the
fields are the word. -/
theorem encodeOfDecodeIsTheWord : Obligations.EncodeOfDecodeIsTheWord := by
  intro w i h
  unfold decode at h
  split at h
  case h_27 => exact nomatch h
  all_goals
    rename_i hopc
    have hopc := eq_ofNat_of_toNat_eq hopc
    obtain ⟨hres, rfl⟩ := ifClear_eq_ok_iff.mp h
    simp only [List.forall_mem_cons] at hres
    simp only [encode, wordA, wordGlob, code_typeOf, code_dirOf, code_dmaOf, code_nsOf,
      BitVec.ofNat_eq_ofNat, ofBool_of_beq_one, ← hopc, ← hres]
    simp (disch := rfl) only [BitVec.extractLsb'_append_extractLsb'_eq_extractLsb']
    exact bits_whole w

/-- Settles O3: each word is evaluated. -/
theorem specWordsDecode : Obligations.SpecWordsDecode := by
  unfold Obligations.SpecWordsDecode
  decide

end Sys2Proof.Machine
end

section
/-! PROOFS. What is left alone, part by part: the parts of the state that the statements about commands and
hardware steps keep together, each as one value, so that what an update keeps is one equation. -/

namespace Sys2Proof.Machine

variable {s t u : State}

/-! ## The parts -/

/-- What `KeepsSoft` is about: the status, mask and configuration registers, software's cursors, the nodes,
LOGCNT and host memory. -/
def State.softPart (s : State) :=
  (s.hcSts, s.hcErr, s.hcMsk, s.busMsk, s.busClkClass, s.devAddr, s.swHalf, s.nodes, s.logcnt, s.mem)

/-- What `KeepsTable` is about: the table RAM, the window, the transaction unit and the arming state. -/
def State.tablePart (s : State) :=
  (s.rows, s.written, s.dat, s.adr, s.ctl, s.txPending, s.txPerformed, s.hwHalf, s.armedPrev)

/-- What `KeepsEngine` is about. -/
def State.enginePart (s : State) := (s.cfg, s.bstat, s.lock, s.fault)

/-- The contexts. -/
def State.contexts (s : State) := (s.threads, s.hd, s.bd)

theorem keepsSoft_of_softPart {chs : List Chan} {ns : List NodeNo} (e : t.softPart = s.softPart) :
    KeepsSoft chs ns s t := by
  simp only [State.softPart, Prod.mk.injEq] at e
  obtain ⟨h1, h2, h3, h4, h5, h6, h7, h8, h9, h10⟩ := e
  exact ⟨⟨h1, h2⟩, ⟨h3, h4⟩, ⟨h5, h6⟩, fun ch _ => by simp only [State.sw, h7],
    fun n _ => by simp only [State.node, h8], h9, fun x => by rw [h10]⟩

theorem keepsTable_of_tablePart (e : t.tablePart = s.tablePart) : KeepsTable s t := by
  simp only [State.tablePart, Prod.mk.injEq] at e
  obtain ⟨h1, h2, h3, h4, h5, h6, h7, h8, h9⟩ := e
  exact ⟨fun off _ => ⟨by simp only [State.row, h1], by simp only [State.isWritten, h2]⟩,
    ⟨h3, h4, h5, h6, h7⟩, h8, h9⟩

theorem keepsEngine_of_enginePart (e : t.enginePart = s.enginePart) : KeepsEngine s t := by
  simp only [State.enginePart, Prod.mk.injEq] at e
  obtain ⟨h1, h2, h3, h4⟩ := e
  exact ⟨h1, h2, h3, h4⟩

theorem ctx_of_contexts (e : t.contexts = s.contexts) (a : Agent) : t.ctx a = s.ctx a := by
  simp only [State.contexts, Prod.mk.injEq] at e
  obtain ⟨h1, h2, h3⟩ := e
  exact ctx_congr h1 h2 h3 a

/-! ## The end of a command and a raise keep them -/

@[simp] theorem softPart_setCtx (s : State) (a : Agent) (x : Ctx) :
    (s.setCtx a x).softPart = s.softPart := by simp [State.softPart]

@[simp] theorem tablePart_setCtx (s : State) (a : Agent) (x : Ctx) :
    (s.setCtx a x).tablePart = s.tablePart := by simp [State.tablePart]

@[simp] theorem softPart_finish (s : State) (a : Agent) (r : Result) :
    (s.finish a r).softPart = s.softPart := by simp [State.softPart]

@[simp] theorem tablePart_finish (s : State) (a : Agent) (r : Result) :
    (s.finish a r).tablePart = s.tablePart := by simp [State.tablePart]

@[simp] theorem enginePart_finish (s : State) (a : Agent) (r : Result) :
    (s.finish a r).enginePart = s.enginePart := by simp [State.enginePart]

@[simp] theorem softPart_raise (s : State) (a : Agent) (f : FReason) :
    (s.raise a f).softPart = s.softPart := by simp [State.softPart]

@[simp] theorem tablePart_raise (s : State) (a : Agent) (f : FReason) :
    (s.raise a f).tablePart = s.tablePart := by simp [State.tablePart]

@[simp] theorem softPart_suspend (s : State) (a : Agent) (k : Task) :
    (s.suspend a k).softPart = s.softPart := by simp [State.softPart]

@[simp] theorem tablePart_suspend (s : State) (a : Agent) (k : Task) :
    (s.suspend a k).tablePart = s.tablePart := by simp [State.tablePart]

@[simp] theorem enginePart_suspend (s : State) (a : Agent) (k : Task) :
    (s.suspend a k).enginePart = s.enginePart := by simp [State.enginePart]

end Sys2Proof.Machine
end

section
/-! PROOFS. The hardware side (47_hardware_agent.md). -/

namespace Sys2Proof.Machine

/-! ## What a hardware step can do -/

/-- The moves of the hardware side: what each step may make of the state (R310 to R316). -/
inductive HwMove (s : State) : HwStep → State → Prop
  /-- The step is not enabled. -/
  | idle (h) : HwMove s h s
  | write (off v) : s.txPending = some (.write off v) → s.txPerformed = false →
      HwMove s .perform { s.storeRow off v with txPerformed := true }
  | read (off) : s.txPending = some (.read off) → s.txPerformed = false → s.isWritten off = true →
      HwMove s .perform { s with dat := wordsOf (s.row off), txPerformed := true }
  | fault (h f) : HwMove s h (s.record .hw f)
  | signal : s.txPending.isSome = true → s.txPerformed = true → HwMove s .signal { s with ctl := 1 }
  | transmit (ch ok bytes) : s.xferEnabled ch = true → HwMove s (.xfer ch ok bytes) (s.xferDone ch ok)
  | receive (ch ok bytes) : s.xferEnabled ch = true →
      HwMove s (.xfer ch ok bytes) (State.xferDone
        { s with mem := memWriteBytes s.mem (addrOf (s.row (adtOff ch)) (s.hwh ch)).toNat bytes } ch ok)
  /-- RAISE and PROGRESS: a field within bits 48 to 53 of a CDT row. -/
  | cdt (h ch) {len : Nat} (lo) (x : BitVec len) : h ≠ .perform → 48 ≤ lo → lo + len ≤ 54 →
      HwMove s h (s.putRow (cdtOff ch) (setField (s.row (cdtOff ch)) lo x))
  | bus (c l) : (l = true → c = true) →
      HwMove s (.bus c l) { s with bstat := 0#30 ++ BitVec.ofBool l ++ BitVec.ofBool c }

theorem hwMove_perform (s : State) : HwMove s .perform s.perform := by
  unfold State.perform
  split
  · exact .idle _
  · next hn =>
    have hn : s.txPerformed = false := by simpa using hn
    split
    · exact .idle _
    · next off v hp => exact .write off v hp hn
    · next off hp =>
      split
      · next hw => exact .read off hp hn hw
      · exact .fault _ _

theorem hwMove_signal (s : State) : HwMove s .signal s.signalDone := by
  unfold State.signalDone
  split
  · next h =>
    simp only [Bool.and_eq_true] at h
    exact .signal h.1.1 h.1.2
  · exact .idle _

theorem hwMove_xfer (s : State) (ch : Chan) (ok : Bool) (bytes : List Byte) :
    HwMove s (.xfer ch ok bytes) (s.xfer ch ok bytes) := by
  unfold State.xfer
  split
  · exact .idle _
  · next h =>
    have h : s.xferEnabled ch = true := by simpa using h
    dsimp only
    split
    · exact .fault _ _
    · split
      · exact .transmit ch ok bytes h
      · split
        · exact .receive ch ok bytes h
        · exact .idle _

/-- Every step of the hardware side makes one of its moves. -/
theorem hwMove_hwStep (s : State) (h : HwStep) : HwMove s h (s.hwStep h) := by
  cases h with
  | perform => exact hwMove_perform s
  | signal => exact hwMove_signal s
  | xfer ch ok bytes => exact hwMove_xfer s ch ok bytes
  | raiseSts ch b =>
    simp only [State.hwStep, State.raiseSts]
    split
    · exact .cdt _ ch 48 _ nofun (by omega) (by omega)
    · exact .idle _
  | progress ch rdp wrp =>
    simp only [State.hwStep, State.progress]
    split
    · exact .cdt _ ch 52 _ nofun (by omega) (by omega)
    · exact .idle _
  | bus c l =>
    simp only [State.hwStep, State.busStep]
    split
    · exact .idle _
    · next h => exact .bus c l (by simpa using h)

/-- All that a transfer can move beside memory: the ADT row, the status registers and the hardware's cursor. -/
theorem xferDone_frame (s : State) (ch : Chan) (ok : Bool) :
    ∃ hw, s.xferDone ch ok = { s.putRow (adtOff ch) (xferRow (s.row (adtOff ch)) (s.hwh ch) ok) with
      hcErr := if ok then s.hcErr else s.hcErr ||| chanBit ch
      hcSts := s.hcSts ||| chanBit ch
      hwHalf := hw } := by
  unfold State.xferDone
  dsimp only
  split
  · exact ⟨_, rfl⟩
  · exact ⟨s.hwHalf, rfl⟩

end Sys2Proof.Machine
end

section
/-! PROOFS. The invariant (`State.Inv`): kept by every update of a part of the state, then by every part of a
step, hence by every step. -/

namespace Sys2Proof.Machine

variable {s : State}

/-! ## Channel sets within the engine (R35) -/

theorem within_and {v m : ChanSet} (w : ChanSet) (h : v &&& ~~~m = 0) : v &&& w &&& ~~~m = 0 := by
  rw [BitVec.and_assoc, BitVec.and_comm w, ← BitVec.and_assoc, h]
  exact BitVec.zero_and

theorem within_or {v w m : ChanSet} (hv : v &&& ~~~m = 0) (hw : w &&& ~~~m = 0) :
    (v ||| w) &&& ~~~m = 0 := by
  rw [BitVec.and_comm, BitVec.and_or_distrib_left, BitVec.and_comm, hv, BitVec.and_comm, hw, BitVec.or_self]

theorem within_self (w m : ChanSet) : w &&& m &&& ~~~m = 0 := by
  rw [BitVec.and_assoc, BitVec.and_not_self]
  exact BitVec.and_zero

theorem within_putChan {c : Params} {v : ChanSet} (ch : Chan) (b : Bool) (h : v &&& ~~~validChans c = 0) :
    putChan c v ch b &&& ~~~validChans c = 0 := by
  unfold putChan
  split
  · exact within_or h (within_self _ _)
  · exact within_and _ h

theorem within_putGroup {c : Params} {v : ChanSet} (g : Fin 2) (w : Word) (h : v &&& ~~~validChans c = 0) :
    putGroup c v g w &&& ~~~validChans c = 0 :=
  within_or (within_and _ h) (within_self _ _)

theorem getLsbD_chanBit (ch : Chan) (k : Nat) : (chanBit ch).getLsbD k = decide (k = ch.toNat) := by
  have := ch.isLt
  simp only [chanBit, BitVec.getLsbD_shiftLeft, BitVec.getLsbD_one]
  by_cases h : k = ch.toNat
  · simp [h]
    omega
  · simp [h]
    omega

/-- The bit of a channel below NCH. -/
theorem within_chanBit {c : Params} {ch : Chan} (h : ch.toNat < c.nch) : chanBit ch &&& ~~~validChans c = 0 := by
  refine BitVec.eq_of_getLsbD_eq fun k hk => ?_
  simp only [BitVec.getLsbD_and, BitVec.getLsbD_not, getLsbD_chanBit, getLsbD_validChans]
  by_cases hc : k = ch.toNat
  · subst hc
    simp [hk, h]
  · simp [hc]

/-! ## Rings (R49, R50) -/

/-- Every capacity is at least 2 (R8). -/
theorem two_le_cap_of_ok {c : Params} (h : c.ok = true) (n : NodeNo) : 2 ≤ c.cap n := by
  simp only [Params.ok, Bool.and_eq_true, decide_eq_true_eq] at h
  unfold Params.cap PerType.get
  split <;> omega

theorem Ring.Wf.new (cap size : Nat) (h : 0 < cap) : (Ring.new cap).Wf cap size where
  slots := List.length_replicate
  sizes b hb := by simp [Ring.new] at hb
  widx := h
  ridx := h

theorem Ring.Wf.enqueue {cap size : Nat} {r : Ring} {data : List Byte} (h : r.Wf cap size)
    (hd : data.length = size) : (r.enqueue cap data).1.Wf cap size := by
  have sizes : ∀ k b, some b ∈ r.slots.set k (some data) → b.length = size := by
    intro k b hb
    rcases List.mem_or_eq_of_mem_set hb with hb | hb
    · exact h.sizes b hb
    · injection hb with hb
      rw [hb, hd]
  unfold Ring.enqueue
  split
  · exact ⟨by simp [h.slots], sizes _, h.widx, h.ridx⟩
  · exact ⟨by simp [h.slots], sizes _, Nat.mod_lt _ (Nat.zero_lt_of_lt h.widx), h.ridx⟩

theorem Ring.Wf.dequeue {cap size : Nat} {r : Ring} (h : r.Wf cap size) : (r.dequeue cap).2.Wf cap size :=
  ⟨h.slots, h.sizes, h.widx, Nat.mod_lt _ (Nat.zero_lt_of_lt h.ridx)⟩

/-! ## Nodes -/

/-- What the invariant says of the state of node `n`. -/
structure Node.Ok (c : Params) (n : NodeNo) (x : Node) : Prop where
  rings : ∀ r, x.ring = some r → r.Wf (c.cap n) (c.slot n)
  buffers : x.ring.isSome = x.bufs.isSome
  mutex : ∀ a, x.nm = some a → softwareAgent c a
  consumer : ∀ a, x.consumer = some a → softwareAgent c a
  channels : n.toNat < c.nnodes → x.rxCh.toNat < c.nch ∧ x.txCh.toNat < c.nch ∧ x.rxCh ≠ x.txCh

theorem State.Inv.node (h : s.Inv) (n : NodeNo) : (s.node n).Ok s.cfg n :=
  ⟨h.rings n, h.buffers n, h.mutex n, h.consumer n, h.channels n⟩

theorem State.Inv.setNode (h : s.Inv) {n : NodeNo} {x : Node} (hx : x.Ok s.cfg n) : (s.setNode n x).Inv := by
  have hn : ∀ m, ((s.setNode n x).node m).Ok s.cfg m := by
    intro m
    rw [node_setNode]
    split
    · next e => exact e ▸ hx
    · exact h.node m
  exact { h with
    rings := fun m => (hn m).rings
    buffers := fun m => (hn m).buffers
    mutex := fun m => (hn m).mutex
    consumer := fun m => (hn m).consumer
    channels := fun m => (hn m).channels }

/-- A ring replaced by another of its shape. -/
theorem Node.Ok.withRing {c : Params} {n : NodeNo} {x : Node} {r r' : Ring} (h : x.Ok c n)
    (hr : x.ring = some r) (hw : r'.Wf (c.cap n) (c.slot n)) : Node.Ok c n { x with ring := some r' } :=
  { h with
    rings := fun q hq => by
      injection hq with hq
      exact hq ▸ hw
    buffers := by
      rw [← h.buffers, hr]
      rfl }

/-! ## Contexts, the record, host memory -/

theorem State.Inv.withThreads (h : s.Inv) {th : List Ctx} (hl : th.length = s.threads.length) :
    State.Inv { s with threads := th } :=
  { h with threads := hl.trans h.threads }

theorem State.Inv.notify (h : s.Inv) (p : Instr → Bool) : (s.notify p).Inv := by
  obtain ⟨th, e, hl, -⟩ := notify_frame s p
  exact e ▸ h.withThreads hl

theorem State.Inv.wakeAll (h : s.Inv) (n : NodeNo) : (s.wakeAll n).Inv := by
  obtain ⟨th, e, hl, -⟩ := wakeAll_frame s n
  exact e ▸ h.withThreads hl

/-- A new context whose RC, for a dispatcher, is the old one or a result code. -/
theorem State.Inv.setCtx (h : s.Inv) (a : Agent) (x : Ctx)
    (hx : (∃ t, a = .host t) ∨ x.rc = (s.ctx a).rc ∨ x.rc.toNat ≤ 10) : (s.setCtx a x).Inv := by
  obtain ⟨hd, bd⟩ := h.codes
  cases a with
  | host t => exact h.withThreads (List.length_set ..)
  | hd =>
    have code : x.rc.toNat ≤ 10 := by
      rcases hx with ⟨_, e⟩ | e | e
      · exact nomatch e
      · exact e ▸ hd
      · exact e
    exact { h with codes := ⟨code, bd⟩ }
  | bd =>
    have code : x.rc.toNat ≤ 10 := by
      rcases hx with ⟨_, e⟩ | e | e
      · exact nomatch e
      · exact e ▸ bd
      · exact e
    exact { h with codes := ⟨hd, code⟩ }
  | hw => exact h

theorem State.Inv.record_fault (h : s.Inv) (a : Agent) (f : FReason) : (s.record a f).Inv := by
  unfold State.record
  split
  · exact h
  · exact { h with record := ⟨rfl, rfl⟩ }

theorem State.Inv.memWrite (h : s.Inv) (a : Nat) (bs : List Byte) :
    State.Inv { s with mem := memWriteBytes s.mem a bs } :=
  { h with mem := memWf_memWriteBytes a bs h.mem }

/-! ## Reset -/

/-- Every parameter choice R8 admits gives nodes that meet the invariant after reset. -/
theorem nodeOk_reset {c : Params} (hc : c.ok = true) (n : NodeNo) : (Node.reset n.toNat).Ok c n where
  rings := nofun
  buffers := rfl
  mutex := nofun
  consumer := nofun
  channels hn := by
    have hlt : n.toNat < 32 := Nat.lt_of_lt_of_le hn (nnodes_le_of_ok hc)
    have hrx := toNat_rxCh_nodeReset hlt
    have htx := toNat_txCh_nodeReset hlt
    simp only [Params.ok, Bool.and_eq_true, decide_eq_true_eq] at hc
    refine ⟨by omega, by omega, fun e => ?_⟩
    rw [e, htx] at hrx
    omega

theorem inv_resetOf {c : Params} (hc : c.ok = true) : (State.resetOf c).Inv := by
  have hn (n : NodeNo) : ((State.resetOf c).node n).Ok c n := by
    rw [node_resetOf]
    exact nodeOk_reset hc n
  exact {
    cfg := hc
    mem := memWf_nil
    threads := List.length_replicate
    bstat := .inl rfl
    ctl := .inl rfl
    adr := BitVec.zero_and
    performed := nofun
    signalled := nofun
    hcSts := BitVec.zero_and
    hcErr := BitVec.zero_and
    hcMsk := BitVec.zero_and
    busMsk := BitVec.zero_and
    rings := fun n => (hn n).rings
    buffers := fun n => (hn n).buffers
    lock := nofun
    mutex := fun n => (hn n).mutex
    consumer := fun n => (hn n).consumer
    channels := fun n => (hn n).channels
    codes := ⟨Nat.zero_le _, Nat.zero_le _⟩
    record := ⟨rfl, rfl⟩ }

theorem State.Inv.engineReset (h : s.Inv) : s.engineReset.Inv :=
  { inv_resetOf h.cfg with mem := h.mem }

/-- Settles O10: the default parameters are ones R8 admits. -/
theorem resetMeetsTheInvariant : Obligations.ResetMeetsTheInvariant :=
  inv_resetOf (c := Params.default) (by decide)

/-! ## Hardware steps -/

theorem State.Inv.xferDone (h : s.Inv) {ch : Chan} (ok : Bool) (hch : ch.toNat < s.cfg.nch) :
    (s.xferDone ch ok).Inv := by
  obtain ⟨hw, e⟩ := xferDone_frame s ch ok
  rw [e]
  refine { h with
    hcErr := ?_
    hcSts := within_or h.hcSts (within_chanBit hch) }
  cases ok with
  | true => exact h.hcErr
  | false => exact within_or h.hcErr (within_chanBit hch)

theorem lt_nch_of_xferEnabled {ch : Chan} (h : s.xferEnabled ch = true) : ch.toNat < s.cfg.nch := by
  simp only [State.xferEnabled, Bool.and_eq_true, decide_eq_true_eq] at h
  exact h.1.1.1

/-- What BUS(c, l) writes with l at most c (R316). -/
theorem busWord_legal : ∀ c l : Bool, (l = true → c = true) →
    let w : Word := 0#30 ++ BitVec.ofBool l ++ BitVec.ofBool c
    w = 0 ∨ w = 1 ∨ w = 3 := by
  decide

theorem State.Inv.hwMove {t : State} {e : HwStep} (h : s.Inv) (m : HwMove s e t) : t.Inv := by
  cases m with
  | idle => exact h
  | write off v hp hn =>
    obtain ⟨hw, ap, e⟩ := storeRow_frame s off v
    rw [e]
    exact { h with
      performed := fun _ => by simp [hp]
      signalled := fun _ => rfl }
  | read off hp hn hw =>
    exact { h with
      performed := fun _ => by simp [hp]
      signalled := fun _ => rfl }
  | fault _ f => exact h.record_fault _ f
  | signal hp hd =>
    exact { h with
      ctl := .inr rfl
      signalled := fun _ => hd }
  | transmit ch ok bytes en => exact h.xferDone ok (lt_nch_of_xferEnabled en)
  | receive ch ok bytes en => exact (h.memWrite _ bytes).xferDone ok (lt_nch_of_xferEnabled en)
  | cdt => exact { h with }
  | bus c l hcl =>
    exact { h with bstat := busWord_legal c l hcl }

/-! ## Register writes -/

theorem State.Inv.writeReg (h : s.Inv) (r : Reg) (w : Word) : (s.writeReg r w).Inv := by
  cases r with
  | dat i => exact { h with }
  | adr =>
    exact { h with
      ctl := .inl rfl
      adr := by
        show w &&& adrMask &&& ~~~adrMask = 0
        rw [BitVec.and_assoc, BitVec.and_not_self]
        exact BitVec.and_zero
      performed := nofun
      signalled := nofun }
  | ctl =>
    unfold State.writeReg
    dsimp only
    split
    · exact h
    · exact { h with
        ctl := .inl rfl
        performed := nofun
        signalled := nofun }
  | bstat => exact h
  | hcSts g => exact { h with hcSts := within_and _ h.hcSts }
  | hcErr g => exact { h with hcErr := within_and _ h.hcErr }
  | hcMsk g => exact { h with hcMsk := within_putGroup g w h.hcMsk }
  | busMsk g => exact { h with busMsk := within_putGroup g w h.busMsk }
  | busClkClass => exact { h with }
  | devAddr => exact { h with }
  | version => exact h

/-! ## Atomic steps -/

/-- What the invariant asks of an atomic step: channel numbers given to a node are two of the engine's. -/
def Act.Sound (c : Params) : Act → Prop
  | .setChans _ rx tx => c.ok = true → rx.toNat < c.nch ∧ tx.toNat < c.nch ∧ rx ≠ tx
  | _ => True

theorem inv_actAllocate (h : s.Inv) (n : NodeNo) : (actAllocate n s).state.Inv := by
  have he : ∀ e, State.Inv { s with env := e } := fun e => { h with }
  unfold actAllocate
  dsimp only
  split
  · exact he _
  · refine (he _).setNode { h.node n with
      rings := ?_
      buffers := rfl }
    intro r hr
    injection hr with hr
    exact hr ▸ Ring.Wf.new _ _ (Nat.lt_of_lt_of_le Nat.zero_lt_two (two_le_cap_of_ok h.cfg n))

theorem inv_actWait (h : s.Inv) (a : Agent) (ready : Bool) : (actWait a ready s).state.Inv := by
  have hx : ∀ x : Ctx, x.rc = (s.ctx a).rc → (s.setCtx a x).Inv := fun x e => h.setCtx a x (.inr (.inl e))
  unfold actWait
  dsimp only
  split
  · exact h
  · split
    · split
      · exact h
      · exact hx _ rfl
    · split
      · exact hx _ rfl
      · split
        · exact hx _ rfl
        · exact hx _ rfl

theorem inv_actEnqueue (h : s.Inv) (n : NodeNo) (b : Word) : (actEnqueue n b s).state.Inv := by
  unfold actEnqueue
  split
  · exact h
  · next r hr =>
    split
    · exact h
    · have hw : (s.setNode n _).Inv :=
        h.setNode ((h.node n).withRing hr ((h.rings n r hr).enqueue (length_memReadBytes s.mem b.toNat _)))
      show State.Inv (if _ then _ else _)
      split
      · exact hw
      · exact hw.notify _

theorem inv_actDeqTake (h : s.Inv) (n : NodeNo) (dst : Word) : (actDeqTake n dst s).state.Inv := by
  unfold actDeqTake
  split
  · exact h
  · next r hr =>
    split
    · exact h
    · have hw : (s.setNode n { s.node n with ring := some (r.dequeue (s.cfg.cap n)).2 }).Inv :=
        h.setNode ((h.node n).withRing hr (h.rings n r hr).dequeue)
      dsimp only
      split
      · exact hw.memWrite _ _
      · exact { hw.memWrite _ _ with }

theorem inv_actPostExc (h : s.Inv) (ch : Chan) (x : BitVec 4) : (actPostExc ch x s).state.Inv := by
  unfold actPostExc
  split
  · exact h.setNode { h.node _ with }
  · exact { h with }

/-- Every atomic step of a software agent keeps the invariant. -/
theorem State.Inv.apply (h : s.Inv) {a : Agent} {d : Act} (ha : softwareAgent s.cfg a) (hd : d.Sound s.cfg) :
    (Act.apply a s d).state.Inv := by
  have node : ∀ {n : NodeNo} {x : Node}, x.Ok s.cfg n → (s.setNode n x).Inv := h.setNode
  have self : ∀ {x : Option Agent}, x = some a → ∀ b, x = some b → softwareAgent s.cfg b := by
    intro x hx b hb
    rw [hx] at hb
    injection hb with hb
    exact hb ▸ ha
  cases d with
  | acquire =>
    simp only [Act.apply, actAcquire]
    split
    · exact { h with lock := self rfl }
    · exact h
  | release =>
    simp only [Act.apply, actRelease]
    split
    · exact { h with lock := nofun }
    · exact h
  | txnGuard off =>
    simp only [Act.apply, actTxnGuard]
    split
    · exact h
    · split
      · exact h
      · exact h
  | readReg r => exact h
  | writeReg r w => exact h.writeReg r w
  | snapshot =>
    exact { h with
      hcSts := within_and _ h.hcSts
      hcErr := within_and _ h.hcErr }
  | setHostMask ch b => exact { h with hcMsk := within_putChan ch b h.hcMsk }
  | setBusMask ch b => exact { h with busMsk := within_putChan ch b h.busMsk }
  | getBusMask ch => exact h
  | getSw ch => exact h
  | setSw ch x => exact { h with }
  | log => exact { h with }
  | takeMutex n =>
    simp only [Act.apply, actTakeMutex]
    split
    · exact h
    · split
      · exact node { h.node n with mutex := self rfl }
      · exact h
  | giveMutex n => exact node { h.node n with mutex := nofun }
  | getLstate n => exact h
  | setLstate n l => exact node { h.node n with }
  | getRefcnt n => exact h
  | setRefcnt n w => exact node { h.node n with }
  | getChans n => exact h
  | setChans n rx tx => exact node { h.node n with channels := fun _ => hd h.cfg }
  | chansUsed n b c => exact h
  | allocate n => exact inv_actAllocate h n
  | getBufs n => exact h
  | othersClosed n => exact h
  | freeNode n =>
    exact node { h.node n with
      rings := nofun
      buffers := rfl }
  | clearPending n => exact node { h.node n with }
  | wakeAll n => exact h.wakeAll n
  | enqueue n b => exact inv_actEnqueue h n b
  | enqueueOrLate n b =>
    simp only [Act.apply, actEnqueueOrLate]
    split
    · exact { h with }
    · exact inv_actEnqueue h n b
  | deqEnter n dst len =>
    simp only [Act.apply, actDeqEnter]
    split
    · exact h
    · split
      · exact h
      · split
        · exact h
        · split
          · exact h
          · exact node { h.node n with consumer := self rfl }
  | deqTake n dst => exact inv_actDeqTake h n dst
  | deqLeave n => exact node { h.node n with consumer := nofun }
  | waitRing n => exact inv_actWait h a _
  | writeEnter n src len =>
    simp only [Act.apply, actWriteEnter]
    split
    · exact h
    · split
      · exact h
      · split
        · exact h
        · exact h
  | getBusy n => exact h
  | setBusy n b =>
    have hn : (s.setNode n { s.node n with txBusy := b }).Inv := node { h.node n with }
    cases b with
    | true => exact hn
    | false => exact hn.notify _
  | copyBytes dst src len => exact h.memWrite _ _
  | waitTx n => exact inv_actWait h a _
  | server ch => exact h
  | postExc ch x => exact inv_actPostExc h ch x
  | takeExc n =>
    simp only [Act.apply, actTakeExc]
    split
    · exact h
    · exact node { h.node n with }
  | readiness n =>
    simp only [Act.apply, actReadiness]
    split
    · exact h
    · split
      · exact h
      · exact h

end Sys2Proof.Machine
end

section
/-! PROOFS. The atomic steps of every command's program are sound (`Act.Sound`), and with that every step of the
machine keeps the parameters and the invariant. -/

namespace Sys2Proof.Machine

/-! ## Programs whose atomic steps write no channel numbers -/

/-- Every atomic step of the program is one the invariant asks nothing of, or is sound. -/
abbrev Prog.Sound {α : Type} (c : Params) (p : Prog α) : Prop := p.All (Act.Sound c)

section

variable {α : Type} {c c' : Params}

theorem Prog.All.act {Q : Act → Prop} {d : Act} {k : Resp → Prog α} (hd : Q d) (hk : ∀ r, (k r).All Q) :
    (Prog.act d k).All Q := ⟨hd, hk⟩

theorem pollCtl_sound (n : Nat) : (pollCtl n).Sound c' := by
  induction n with
  | zero => trivial
  | succ n ih =>
    refine .act trivial fun r => ?_
    split
    · trivial
    · exact ih

theorem writeDats_sound {v : Row} {p : Prog α} (h : p.Sound c') : (writeDats v p).Sound c' :=
  .after trivial (.after trivial (.after trivial (.after trivial h)))

theorem readDats_sound : readDats.Sound c' :=
  .act trivial fun _ => .act trivial fun _ => .act trivial fun _ => .act trivial fun _ => trivial

theorem readRow_sound (off : RowOff) : (readRow c off).Sound c' := by
  refine .after trivial (.after trivial (.bind (pollCtl_sound _) fun seen => ?_))
  split
  · exact .bind readDats_sound fun _ => .after trivial trivial
  · exact .after trivial trivial

theorem writeTxn_sound (off : RowOff) (v : Row) : (writeTxn c off v).Sound c' :=
  .after trivial (writeDats_sound (.after trivial (.bind (pollCtl_sound _) fun _ => .after trivial trivial)))

theorem writeRow_sound (off : RowOff) (v : Row) : (writeRow c off v).Sound c' := by
  refine .bind (writeTxn_sound off v) fun r => ?_
  split
  · trivial
  · split
    · refine .bind (readRow_sound off) fun r2 => ?_
      split
      · trivial
      · trivial
    · trivial

theorem lockedWrite_sound (off : RowOff) (v : Row) : (lockedWrite c off v).Sound c' :=
  .after trivial (.bind (writeRow_sound off v) fun _ => .after trivial trivial)

theorem updateRow_sound (off : RowOff) (f : Row → Row) : (updateRow c off f).Sound c' := by
  refine .bind (readRow_sound off) fun r => ?_
  split
  · trivial
  · exact writeRow_sound off _

theorem lockedUpdate_sound (off : RowOff) (f : Row → Row) : (lockedUpdate c off f).Sound c' :=
  .after trivial (.bind (updateRow_sound off f) fun _ => .after trivial trivial)

theorem zeroRows_sound (offs : List RowOff) : (zeroRows c offs).Sound c' := by
  induction offs with
  | nil => trivial
  | cons off offs ih =>
    refine .bind (lockedWrite_sound off 0) fun w => ?_
    split
    · exact ih
    · trivial
    · trivial

theorem pollBstat_sound (b n : Nat) : (pollBstat b n).Sound c' := by
  induction n with
  | zero => trivial
  | succ n ih =>
    refine .act trivial fun r => ?_
    split
    · trivial
    · exact ih

theorem catRead_sound (ns : Ns) (ch : Chan) : (catRead c ns ch).Sound c' := by
  refine .bind (readRow_sound _) fun r => ?_
  split
  · trivial
  · trivial

theorem setSub_sound (ns : Ns) (ch : Chan) (x : SubField) : (setSub c ns ch x).Sound c' := updateRow_sound _ _

theorem readEntries_sound (es : List Entry) : (readEntries c es).Sound c' := by
  induction es with
  | nil => trivial
  | cons e es ih =>
    refine .bind (catRead_sound _ _) fun x => ?_
    split
    · trivial
    · refine .bind ih fun xs => ?_
      split
      · trivial
      · trivial

theorem restoreEntries_sound (xs : List (Entry × SubField)) : (restoreEntries c xs).Sound c' := by
  refine .each (fun x => .bind (setSub_sound _ _ _) fun w => ?_) xs
  split
  · trivial
  · trivial
  · trivial

theorem writeEntries_sound (f : SubField → SubField) (written xs : List (Entry × SubField)) :
    (writeEntries c f written xs).Sound c' := by
  induction xs generalizing written with
  | nil => trivial
  | cons x xs ih =>
    refine .bind (setSub_sound _ _ _) fun w => ?_
    split
    · exact ih _
    · exact .bind (restoreEntries_sound _) fun _ => trivial
    · exact .bind (restoreEntries_sound _) fun _ => trivial

theorem disableEntries_sound (es : List Entry) : (disableEntries c es).Sound c' := by
  refine .each (fun e => .bind (lockedUpdate_sound _ _) fun w => ?_) es
  split
  · trivial
  · trivial
  · trivial

theorem maskNode_sound (rx tx : Chan) (b : Bool) {p : Prog α} (h : p.Sound c') :
    (maskNode rx tx b p).Sound c' :=
  .after trivial (.after trivial (.after trivial (.after trivial h)))

theorem clearStatus_sound (sts err : ChanSet) {p : Prog α} (h : p.Sound c') : (clearStatus sts err p).Sound c' :=
  .after trivial (.after trivial (.after trivial (.after trivial h)))

/-! ## The table commands -/

theorem rpWriteRow_sound (op : Vector Word 4) (off : RowOff) : (progRpWriteRow c op off).Sound c' :=
  .bind (lockedWrite_sound off _) fun _ => trivial

theorem rpReadRow_sound (off : RowOff) : (progRpReadRow c off).Sound c' := by
  refine .after trivial (.bind (readRow_sound off) fun r => .after trivial ?_)
  split
  · trivial
  · trivial

theorem rpCatWrite_sound (ns : Ns) (ch : Chan) (x : SubField) : (progRpCatWrite c ns ch x).Sound c' :=
  .bind (lockedUpdate_sound _ _) fun _ => trivial

theorem cdtInitWith_sound (ch : Chan) (ty : ChType) (dir : Dir) (dbr d : Nat) :
    (cdtInitWith c ch ty dir dbr d).Sound c' := by
  unfold cdtInitWith
  split
  · trivial
  · exact .bind (lockedWrite_sound _ _) fun _ => trivial

theorem cdtClearSts_sound (ch : Chan) (mask : BitVec 4) : (progCdtClearSts c ch mask).Sound c' := by
  refine .after trivial (.bind (readRow_sound _) fun r => ?_)
  split
  · exact .after trivial trivial
  · dsimp only
    split
    · refine .bind (writeRow_sound _ _) fun w => .after trivial ?_
      split
      · trivial
      · trivial
      · trivial
    · exact .after trivial trivial

theorem catInit_sound (ch : Chan) (ty : ChType) (dir : Dir) (dma : Dma) (en : Bool) :
    (progCatInit c ch ty dir dma en).Sound c' :=
  .bind (lockedUpdate_sound _ _) fun _ => trivial

theorem catUnmuteSync_sound (rx tx : Chan) : (progCatUnmuteSync c rx tx).Sound c' := by
  refine .bind (pollBstat_sound 0 _) fun clk => ?_
  split
  · trivial
  · refine .bind (pollBstat_sound 1 _) fun lck => ?_
    split
    · trivial
    · refine .after trivial (.bind (readEntries_sound _) fun xs => ?_)
      split
      · exact .after trivial trivial
      · refine .bind (writeEntries_sound _ _ _) fun w => .after trivial ?_
        split
        · trivial
        · trivial
        · trivial

theorem adtInitWith_sound (ch : Chan) (ty : ChType) (ping pong : Word) (d : Nat) :
    (adtInitWith c ch ty ping pong d).Sound c' := by
  unfold adtInitWith
  split
  · trivial
  · split
    · trivial
    · split
      · trivial
      · refine .bind (lockedWrite_sound _ _) fun w => ?_
        split
        · exact .after trivial trivial
        · trivial
        · trivial

theorem rearmHalf_sound (ch : Chan) (h : Half) (a : Word) : (rearmHalf c ch h a).Sound c' := by
  refine .after trivial (.bind (readRow_sound _) fun r => ?_)
  split
  · exact .after trivial trivial
  · split
    · exact .after trivial trivial
    · split
      · exact .after trivial trivial
      · refine .bind (writeRow_sound _ _) fun w => .after trivial ?_
        split
        · trivial
        · trivial
        · exact .after trivial trivial

theorem adtRearmWith_sound (ch : Chan) (doneStatus a : Word) : (adtRearmWith c ch doneStatus a).Sound c' := by
  unfold adtRearmWith
  split
  · trivial
  · refine .act trivial fun h => ?_
    split
    · trivial
    · exact rearmHalf_sound ch _ a

/-! ## Rings and the lifecycle -/

theorem rbTryEnqueue_sound (op : Vector Word 4) (n : NodeNo) : (progRbTryEnqueue op n).Sound c' := by
  refine .act trivial fun r => ?_
  split
  · trivial
  · trivial

theorem dequeueLoop_sound (op : Vector Word 4) (n : NodeNo) (blk : Bool) : (dequeueLoop c op n blk).Sound c' := by
  refine .act trivial fun r => ?_
  split
  · exact .after trivial trivial
  · split
    · exact .after trivial trivial
    · refine .act trivial fun r => ?_
      split
      · exact .after trivial trivial
      · trivial

theorem runSteps_sound (ps : List (Prog Result)) (h : ∀ p ∈ ps, p.Sound c') : (runSteps ps).Sound c' := by
  induction ps with
  | nil => trivial
  | cons p ps ih =>
    have hps := ih fun q hq => h q (List.mem_cons_of_mem _ hq)
    refine .bind (h p List.mem_cons_self) fun r => ?_
    split
    · exact hps
    · trivial
    · exact hps

theorem runBestEffort_sound (ps : List (Prog Result)) (bad : Bool) (h : ∀ p ∈ ps, p.Sound c') :
    (runBestEffort ps bad).Sound c' := by
  induction ps generalizing bad with
  | nil => trivial
  | cons p ps ih =>
    have hps := fun b => ih b fun q hq => h q (List.mem_cons_of_mem _ hq)
    refine .bind (h p List.mem_cons_self) fun r => ?_
    split
    · exact hps bad
    · exact .after trivial (hps true)

theorem configureSteps_sound (n : NodeNo) (first : Bool) (rx tx : Chan) (b : Bufs) :
    ∀ p ∈ configureSteps c n first rx tx b, p.Sound c' := by
  have reset : ∀ p ∈ if first then [progCdtResetAll c, progCatResetAll c] else [], p.Sound c' := by
    split
    · simp only [List.forall_mem_cons]
      exact ⟨zeroRows_sound _, zeroRows_sound _, nofun⟩
    · nofun
  refine List.forall_mem_append.mpr ⟨reset, ?_⟩
  simp only [List.forall_mem_cons]
  exact ⟨cdtInitWith_sound .., cdtInitWith_sound .., catInit_sound .., catInit_sound .., catInit_sound ..,
    catInit_sound .., adtInitWith_sound .., adtInitWith_sound .., nofun⟩

theorem configure_sound (n : NodeNo) : (configure c n).Sound c' := by
  refine .after trivial (.act trivial fun got => ?_)
  split
  · exact .after trivial trivial
  · refine .act trivial fun first => .act trivial fun chs => .act trivial fun b =>
      .bind (runSteps_sound _ (configureSteps_sound n _ _ _ _)) fun rc => ?_
    split
    · exact .after trivial (.after trivial trivial)
    · exact .after trivial (.after trivial trivial)

theorem chOpen_sound (n : NodeNo) : (progChOpen c n).Sound c' := by
  refine .after trivial (.act trivial fun r => ?_)
  dsimp only
  split
  · trivial
  · split
    · exact .after trivial (.after trivial trivial)
    · refine .bind (configure_sound n) fun rc => ?_
      split
      · exact .after trivial (.after trivial trivial)
      · exact .after trivial trivial

theorem teardown_sound (n : NodeNo) : (teardown c n).Sound c' := by
  refine .act trivial fun l => .act trivial fun chs => ?_
  dsimp only
  have rest : ∀ rx tx, (runBestEffort [catZero c .bus rx, catZero c .host rx, catZero c .bus tx, catZero c .host tx,
      cdtZero c rx, cdtZero c tx, adtZero c rx, adtZero c tx] false).Sound c' := by
    intro rx tx
    refine runBestEffort_sound _ _ ?_
    simp only [List.forall_mem_cons]
    exact ⟨rpCatWrite_sound .., rpCatWrite_sound .., rpCatWrite_sound .., rpCatWrite_sound .., rpWriteRow_sound ..,
      rpWriteRow_sound .., rpWriteRow_sound .., rpWriteRow_sound .., nofun⟩
  have rest := fun rx tx => Prog.All.after (d := .setLstate n .stopped) trivial
    (Prog.All.after (d := .wakeAll n) trivial (Prog.All.bind (rest rx tx) fun bad =>
      Prog.All.after (d := .freeNode n) (p := .after (.clearPending n) (.after (.setLstate n .closed)
        (.ret (if bad then RC.registerTimeout else .ok)))) trivial (.after trivial (.after trivial trivial))))
  split
  · exact maskNode_sound _ _ _ (rest _ _)
  · exact rest _ _

theorem chClose_sound (n : NodeNo) : (progChClose c n).Sound c' := by
  refine .after trivial (.act trivial fun r => ?_)
  dsimp only
  split
  · exact .after trivial trivial
  · refine .after trivial ?_
    split
    · exact .after trivial trivial
    · exact .bind (teardown_sound n) fun _ => .after trivial trivial

theorem armRx_sound (rx : Chan) : (armRx c rx).Sound c' := by
  refine .bind (lockedUpdate_sound _ _) fun w => ?_
  split
  · exact .after trivial trivial
  · trivial
  · trivial

theorem idleTx_sound (n : NodeNo) (tx : Chan) : (idleTx c n tx).Sound c' := by
  refine .bind (lockedUpdate_sound _ _) fun w => ?_
  split
  · exact .after trivial (.after trivial trivial)
  · trivial
  · trivial

theorem enableNode_sound (n : NodeNo) (rx tx : Chan) : (enableNode c n rx tx).Sound c' := by
  unfold enableNode
  dsimp only
  split
  · refine .bind (catUnmuteSync_sound rx tx) fun r => ?_
    split
    · trivial
    · trivial
    · trivial
  · refine .bind (runSteps_sound _ ?_) fun rc => ?_
    · simp only [List.forall_mem_cons]
      exact ⟨catInit_sound .., catInit_sound .., catInit_sound .., catInit_sound .., nofun⟩
    · split
      · trivial
      · exact .bind (disableEntries_sound _) fun _ => trivial

theorem armNode_sound (n : NodeNo) (rx tx : Chan) : (armNode c n rx tx).Sound c' := by
  refine .bind (armRx_sound rx) fun x => ?_
  split
  · refine .bind (idleTx_sound n tx) fun y => ?_
    split
    · trivial
    · exact .bind (disableEntries_sound _) fun _ => trivial
  · exact .bind (disableEntries_sound _) fun _ => trivial

theorem chStart_sound (n : NodeNo) : (progChStart c n).Sound c' := by
  refine .after trivial (.act trivial fun l => ?_)
  split
  · exact .after trivial trivial
  · refine .act trivial fun chs => clearStatus_sound _ _ (.bind (enableNode_sound n _ _) fun rc => ?_)
    split
    · exact .after trivial trivial
    · refine .bind (armNode_sound n _ _) fun rc => ?_
      split
      · exact .after trivial trivial
      · exact maskNode_sound _ _ _ (.after trivial (.after trivial trivial))

theorem chStop_sound (n : NodeNo) : (progChStop c n).Sound c' := by
  refine .after trivial (.act trivial fun l => ?_)
  split
  · exact .after trivial trivial
  · refine .act trivial fun chs => maskNode_sound _ _ _ (.after trivial (.bind (readEntries_sound _) fun xs => ?_))
    split
    · exact .after trivial (maskNode_sound _ _ _ (.after trivial trivial))
    · refine .bind (writeEntries_sound _ _ _) fun w => .after trivial ?_
      split
      · exact .after trivial (.after trivial (.after trivial trivial))
      · exact maskNode_sound _ _ _ (.after trivial trivial)
      · exact maskNode_sound _ _ _ (.after trivial trivial)

theorem writeFrame_sound (op : Vector Word 4) (n : NodeNo) (tx : Chan) : (writeFrame c op n tx).Sound c' := by
  refine .act trivial fun r => .bind (readRow_sound _) fun r => ?_
  split
  · exact .after trivial (.after trivial trivial)
  · split
    · exact .after trivial trivial
    · split
      · exact .after trivial trivial
      · refine .after trivial (.bind (writeRow_sound _ _) fun w => ?_)
        split
        · exact .after trivial (.after trivial (.after trivial trivial))
        · exact .after trivial (.after trivial trivial)
        · exact .after trivial (.after trivial trivial)

theorem writeLoop_sound (op : Vector Word 4) (n : NodeNo) : (writeLoop c op n).Sound c' := by
  refine .after trivial (.act trivial fun b => ?_)
  split
  · exact .act trivial fun _ => writeFrame_sound op n _
  · refine .after trivial (.act trivial fun r => ?_)
    split
    · trivial
    · trivial

/-! ## The dispatchers -/

theorem rxHandler_sound (n : NodeNo) : (rxHandler c n).Sound c' := by
  refine .act trivial fun chs => .after trivial (.bind (readRow_sound _) fun r => .after trivial ?_)
  split
  · exact .after trivial trivial
  · refine .act trivial fun h => ?_
    split
    · exact .after trivial trivial
    · split
      · exact .after trivial trivial
      · refine .after trivial (.bind (adtRearmWith_sound _ _ _) fun q => ?_)
        split
        · trivial
        · exact .after trivial trivial

theorem serveChannel_sound (err : ChanSet) (ch : Chan) : (serveChannel c err ch).Sound c' := by
  unfold serveChannel
  split
  · exact .after trivial trivial
  · refine .act trivial fun r => ?_
    split
    · exact rxHandler_sound _
    · split
      · exact .after trivial trivial
      · exact .after trivial trivial

theorem busChannel_sound (ch : Chan) : (busChannel c ch).Sound c' := by
  refine .act trivial fun b => ?_
  split
  · trivial
  · refine .bind (cdtClearSts_sound ch _) fun r => ?_
    split
    · split
      · trivial
      · exact .after trivial trivial
    · exact .after trivial trivial

end

/-! ## The one program that writes channel numbers -/

/-- An operand below NCH, taken to six bits, is that operand: NCH is at most 64. -/
theorem toNat_setWidth_chan {c : Params} (hc : c.nch ≤ 64) {w : Word} (h : w.toNat < c.nch) :
    (w.setWidth 6 : Chan).toNat = w.toNat := by
  rw [BitVec.toNat_setWidth]
  exact Nat.mod_eq_of_lt (by omega)

theorem nch_le_of_ok {c : Params} (h : c.ok = true) : c.nch ≤ 64 := by
  simp only [Params.ok, Bool.and_eq_true, decide_eq_true_eq] at h
  omega

theorem chSetChannelAddresses_sound (c : Params) (op : Vector Word 4) (n : NodeNo) :
    (progChSetChannelAddresses c op n).Sound c := by
  refine .after trivial (.act trivial fun l => ?_)
  dsimp only
  split
  · exact .after trivial trivial
  · split
    · exact .after trivial trivial
    · next hop =>
      refine .act trivial fun used => ?_
      split
      · exact .after trivial trivial
      · refine .after (fun hok => ?_) (.after trivial trivial)
        simp only [not_or, Nat.not_le] at hop
        obtain ⟨hp, hq, hpq⟩ := hop
        have hn := nch_le_of_ok hok
        rw [toNat_setWidth_chan hn hp, toNat_setWidth_chan hn hq]
        refine ⟨hp, hq, fun e => hpq (BitVec.eq_of_toNat_eq ?_)⟩
        rw [← toNat_setWidth_chan hn hp, ← toNat_setWidth_chan hn hq, e]

/-! ## Every command, every step -/

/-- Every atomic step of every command is sound, from its start and from the head of its wait loop. -/
theorem progOf_sound (c : Params) (op : Vector Word 4) (looping : Bool) (i : Instr) :
    (progOf c op looping i).Sound c := by
  cases i with
  | rpWriteRow off => exact rpWriteRow_sound op off
  | rpReadRow off => exact rpReadRow_sound off
  | rpCatWrite ns ch v => exact rpCatWrite_sound ns ch v
  | cdtInit ch ty dir => exact cdtInitWith_sound ch ty dir _ _
  | cdtResetAll => exact zeroRows_sound _
  | cdtClearSts ch mask => exact cdtClearSts_sound ch mask
  | catInit ch ty dir dma en => exact catInit_sound ch ty dir dma en
  | catResetAll => exact zeroRows_sound _
  | catUnmuteSync rx tx => exact catUnmuteSync_sound rx tx
  | adtInit ch ty => exact adtInitWith_sound ch ty _ _ _
  | adtRearm ch => exact adtRearmWith_sound ch _ _
  | rbTryEnqueue n => exact rbTryEnqueue_sound op n
  | rbDequeue n blk => cases looping with
    | false => exact .after trivial (dequeueLoop_sound op n blk)
    | true => exact dequeueLoop_sound op n blk
  | chOpen n => exact chOpen_sound n
  | chClose n => exact chClose_sound n
  | chStart n => exact chStart_sound n
  | chStop n => exact chStop_sound n
  | chWrite n => cases looping with
    | false => exact .after trivial (writeLoop_sound op n)
    | true => exact writeLoop_sound op n
  | chGetExceptions n => exact .act trivial fun _ => trivial
  | chSetChannelAddresses n => exact chSetChannelAddresses_sound c op n
  | chPollReadiness n => exact .act trivial fun _ => trivial
  | setBusClockClass => exact .after trivial trivial
  | setDeviceBusAddress => exact .after trivial trivial
  | getProtocolVersion => exact .act trivial fun _ => trivial
  | irqHostDispatch => exact .act trivial fun _ => .bind (.each (serveChannel_sound _) _) fun _ => trivial
  | irqBusDispatch => exact .bind (.each busChannel_sound _) fun _ => trivial

/-- The invariant is kept by every part of a step. -/
theorem keeper_inv : Keeper State.Inv Act.Sound softwareAgent where
  env _ _ h := { h with }
  turn _ _ h := { h with }
  cur _ _ h := { h with }
  task _ _ h := software_of_task h.threads
  issue _ _ _ _ hm := software_of_issue hm
  ctx _ a x h hx := h.setCtx a x hx
  record _ a f h := h.record_fault a f
  store _ a bs h := h.memWrite a bs
  hw s x h := h.hwMove (hwMove_hwStep s x)
  reset _ h := h.engineReset
  act _ _ _ h ha hd := h.apply ha hd

/-- Settles O11: the parameters and the invariant are each kept by every part of a step. -/
theorem everyStepKeepsTheInvariant : Obligations.EveryStepKeepsTheInvariant := by
  intro s t e
  have cfg : t.cfg = s.cfg := (keeper_cfg s.cfg).step (fun _ _ _ _ => Prog.All.trivial _) rfl e
  exact ⟨cfg, fun h => keeper_inv.step progOf_sound h e⟩

end Sys2Proof.Machine
end

section
/-! PROOFS. Steps and model faults (30_encoding.md R124, 60_exceptions.md R332, R333), and engine reset
(70_reset_and_hazards.md). -/

namespace Sys2Proof.Machine

variable {s : State}

/-! ## One step -/

/-- A presented word that decodes. -/
theorem step_of_decode_ok {i : Instr} (hs : s.safe) (hp : s.presented = true)
    (hd : decode (s.ctx s.cur).cmd = .ok i) : step s = exec i s := by
  simp [step, hs, hp, hd]

/-- A presented word that is no command. -/
theorem step_of_decode_error {e : DecodeError} (hs : s.safe) (hp : s.presented = true)
    (hd : decode (s.ctx s.cur).cmd = .error e) : step s = .next (s.raise s.cur .illegalCommand) := by
  simp [step, hs, hp, hd]

/-- Settles O4. -/
theorem stepRunsTheDecodedCommand : Obligations.StepRunsTheDecodedCommand :=
  fun _ _ hs hp hd => step_of_decode_ok hs hp hd

/-! ## Taking a model fault -/

/-- A new context of an agent: it is that agent's, or, when the agent has none, no context moves. -/
theorem ctx_setCtx_cases (s : State) (a : Agent) (x : Ctx) (b : Agent) :
    (s.setCtx a x).ctx b = s.ctx b ∨ (b = a ∧ (s.setCtx a x).ctx b = x) := by
  by_cases hb : b = a
  · subst hb
    by_cases hh : s.has b
    · exact .inr ⟨rfl, ctx_setCtx_same s x hh⟩
    · left
      cases b with
      | host t =>
        have ht : s.threads.length ≤ t := by simpa [State.has] using hh
        simp [State.ctx, State.setCtx, List.set_eq_of_length_le ht]
      | hd => exact absurd trivial hh
      | bd => exact absurd trivial hh
      | hw => rfl
  · exact .inl (ctx_setCtx_other s x hb)

/-- The fault record after a raise. -/
theorem raise_fault (s : State) (a : Agent) (f : FReason) : (s.raise a f).fault =
    if s.fault.flag then s.fault
    else { flag := true, reason := some f, cmd := s.cmdOf a, agent := some a } := by
  unfold State.raise
  rw [release_fault]
  unfold State.record
  split
  · rfl
  · rfl

theorem raise_presented (s : State) (a : Agent) (f : FReason) :
    (s.raise a f).presented = if s.cur = a then false else s.presented := by
  unfold State.raise State.release
  dsimp only
  rw [setCtx_cur, record_cur]
  split
  · rfl
  · rw [setCtx_presented, record_presented]

/-- The contexts do not depend on the fault record. -/
theorem ctx_record (s : State) (a : Agent) (f : FReason) (b : Agent) : (s.record a f).ctx b = s.ctx b := by
  apply ctx_congr <;> simp

/-- A raise keeps the registers of every context. -/
theorem raise_keeps_registers (s : State) (a : Agent) (f : FReason) (b : Agent) :
    ((s.raise a f).ctx b).rc = (s.ctx b).rc ∧ ((s.raise a f).ctx b).cmd = (s.ctx b).cmd ∧
    ((s.raise a f).ctx b).op = (s.ctx b).op ∧ ∀ i, ((s.raise a f).ctx b).resRead i = (s.ctx b).resRead i := by
  have turn : ∀ u : State, ∀ p, State.ctx { u with presented := p } b = u.ctx b := fun u p => by cases b <;> rfl
  have new : ∀ x : Ctx, x.rc = (s.ctx a).rc → x.cmd = (s.ctx a).cmd → x.op = (s.ctx a).op →
      (∀ i, x.resRead i = (s.ctx a).resRead i) →
      let y := ((s.record a f).setCtx a x).ctx b
      y.rc = (s.ctx b).rc ∧ y.cmd = (s.ctx b).cmd ∧ y.op = (s.ctx b).op ∧ ∀ i, y.resRead i = (s.ctx b).resRead i := by
    intro x h1 h2 h3 h4
    rcases ctx_setCtx_cases (s.record a f) a x b with e | ⟨rfl, e⟩
    · rw [e, ctx_record]
      exact ⟨rfl, rfl, rfl, fun _ => rfl⟩
    · rw [e]
      exact ⟨h1, h2, h3, h4⟩
  unfold State.raise State.release
  dsimp only
  rw [ctx_record]
  split
  · rw [turn]
    exact new _ rfl rfl rfl fun _ => rfl
  · exact new _ rfl rfl rfl fun _ => rfl

/-- Settles O5: the step is the raise. -/
theorem illegalWordRaisesIllegalCommand : Obligations.IllegalWordRaisesIllegalCommand := by
  intro s e hs hp hd
  have hcmd : s.cmdOf s.cur = (s.ctx s.cur).cmd := by
    unfold State.cmdOf
    split
    · next h => rw [h]; rfl
    · rfl
  refine ⟨_, step_of_decode_error hs hp hd, ?_, raise_keeps_registers s _ _, fun b hb => ctx_raise_other _ hb,
    raise_lock .., raise_cfg .., raise_bstat .., keepsTable_of_tablePart (tablePart_raise ..),
    keepsSoft_of_softPart (softPart_raise ..), raise_cur .., raise_env .., ?_⟩
  · rw [raise_fault, if_neg (by simp [hs]), hcmd]
  · rw [raise_presented, if_pos rfl]

/-- Settles O7: what a raise does, and that nothing moves once FAULT is 1. -/
theorem modelFaultIsRecordedOnce : Obligations.ModelFaultIsRecordedOnce := by
  refine ⟨fun s a f => ?_, fun s hf => ⟨by simp [step, hf], fun e => by simp [State.event, hf]⟩⟩
  exact ⟨raise_fault s a f, raise_keeps_registers s a f, fun ha => by rw [ctx_raise f ha]; exact ⟨rfl, rfl⟩,
    fun b hb => ctx_raise_other f hb, raise_lock .., raise_cfg .., raise_bstat ..,
    keepsTable_of_tablePart (tablePart_raise ..), keepsSoft_of_softPart (softPart_raise ..), raise_cur ..,
    raise_env .., raise_presented s a f⟩

/-! ## Issue checks -/

/-- The issuer column for a host thread of the engine. -/
theorem mayIssue_host {c : Params} {k : Nat} (hk : k < c.nhost) (i : Instr) :
    mayIssue c i (.host k) = false ↔ (∃ n, i = .rbTryEnqueue n) ∨ i = .irqHostDispatch ∨ i = .irqBusDispatch := by
  cases i <;> simp [mayIssue, isHost, hk]

theorem mayIssue_hd (c : Params) (i : Instr) :
    mayIssue c i .hd = true ↔ (∃ ch, i = .adtRearm ch) ∨ (∃ n, i = .rbTryEnqueue n) ∨ i = .irqHostDispatch := by
  cases i <;> simp [mayIssue, isHost]

theorem mayIssue_bd (c : Params) (i : Instr) :
    mayIssue c i .bd = true ↔ (∃ ch mask, i = .cdtClearSts ch mask) ∨ i = .irqBusDispatch := by
  cases i <;> simp [mayIssue, isHost]

theorem mem_chans_iff (i : Instr) (ch : Chan) : ch ∈ i.chans ↔ channelField i ch := by
  cases i <;> simp [Instr.chans, channelField, eq_comm]

theorem mem_nodes_iff (i : Instr) (n : NodeNo) : n ∈ i.nodes ↔ nodeField i n := by
  cases i <;> simp [Instr.nodes, nodeField, eq_comm]

theorem chansOk_iff (c : Params) (i : Instr) :
    i.chansOk c = true ↔ ¬ ∃ ch, channelField i ch ∧ c.nch ≤ ch.toNat := by
  simp [Instr.chansOk, mem_chans_iff]

theorem nodesOk_iff (c : Params) (i : Instr) :
    i.nodesOk c = true ↔ ¬ ∃ n, nodeField i n ∧ c.nnodes ≤ n.toNat := by
  simp [Instr.nodesOk, mem_nodes_iff]

/-- A channel field is field A of the word, or field B of CAT.UNMUTE_SYNC. -/
theorem bits_encode_of_channelField {i : Instr} {x : Chan} (h : channelField i x) :
    bits (encode i) 16 6 = x ∨ (∃ rx, i = .catUnmuteSync rx x) ∧ bits (encode i) 8 6 = x := by
  rcases h with ⟨_, _, rfl⟩ | ⟨_, _, rfl⟩ | ⟨_, rfl⟩ | ⟨_, _, _, _, rfl⟩ | ⟨_, rfl⟩ | ⟨rx, rfl⟩ | ⟨_, rfl⟩ | rfl
  case inr.inr.inr.inr.inr.inl =>
    exact .inr ⟨⟨rx, rfl⟩, by
      simp (disch := omega) only [encode, bits_append_low, bits_append_high, bits_whole, Nat.reduceSub]⟩
  all_goals
    left
    simp (disch := omega) only [encode, wordA, bits_append_low, bits_append_high, bits_whole, Nat.reduceSub]

theorem bits_encode_of_nodeField {i : Instr} {x : NodeNo} (h : nodeField i x) : bits (encode i) 16 6 = x := by
  rcases h with rfl | ⟨_, rfl⟩ | rfl | rfl | rfl | rfl | rfl | rfl | rfl | rfl
  all_goals
    simp (disch := omega) only [encode, wordA, bits_append_low, bits_append_high, bits_whole, Nat.reduceSub]

/-- A command that fails a check of its issue raises that fault and does nothing else. -/
theorem exec_of_entryFault {i : Instr} {f : FReason} (h : entryFault s.cfg i s.cur = some f) :
    exec i s = .next (s.raise s.cur f) := by
  rw [exec_eq, State.runCommand, h]

/-- Settles O6: the issuer column agent by agent, the fields' places in the word, and the first check that
fails. -/
theorem issueChecksComeInOrder : Obligations.IssueChecksComeInOrder := by
  refine ⟨fun c i => ⟨fun k hk => mayIssue_host hk i, mayIssue_hd c i, mayIssue_bd c i, ?_⟩,
    fun i x => ⟨bits_encode_of_channelField, bits_encode_of_nodeField⟩, fun s i => ⟨?_, ?_, ?_⟩⟩
  · rw [Instr.wellFormed, Bool.and_eq_true, chansOk_iff, nodesOk_iff]
  · intro hm
    exact exec_of_entryFault (by simp [entryFault, hm])
  · intro hm hc
    have hc : i.chansOk s.cfg = false := by
      rw [← Bool.not_eq_true, chansOk_iff]
      exact not_not_intro hc
    exact exec_of_entryFault (by simp [entryFault, hm, hc])
  · intro hm hc hn
    have hc : i.chansOk s.cfg = true := (chansOk_iff _ _).mpr hc
    have hn : i.nodesOk s.cfg = false := by
      rw [← Bool.not_eq_true, nodesOk_iff]
      exact not_not_intro hn
    exact exec_of_entryFault (by simp [entryFault, hm, hc, hn])

/-! ## Engine reset -/

/-- With every mask bit 0 the bus line is 0. -/
theorem birq_of_busMsk_zero (h : s.busMsk = 0) : s.birq = false := by
  simp [State.birq, h]

theorem hirq_of_hcSts_zero (h : s.hcSts = 0) : s.hirq = false := by
  simp [State.hirq, h]

/-- Settles O9: the values are those of the reset state of the same parameters. -/
theorem engineResetRestoresTheResetValues : Obligations.EngineResetRestoresTheResetValues := by
  intro s hok
  refine ⟨{ atReset_resetOf hok with }, rfl, fun _ => rfl, fun _ => rfl, hirq_of_hcSts_zero rfl,
    birq_of_busMsk_zero rfl, rfl, ?_⟩
  intro a
  cases a with
  | host t => exact congrArg Ctx.task (ctx_host_resetOf s.cfg t)
  | hd => rfl
  | bd => rfl
  | hw => rfl

end Sys2Proof.Machine
end

section
/-! PROOFS. The registers (10_state.md R31 to R37). -/

namespace Sys2Proof.Machine

/-! ## Channel groups (R35) -/

theorem groupOf_and (v w : ChanSet) (g : Fin 2) : groupOf (v &&& w) g = groupOf v g &&& groupOf w g :=
  BitVec.extractLsb'_and

theorem groupOf_or (v w : ChanSet) (g : Fin 2) : groupOf (v ||| w) g = groupOf v g ||| groupOf w g :=
  BitVec.extractLsb'_or

theorem getLsbD_groupOf (v : ChanSet) (g : Fin 2) (k : Nat) :
    (groupOf v g).getLsbD k = (decide (k < 32) && v.getLsbD (32 * g.val + k)) :=
  BitVec.getLsbD_extractLsb' ..

theorem groupOf_not (v : ChanSet) (g : Fin 2) : groupOf (~~~v) g = ~~~groupOf v g := by
  refine BitVec.eq_of_getLsbD_eq fun k hk => ?_
  have := g.isLt
  simp only [BitVec.getLsbD_not, getLsbD_groupOf, hk, show 32 * g.val + k < 64 by omega]
  rfl

/-- The other group of a spread word is 0. -/
theorem groupOf_spread (g g' : Fin 2) (w : Word) : groupOf (spread g w) g' = if g' = g then w else 0 := by
  refine BitVec.eq_of_getLsbD_eq fun k hk => ?_
  have h1 := g.isLt
  have h2 := g'.isLt
  simp only [getLsbD_groupOf, spread, BitVec.getLsbD_shiftLeft, BitVec.getLsbD_setWidth, hk]
  split
  · next h =>
    subst h
    rw [Nat.add_sub_cancel_left]
    simp [show 32 * g'.val + k < 64 by omega, show k < 64 by omega]
  · next h =>
    have hv : g'.val ≠ g.val := fun e => h (Fin.ext e)
    by_cases hlt : 32 * g'.val + k < 32 * g.val
    · simp [hlt]
    · have hz : w.getLsbD (32 * g'.val + k - 32 * g.val) = false := BitVec.getLsbD_of_ge _ _ (by omega)
      simp [hz]

/-- A write-1-to-clear of group `g` (R35). -/
theorem groupOf_clear (v : ChanSet) (g g' : Fin 2) (w : Word) :
    groupOf (v &&& ~~~(spread g w)) g' = if g' = g then groupOf v g' &&& ~~~w else groupOf v g' := by
  rw [groupOf_and, groupOf_not, groupOf_spread]
  split
  · rfl
  · exact BitVec.and_allOnes

/-- A write of group `g` of a mask register (R35). -/
theorem groupOf_putGroup (c : Params) (v : ChanSet) (g g' : Fin 2) (w : Word) :
    groupOf (putGroup c v g w) g' =
      if g' = g then w &&& groupOf (validChans c) g' else groupOf v g' := by
  unfold putGroup
  rw [groupOf_or, groupOf_and, groupOf_and, groupOf_not, groupOf_spread, groupOf_spread]
  by_cases h : g' = g
  · simp [h]
  · rw [if_neg h, if_neg h, if_neg h]
    exact (congrArg (_ ||| ·) BitVec.zero_and).trans (BitVec.or_zero.trans BitVec.and_allOnes)

/-- Settles O12: each register of the block reads its group of the channel set written. -/
theorem interruptRegistersAnswerWrites : Obligations.InterruptRegistersAnswerWrites := by
  intro s g w
  have hclear (v : ChanSet) : groupOf (v &&& ~~~(spread g w)) g = groupOf v g &&& ~~~w := by simp [groupOf_clear]
  have hput (v : ChanSet) : groupOf (putGroup s.cfg v g w) g = w &&& groupOf (validChans s.cfg) g := by
    simp [groupOf_putGroup]
  refine ⟨hclear _, hclear _, hput _, hput _, ?_⟩
  rintro x (rfl | rfl | rfl | rfl) r hr
  all_goals
    cases r <;> simp_all [State.writeReg, State.readReg, groupOf_clear, groupOf_putGroup]

/-! ## The window (R33, R310) -/

theorem getLsbD_adrMask : ∀ k < 32, adrMask.getLsbD k = (decide (k < 8) || k == 31) := by decide

/-- Settles O13: the effect of each write of the window. -/
theorem windowRegistersAnswerWrites : Obligations.WindowRegistersAnswerWrites := by
  intro s w
  refine ⟨fun i j => ?_, fun k hk => ?_, rfl, rfl, ?_, ?_, ?_, rfl, rfl⟩
  · simp only [State.writeReg, State.readReg, Fin.getElem_fin, Vector.getElem_set, Fin.val_inj]
  · simp only [State.writeReg, State.readReg, BitVec.getLsbD_and, getLsbD_adrMask k hk]
  · simp only [State.writeReg, txnOf]
    split
    · rfl
    · rfl
  · intro h
    simp only [State.writeReg, h]
    exact ⟨rfl, rfl, rfl⟩
  · intro h
    exact if_pos h

end Sys2Proof.Machine
end

section
/-! PROOFS. The contexts between the end of one command and the next (10_state.md R31, 20_memory.md R92). -/

namespace Sys2Proof.Machine

variable {s t u : State}

/-! ## What moves RC -/

/-- RC of every context is as before, or a result code, or 0. -/
def KeepsCodes (s t : State) : Prop := ∀ a, (t.ctx a).rc = (s.ctx a).rc ∨ (t.ctx a).rc.toNat ≤ 10

theorem KeepsCodes.refl (s : State) : KeepsCodes s s := fun _ => .inl rfl

theorem KeepsCodes.trans (h1 : KeepsCodes s t) (h2 : KeepsCodes t u) : KeepsCodes s u := by
  intro a
  rcases h2 a with e | e
  · rw [e]
    exact h1 a
  · exact .inr e

theorem keepsCodes_of_contexts (e : t.contexts = s.contexts) : KeepsCodes s t :=
  fun a => .inl (congrArg Ctx.rc (ctx_of_contexts e a))

theorem keepsCodes_setCtx (s : State) (a : Agent) {x : Ctx} (hx : x.rc = (s.ctx a).rc ∨ x.rc.toNat ≤ 10) :
    KeepsCodes s (s.setCtx a x) := by
  intro b
  rcases ctx_setCtx_cases s a x b with e | ⟨rfl, e⟩
  · exact .inl (congrArg Ctx.rc e)
  · rw [e]
    exact hx

/-- A context moved in its other registers only. -/
theorem keepsCodes_setCtx_same (s : State) (a : Agent) {x : Ctx} (hx : x.rc = (s.ctx a).rc) :
    KeepsCodes s (s.setCtx a x) := keepsCodes_setCtx s a (.inl hx)

theorem keepsCodes_notify (s : State) (p : Instr → Bool) : KeepsCodes s (s.notify p) := by
  obtain ⟨th, e, -, hth⟩ := notify_frame s p
  rw [e]
  intro a
  cases a with
  | host k =>
    left
    show (th.getD k Ctx.reset).rc = _
    rw [hth]
    split
    · rfl
    · rfl
  | hd => exact .inl rfl
  | bd => exact .inl rfl
  | hw => exact .inl rfl

theorem keepsCodes_wakeAll (s : State) (n : NodeNo) : KeepsCodes s (s.wakeAll n) := by
  obtain ⟨th, e, -, hth⟩ := wakeAll_frame s n
  rw [e]
  intro a
  cases a with
  | host k =>
    left
    show (th.getD k Ctx.reset).rc = _
    rw [hth]
    split
    · rfl
    · rfl
  | hd => exact .inl rfl
  | bd => exact .inl rfl
  | hw => exact .inl rfl

/-! ## Atomic steps keep BSTAT and the codes -/

/-- BSTAT is as before, and so are the codes. -/
def KeepsBusAndCodes (s t : State) : Prop := t.bstat = s.bstat ∧ KeepsCodes s t

theorem KeepsBusAndCodes.refl (s : State) : KeepsBusAndCodes s s := ⟨rfl, .refl s⟩

theorem actWait_keeps (a : Agent) (ready : Bool) (s : State) : KeepsBusAndCodes s (actWait a ready s).state := by
  have new : ∀ x : Ctx, x.rc = (s.ctx a).rc → KeepsBusAndCodes s (s.setCtx a x) :=
    fun x hx => ⟨setCtx_bstat .., keepsCodes_setCtx_same s a hx⟩
  unfold actWait
  dsimp only
  split
  · exact .refl s
  · split
    · split
      · exact .refl s
      · exact new _ rfl
    · split
      · exact new _ rfl
      · split
        · exact new _ rfl
        · exact new _ rfl

theorem actEnqueue_keeps (n : NodeNo) (b : Word) (s : State) : KeepsBusAndCodes s (actEnqueue n b s).state := by
  unfold actEnqueue
  split
  · exact .refl s
  · split
    · exact .refl s
    · show KeepsBusAndCodes s (if _ then _ else _)
      split
      · exact ⟨rfl, keepsCodes_of_contexts rfl⟩
      · exact ⟨rfl, keepsCodes_notify (s.setNode n _) _⟩

/-- No atomic step of a command changes BSTAT, or RC of a context but to what it was. -/
theorem apply_keepsBusAndCodes (a : Agent) (s : State) (d : Act) : KeepsBusAndCodes s (Act.apply a s d).state := by
  cases d
  case waitRing n => exact actWait_keeps a _ s
  case waitTx n => exact actWait_keeps a _ s
  case enqueue n b => exact actEnqueue_keeps n b s
  case enqueueOrLate n b =>
    simp only [Act.apply, actEnqueueOrLate]
    split
    · exact ⟨rfl, keepsCodes_of_contexts rfl⟩
    · exact actEnqueue_keeps n b s
  case setBusy n b => cases b with
    | true => exact ⟨rfl, keepsCodes_of_contexts rfl⟩
    | false => exact ⟨rfl, keepsCodes_notify (s.setNode n _) _⟩
  case wakeAll n => exact ⟨rfl, keepsCodes_wakeAll s n⟩
  case writeReg r w =>
    cases r
    case ctl =>
      simp only [Act.apply, State.writeReg, Eff.state]
      split
      · exact .refl s
      · exact ⟨rfl, keepsCodes_of_contexts rfl⟩
    all_goals exact ⟨rfl, keepsCodes_of_contexts rfl⟩
  case snapshot => exact ⟨rfl, keepsCodes_of_contexts rfl⟩
  case allocate n =>
    simp only [Act.apply, actAllocate]
    split
    · exact ⟨rfl, keepsCodes_of_contexts rfl⟩
    · exact ⟨rfl, keepsCodes_of_contexts rfl⟩
  all_goals
    simp only [Act.apply, actAcquire, actRelease, actTxnGuard, actTakeMutex, actNode, actDeqEnter, actDeqTake,
      actWriteEnter, actCopy, actTakeExc, actReadiness, actPostExc]
    repeat' split
    all_goals exact ⟨rfl, keepsCodes_of_contexts rfl⟩

/-! ## Events keep the codes -/

theorem hwMove_contexts {e : HwStep} (m : HwMove s e t) : t.contexts = s.contexts := by
  cases m with
  | write off v =>
    obtain ⟨_, _, e⟩ := storeRow_frame s off v
    rw [e]
    rfl
  | fault _ f => simp [State.contexts]
  | transmit ch ok =>
    obtain ⟨_, e⟩ := xferDone_frame s ch ok
    rw [e]
    rfl
  | receive ch ok bytes =>
    obtain ⟨_, e⟩ := xferDone_frame _ ch ok
    rw [e]
    rfl
  | _ => rfl

theorem keepsCodes_release (s : State) (a : Agent) : KeepsCodes s (s.release a) := by
  have h := keepsCodes_setCtx_same s a
    (x := { s.ctx a with task := none, blocked := false, woken := false, notified := false }) rfl
  unfold State.release
  dsimp only
  split
  · exact h.trans (keepsCodes_of_contexts rfl)
  · exact h

theorem keepsCodes_suspend (s : State) (a : Agent) (k : Task) : KeepsCodes s (s.suspend a k) := by
  have h := keepsCodes_setCtx_same s a (x := { s.ctx a with task := some k }) rfl
  unfold State.suspend
  dsimp only
  split
  · exact h.trans (keepsCodes_of_contexts rfl)
  · exact h

theorem keepsCodes_raise (s : State) (a : Agent) (f : FReason) : KeepsCodes s (s.raise a f) :=
  fun b => .inl (raise_keeps_registers s a f b).1

/-- A command that ends leaves a result code in RC, or RC as it was. -/
theorem keepsCodes_finish (s : State) (a : Agent) (r : Result) : KeepsCodes s (s.finish a r) := by
  refine (keepsCodes_setCtx s a ?_).trans (keepsCodes_release _ a)
  unfold Ctx.put
  dsimp only
  split
  · next rc _ =>
    right
    show (RC.code rc).toNat ≤ 10
    cases rc <;> decide
  · exact .inl (foldl_writeRes_rc r.res (s.ctx a))

theorem keepsCodes_beginCmd (s : State) (a : Agent) : KeepsCodes s (s.beginCmd a) := by
  unfold State.beginCmd
  split
  · exact keepsCodes_raise s a _
  · split
    · exact keepsCodes_raise s a _
    · exact keepsCodes_setCtx_same s a rfl

theorem keepsCodes_goOn (s : State) (a : Agent) (k : Task) (hist : List Resp) (p : Prog Result) :
    KeepsCodes s (s.goOn a k hist p) := by
  cases p with
  | ret r => exact keepsCodes_finish s a r
  | raise f => exact keepsCodes_raise s a f
  | loop => exact keepsCodes_suspend s a _
  | act d j => exact keepsCodes_suspend s a _

theorem keepsCodes_microStep (s : State) (a : Agent) : KeepsCodes s (s.microStep a) := by
  unfold State.microStep
  split
  · exact .refl s
  · split
    · exact .refl s
    · next k hk =>
      split
      · next d next heq =>
        have h := (apply_keepsBusAndCodes a s d).2
        split <;> rename_i e <;> rw [e] at h
        · exact h.trans (keepsCodes_goOn _ a k _ _)
        · exact h
        · exact h.trans (keepsCodes_raise _ a _)
      · exact keepsCodes_goOn s a k _ _

theorem keepsCodes_engineReset (s : State) : KeepsCodes s s.engineReset := by
  intro a
  right
  cases a with
  | host k =>
    have e : s.engineReset.ctx (.host k) = Ctx.reset := ctx_host_resetOf s.cfg k
    rw [e]
    exact Nat.zero_le _
  | hd => exact Nat.zero_le _
  | bd => exact Nat.zero_le _
  | hw => exact Nat.zero_le _

/-- Beside a thread's own accesses no event gives RC another value than a result code or 0. -/
theorem keepsCodes_event (s : State) {e : Event} (he : ∀ k r w, e ≠ .own k r w) : KeepsCodes s (s.event e) := by
  unfold State.event
  split
  · exact .refl s
  · cases e with
    | hw x => exact keepsCodes_of_contexts (hwMove_contexts (hwMove_hwStep s x))
    | issue k cmd op =>
      simp only [State.issueBy]
      split
      · refine .trans ?_ (keepsCodes_beginCmd _ _)
        exact keepsCodes_setCtx_same s _ rfl
      · exact .refl s
    | irq bus =>
      simp only [State.beginIrq]
      split
      · split
        · refine .trans ?_ (keepsCodes_beginCmd _ _)
          exact keepsCodes_setCtx_same s _ rfl
        · exact .refl s
      · split
        · refine .trans ?_ (keepsCodes_beginCmd _ _)
          exact keepsCodes_setCtx_same s _ rfl
        · exact .refl s
    | agent a => exact keepsCodes_microStep s a
    | signal k =>
      simp only [State.signalThread]
      split
      · exact keepsCodes_setCtx_same s _ rfl
      · exact .refl s
    | own k r w => exact absurd rfl (he k r w)
    | store k b bytes =>
      simp only [State.storeBy]
      split
      · exact keepsCodes_of_contexts rfl
      · exact .refl s
    | reset =>
      dsimp only
      split
      · exact .refl s
      · exact keepsCodes_engineReset s

/-! ## A thread's own accesses -/

section

variable {k : Nat}

theorem event_own (hs : s.safe) (hk : k < s.cfg.nhost) (hb : s.busy (.host k) = false) (r : CtxReg) (w : Word) :
    s.event (.own k r w) = s.setCtx (.host k) ((s.ctx (.host k)).setReg r w) := by
  simp [State.event, hs, State.ownWrite, isHost, hk, hb]

theorem event_store (hs : s.safe) (hk : k < s.cfg.nhost) (hb : s.busy (.host k) = false) (b : Word)
    (bytes : List Byte) :
    s.event (.store k b bytes) = { s with mem := memWriteBytes s.mem b.toNat bytes } := by
  simp [State.event, hs, State.storeBy, isHost, hk, hb]

/-- While a command of the thread is in progress it makes no access of its own. -/
theorem event_of_busy (hb : s.busy (.host k) = true) :
    (∀ r w, s.event (.own k r w) = s) ∧ ∀ b bytes, s.event (.store k b bytes) = s := by
  simp [State.event, State.ownWrite, State.storeBy, hb]

theorem task_of_not_busy {a : Agent} (hb : s.busy a = false) : (s.ctx a).task = none := by
  simp only [State.busy, Bool.or_eq_false_iff] at hb
  simpa using hb.1

/-- The register written holds the word, RC its low 8 bits; every other register is as before. -/
theorem setReg_registers (x : Ctx) (r : CtxReg) (w : Word) :
    let y := x.setReg r w
    y.cmd = (if r = .cmd then w else x.cmd) ∧
    (∀ i : Fin 4, y.op[i] = (if r = .op i then w else x.op[i])) ∧
    (∀ i, y.resRead i = (if r = .res i then some w else x.resRead i)) ∧
    y.rc = (if r = .rc then w.setWidth 8 else x.rc) ∧ y.task = x.task ∧ y.blocked = x.blocked := by
  cases r with
  | cmd => exact ⟨rfl, fun _ => rfl, fun _ => rfl, rfl, rfl, rfl⟩
  | op j =>
    refine ⟨rfl, fun i => ?_, fun _ => rfl, rfl, rfl, rfl⟩
    simp only [Ctx.setReg, Fin.getElem_fin, Vector.getElem_set, CtxReg.op.injEq, Fin.val_inj]
  | res j =>
    refine ⟨rfl, fun _ => rfl, fun i => ?_, rfl, rfl, rfl⟩
    simp only [Ctx.setReg, resRead_writeRes, CtxReg.res.injEq]
  | rc => exact ⟨rfl, fun _ => rfl, fun _ => rfl, rfl, rfl, rfl⟩

end

/-- Settles O15: the event is a write of that register or those bytes, and no other event writes RC freely. -/
theorem registersOfAThreadAreItsOwn : Obligations.RegistersOfAThreadAreItsOwn := by
  intro s hs hlen
  refine ⟨fun k hk hb => ⟨fun r w => ?_, fun b bytes hm fit => ?_⟩, fun k => event_of_busy,
    fun e a he => keepsCodes_event s he a⟩
  · have hh : s.has (.host k) := Nat.lt_of_lt_of_eq hk hlen.symm
    rw [event_own hs hk hb]
    dsimp only
    rw [ctx_setCtx_same s _ hh]
    obtain ⟨hcmd, hop, hres, hrc, htask, hblocked⟩ := setReg_registers (s.ctx (.host k)) r w
    exact ⟨hcmd, hop, hres, hrc, htask.trans (task_of_not_busy hb), hblocked, keepsTable_setCtx .., keepsSoft_setCtx ..,
      keepsEngine_setCtx .., fun b hb => ctx_setCtx_other s _ hb⟩
  · rw [event_store hs hk hb]
    have read := fun x => memRead_memWriteBytes b.toNat bytes x hm fit
    refine ⟨fun j hj => ?_, fun x hx => ?_, rfl⟩
    · rw [read, if_pos (by omega), Nat.add_sub_cancel_left]
    · rw [read, if_neg hx]

end Sys2Proof.Machine
end

section
/-! PROOFS. The operand forms (10_state.md R38 to R45, 41_cdt.md R170, 43_adt.md R210) and the ring
(44_ring_buffer.md). -/

namespace Sys2Proof.Machine

/-! ## CAT sub-fields (R42) -/

/-- Settles O24: the position of a sub-field in its row is its channel modulo 8. -/
theorem catSubFieldsAreIndependent : Obligations.CatSubFieldsAreIndependent := by
  intro v ch c x
  split
  · next h =>
    have e : subLo c = subLo ch := by rw [subLo, subLo, h]
    unfold getSub
    rw [e]
    exact getSub_putSub_same v ch x
  · next h => exact getSub_putSub_other v ch c x h

/-! ## Layouts (R40, R43, R45) -/

theorem cdtRow_fields (ba : BitVec 16) (bd : BitVec 13) (bs : BitVec 9) :
    bits (cdtRow ba bd bs) 0 16 = ba ∧ bits (cdtRow ba bd bs) 16 13 = bd ∧ bits (cdtRow ba bd bs) 32 9 = bs ∧
    bits (cdtRow ba bd bs) 29 3 = 0 ∧ bits (cdtRow ba bd bs) 41 87 = 0 := by
  refine ⟨?_, ?_, ?_, ?_, ?_⟩
  all_goals
    simp (disch := omega) only [cdtRow, bits_append_low, bits_append_high, bits_whole, Nat.reduceSub,
      BitVec.ofNat_eq_ofNat]

/-- The one-bit flags of a CAT sub-field. -/
theorem catValue_flags (ch : Chan) (ty : ChType) (dma : Dma) (en : Bool) :
    (catValue ch ty dma en).getLsbD 11 = en ∧
    ((catValue ch ty dma en).getLsbD 12 = true ↔ dma = .outbound) ∧
    ((catValue ch ty dma en).getLsbD 13 = true ↔ ty = .sync) ∧ (catValue ch ty dma en).getLsbD 10 = false := by
  refine ⟨?_, ?_, ?_, ?_⟩
  all_goals
    simp only [catValue, BitVec.getLsbD_append]
    simp

theorem catValue_fields (ch : Chan) (ty : ChType) (dma : Dma) (en : Bool) :
    bits (catValue ch ty dma en) 0 6 = ch ∧ bits (catValue ch ty dma en) 8 2 = ty.code ∧
    bits (catValue ch ty dma en) 6 2 = 0 ∧ bits (catValue ch ty dma en) 14 2 = 0 := by
  refine ⟨?_, ?_, ?_, ?_⟩
  all_goals
    simp (disch := omega) only [catValue, bits_append_low, bits_append_high, bits_whole, Nat.reduceSub,
      BitVec.ofNat_eq_ofNat]

theorem adtRow_fields (p q : Word) (bd : BitVec 13) (ps : Bool) :
    bits (adtRow p q bd ps) 0 32 = p ∧ bits (adtRow p q bd ps) 32 32 = q ∧ bits (adtRow p q bd ps) 64 13 = bd ∧
    bits (adtRow p q bd ps) 80 13 = bd ∧ bits (adtRow p q bd ps) 77 3 = 0 ∧ bits (adtRow p q bd ps) 93 3 = 0 ∧
    bits (adtRow p q bd ps) 100 4 = 0 ∧ bits (adtRow p q bd ps) 108 4 = 0 ∧ bits (adtRow p q bd ps) 113 15 = 0 := by
  refine ⟨?_, ?_, ?_, ?_, ?_, ?_, ?_, ?_, ?_⟩
  all_goals
    simp (disch := omega) only [adtRow, bits_append_low, bits_append_high, bits_whole, Nat.reduceSub,
      BitVec.ofNat_eq_ofNat]

/-- The one-bit flags of an ADT row. -/
theorem adtRow_flags (p q : Word) (bd : BitVec 13) (ps : Bool) :
    (∀ k ∈ [96, 97, 98, 104, 105, 106], (adtRow p q bd ps).getLsbD k = false) ∧
    (adtRow p q bd ps).getLsbD 99 = ps ∧ (adtRow p q bd ps).getLsbD 107 = ps ∧
    (adtRow p q bd ps).getLsbD 112 = true := by
  refine ⟨?_, ?_, ?_, ?_⟩
  all_goals
    simp only [adtRow, BitVec.getLsbD_append]
    simp

/-- Settles O25: each field of the concatenations, and the accessors by their definitions. -/
theorem managerRowsHaveTheLayoutsOfTheSpec : Obligations.ManagerRowsHaveTheLayoutsOfTheSpec := by
  refine ⟨cdtRow_fields, fun ch ty dma en => ?_, fun p q bd ps => ?_, fun r => ?_, fun v => ⟨rfl, rfl⟩⟩
  · obtain ⟨hcl, hct, h6, h14⟩ := catValue_fields ch ty dma en
    obtain ⟨hce, hrnw, hlck, h10⟩ := catValue_flags ch ty dma en
    exact ⟨hcl, hct, hce, hrnw, hlck, h6, h10, h14⟩
  · obtain ⟨hp, hq, hbd, hbd', h77, h93, h100, h108, h113⟩ := adtRow_fields p q bd ps
    obtain ⟨hflags, hps, hps', hce⟩ := adtRow_flags p q bd ps
    exact ⟨hp, hq, hbd, hbd', hflags, hps, hps', hce, h77, h93, h100, h108, h113⟩
  · exact ⟨⟨rfl, rfl, rfl, rfl, rfl, rfl⟩, ⟨rfl, rfl, rfl, rfl, rfl, rfl⟩, rfl, rfl⟩

/-! ## Tables and depths (R38, R170, R210) -/

theorem reservedRow_iff (c : Params) (off : RowOff) :
    reservedRow c off = true ↔
      0x90 ≤ off.toNat ∨ (off.toNat < 0x40 ∧ c.nch ≤ off.toNat) ∨
      (0x40 ≤ off.toNat ∧ off.toNat < 0x80 ∧ c.nch ≤ off.toNat - 0x40) := by
  simp [reservedRow, or_assoc, and_assoc]

/-- A field of a field. -/
theorem bits_bits {N : Nat} (v : BitVec N) (lo len lo' len' : Nat) (h : lo' + len' ≤ len) :
    bits (bits v lo len) lo' len' = bits v (lo + lo') len' := by
  refine BitVec.eq_of_getLsbD_eq fun i hi => ?_
  simp [hi, show lo' + i < len by omega, Nat.add_assoc]

/-- A sub-field is a half of one word of its row. -/
theorem getSub_eq_half (v : Row) (ch : Chan) :
    getSub v ch = bits (bits v (32 * (ch.toNat % 8 / 2)) 32) (16 * (ch.toNat % 8 % 2)) 16 := by
  rw [bits_bits _ _ _ _ _ (by omega), getSub, subLo]
  congr 1
  omega

theorem validDepth_iff (c : Params) (d : Nat) :
    (validDepth c .sync d = true ↔ d ≠ 0 ∧ d = 4 * c.syncSamples * c.syncFrameBytes) ∧
    (validDepth c .control d = true ↔ d ≠ 0 ∧ c.ctrlMaxPkt ≤ d ∧ d ≤ 8192) ∧
    (validDepth c .async d = true ↔ d ≠ 0 ∧ c.asyncMaxPkt ≤ d ∧ d ≤ 8192) ∧
    (validDepth c .iso d = true ↔ 1 ≤ d ∧ d ≤ 8192 ∧ d % (c.isoBs + 1) = 0) := by
  have hd : ∀ d, decide (d ≤ dmax) = true ↔ d ≤ 8192 := fun d => decide_eq_true_iff
  refine ⟨?_, ?_, ?_, ?_⟩
  all_goals
    simp only [validDepth, Bool.and_eq_true, hd, decide_eq_true_eq, beq_iff_eq, Nat.one_le_iff_ne_zero,
      Params.syncDepth]

theorem toNat_encodeDepth {d : Nat} (h : d ≤ 8192) : (encodeDepth d).toNat = d - 1 := by
  simp only [encodeDepth, BitVec.toNat_ofNat]
  omega

theorem decodeDepth_encodeDepth {d : Nat} (h1 : 1 ≤ d) (h : d ≤ 8192) : decodeDepth (encodeDepth d) = d := by
  rw [decodeDepth, toNat_encodeDepth h]
  omega

theorem encodeDepth_decodeDepth (bd : BitVec 13) : encodeDepth (decodeDepth bd) = bd := by
  simp [encodeDepth, decodeDepth]

/-- Settles O26: the row map, the depths and the completed half. -/
theorem operandFormsFollowTheTables : Obligations.OperandFormsFollowTheTables := by
  refine ⟨fun ch => ⟨toNat_cdtOff ch, toNat_adtOff ch, toNat_catOff .bus ch, toNat_catOff .host ch⟩,
    fun c off => ⟨isCatRow_iff off, reservedRow_iff c off⟩, fun v ch => ⟨rfl, getSub_eq_half v ch⟩, validDepth_iff,
    fun d h1 h => ⟨decodeDepth_encodeDepth h1 h, toNat_encodeDepth h⟩, encodeDepth_decodeDepth, fun v h => ?_⟩
  cases h with
  | ping => rfl
  | pong => rfl

/-! ## The ring (R50, R230, R232) -/

/-- Places counted from one point of a ring of `cap` slots are different below `cap`. -/
theorem add_mod_inj {a cap i j : Nat} (hi : i < cap) (hj : j < cap) (h : (a + i) % cap = (a + j) % cap) : i = j :=
  Nat.ModEq.eq_of_lt_of_lt (Nat.ModEq.add_left_cancel' a h) hi hj

/-- The ring holds the packets `ps`, oldest first. -/
structure Ring.Holds (cap : Nat) (r : Ring) (ps : List (List Byte)) : Prop where
  slots : r.slots.length = cap + 1
  ridx : r.ridx < cap
  widx : r.widx = (r.ridx + ps.length) % cap
  data : ∀ j (h : j < ps.length), r.slots[(r.ridx + j) % cap]? = some (some ps[j])

section

variable {cap : Nat} {r : Ring} {p : List Byte} {ps qs : List (List Byte)}

theorem Ring.Holds.not_full (h : r.Holds cap ps) (hl : ps.length + 1 < cap) : r.full cap = false := by
  rw [Ring.full, decide_eq_false_iff_not, h.widx, Nat.mod_add_mod]
  intro e
  have e : (r.ridx + (ps.length + 1)) % cap = (r.ridx + 0) % cap := by
    rw [← Nat.add_assoc, e, Nat.add_zero, Nat.mod_eq_of_lt h.ridx]
  exact absurd (add_mod_inj hl (by omega) e) (by omega)

/-- An enqueue on a ring that is not full stores the packet behind the others and drops nothing. -/
theorem Ring.Holds.enqueue (h : r.Holds cap ps) (hl : ps.length + 1 < cap) :
    (r.enqueue cap p).2 = false ∧ (r.enqueue cap p).1.dropcnt = r.dropcnt ∧
    (r.enqueue cap p).1.Holds cap (ps ++ [p]) := by
  have hf := h.not_full hl
  unfold Ring.enqueue
  rw [hf]
  refine ⟨rfl, rfl, by simp [h.slots], h.ridx, ?_, fun j hj => ?_⟩
  · simp [h.widx, Nat.add_assoc]
  · have hmod (k : Nat) : (r.ridx + k) % cap < r.slots.length := by
      have := Nat.mod_lt (r.ridx + k) (Nat.zero_lt_of_lt hl)
      rw [h.slots]
      omega
    rw [List.length_append, List.length_singleton] at hj
    show (r.slots.set r.widx (some p))[(r.ridx + j) % cap]? = _
    rw [List.getElem?_set, h.widx]
    by_cases e : j = ps.length
    · subst e
      simp [hmod]
    · have hne : (r.ridx + ps.length) % cap ≠ (r.ridx + j) % cap := fun e' =>
        e (add_mod_inj (by omega) (by omega) e'.symm)
      rw [if_neg hne, h.data j (by omega), List.getElem_append_left]

/-- A dequeue takes the oldest packet. -/
theorem Ring.Holds.dequeue (h : r.Holds cap (p :: ps)) :
    (r.dequeue cap).1 = some p ∧ (r.dequeue cap).2.Holds cap ps := by
  have h0 := h.data 0 (by simp)
  rw [Nat.add_zero, Nat.mod_eq_of_lt h.ridx] at h0
  refine ⟨by simp [Ring.dequeue, h0], h.slots, Nat.mod_lt _ (Nat.zero_lt_of_lt h.ridx), ?_, fun j hj => ?_⟩
  · show r.widx = ((r.ridx + 1) % cap + ps.length) % cap
    rw [h.widx, Nat.mod_add_mod, List.length_cons]
    congr 1
    omega
  · show r.slots[((r.ridx + 1) % cap + j) % cap]? = _
    rw [Nat.mod_add_mod, show r.ridx + 1 + j = r.ridx + (j + 1) by omega, h.data (j + 1) (by simpa using hj)]
    simp

theorem Ring.Holds.empty (h : r.Holds cap []) : r.empty = true := by
  have e := h.widx
  rw [List.length_nil, Nat.add_zero, Nat.mod_eq_of_lt h.ridx] at e
  simp [Ring.empty, e]

theorem Ring.Holds.enqueueAll (h : r.Holds cap qs) (hl : qs.length + ps.length < cap) :
    (enqueueAll cap r ps).dropcnt = r.dropcnt ∧ (enqueueAll cap r ps).Holds cap (qs ++ ps) := by
  induction ps generalizing r qs with
  | nil => exact ⟨rfl, by rwa [List.append_nil]⟩
  | cons p ps ih =>
    rw [List.length_cons] at hl
    obtain ⟨-, hd, hh⟩ := h.enqueue (p := p) (by omega)
    obtain ⟨hd2, hh2⟩ := ih hh (by rw [List.length_append, List.length_singleton]; omega)
    rw [List.append_assoc] at hh2
    exact ⟨hd2.trans hd, hh2⟩

theorem Ring.Holds.dequeueAll (h : r.Holds cap ps) :
    (dequeueAll cap ps.length r).1 = ps.map some ∧ (dequeueAll cap ps.length r).2.empty = true := by
  induction ps generalizing r with
  | nil => exact ⟨rfl, h.empty⟩
  | cons p ps ih =>
    obtain ⟨hp, hh⟩ := h.dequeue
    obtain ⟨h1, h2⟩ := ih hh
    exact ⟨congrArg₂ List.cons hp h1, h2⟩

end

/-- Settles O28: the ring holds what was enqueued, in order. -/
theorem ringReturnsPacketsInOrder : Obligations.RingReturnsPacketsInOrder := by
  intro cap size r ps hcap hw he hl
  have h0 : r.Holds cap [] := by
    refine ⟨hw.slots, hw.ridx, ?_, nofun⟩
    have e : r.ridx = r.widx := by simpa [Ring.empty] using he
    rw [← e, List.length_nil, Nat.add_zero, Nat.mod_eq_of_lt hw.ridx]
  obtain ⟨hd, hh⟩ := h0.enqueueAll (ps := ps) (by simpa using hl)
  obtain ⟨h1, h2⟩ := hh.dequeueAll
  refine ⟨h1, hd, h2, fun i hi => ?_⟩
  have hlen : (ps.take i).length = i := by
    rw [List.length_take]
    omega
  obtain ⟨-, hi⟩ := h0.enqueueAll (ps := ps.take i) (by rw [hlen, List.length_nil]; omega)
  refine (hi.enqueue ?_).1
  rw [List.nil_append, hlen]
  omega

end Sys2Proof.Machine
end

section
/-! PROOFS. The steps of the hardware side (47_hardware_agent.md R310 to R317). -/

namespace Sys2Proof.Machine

variable {s : State}

/-! ## The flags of a half (R45) -/

theorem flagLo_le (h : Half) : flagLo h ≤ 104 := by
  cases h with
  | ping => decide
  | pong => decide

/-- Each bit of an ADT row after its flags of one half were replaced. -/
theorem getLsbD_putFlags (v : Row) (h : Half) (rdy dne err : Bool) (k : Nat) :
    (putFlags v h rdy dne err).getLsbD k =
      if k = flagLo h then rdy else if k = flagLo h + 1 then dne else if k = flagLo h + 2 then err
      else v.getLsbD k := by
  have hle := flagLo_le h
  rw [putFlags, getLsbD_setField]
  by_cases h0 : k = flagLo h
  · subst h0
    rw [if_pos (by omega), if_pos rfl, Nat.sub_self]
    simp only [BitVec.getLsbD_append]
    simp
  · by_cases h1 : k = flagLo h + 1
    · subst h1
      rw [if_pos (by omega), if_neg h0, if_pos rfl, Nat.add_sub_cancel_left]
      simp only [BitVec.getLsbD_append]
      simp
    · by_cases h2 : k = flagLo h + 2
      · subst h2
        rw [if_pos (by omega), if_neg h0, if_neg h1, if_pos rfl, Nat.add_sub_cancel_left]
        simp only [BitVec.getLsbD_append]
        simp
      · rw [if_neg (by omega), if_neg h0, if_neg h1, if_neg h2]

@[simp] theorem rdyOf_putFlags (v : Row) (h : Half) (rdy dne err : Bool) :
    rdyOf (putFlags v h rdy dne err) h = rdy := by
  rw [rdyOf, getLsbD_putFlags, if_pos rfl]

@[simp] theorem dneOf_putFlags (v : Row) (h : Half) (rdy dne err : Bool) :
    dneOf (putFlags v h rdy dne err) h = dne := by
  rw [dneOf, getLsbD_putFlags, if_neg (by omega), if_pos rfl]

@[simp] theorem errOf_putFlags (v : Row) (h : Half) (rdy dne err : Bool) :
    errOf (putFlags v h rdy dne err) h = err := by
  rw [errOf, getLsbD_putFlags, if_neg (by omega), if_neg (by omega), if_pos rfl]

theorem getLsbD_putFlags_other (v : Row) {h : Half} (rdy dne err : Bool) {k : Nat}
    (hk : k < flagLo h ∨ flagLo h + 3 ≤ k) : (putFlags v h rdy dne err).getLsbD k = v.getLsbD k := by
  rw [getLsbD_putFlags, if_neg (by omega), if_neg (by omega), if_neg (by omega)]

/-! ## PERFORM of a write (R310, R311) -/

theorem perform_of_write {off : RowOff} {v : Row} (hp : s.txPending = some (.write off v))
    (hn : s.txPerformed = false) : s.perform = { s.storeRow off v with txPerformed := true } := by
  simp [State.perform, hn, hp, State.storeRow]

theorem perform_of_performed (h : s.txPerformed = true) : s.perform = s := by
  simp [State.perform, h]

/-- PERFORM of a write, arming apart. -/
theorem perform_write_frame {off : RowOff} {v : Row} (hp : s.txPending = some (.write off v))
    (hn : s.txPerformed = false) :
    ∃ hw ap, s.perform = { s.putRow off v with hwHalf := hw, armedPrev := ap, txPerformed := true } := by
  obtain ⟨hw, ap, e⟩ := storeRow_frame s off v
  exact ⟨hw, ap, by rw [perform_of_write hp hn, e]⟩

theorem keepsRowsBut_putRow (s : State) (off : RowOff) (v : Row) : KeepsRowsBut [off] s (s.putRow off v) := by
  intro o ho
  have ho : o ≠ off := by simpa using ho
  rw [row_putRow, isWritten_putRow, if_neg ho]
  simp [ho]

/-- What PERFORM of a write of any row does, arming apart. -/
theorem perform_write {off : RowOff} {v : Row} (hp : s.txPending = some (.write off v))
    (hn : s.txPerformed = false) :
    s.perform.row off = v ∧ s.perform.isWritten off = true ∧ KeepsRowsBut [off] s s.perform ∧
    s.perform.txPerformed = true ∧ s.perform.txPending = s.txPending ∧ s.perform.dat = s.dat ∧
    s.perform.adr = s.adr ∧ s.perform.ctl = s.ctl ∧ KeepsSoft [] [] s s.perform ∧ KeepsEngine s s.perform ∧
    (∀ a, s.perform.ctx a = s.ctx a) ∧ s.perform.cur = s.cur ∧ s.perform.presented = s.presented ∧
    s.perform.env = s.env := by
  obtain ⟨hw, ap, e⟩ := perform_write_frame hp hn
  rw [e]
  have hwr : (s.putRow off v).isWritten off = true := by simp [isWritten_putRow]
  exact ⟨row_putRow_same s off v, hwr, keepsRowsBut_putRow s off v, rfl, rfl, rfl, rfl, rfl,
    keepsSoft_of_softPart rfl, keepsEngine_of_enginePart rfl, ctx_of_contexts rfl, rfl, rfl, rfl⟩

/-- Settles O16. -/
theorem performOfAWriteStoresTheRow : Obligations.PerformOfAWriteStoresTheRow := by
  intro s off v hp hn
  obtain ⟨hrow, hwr, hrows, hperf, hpend, hdat, hadr, hctl, hsoft, heng, hctx, -⟩ := perform_write hp hn
  refine ⟨hrow, hwr, hrows, hperf, hpend, hdat, hadr, hctl, hsoft, heng, hctx, fun hcat => ?_,
    perform_of_performed hperf⟩
  rw [perform_of_write hp hn, State.storeRow, hcat]
  exact ⟨rfl, rfl⟩

/-- Settles O17. -/
theorem performOfAReadAndSignal : Obligations.PerformOfAReadAndSignal := by
  intro s off hp hn
  refine ⟨fun hw => ⟨?_, fun hc => ?_⟩, fun hw hs => ?_, ?_⟩
  · simp only [State.perform, hn, hp, hw]
    rfl
  · simp [State.perform, hn, hp, hw, State.signalDone, hc]
  · have hs : s.fault.flag = false := hs
    simp [State.perform, hn, hp, hw, State.record, hs, State.cmdOf]
  · simp [State.signalDone, hn]

/-! ## The arming edge (R44, R311) -/

/-- `armed` by the bits and the written flags of the two entries. -/
theorem armed_iff (s : State) (ch : Chan) : s.armed ch = true ↔
    ∀ ns, (s.catEntry ns ch).getLsbD 11 = true ∧ s.isWritten (catOff ns ch) = true := by
  have one (ns : Ns) : s.ceSet ns ch = true ↔
      (s.catEntry ns ch).getLsbD 11 = true ∧ s.isWritten (catOff ns ch) = true := by
    rw [State.ceSet, Bool.and_eq_true, and_comm]
    rfl
  rw [State.armed, Bool.and_eq_true, one, one]
  refine ⟨fun h ns => ?_, fun h => ⟨h .bus, h .host⟩⟩
  cases ns with
  | bus => exact h.1
  | host => exact h.2

/-- Settles O18: the edge channel by channel, on the state the row write leaves. -/
theorem armingEdgeStartsWithPing : Obligations.ArmingEdgeStartsWithPing := by
  refine ⟨armed_iff, fun s off v hp hn hcat => ⟨fun ch => ?_, perform_write hp hn⟩⟩
  have e : s.perform = { (s.putRow off v).armEdges with txPerformed := true } := by
    rw [perform_of_write hp hn, State.storeRow, hcat]
    rfl
  obtain ⟨harmed, hprev, hhwh⟩ := armEdges_at (s.putRow off v) ch
  have harmed' : s.perform.armed ch = (s.putRow off v).armed ch := by
    rw [e]
    exact harmed
  have hprev' : s.perform.prevArmed ch = if ch.toNat < s.cfg.nch then (s.putRow off v).armed ch else s.prevArmed ch := by
    rw [e]
    exact hprev
  have hhwh' : s.perform.hwh ch = if ch.toNat < s.cfg.nch ∧ (s.putRow off v).armed ch = true ∧
      s.prevArmed ch = false then .ping else s.hwh ch := by
    rw [e]
    exact hhwh
  split
  · next hc =>
    rw [hprev', hhwh', harmed', if_pos hc]
    exact ⟨rfl, by simp [hc]⟩
  · next hc =>
    rw [hprev', hhwh', if_neg hc]
    exact ⟨rfl, by simp [hc]⟩

/-! ## XFER (R312) -/

theorem xferEnabled_iff (s : State) (ch : Chan) : s.xferEnabled ch = true ↔
    ch.toNat < s.cfg.nch ∧ s.armed ch = true ∧ s.isWritten (adtOff ch) = true ∧
      rdyOf (s.row (adtOff ch)) (s.hwh ch) = true := by
  simp [State.xferEnabled, and_assoc]

theorem xfer_of_not_enabled {ch : Chan} (h : s.xferEnabled ch = false) (ok : Bool) (bytes : List Byte) :
    s.xfer ch ok bytes = s := by
  simp [State.xfer, h]

theorem xfer_wraps {ch : Chan} (h : s.xferEnabled ch = true)
    (hw : wraps (addrOf (s.row (adtOff ch)) (s.hwh ch)) (decodeDepth (bdOf (s.row (adtOff ch)) (s.hwh ch))) = true)
    (ok : Bool) (bytes : List Byte) : s.xfer ch ok bytes = s.record .hw .addressWrap := by
  simp [State.xfer, h, hw]

theorem xfer_transmit {ch : Chan} (h : s.xferEnabled ch = true)
    (hw : wraps (addrOf (s.row (adtOff ch)) (s.hwh ch)) (decodeDepth (bdOf (s.row (adtOff ch)) (s.hwh ch))) = false)
    (hr : rnwBit (s.catEntry .bus ch) = true) (ok : Bool) (bytes : List Byte) :
    s.xfer ch ok bytes = s.xferDone ch ok := by
  simp [State.xfer, h, hw, hr]

theorem xfer_receive {ch : Chan} {ok : Bool} {bytes : List Byte} (h : s.xferEnabled ch = true)
    (hw : wraps (addrOf (s.row (adtOff ch)) (s.hwh ch)) (decodeDepth (bdOf (s.row (adtOff ch)) (s.hwh ch))) = false)
    (hr : rnwBit (s.catEntry .bus ch) = false)
    (hl : legalXfer (s.row (adtOff ch)) (s.hwh ch) ok bytes.length = true) :
    s.xfer ch ok bytes = State.xferDone
      { s with mem := memWriteBytes s.mem (addrOf (s.row (adtOff ch)) (s.hwh ch)).toNat bytes } ch ok := by
  simp [State.xfer, h, hw, hr, hl]

/-- The lengths a receive transfer may draw; none is longer than the half. -/
theorem legalXfer_iff (r : Row) (h : Half) (ok : Bool) (k : Nat) : legalXfer r h ok k = true ↔
    if ok then (if psOf r h then 1 ≤ k ∧ k ≤ decodeDepth (bdOf r h) else k = decodeDepth (bdOf r h))
      else k = decodeDepth (bdOf r h) := by
  cases ok <;> cases hp : psOf r h <;> simp [legalXfer, hp]

theorem le_of_legalXfer {r : Row} {h : Half} {ok : Bool} {k : Nat} (hl : legalXfer r h ok k = true) :
    k ≤ decodeDepth (bdOf r h) := by
  rw [legalXfer_iff] at hl
  split at hl
  · split at hl
    · exact hl.2
    · exact hl.le
  · exact hl.le

/-- The hardware's cursor after a transfer. -/
theorem hwh_xferDone (s : State) (ch : Chan) (ok : Bool) (c : Chan) : (s.xferDone ch ok).hwh c =
    if c = ch ∧ contOf (s.row (adtOff ch)) = true then Half.other (s.hwh ch) else s.hwh c := by
  unfold State.xferDone
  dsimp only
  split
  · next h =>
    rw [hwh_setHwh]
    simp only [h, and_true]
    rfl
  · next h => exact (if_neg fun hc => h hc.2).symm

/-- What a transfer that completes leaves, whatever the memory it completes over. -/
theorem transferred_xferDone (s : State) (ch : Chan) (ok : Bool) (m : List Host.Cell) :
    Transferred s (State.xferDone { s with mem := m } ch ok) ch (s.hwh ch) ok := by
  obtain ⟨hw, e⟩ := xferDone_frame { s with mem := m } ch ok
  have hcursor := hwh_xferDone { s with mem := m } ch ok
  have hrow : (State.xferDone { s with mem := m } ch ok).row (adtOff ch) = xferRow (s.row (adtOff ch)) (s.hwh ch) ok := by
    rw [e]
    exact row_putRow_same s _ _
  refine ⟨?_, ?_, ?_, fun k h0 h1 h2 => ?_, ?_, ?_, ?_, (hcursor ch).trans ?_, fun c hc => (hcursor c).trans ?_, ?_⟩
  · rw [hrow, xferRow, rdyOf_putFlags]
  · rw [hrow, xferRow, dneOf_putFlags]
  · rw [hrow, xferRow, errOf_putFlags]
  · rw [hrow, xferRow, getLsbD_putFlags, if_neg h0, if_neg h1, if_neg h2]
  · rw [e]
    exact keepsRowsBut_putRow s _ _
  · rw [e]
  · rw [e]
  · simp only [true_and]
    rfl
  · exact if_neg fun h => hc h.1
  · rw [e]
    exact ⟨rfl, ⟨rfl, rfl, rfl, rfl, rfl⟩, ⟨rfl, rfl⟩, ⟨rfl, rfl⟩, fun _ _ => rfl, fun _ _ => rfl, rfl,
      keepsEngine_of_enginePart rfl, ctx_of_contexts rfl⟩

theorem mem_xferDone (s : State) (ch : Chan) (ok : Bool) : (s.xferDone ch ok).mem = s.mem := by
  obtain ⟨_, e⟩ := xferDone_frame s ch ok
  rw [e]
  rfl

theorem record_hw (hs : s.safe) (f : FReason) :
    s.record .hw f = { s with fault := { flag := true, reason := some f, cmd := 0, agent := some .hw } } := by
  have hs : s.fault.flag = false := hs
  simp [State.record, hs, State.cmdOf]

/-- Settles O19. -/
theorem transmitTransferCompletesTheHalf : Obligations.TransmitTransferCompletesTheHalf := by
  intro s ch ok bytes
  refine ⟨fun he hw hr => ?_, fun he hw hs => ?_, fun he => ?_⟩
  · rw [xfer_transmit ((xferEnabled_iff s ch).mpr he) hw hr]
    exact ⟨transferred_xferDone s ch ok s.mem, fun x => by rw [mem_xferDone]⟩
  · rw [xfer_wraps ((xferEnabled_iff s ch).mpr he) hw, record_hw hs]
  · exact xfer_of_not_enabled (by rwa [← xferEnabled_iff, Bool.not_eq_true] at he) ok bytes

/-- Settles O20. -/
theorem receiveTransferStoresTheBytes : Obligations.ReceiveTransferStoresTheBytes := by
  intro s ch ok bytes
  refine ⟨fun he hm hr hw hl => ?_, fun he => ?_⟩
  · have hl := (legalXfer_iff _ _ _ _).mpr hl
    have hle := le_of_legalXfer hl
    rw [xfer_receive ((xferEnabled_iff s ch).mpr he) hw hr hl]
    refine ⟨transferred_xferDone s ch ok _, fun x => ?_⟩
    have fit : (addrOf (s.row (adtOff ch)) (s.hwh ch)).toNat + bytes.length ≤ memSize := by
      simp only [wraps, decide_eq_false_iff_not] at hw
      simp only [memSize]
      omega
    rw [mem_xferDone]
    exact memRead_memWriteBytes _ bytes x hm fit
  · exact xfer_of_not_enabled (by rwa [← xferEnabled_iff, Bool.not_eq_true] at he) ok bytes

/-! ## RAISE and PROGRESS (R314, R315) -/

theorem cdtEnabled_iff (s : State) (ch : Chan) : s.cdtEnabled ch = true ↔
    ch.toNat < s.cfg.nch ∧ s.armed ch = true ∧ s.isWritten (cdtOff ch) = true := by
  simp [State.cdtEnabled, and_assoc]

/-- The STS field put is the one read. -/
@[simp] theorem stsOf_putSts (v : Row) (x : BitVec 4) : stsOf (putSts v x) = x :=
  bits_setField_same v 48 x (by omega)

theorem getLsbD_putSts_other (v : Row) (x : BitVec 4) {k : Nat} (h : k < 48 ∨ 52 ≤ k) :
    (putSts v x).getLsbD k = v.getLsbD k := bit_setField_other v 48 x k (by omega)

/-- Settles O21: each step stores one CDT row with a field of its own replaced. -/
theorem raiseAndProgressChangeTheirBitsOnly : Obligations.RaiseAndProgressChangeTheirBitsOnly := by
  intro s ch b rdp wrp hb
  refine ⟨fun he => ⟨?_, ?_⟩, fun he => ?_⟩
  · have e : s.raiseSts ch b =
        s.putRow (cdtOff ch) (putSts (s.row (cdtOff ch)) (stsOf (s.row (cdtOff ch)) ||| b)) := by
      rw [State.raiseSts, if_pos]
      simpa [(cdtEnabled_iff s ch).mpr he] using hb
    dsimp only
    rw [e, row_putRow_same, isWritten_putRow]
    exact ⟨stsOf_putSts .., fun k hk => getLsbD_putSts_other _ _ hk, by simp, keepsRowsBut_putRow _ _ _, keepsSoft_of_softPart rfl,
      ⟨rfl, rfl, rfl, rfl, rfl⟩, ⟨rfl, rfl⟩, keepsEngine_of_enginePart rfl, ctx_of_contexts rfl, rfl, rfl, rfl⟩
  · have e : s.progress ch rdp wrp =
        s.putRow (cdtOff ch) (setField (s.row (cdtOff ch)) 52 (BitVec.ofBool wrp ++ BitVec.ofBool rdp)) := by
      simp [State.progress, (cdtEnabled_iff s ch).mpr he]
    dsimp only
    rw [e, row_putRow_same, isWritten_putRow]
    refine ⟨?_, ?_, fun k hk => bit_setField_other _ 52 _ k (by omega), by simp, keepsRowsBut_putRow _ _ _,
      keepsSoft_of_softPart rfl, ⟨rfl, rfl, rfl, rfl, rfl⟩, ⟨rfl, rfl⟩, keepsEngine_of_enginePart rfl,
      ctx_of_contexts rfl, rfl, rfl, rfl⟩
    · rw [getLsbD_setField, if_pos (by omega), BitVec.getLsbD_append]
      simp
    · rw [getLsbD_setField, if_pos (by omega), BitVec.getLsbD_append]
      simp
  · rw [← cdtEnabled_iff, Bool.not_eq_true] at he
    simp [State.raiseSts, State.progress, he]

/-! ## BUS, and what no hardware step does (R316, R317) -/

theorem hwMove_bstat {e : HwStep} {t : State} (m : HwMove s e t) (he : ∀ c l, e ≠ .bus c l) :
    t.bstat = s.bstat := by
  cases m with
  | write off v =>
    obtain ⟨_, _, e⟩ := storeRow_frame s off v
    rw [e]
    rfl
  | fault _ f => exact record_bstat ..
  | transmit ch ok =>
    obtain ⟨_, e⟩ := xferDone_frame s ch ok
    rw [e]
    rfl
  | receive ch ok bytes =>
    obtain ⟨_, e⟩ := xferDone_frame _ ch ok
    rw [e]
    rfl
  | bus c l => exact absurd rfl (he c l)
  | _ => rfl

/-- The bits BUS(c, l) writes. -/
theorem getLsbD_busWord (c l : Bool) :
    let w : Word := 0#30 ++ BitVec.ofBool l ++ BitVec.ofBool c
    w.getLsbD 0 = c ∧ w.getLsbD 1 = l ∧ ∀ k, 2 ≤ k → w.getLsbD k = false := by
  refine ⟨?_, ?_, fun k hk => ?_⟩
  · simp only [BitVec.getLsbD_append]
    simp
  · simp only [BitVec.getLsbD_append]
    simp
  · simp only [BitVec.getLsbD_append]
    simp [show ¬ k < 1 by omega, show ¬ k - 1 < 1 by omega]

/-- Settles O22. -/
theorem onlyTheBusStepChangesBusStatus : Obligations.OnlyTheBusStepChangesBusStatus := by
  intro s
  refine ⟨fun c l hcl => ?_, rfl, fun h he => hwMove_bstat (hwMove_hwStep s h) he,
    fun a d => (apply_keepsBusAndCodes a s d).1⟩
  have e : s.busStep c l = { s with bstat := 0#30 ++ BitVec.ofBool l ++ BitVec.ofBool c } := by
    cases c <;> cases l <;> simp [State.busStep] at hcl ⊢
  rw [e]
  obtain ⟨h0, h1, h2⟩ := getLsbD_busWord c l
  exact ⟨h0, h1, h2, rfl⟩

theorem hwMove_nodes_lock {e : HwStep} {t : State} (m : HwMove s e t) : t.nodes = s.nodes ∧ t.lock = s.lock := by
  cases m with
  | write off v =>
    obtain ⟨_, _, e⟩ := storeRow_frame s off v
    rw [e]
    exact ⟨rfl, rfl⟩
  | fault _ f => exact ⟨record_nodes .., record_lock ..⟩
  | transmit ch ok =>
    obtain ⟨_, e⟩ := xferDone_frame s ch ok
    rw [e]
    exact ⟨rfl, rfl⟩
  | receive ch ok bytes =>
    obtain ⟨_, e⟩ := xferDone_frame _ ch ok
    rw [e]
    exact ⟨rfl, rfl⟩
  | _ => exact ⟨rfl, rfl⟩

/-- The rows after a hardware step beside PERFORM: the CAT rows, the placement fields of CDT rows and the fields
of ADT rows but RDY, DNE and ERR are as before, and no RDY is set. -/
structure HwRows (s t : State) : Prop where
  cat : ∀ off, isCatRow off = true → t.row off = s.row off
  cdt : ∀ (ch : Chan) k, k < 48 ∨ 54 ≤ k → (t.row (cdtOff ch)).getLsbD k = (s.row (cdtOff ch)).getLsbD k
  adt : ∀ (ch : Chan) k, (k < 96 ∨ 99 ≤ k) → (k < 104 ∨ 107 ≤ k) →
    (t.row (adtOff ch)).getLsbD k = (s.row (adtOff ch)).getLsbD k
  rdy : ∀ (ch : Chan) (x : Half), rdyOf (t.row (adtOff ch)) x = true → rdyOf (s.row (adtOff ch)) x = true

theorem hwRows_of_rows {t : State} (h : t.rows = s.rows) : HwRows s t := by
  have row : ∀ off, t.row off = s.row off := fun off => by simp only [State.row, h]
  exact ⟨fun _ _ => row _, fun _ _ _ => by rw [row], fun _ _ _ _ => by rw [row], fun _ _ => by rw [row]; exact id⟩

/-- A field within bits 48 to 53 of one CDT row replaced. -/
theorem hwRows_putRow_cdt (s : State) (ch : Chan) {len : Nat} (lo : Nat) (x : BitVec len) (h1 : 48 ≤ lo)
    (h2 : lo + len ≤ 54) : HwRows s (s.putRow (cdtOff ch) (setField (s.row (cdtOff ch)) lo x)) where
  cat off hc := by
    have hne : off ≠ cdtOff ch := by
      rintro rfl
      rw [isCatRow_cdtOff] at hc
      exact nomatch hc
    rw [row_putRow_other s _ hne]
  cdt c k hk := by
    rw [row_putRow]
    split
    · next e => rw [bit_setField_other _ _ _ _ (by omega), e]
    · rfl
  adt c k _ _ := by rw [row_putRow_other s _ (cdtOff_ne_adtOff ch c).symm]
  rdy c x := by
    rw [row_putRow_other s _ (cdtOff_ne_adtOff ch c).symm]
    exact id

/-- A transfer changes flags of the half it completes, and clears its RDY. -/
theorem hwRows_xferDone (s : State) (ch : Chan) (ok : Bool) : HwRows s (s.xferDone ch ok) := by
  obtain ⟨hw, e⟩ := xferDone_frame s ch ok
  have row (off : RowOff) : (s.xferDone ch ok).row off =
      if off = adtOff ch then xferRow (s.row (adtOff ch)) (s.hwh ch) ok else s.row off := by
    rw [e]
    exact row_putRow s _ _ _
  refine ⟨fun off hc => ?_, fun c k _ => ?_, fun c k h1 h2 => ?_, fun c x => ?_⟩
  · rw [row, if_neg]
    rintro rfl
    rw [isCatRow_adtOff] at hc
    exact nomatch hc
  · rw [row, if_neg (cdtOff_ne_adtOff c ch)]
  · rw [row]
    split
    · next hc =>
      rw [xferRow, getLsbD_putFlags_other, hc]
      cases s.hwh ch with
      | ping => exact h1
      | pong => exact h2
    · rfl
  · rw [row]
    split
    · next hc =>
      rw [hc, rdyOf, xferRow, getLsbD_putFlags]
      split
      · exact nofun
      · next hx =>
        rw [if_neg, if_neg]
        · exact id
        · cases x <;> cases s.hwh ch <;> decide
        · cases x <;> cases s.hwh ch <;> decide
    · exact id

theorem hwMove_rows {e : HwStep} {t : State} (m : HwMove s e t) (he : e ≠ .perform) : HwRows s t := by
  cases m with
  | idle => exact hwRows_of_rows rfl
  | write => exact absurd rfl he
  | read => exact absurd rfl he
  | fault _ f => exact hwRows_of_rows (record_rows ..)
  | signal => exact hwRows_of_rows rfl
  | transmit ch ok => exact hwRows_xferDone s ch ok
  | receive ch ok bytes =>
    obtain ⟨hcat, hcdt, hadt, hrdy⟩ := hwRows_xferDone { s with mem := _ } ch ok
    exact ⟨hcat, hcdt, hadt, hrdy⟩
  | cdt _ ch lo x _ h1 h2 => exact hwRows_putRow_cdt s ch lo x h1 h2
  | bus => exact hwRows_of_rows rfl

/-- Settles O23: move by move. -/
theorem hardwareWritesNothingElse : Obligations.HardwareWritesNothingElse := by
  intro s h
  have m := hwMove_hwStep s h
  obtain ⟨hnodes, hlock⟩ := hwMove_nodes_lock m
  refine ⟨fun n _ => by simp only [State.node, hnodes], hlock, ctx_of_contexts (hwMove_contexts m), fun hp => ?_⟩
  obtain ⟨hcat, hcdt, hadt, hrdy⟩ := hwMove_rows m hp
  exact ⟨hcat, hcdt, hadt, hrdy⟩

end Sys2Proof.Machine
end

section
/-! PROOFS. Whole commands: what the end of a command, or its fault, leaves of the state its run left. -/

namespace Sys2Proof.Machine

variable {s t u : State} {a : Agent} {i : Instr} {p : Prog Result} {rc : RC} {res : List (Fin 4 × Word)}

/-! ## The state a run left, and the state after the command -/

/-- `t` is `s` but for the contexts and the turn. -/
def SameMachine (s t : State) : Prop :=
  ∃ th h b p, t = { s with threads := th, hd := h, bd := b, presented := p }

theorem sameMachine_finish (s : State) (a : Agent) (r : Result) : SameMachine s (s.finish a r) := by
  unfold State.finish State.release
  dsimp only
  cases a <;> split <;> exact ⟨_, _, _, _, rfl⟩

theorem SameMachine.softPart (h : SameMachine s t) : t.softPart = s.softPart := by
  obtain ⟨_, _, _, _, rfl⟩ := h
  rfl

theorem SameMachine.tablePart (h : SameMachine s t) : t.tablePart = s.tablePart := by
  obtain ⟨_, _, _, _, rfl⟩ := h
  rfl

theorem Moved.softPart (h : Moved s t) : t.softPart = s.softPart := by
  obtain ⟨_, _, _, _, _, _, rfl⟩ := h
  rfl

/-- `t` differs from `s` neither in a context nor in the turn's agent, the parameters, BSTAT, the lock or the
fault record: what a run that wakes nobody leaves alone. -/
structure Quiet (s t : State) : Prop where
  contexts : t.contexts = s.contexts
  cur : t.cur = s.cur
  engine : t.enginePart = s.enginePart

theorem Moved.quiet (h : Moved s.begun t) : Quiet s t := by
  obtain ⟨_, _, _, _, _, _, rfl⟩ := h
  exact ⟨rfl, rfl, rfl⟩

theorem sameAgent_of_ctx (hc : u.cur = s.cur) (ht : u.threads.length = s.threads.length) (h : u.ctx a = s.ctx a) :
    SameAgent a s u := ⟨hc, ht, fun _ => by rw [h], by rw [h], by rw [h]; exact ⟨rfl, rfl⟩⟩

theorem Quiet.sameAgent (h : Quiet s u) (a : Agent) : SameAgent a s u :=
  sameAgent_of_ctx h.cur (congrArg (fun x : List Ctx × _ => x.1.length) h.contexts) (ctx_of_contexts h.contexts a)

theorem Does.of_ends {α : Type} {p : Prog α} {x : α} (h : Ends a p s x t) :
    Does a p s (fun y u => y = x ∧ u = t) := ⟨x, t, h, rfl, rfl⟩

theorem has_of_contexts (e : t.contexts = s.contexts) (h : s.has a) : t.has a := by
  have ht : t.threads = s.threads := congrArg Prod.fst e
  cases a with
  | host k => exact lt_of_lt_of_eq h (congrArg List.length ht).symm
  | hd => trivial
  | bd => trivial
  | hw => exact h

/-- `KeepsSoft` is about the software side of the two states. -/
theorem KeepsSoft.of_parts {chs : List Chan} {ns : List NodeNo} {s' t' : State} (h : KeepsSoft chs ns s t)
    (e1 : s'.softPart = s.softPart) (e2 : t'.softPart = t.softPart) : KeepsSoft chs ns s' t' := by
  have h1 := keepsSoft_of_softPart (chs := []) (ns := []) e1.symm
  have h2 := keepsSoft_of_softPart (chs := []) (ns := []) e2
  exact ⟨⟨h2.status.1.trans (h.status.1.trans h1.status.1), h2.status.2.trans (h.status.2.trans h1.status.2)⟩,
    ⟨h2.masks.1.trans (h.masks.1.trans h1.masks.1), h2.masks.2.trans (h.masks.2.trans h1.masks.2)⟩,
    ⟨h2.config.1.trans (h.config.1.trans h1.config.1), h2.config.2.trans (h.config.2.trans h1.config.2)⟩,
    fun ch hc => (h2.halves ch (by simp)).trans ((h.halves ch hc).trans (h1.halves ch (by simp))),
    fun n hn => (h2.nodes n (by simp)).trans ((h.nodes n hn).trans (h1.nodes n (by simp))),
    h2.log.trans (h.log.trans h1.log), fun x => (h2.mem x).trans ((h.mem x).trans (h1.mem x))⟩

/-! ## Commands that end -/

/-- A ready command whose run ends with a code: its next state is the one the run left, but for the contexts and
the turn, and of the contexts its own only is another. -/
theorem Does.endsCommand {R : State → Prop} (h : s.Ready a i)
    (d : Does a p s.begun fun x u => x = { rc := some rc, res := res } ∧ SameAgent a s u ∧ R u)
    (nd : (res.map (·.1)).Nodup) :
    ∃ u t, R u ∧ SameMachine u t ∧ s.runCommand i p = .next t ∧ Ended a s t rc res ∧ ∀ b, b ≠ a → t.ctx b = u.ctx b := by
  obtain ⟨u, hu, he, hr⟩ := Does.command h d nd
  exact ⟨u, _, hu, sameMachine_finish u a _, he, hr, fun b hb => ctx_finish_other _ hb⟩

/-- The same for a run that wakes nobody. -/
theorem Does.quietCommand {R : State → Prop} (h : s.Ready a i)
    (d : Does a p s.begun fun x u => x = { rc := some rc, res := res } ∧ Quiet s u ∧ R u)
    (nd : (res.map (·.1)).Nodup) :
    ∃ u t, R u ∧ SameMachine u t ∧ s.runCommand i p = .next t ∧ Ended a s t rc res ∧ KeepsCore a s t := by
  obtain ⟨u, t, ⟨hq, hu⟩, hm, he, hr, ho⟩ := Does.endsCommand (R := fun u => Quiet s u ∧ R u) h
    (d.mono fun x u hx => ⟨hx.1, hx.2.1.sameAgent a, hx.2⟩) nd
  refine ⟨u, t, hu, hm, he, hr, ?_, fun b hb => (ho b hb).trans (ctx_of_contexts hq.contexts b)⟩
  obtain ⟨_, _, _, _, rfl⟩ := hm
  exact keepsEngine_of_enginePart hq.engine

/-- The same for a run that moves nothing but the table RAM, the window's data and address, and the arming
state. -/
theorem Does.tableCommand {R : State → Prop} (h : s.Ready a i) (ht : s.TableReady)
    (d : Does a p s.begun fun x u => x = { rc := some rc, res := res } ∧ Moved s.begun u ∧ R u)
    (nd : (res.map (·.1)).Nodup) :
    ∃ u t, R u ∧ SameMachine u t ∧ s.runCommand i p = .next t ∧ Ended a s t rc res ∧ t.Idle ∧
      KeepsSoft [] [] s t ∧ KeepsCore a s t := by
  obtain ⟨u, t, ⟨hv, hu⟩, hm, he, hr, hk⟩ := Does.quietCommand (R := fun u => Moved s.begun u ∧ R u) h
    (d.mono fun x u hx => ⟨hx.1, hx.2.1.quiet, hx.2⟩) nd
  refine ⟨u, t, hu, hm, he, hr, ?_, keepsSoft_of_softPart (hm.softPart.trans hv.softPart), hk⟩
  have hc := hv.calm (begun_calm h.safe ht)
  obtain ⟨_, _, _, _, rfl⟩ := hm
  exact hc.2.1

/-! ## Commands that raise -/

/-- A ready command whose run raises a fault and has touched no context. -/
theorem Raises.command {f : FReason} (h : s.Ready a i) (e : Raises a p s.begun f u) (hq : Quiet s { u with lock := s.lock }) :
    s.runCommand i p = .next (u.raise a f) ∧ Faulted a f s (u.raise a f) := by
  have hx : ∀ b, u.ctx b = s.ctx b := ctx_of_contexts hq.contexts
  have hk : KeepsEngine s { u with lock := s.lock } := keepsEngine_of_enginePart hq.engine
  have hu : u.has a := has_of_contexts (s := s) hq.contexts (has_of_mayIssue h.threads h.issuer)
  exact ⟨runCommand_raises h e, faulted_raise f hu (hq.cur.trans h.cur) ((congrArg (fun x : FaultRecord => x.flag) hk.fault).trans h.safe) hx hk.cfg hk.bstat⟩

/-! ## What was read, what was written -/

/-- `OnlyRead` is about the table side and the software side of the state. -/
theorem OnlyRead.of_parts {off : RowOff} (h : OnlyRead off s u) (e1 : t.tablePart = u.tablePart)
    (e2 : t.softPart = u.softPart) : OnlyRead off s t := by
  obtain ⟨hrows, hwin, harm⟩ := keepsTable_of_tablePart e1
  obtain ⟨hdat, hadr, hctl, hpend, hperf⟩ := hwin
  refine ⟨fun o ho => ?_, ⟨harm.1.trans h.arming.1, harm.2.trans h.arming.2⟩, ?_, hadr.trans h.adr, fun k => ?_,
    h.soft.of_parts rfl e2⟩
  · exact ⟨(hrows o ho).1.trans (h.rows o ho).1, (hrows o ho).2.trans (h.rows o ho).2⟩
  · exact ⟨hpend.trans h.idle.1, hperf.trans h.idle.2.1, hctl.trans h.idle.2.2⟩
  · rw [← h.dat k]
    simp only [State.readReg, hdat]

theorem adrWord_read (off : RowOff) : adrWord false off = off.setWidth 32 := by
  revert off; decide

theorem adrWord_write (off : RowOff) : adrWord true off = 0x80000000 ||| off.setWidth 32 := by
  revert off; decide

theorem wordsOf_get (v : Row) (k : Fin 4) : (wordsOf v)[k] = bits v (32 * k.val) 32 := by
  fin_cases k <;> rfl

/-- The four words of the row made of four words. -/
theorem wordsOf_rowOf (w : Vector Word 4) : wordsOf (rowOf w) = w := by
  have hword : ∀ k : Fin 4, rowWord (rowOf w) k = w[k] := by
    intro k
    fin_cases k <;> simp (disch := omega) only [rowWord, rowOf, bits_append_low, bits_append_high] <;> exact bits_whole _
  ext k hk
  rw [wordsOf, Vector.getElem_ofFn, hword]
  rfl

theorem onlyRead_afterRead (h : s.Idle) (off : RowOff) : OnlyRead off s (s.afterRead off) :=
  ⟨fun _ _ => ⟨rfl, rfl⟩, ⟨rfl, rfl⟩, h, adrWord_read off, fun k => wordsOf_get _ k, keepsSoft_of_softPart rfl⟩

theorem Wrote.keepsRowsBut {off : RowOff} {v : Row} (h : Wrote off v s t) : KeepsRowsBut [off] s t := fun o ho => by
  have ho : o ≠ off := by simpa using ho
  exact ⟨(h.row o).trans (if_neg ho), (h.written o).trans (if_neg ho)⟩

theorem Wrote.row_same {off : RowOff} {v : Row} (h : Wrote off v s t) : t.row off = v := (h.row off).trans (if_pos rfl)

theorem Wrote.written_same {off : RowOff} {v : Row} (h : Wrote off v s t) : t.isWritten off = true :=
  (h.written off).trans (if_pos rfl)

theorem Patched.keepsEntriesBut {es : List (Ns × Chan)} {g : Ns → Chan → SubField} (h : Patched es g s t) :
    KeepsEntriesBut es s t := fun ns ch hn => (h.entry ns ch).trans (if_neg hn)

theorem Patched.keepsRowsBut {es : List (Ns × Chan)} {g : Ns → Chan → SubField} (h : Patched es g s t) :
    KeepsRowsBut (es.map fun e => catOff e.1 e.2) s t := fun o ho =>
  ⟨h.row o fun e he ho' => ho (List.mem_map.mpr ⟨e, he, ho'.symm⟩), h.written o⟩

end Sys2Proof.Machine
end

section
/-! PROOFS. The Register Protocol (40_register_protocol.md): commands whose transactions complete. -/

namespace Sys2Proof.Machine

/-- Settles O29: the run is one locked write. -/
theorem writeRowStoresTheOperands : Obligations.WriteRowStoresTheOperands := by
  intro s a off h ht hres
  obtain rfl := h.cur
  have run : Does s.cur (progRpWriteRow s.cfg s.operands off) s.begun fun x u =>
      x = { rc := some .ok } ∧ Moved s.begun u ∧
        u = s.begun.afterWrite s.cfg.readbackCheck off (rowOf s.operands) := by
    refine .bind (.of_ends (lockedWrite_ends s.cfg (begun_calm h.safe ht) ht.2.2.1 hres ht.2.2.2)) ?_
    rintro x u ⟨rfl, rfl⟩
    exact .ret ⟨rfl, moved_afterWrite .., rfl⟩
  obtain ⟨u, t, rfl, hm, he, hr, hi, hs, hk⟩ := run.tableCommand h ht List.nodup_nil
  have hw := wrote_afterWrite s.begun s.cfg.readbackCheck off (rowOf s.operands)
  have hdat := afterWrite_dat s.begun s.cfg.readbackCheck off (rowOf s.operands)
  have hadr := afterWrite_adr s.begun s.cfg.readbackCheck off (rowOf s.operands)
  have hcfg := afterWrite_cfg s.begun s.cfg.readbackCheck off (rowOf s.operands)
  generalize s.begun.afterWrite s.cfg.readbackCheck off (rowOf s.operands) = u at hm hw hdat hadr hcfg
  obtain ⟨_, _, _, _, rfl⟩ := hm
  refine ⟨_, he, hr, hw.row_same, hw.written_same, hw.keepsRowsBut, hi, ?_, ⟨?_, fun k => ?_⟩, ?_, hs, hk⟩
  · exact hdat.trans (wordsOf_rowOf _)
  · show u.adr = if u.cfg.readbackCheck then _ else _
    rw [hadr, hcfg]
    show adrWord (!s.cfg.readbackCheck) off = if s.cfg.readbackCheck = true then _ else _
    split
    · next hb => rw [hb]; exact adrWord_read off
    · next hb => rw [Bool.not_eq_true] at hb; rw [hb]; exact adrWord_write off
  · exact (congrArg (·[k]) hdat).trans ((wordsOf_get _ k).trans (congrArg (bits · _ _) hw.row_same.symm))
  · split
    · next hc => exact hw.cat hc
    · next hc => exact (hw.other (by simpa using hc)).1.1

/-- Settles O30: the run is one row read under a hold of L. -/
theorem readRowReturnsTheRow : Obligations.ReadRowReturnsTheRow := by
  intro s a off h ht hres hw
  obtain rfl := h.cur
  have hc := begun_calm h.safe ht
  have run : Does s.cur (progRpReadRow s.cfg off) s.begun fun x u =>
      x = { rc := some .ok, res := rowRes (s.row off) } ∧ Moved s.begun u ∧ u = s.begun.afterRead off := by
    refine .calm hc (s2 := { s.begun with lock := some s.cur }) (r := 0) (by simp [Act.apply, actAcquire, State.begun, ht.2.2.1]) ?_
    refine .bind (.of_ends (readRow_ends s.cfg (s := { s.begun with lock := some s.cur }) hc rfl hres hw ht.2.2.2)) ?_
    rintro x u ⟨rfl, rfl⟩
    refine .calm (by exact hc) (actRelease_held (s := s.begun.afterRead off) ht.2.2.1 rfl) ?_
    exact .ret ⟨rfl, moved_afterRead .., rfl⟩
  obtain ⟨u, t, rfl, hm, he, hr, hi, hs, hk⟩ := run.tableCommand h ht (by simp [rowRes])
  exact ⟨t, he, hr, (onlyRead_afterRead (s := s) ht.2.1 off).of_parts hm.tablePart hm.softPart, hk⟩

/-- A command that patches one CAT entry under one hold of L (RP.CAT_WRITE, CAT.INIT). -/
theorem patchEntry_command {s : State} {i : Instr} {a : Agent} (ns : Ns) (ch : Chan) (v : SubField) (h : s.Ready a i)
    (ht : s.TableReady) (hw : s.isWritten (catOff ns ch) = true) :
    ∃ t, s.runCommand i ((lockedUpdate s.cfg (catOff ns ch) (fun r => putSub r ch v)).bind fun w => done w.rc) = .next t ∧
      Ended a s t .ok [] ∧
      t.catEntry ns ch = v ∧ KeepsEntriesBut [(ns, ch)] s t ∧ KeepsRowsBut [catOff ns ch] s t ∧
      t.isWritten (catOff ns ch) = true ∧ t.Idle ∧ Rearmed s t ∧ KeepsSoft [] [] s t ∧ KeepsCore a s t := by
  have run : Does a ((lockedUpdate s.cfg (catOff ns ch) (fun r => putSub r ch v)).bind fun w => done w.rc) s.begun fun x u =>
      x = { rc := some .ok } ∧ Moved s.begun u ∧ Patched [(ns, ch)] (fun _ _ => v) s.begun u := by
    refine .bind (.of_ends (lockedUpdate_ends s.cfg (begun_calm h.safe ht) ht.2.2.1 (reserved_catOff ..) hw ht.2.2.2)) ?_
    rintro x u ⟨rfl, rfl⟩
    exact .ret ⟨rfl, moved_afterWrite .., patched_one (s := s.begun) _ _ hw⟩
  obtain ⟨u, t, hp, hm, he, hr, hi, hs, hk⟩ := run.tableCommand h ht List.nodup_nil
  obtain ⟨_, _, _, _, rfl⟩ := hm
  exact ⟨_, he, hr, (hp.entry ns ch).trans (if_pos (by simp)), hp.keepsEntriesBut, hp.keepsRowsBut,
    (hp.written _).trans hw, hi, hp.arming, hs, hk⟩

/-- Settles O33. -/
theorem catWritePatchesOneSubField : Obligations.CatWritePatchesOneSubField :=
  fun _ _ ns ch v h ht hw => patchEntry_command ns ch v h ht hw

end Sys2Proof.Machine
end

section
/-! PROOFS. The Register Protocol (40_register_protocol.md): transactions that do not complete. -/

namespace Sys2Proof.Machine

variable {α : Type} {a : Agent} {s t u : State}

/-! ## Reserved rows and rows never written -/

/-- A transaction on a reserved row raises at its guard, with the lock taken. -/
theorem raises_reservedRow {off : RowOff} (q : Prog α) (hf : s.safe) (hst : s.Still) (hl : s.lock = none)
    (hr : reservedRow s.cfg off = true) :
    Raises a (.after .acquire (.after (.txnGuard off) q)) s .reservedRow { s with lock := some a } := by
  refine .act (tick_still hf hst) hf (s2 := { s with lock := some a }) (r := 0) (by simp [Act.apply, actAcquire, hl]) ?_
  exact .step (tick_still (s := { s with lock := some a }) hf hst) hf (by simp [Act.apply, actTxnGuard, hr])

theorem event_of_fault (h : s.fault.flag = true) (e : Event) : s.event e = s := if_pos h

theorem event_hw (h : s.safe) (x : HwStep) : s.event (.hw x) = s.hwStep x := by
  have h : s.fault.flag = false := h
  simp [State.event, h]

/-- With prompt hardware a read of a row never written halts: the hardware raises. -/
theorem readRow_halts {off : RowOff} (c : Params) (h : s.Calm) (hl : s.lock = some a) (hr : reservedRow s.cfg off = false)
    (hw : s.isWritten off = false) (hn : 1 ≤ c.rpRetries) :
    Halts a (readRow c off) s { s with
      adr := adrWord false off, txPending := some (.read off)
      fault := { flag := true, reason := some .unwrittenRow, cmd := 0, agent := some .hw } } := by
  obtain ⟨n, hn⟩ : ∃ n, c.rpRetries = n + 1 := ⟨c.rpRetries - 1, by omega⟩
  obtain ⟨hf, ⟨h1, h2, h3⟩, hscript, hrest⟩ := id h
  unfold readRow Prog.after
  rw [hn]
  refine .act (tick_calm h) hf (s2 := s) (r := 0) (by simp [Act.apply, actTxnGuard, hl, hr]) ?_
  let v : State := { s with adr := adrWord false off, txPending := some (.read off) }
  refine .act (tick_calm h) hf (s2 := v) (r := 0) ?_ ?_
  · simp only [Act.apply, State.writeReg, adrWord_mask, txnOf_read, v]
    congr 1
    rw [← h2, ← h3]
  have performed : v.perform = v.record .hw .unwrittenRow := by
    have hw : v.isWritten off = false := hw
    simp [State.perform, show v.txPerformed = false from h2, show v.txPending = some (.read off) from rfl, hw]
  have recorded := record_hw (s := v) hf .unwrittenRow
  have ticked : v.tick = v.record .hw .unwrittenRow := by
    simp only [State.tick, show v.env.script = [] from hscript, show v.env.rest = [.hw .perform, .hw .signal] from hrest,
      List.foldl_cons, List.foldl_nil]
    rw [event_hw (s := v) hf, State.hwStep, performed]
    exact event_of_fault (by rw [recorded]) _
  exact Halts.bind_left _ (Halts.step (ticked.trans recorded) rfl)

/-- A ready command whose run halts stops where it is: its next state holds its progress. -/
theorem runCommand_halts {i : Instr} {p : Prog Result} (h : s.Ready a i) (e : Halts a p s.begun t) :
    ∃ k, s.runCommand i p = .next (t.suspend a k) := by
  obtain rfl := h.cur
  obtain ⟨hist, e⟩ := e []
  unfold State.runCommand
  rw [entryFault_ready h, show run s.cur p [] { s with presented := true } = _ from e]
  exact ⟨_, rfl⟩

/-- The contexts after a suspension: the agent's holds its progress. -/
theorem ctx_suspend (s : State) (k : Task) (h : s.has a) : (s.suspend a k).ctx a = { s.ctx a with task := some k } := by
  unfold State.suspend
  dsimp only
  split <;> exact ctx_setCtx_same s _ h

theorem ctx_suspend_other {b : Agent} (s : State) (k : Task) (h : b ≠ a) : (s.suspend a k).ctx b = s.ctx b := by
  unfold State.suspend
  dsimp only
  split <;> exact ctx_setCtx_other s _ h

/-- Settles O31: the guard refuses a reserved row; the hardware refuses to read a row never written. -/
theorem transactionsFaultOnBadRows : Obligations.TransactionsFaultOnBadRows := by
  intro s a off
  refine ⟨fun i hi h hst hl hres => ?_, fun h ht hres hw => ?_⟩
  · have hres := (reservedRow_iff s.cfg off).mpr hres
    have stops : ∀ q : Prog Result, ∃ t,
        s.runCommand i (.after .acquire (.after (.txnGuard off) q)) = .next t ∧
        Faulted a .reservedRow s t ∧ t.lock = some a ∧ KeepsTable s t ∧ KeepsSoft [] [] s t := by
      intro q
      obtain ⟨he, hr⟩ := (raises_reservedRow (a := a) (s := s.begun) q h.safe hst hl hres).command h ⟨rfl, rfl, rfl⟩
      refine ⟨_, he, hr, by simp, keepsTable_of_tablePart ?_, keepsSoft_of_softPart ?_⟩
      · rw [tablePart_raise]
        rfl
      · rw [softPart_raise]
        rfl
    rcases hi with rfl | rfl
    · exact stops _
    · exact stops _
  · have hres : reservedRow s.cfg off = false := by
      rw [← Bool.not_eq_true, reservedRow_iff]
      exact hres
    have hc := begun_calm h.safe ht
    obtain ⟨u, run, hfault, hlock, hrows, hwritten, hsoft, hctx⟩ : ∃ u, Halts a (progRpReadRow s.cfg off) s.begun u ∧
        u.fault = { flag := true, reason := some .unwrittenRow, cmd := 0, agent := some .hw } ∧ u.lock = some a ∧
        u.rows = s.rows ∧ u.written = s.written ∧ u.softPart = s.softPart ∧ u.contexts = s.contexts :=
      ⟨_, .act (tick_calm hc) hc.1 (s2 := { s.begun with lock := some a }) (r := 0)
        (by simp [Act.apply, actAcquire, State.begun, ht.2.2.1])
        (Halts.bind_left _ (readRow_halts (s := { s.begun with lock := some a }) s.cfg hc rfl hres hw ht.2.2.2)),
        rfl, rfl, rfl, rfl, rfl, rfl⟩
    obtain ⟨k, e⟩ := runCommand_halts h run
    have hown : (u.suspend a k).ctx a = { s.ctx a with task := some k } := by
      rw [ctx_suspend u k (has_of_contexts hctx (has_of_mayIssue h.threads h.issuer)), ctx_of_contexts hctx]
    refine ⟨_, e, by simp [hfault], by rw [hown], fun j => by rw [hown]; rfl, by simp [hlock], fun o _ => ?_,
      keepsSoft_of_softPart (by rw [softPart_suspend, hsoft]), fun b hb => ?_⟩
    · exact ⟨by simp [State.row, hrows], by simp [State.isWritten, hwritten]⟩
    · exact (ctx_suspend_other u k hb).trans (ctx_of_contexts hctx b)

end Sys2Proof.Machine
end

section
/-! PROOFS. The Register Protocol (40_register_protocol.md): hardware that never signals. -/

namespace Sys2Proof.Machine

variable {α : Type} {a : Agent} {s t u w : State}

/-! ## Hardware that never signals -/

/-- The hardware performs a pending transaction, or does not; it never signals one (47_hardware_agent.md R318). -/
def State.Mute (s : State) : Prop := s.env.script = [] ∧ (s.env.rest = [] ∨ s.env.rest = [.hw .perform])

/-- Mute hardware leaves an idle window alone, and one whose access is performed. -/
theorem tick_mute (hf : s.safe) (h : s.Mute) (hi : s.txPending = none ∨ s.txPerformed = true) : s.tick = s := by
  obtain ⟨hs, hr | hr⟩ := h
  · exact tick_silent ⟨hs, hr⟩
  · rw [State.tick, hs]
    simp only [hr, List.foldl_cons, List.foldl_nil]
    rw [event_hw hf, State.hwStep, State.perform]
    rcases hi with hi | hi
    · rw [hi]
      split <;> rfl
    · rw [if_pos hi]

/-- Every poll of a window that never shows XCMP fails: the state afterwards is the one the first poll found, or,
with no poll allowed, one step before it. -/
theorem pollCtl_blind (hw : w.tick = w) (hf : w.safe) (hc : w.ctl = 0) (n : Nat) :
    ∀ {u : State}, u.tick = w → ∃ x, Ends a (pollCtl n) u false x ∧ x.tick = w := by
  induction n with
  | zero => exact fun {u} ht => ⟨u, .ret a _ u, ht⟩
  | succ n ih =>
    intro u ht
    obtain ⟨x, e, hx⟩ := ih hw
    refine ⟨x, .act ht hf (s2 := w) (r := w.ctl.setWidth 128) rfl ?_, hx⟩
    rw [hc, if_neg (by decide)]
    exact e

/-- A write of 0 to CTL clears the transaction. -/
theorem writeCtl_zero (s : State) :
    s.writeReg .ctl 0 = { s with ctl := 0, txPending := none, txPerformed := false } := by
  rw [State.writeReg, if_neg (by decide)]

/-- Txn(read, off, -) over hardware that does nothing (R150). -/
theorem readRow_silent {off : RowOff} (c : Params) (hf : s.safe) (hs : s.Silent) (hi : s.Idle) (hl : s.lock = some a)
    (hr : reservedRow s.cfg off = false) :
    Ends a (readRow c off) s .timeout { s with adr := adrWord false off } := by
  obtain ⟨h1, h2, h3⟩ := id hi
  refine .act (tick_silent hs) hf (s2 := s) (r := 0) (by simp [Act.apply, actTxnGuard, hl, hr]) ?_
  let v : State := { s with adr := adrWord false off, txPending := some (.read off) }
  have still : v.tick = v := tick_silent (s := v) hs
  refine .act (tick_silent hs) hf (s2 := v) (r := 0) ?_ ?_
  · simp only [Act.apply, State.writeReg, adrWord_mask, txnOf_read, v]
    congr 1
    rw [← h2, ← h3]
  obtain ⟨x, e, hx⟩ := pollCtl_blind (a := a) still hf h3 c.rpRetries still
  refine .bind e (.act hx hf (s2 := { s with adr := adrWord false off }) (r := 0) ?_ (.ret a _ _))
  simp only [Act.apply, writeCtl_zero, v]
  congr 1
  rw [← h1, ← h2, ← h3]

/-- The four data words written over mute hardware. -/
theorem writeDats_mute {v : Row} {p : Prog α} {x : α} (hf : s.safe) (h : s.Mute) (hi : s.txPending = none)
    (hp : Ends a p { s with dat := wordsOf v } x t) : Ends a (writeDats v p) s x t := by
  have step : ∀ (s : State) (i : Fin 4) (w : Word) (q : Prog α), s.safe → s.Mute → s.txPending = none →
      Ends a q { s with dat := s.dat.set i w } x t → Ends a (.after (.writeReg (.dat i) w) q) s x t :=
    fun s i w q hf h hi hq => .act (tick_mute hf h (.inl hi)) hf (s2 := { s with dat := s.dat.set i w }) (r := 0) rfl hq
  rw [← set_words v s.dat] at hp
  exact step _ _ _ _ hf h hi (step _ _ _ _ hf h hi (step _ _ _ _ hf h hi (step _ _ _ _ hf h hi hp)))

/-- Txn(write, off, v) over mute hardware that makes of the pending write the state `w` (R150). -/
theorem writeTxn_mute {off : RowOff} {v : Row} (c : Params) (hf : s.safe) (hm : s.Mute) (hi : s.Idle)
    (hl : s.lock = some a) (hr : reservedRow s.cfg off = false)
    (ht : State.tick { s with dat := wordsOf v, adr := adrWord true off, txPending := some (.write off v) } = w)
    (hw : w.tick = w) (hwf : w.safe) (hc : w.ctl = 0) :
    Ends a (writeTxn c off v) s .timeout { w with ctl := 0, txPending := none, txPerformed := false } := by
  obtain ⟨h1, h2, h3⟩ := id hi
  refine .act (tick_mute hf hm (.inl h1)) hf (s2 := s) (r := 0) (by simp [Act.apply, actTxnGuard, hl, hr]) ?_
  refine writeDats_mute hf hm h1 ?_
  refine .act (tick_mute (s := { s with dat := wordsOf v }) hf hm (.inl h1)) hf (r := 0)
    (s2 := { s with dat := wordsOf v, adr := adrWord true off, txPending := some (.write off v) }) ?_ ?_
  · simp only [Act.apply, State.writeReg, adrWord_mask, txnOf_write, rowOf_wordsOf]
    congr 1
    rw [← h2, ← h3]
  obtain ⟨x, e, hx⟩ := pollCtl_blind (a := a) hw hwf hc c.rpRetries ht
  refine .bind e (.act hx hwf (s2 := { w with ctl := 0, txPending := none, txPerformed := false }) (r := 0) ?_ (.ret a _ _))
  simp only [Act.apply, writeCtl_zero]

/-- The write performed and never signalled. -/
theorem tick_perform_write {off : RowOff} {v : Row} (hf : s.safe) (hs : s.env.script = []) (hr : s.env.rest = [.hw .perform])
    (hp : s.txPending = some (.write off v)) (hn : s.txPerformed = false) :
    s.tick = { s.storeRow off v with txPerformed := true } := by
  rw [State.tick, hs]
  simp only [hr, List.foldl_cons, List.foldl_nil]
  rw [event_hw hf, State.hwStep, State.perform]
  simp only [hn, hp, Bool.false_eq_true, if_false]
  rfl

/-- The pending write performed, and its transaction cleared without XCMP: what a write that completes leaves. -/
theorem storeRow_cleared (hi : s.Idle) (off : RowOff) (v : Row) (l : Option Agent) :
    { State.storeRow { s with dat := wordsOf v, adr := adrWord true off, txPending := some (.write off v), lock := l } off v with
        ctl := 0, txPending := none, txPerformed := false } = { s.afterWrite false off v with lock := l } := by
  obtain ⟨h1, h2, h3⟩ := hi
  have e := storeRow_window s off v (wordsOf v) (adrWord true off) (some (.write off v)) l s.presented
  obtain ⟨hw, ap, ef⟩ := storeRow_frame s off v
  unfold State.afterWrite
  rw [ef] at e ⊢
  refine (congrArg (fun x : State => { x with ctl := 0, txPending := none, txPerformed := false }) e).trans ?_
  simp only [State.putRow, Bool.not_false, h1, h2, h3]

theorem writeRow_timeout {off : RowOff} {v : Row} {c : Params} (e : Ends a (writeTxn c off v) s .timeout t) :
    Ends a (writeRow c off v) s .timeout t := Ends.bind e (Ends.ret a _ t)

/-- WriteRow(off, v) over hardware that does nothing: the row is as before. -/
theorem writeRow_silent {off : RowOff} (c : Params) (v : Row) (hf : s.safe) (hs : s.Silent) (hi : s.Idle)
    (hl : s.lock = some a) (hr : reservedRow s.cfg off = false) :
    Ends a (writeRow c off v) s .timeout { s with dat := wordsOf v, adr := adrWord true off } := by
  have e := writeRow_timeout (writeTxn_mute (v := v) c hf ⟨hs.1, .inl hs.2⟩ hi hl hr (tick_silent (by exact hs))
    (tick_silent (by exact hs)) hf hi.2.2)
  rwa [← hi.1, ← hi.2.1, ← hi.2.2] at e

/-- WriteRow(off, v) over hardware that performs and never signals: the row is written all the same. -/
theorem writeRow_unsignalled {off : RowOff} (c : Params) (v : Row) (hf : s.safe) (hs : s.env.script = [])
    (hp : s.env.rest = [.hw .perform]) (hi : s.Idle) (hr : reservedRow s.cfg off = false) :
    Ends a (writeRow c off v) { s with lock := some a } .timeout { s.afterWrite false off v with lock := some a } := by
  let u : State := { s with dat := wordsOf v, adr := adrWord true off, txPending := some (.write off v), lock := some a }
  have ht : u.tick = { u.storeRow off v with txPerformed := true } := tick_perform_write (s := u) hf hs hp rfl hi.2.1
  obtain ⟨hw, ap, ef⟩ := storeRow_frame u off v
  have e := writeTxn_mute (s := { s with lock := some a }) (v := v) c hf ⟨hs, .inr hp⟩ hi rfl hr ht
    (by rw [ef]; exact tick_mute (by exact hf) ⟨hs, .inr hp⟩ (.inr rfl)) (by rw [ef]; exact hf) (by rw [ef]; exact hi.2.2)
  rw [← storeRow_cleared hi]
  exact writeRow_timeout e

/-! ## The commands -/

theorem Prog.bind_assoc {α β γ : Type} (p : Prog α) (k : α → Prog β) (j : β → Prog γ) :
    (p.bind k).bind j = p.bind fun x => (k x).bind j := by
  induction p with
  | ret x => rfl
  | raise f => rfl
  | loop => rfl
  | act d q ih => exact congrArg (Prog.act d) (funext ih)

/-- RP.WRITE_ROW in the shape of `timedOut_command`. -/
theorem progRpWriteRow_eq (c : Params) (op : Vector Word 4) (off : RowOff) :
    progRpWriteRow c op off =
      .after .acquire ((writeRow c off (rowOf op)).bind fun w => .after .release (done w.rc)) :=
  congrArg (Prog.after .acquire) (Prog.bind_assoc ..)

/-- A row access that times out, as a command: the lock is taken and given back around it. -/
theorem timedOut_command {β : Type} {i : Instr} {q : Prog β} {k : β → Prog Result} {x : β} (h : s.Ready a i) (hm : s.Mute)
    (hi : s.Idle) (hl : s.lock = none) (hq : Ends a q { s.begun with lock := some a } x { u with lock := some a })
    (hk : k x = done .registerTimeout) (hu : Moved s.begun u) :
    ∃ t, s.runCommand i (.after .acquire (q.bind fun y => .after .release (k y))) = .next t ∧
      Ended a s t .registerTimeout [] ∧ t.Idle ∧ SameMachine u t ∧ KeepsSoft [] [] s t ∧ KeepsCore a s t := by
  have run : Does a (.after .acquire (q.bind fun y => .after .release (k y))) s.begun fun x v =>
      x = { rc := some .registerTimeout } ∧ Quiet s v ∧ v = u := by
    refine .act (tick_mute (s := s.begun) h.safe hm (.inl hi.1)) h.safe (s2 := { s.begun with lock := some a }) (r := 0)
      (by simp [Act.apply, actAcquire, State.begun, hl]) (.bind (.of_ends hq) ?_)
    rintro y v ⟨rfl, rfl⟩
    have released := actRelease_held (a := a) (s := u) (hu.lock.trans hl) rfl
    obtain ⟨_, _, _, _, _, _, rfl⟩ := hu
    refine .act (tick_mute (by exact h.safe) (by exact hm) (.inl (by exact hi.1))) (by exact h.safe) released ?_
    rw [hk]
    exact .ret ⟨rfl, ⟨rfl, rfl, rfl⟩, rfl⟩
  obtain ⟨v, t, rfl, hm, he, hr, hk⟩ := run.quietCommand h List.nodup_nil
  refine ⟨t, he, hr, ?_, hm, keepsSoft_of_softPart (hm.softPart.trans hu.softPart), hk⟩
  obtain ⟨_, _, _, _, rfl⟩ := hm
  obtain ⟨_, _, _, _, _, _, rfl⟩ := hu
  exact hi

/-- Settles O32. -/
theorem silentHardwareTimesOut : Obligations.SilentHardwareTimesOut := by
  intro s a off
  refine ⟨fun i hi h hsil hidle hl hres => ?_, fun h hs hr hidle hl hres => ?_⟩
  · have hmute : s.Mute := ⟨hsil.1, .inl hsil.2⟩
    obtain rfl := h.cur
    rcases hi with rfl | rfl
    · obtain ⟨t, he, hr, hi, hm, hs, hk⟩ := timedOut_command (i := .rpWriteRow off)
        (u := { s.begun with dat := wordsOf (rowOf s.operands), adr := adrWord true off }) (k := fun w => done w.rc) h hmute hidle hl
        (writeRow_silent (s := { s.begun with lock := some s.cur }) s.cfg _ h.safe hsil hidle rfl hres) rfl ⟨_, _, _, _, _, _, rfl⟩
      obtain ⟨_, _, _, _, rfl⟩ := hm
      rw [← progRpWriteRow_eq] at he
      exact ⟨_, he, hr, hi, fun _ => ⟨adrWord_write off, wordsOf_rowOf _⟩, fun e => (nomatch e), fun _ _ => ⟨rfl, rfl⟩, ⟨rfl, rfl⟩,
        hs, hk⟩
    · obtain ⟨t, he, hr, hi, hm, hs, hk⟩ := timedOut_command (u := { s.begun with adr := adrWord false off }) h hmute hidle hl
        (readRow_silent (s := { s.begun with lock := some s.cur }) s.cfg h.safe hsil hidle rfl hres)
        (k := fun r => match r with
          | .timeout => done .registerTimeout
          | .ok v => .ret { rc := some .ok, res := rowRes v }) rfl ⟨_, _, _, _, _, _, rfl⟩
      obtain ⟨_, _, _, _, rfl⟩ := hm
      exact ⟨_, he, hr, hi, fun e => (nomatch e), fun _ => ⟨adrWord_read off, rfl⟩, fun _ _ => ⟨rfl, rfl⟩, ⟨rfl, rfl⟩, hs, hk⟩
  · have hmute : s.Mute := ⟨hs, .inr hr⟩
    obtain rfl := h.cur
    have wrote := wrote_afterWrite s.begun false off (rowOf s.operands)
    obtain ⟨t, he, hr, hi, hm, hs, hk⟩ := timedOut_command (i := .rpWriteRow off) (k := fun w => done w.rc) h hmute hidle hl
      (writeRow_unsignalled (s := s.begun) s.cfg _ h.safe hs hr hidle hres) rfl wrote.moved
    have hadr := (afterWrite_adr s.begun false off (rowOf s.operands)).trans (adrWord_write off)
    have hdat := (afterWrite_dat s.begun false off (rowOf s.operands)).trans (wordsOf_rowOf _)
    generalize s.begun.afterWrite false off (rowOf s.operands) = u at hm wrote hadr hdat
    obtain ⟨_, _, _, _, rfl⟩ := hm
    rw [← progRpWriteRow_eq] at he
    refine ⟨_, he, hr, hi, wrote.row_same, wrote.written_same, wrote.keepsRowsBut, hadr, hdat, ?_, hs, hk⟩
    split
    · next hc => exact wrote.cat hc
    · next hc => exact (wrote.other (by simpa using hc)).1.1

end Sys2Proof.Machine
end

section
/-! PROOFS. The CDT, CAT and ADT Managers (41_cdt.md, 42_cat.md, 43_adt.md): operands, and rows programmed. -/

namespace Sys2Proof.Machine

variable {α : Type} {s t u : State} {a : Agent} {i : Instr} {p : Prog Result} {rc : RC} {res : List (Fin 4 × Word)}

/-! ## Runs without a transaction -/

/-- A step that is enabled, where nothing moves between the steps. -/
theorem Does.still {d : Act} {k : Resp → Prog α} {r : Resp} {Q : α → State → Prop} (hf : s.safe) (hs : s.Still)
    (hd : d.apply a s = .ok t r) (hk : Does a (k r) t Q) : Does a (.act d k) s Q := Does.act (tick_still hf hs) hf hd hk

/-- A ready command whose run moves nothing ends with the state untouched. -/
theorem Does.untouchedCommand (h : s.Ready a i)
    (d : Does a p s.begun fun x u => x = { rc := some rc, res := res } ∧ u = s.begun) (nd : (res.map (·.1)).Nodup) :
    ∃ t, s.runCommand i p = .next t ∧ Ended a s t rc res ∧ KeepsTable s t ∧ KeepsSoft [] [] s t ∧ KeepsCore a s t := by
  obtain ⟨u, t, rfl, hm, he, hr, hk⟩ := Does.quietCommand (R := fun u => u = s.begun) h
    (d.mono fun x u hx => ⟨hx.1, hx.2 ▸ ⟨rfl, rfl, rfl⟩, hx.2⟩) nd
  exact ⟨t, he, hr, keepsTable_of_tablePart hm.tablePart, keepsSoft_of_softPart hm.softPart, hk⟩

/-! ## Operands -/

/-- A channel field of a ready command is a channel of the engine. -/
theorem lt_nch_of_ready {ch : Chan} (h : s.Ready a i) (hc : channelField i ch) : ch.toNat < s.cfg.nch := by
  have hok := h.fields
  rw [Instr.wellFormed, Bool.and_eq_true, chansOk_iff] at hok
  by_contra hn
  exact hok.1 ⟨ch, hc, by omega⟩

theorem aligned_iff (w : Word) : aligned w = true ↔ w.toNat % 4 = 0 := by
  have e : (bits w 0 2).toNat = w.toNat % 4 := by simp [bits, BitVec.extractLsb'_toNat]
  rw [aligned, beq_iff_eq, ← e, ← BitVec.toNat_inj]
  rfl

theorem wraps_iff (w : Word) (len : Nat) : wraps w len = true ↔ 2 ^ 32 < w.toNat + len := decide_eq_true_iff

@[simp] theorem halfOf_halfResp (h : Half) : halfOf (halfResp h) = h := by
  cases h with
  | ping => rfl
  | pong => rfl

/-- A done-status word shows no completed half when both its bits are 0. -/
theorem completed_none {w : Word} (h1 : w.getLsbD 1 = false) (h9 : w.getLsbD 9 = false) (h : Half) :
    completed w h = none := by
  have hping : w.getLsbD (dneBit .ping) = false := h1
  have hpong : w.getLsbD (dneBit .pong) = false := h9
  cases h with
  | ping => simp [completed, Half.other, hping, hpong]
  | pong => simp [completed, Half.other, hping, hpong]

theorem cdtInitWith_rejected {c : Params} {ch : Chan} {ty : ChType} {dir : Dir} {dbr d : Nat}
    (h : 2 ^ 16 ≤ dbr ∨ validDepth c ty d = false) : cdtInitWith c ch ty dir dbr d = done .validationError := by
  refine if_pos ?_
  rw [Bool.or_eq_true, decide_eq_true_iff, Bool.not_eq_true']
  exact h

theorem cdtInitWith_valid {c : Params} {ch : Chan} {ty : ChType} {dir : Dir} {dbr d : Nat} (h1 : dbr < 2 ^ 16)
    (h2 : validDepth c ty d = true) : cdtInitWith c ch ty dir dbr d =
      (lockedWrite c (cdtOff ch) (cdtRow (BitVec.ofNat 16 dbr) (encodeDepth d) (blockSize c ty))).bind fun w => done w.rc := by
  refine if_neg ?_
  rw [h2, Bool.not_true, Bool.or_false, decide_eq_true_iff]
  omega

section

variable {c : Params} {ch : Chan} {ty : ChType} {ping pong : Word} {d : Nat}

theorem adtInitWith_rejected (h : d < 1 ∨ 8192 < d) : adtInitWith c ch ty ping pong d = done .validationError := by
  refine if_pos ?_
  rw [Bool.or_eq_true, decide_eq_true_iff, decide_eq_true_iff]
  exact h

/-- With a valid depth the addresses are looked at, first whether both are multiples of 4 (R211). -/
theorem adtInitWith_valid (h1 : 1 ≤ d) (h2 : d ≤ 8192) : adtInitWith c ch ty ping pong d =
    if !(aligned ping && aligned pong) then .raise .misaligned
    else if wraps ping d || wraps pong d then .raise .addressWrap
    else (lockedWrite c (adtOff ch) (adtRow ping pong (encodeDepth d) (packetStart ty))).bind fun w =>
      match w with
      | .ok => .after (.setSw ch .ping) <| done .ok
      | .timeout => done .registerTimeout
      | .mismatch => done .tableProgrammingError := by
  refine (if_neg ?_).trans ?_
  · rw [Bool.or_eq_true, decide_eq_true_iff, decide_eq_true_iff, dmax]
    omega
  · rfl

theorem adtInitWith_misaligned (h1 : 1 ≤ d) (h2 : d ≤ 8192) (h : ping.toNat % 4 ≠ 0 ∨ pong.toNat % 4 ≠ 0) :
    adtInitWith c ch ty ping pong d = .raise .misaligned := by
  rw [adtInitWith_valid h1 h2, if_pos]
  rw [Bool.not_eq_true', ← Bool.not_eq_true, Bool.and_eq_true, aligned_iff, aligned_iff]
  exact fun hc => h.elim (· hc.1) (· hc.2)

theorem adtInitWith_wraps (h1 : 1 ≤ d) (h2 : d ≤ 8192) (hp : ping.toNat % 4 = 0) (hq : pong.toNat % 4 = 0)
    (h : 2 ^ 32 < ping.toNat + d ∨ 2 ^ 32 < pong.toNat + d) :
    adtInitWith c ch ty ping pong d = .raise .addressWrap := by
  rw [adtInitWith_valid h1 h2, if_neg, if_pos]
  · rw [Bool.or_eq_true, wraps_iff, wraps_iff]
    exact h
  · rw [(aligned_iff ping).mpr hp, (aligned_iff pong).mpr hq]
    decide

end

/-- Settles O35. -/
theorem badOperandsTouchNothing : Obligations.BadOperandsTouchNothing := by
  intro s a hst
  refine ⟨fun ch ty dir h hbad => ?_, fun ch ty h => ⟨fun hbad => ?_, fun h1 h2 => ⟨fun hbad => ?_, fun hp hq hbad => ?_⟩⟩,
    fun ch h => ⟨fun hbad => ?_, fun hok h1 h9 => ?_⟩⟩
  all_goals obtain rfl := h.cur; rw [exec_eq]
  · have e : progOf s.cfg s.operands false (.cdtInit ch ty dir) = _ := cdtInitWith_rejected (dir := dir) hbad
    rw [e]
    exact Does.untouchedCommand h (.ret ⟨rfl, rfl⟩) List.nodup_nil
  · have e : progOf s.cfg s.operands false (.adtInit ch ty) = _ := adtInitWith_rejected hbad
    rw [e]
    exact Does.untouchedCommand h (.ret ⟨rfl, rfl⟩) List.nodup_nil
  · have e : progOf s.cfg s.operands false (.adtInit ch ty) = _ := adtInitWith_misaligned h1 h2 hbad
    rw [e]
    exact runCommand_turnedAway h (Raises.raise _ _ _)
  · have e : progOf s.cfg s.operands false (.adtInit ch ty) = _ := adtInitWith_wraps h1 h2 hp hq hbad
    rw [e]
    exact runCommand_turnedAway h (Raises.raise _ _ _)
  · have hc : (!aligned s.operands[1]) = true := by
      rw [Bool.not_eq_true', ← Bool.not_eq_true, aligned_iff]
      exact hbad
    have e : progOf s.cfg s.operands false (.adtRearm ch) = _ := if_pos hc
    rw [e]
    exact runCommand_turnedAway h (Raises.raise _ _ _)
  · have hc : ¬ (!aligned s.operands[1]) = true := by
      rw [Bool.not_eq_true', Bool.not_eq_false, aligned_iff]
      exact hok
    have e : progOf s.cfg s.operands false (.adtRearm ch) = _ := if_neg hc
    rw [e]
    refine Does.untouchedCommand h (.still (t := s.begun) h.safe hst rfl ?_) List.nodup_nil
    rw [show completed s.operands[0] _ = none from completed_none h1 h9 _]
    exact .ret ⟨rfl, rfl⟩

/-! ## Rows programmed -/

/-- A command that is one row write under one hold of L (CDT.INIT, RP.WRITE_ROW). -/
theorem lockedWrite_command {off : RowOff} (v : Row) (h : s.Ready a i) (ht : s.TableReady) (hr : reservedRow s.cfg off = false) :
    ∃ u t, Wrote off v s.begun u ∧ SameMachine u t ∧
      s.runCommand i ((lockedWrite s.cfg off v).bind fun w => done w.rc) = .next t ∧ Ended a s t .ok [] ∧ t.Idle ∧
      KeepsSoft [] [] s t ∧ KeepsCore a s t := by
  refine Does.tableCommand h ht ?_ List.nodup_nil
  refine .bind (lockedWrite_does s.cfg v (begun_calm h.safe ht) ht.2.2.1 hr ht.2.2.2) ?_
  rintro x u ⟨rfl, hw⟩
  exact .ret ⟨rfl, hw.moved, hw⟩

/-- Settles O34. -/
theorem cdtInitProgramsTheRow : Obligations.CdtInitProgramsTheRow := by
  intro s a ch ty dir h ht hoff hdep
  obtain rfl := h.cur
  have e : progOf s.cfg s.operands false (.cdtInit ch ty dir) = _ := cdtInitWith_valid (dir := dir) hoff hdep
  obtain ⟨u, t, hw, hm, he, hr, hi, hs, hk⟩ := lockedWrite_command (off := cdtOff ch)
    (cdtRow (BitVec.ofNat 16 s.operands[0].toNat) (encodeDepth s.operands[1].toNat) (blockSize s.cfg ty)) h ht
    (reserved_cdtOff (lt_nch_of_ready h (by simp [channelField])))
  have hrow := hw.row_same
  obtain ⟨hba, hbd, hbs, h29, h41⟩ := cdtRow_fields (BitVec.ofNat 16 s.operands[0].toNat)
    (encodeDepth s.operands[1].toNat) (blockSize s.cfg ty)
  rw [← hrow] at hba hbd hbs h29 h41
  obtain ⟨_, _, _, _, rfl⟩ := hm
  refine ⟨_, ?_, hr, hba.trans ?_, hbd, hbs, h29, h41, hw.written_same, hw.keepsRowsBut, (hw.other (isCatRow_cdtOff ch)).1.1, hi, hs, hk⟩
  · rw [exec_eq, e]
    exact he
  · exact BitVec.eq_of_toNat_eq (by simp [State.operands])

/-- A row written already that holds `v`: a look at it leaves what a write of `v` would. -/
theorem wrote_of_looked {off : RowOff} {v : Row} (h : Looked s t) (hv : s.row off = v) (hw : s.isWritten off = true)
    (hc : isCatRow off = false) : Wrote off v s t := by
  obtain ⟨_, _, rfl⟩ := h
  refine ⟨⟨_, _, _, _, _, _, rfl⟩, fun o => ?_, fun o => ?_, fun _ => ⟨⟨⟨rfl, rfl⟩, fun _ => rfl⟩, fun _ _ => rfl⟩, fun h => ?_⟩
  · split
    · next e => rw [e]; exact hv
    · rfl
  · split
    · next e => rw [e]; exact hw
    · rfl
  · rw [hc] at h
    cases h

theorem and_not_of_and_eq_zero {x mask : BitVec 4} (h : x &&& mask = 0) : x &&& ~~~mask = x := by
  revert x mask
  decide

theorem putSts_stsOf (v : Row) : putSts v (stsOf v) = v := by
  refine BitVec.eq_of_getLsbD_eq fun k hk => ?_
  rw [putSts, getLsbD_setField]
  split
  · next hlo =>
    rw [stsOf, BitVec.getLsbD_extractLsb', decide_eq_true (by omega), Bool.true_and]
    congr 1
    omega
  · rfl

/-- CDT.CLEAR_STS with the lock free: the status bits of the mask are its answer and are cleared (R173). -/
theorem clearSts_does {ch : Chan} (c : Params) (mask : BitVec 4) (h : s.Calm) (hl : s.lock = none) (hch : ch.toNat < s.cfg.nch)
    (hw : s.isWritten (cdtOff ch) = true) (hn : 1 ≤ c.rpRetries) :
    Does a (progCdtClearSts c ch mask) s fun x t =>
      x = { rc := some .ok, res := [(0, (stsOf (s.row (cdtOff ch)) &&& mask).setWidth 32)] } ∧
      Wrote (cdtOff ch) (putSts (s.row (cdtOff ch)) (stsOf (s.row (cdtOff ch)) &&& ~~~mask)) s t := by
  have hr := reserved_cdtOff hch
  refine .calm h (s2 := { s with lock := some a }) (r := 0) (by simp [Act.apply, actAcquire, hl]) ?_
  refine .bind (.of_ends (readRow_ends (s := { s with lock := some a }) c h rfl hr hw hn)) ?_
  rintro x u ⟨rfl, rfl⟩
  show Does a (if _ then _ else _) _ _
  split
  · refine .bind (.of_ends (writeRow_ends (s := State.afterRead { s with lock := some a } (cdtOff ch)) c h rfl hr hn)) ?_
    rintro x u ⟨rfl, rfl⟩
    rw [afterWrite_afterRead, afterWrite_lock_comm]
    have hc := calm_afterWrite c.readbackCheck (cdtOff ch)
      (putSts (s.row (cdtOff ch)) (stsOf (s.row (cdtOff ch)) &&& ~~~mask)) h
    refine .calm (by exact hc) (actRelease_held (by simpa using hl) rfl) ?_
    exact .ret ⟨rfl, wrote_afterWrite ..⟩
  · next hx =>
    have hx : stsOf (s.row (cdtOff ch)) &&& mask = 0 := not_not.mp hx
    refine .calm (by exact h) (actRelease_held (s := s.afterRead (cdtOff ch)) hl rfl) ?_
    refine .ret ⟨rfl, wrote_of_looked ⟨_, _, rfl⟩ ?_ hw (isCatRow_cdtOff ch)⟩
    rw [and_not_of_and_eq_zero hx, putSts_stsOf]

/-- Settles O36. -/
theorem clearStsReadsAndClears : Obligations.ClearStsReadsAndClears := by
  intro s a ch mask h ht hw
  have hch : ch.toNat < s.cfg.nch := lt_nch_of_ready h (by simp [channelField])
  have run := clearSts_does (a := a) (s := s.begun) s.cfg mask (begun_calm h.safe ht) ht.2.2.1 hch hw ht.2.2.2
  obtain ⟨u, t, hp, hm, he, hr, hi, hs, hk⟩ := (run.mono fun x u hx => ⟨hx.1, hx.2.moved, hx.2⟩).tableCommand h ht (by simp)
  have hrow := hp.row_same
  have hsts := (congrArg stsOf hrow).trans (stsOf_putSts _ _)
  obtain ⟨_, _, _, _, rfl⟩ := hm
  exact ⟨_, he, hr, hsts, fun k hk => (congrArg (·.getLsbD k) hrow).trans (getLsbD_putSts_other _ _ hk), hp.written_same,
    hp.keepsRowsBut, (hp.other (isCatRow_cdtOff ch)).1.1, hi, hs, hk⟩

/-- Settles O37. -/
theorem catInitProgramsTheEntry : Obligations.CatInitProgramsTheEntry :=
  fun _ _ ch ty dir dma en h ht hw => patchEntry_command (nsFor dir dma) ch (catValue ch ty dma en) h ht hw

/-! ## Tables zeroed -/

/-- The rows `offs` were written with 0 (R172, R192). -/
structure Zeroed (offs : List RowOff) (s t : State) : Prop where
  moved : Moved s t
  row : ∀ o, t.row o = if o ∈ offs then 0 else s.row o
  written : ∀ o, t.isWritten o = if o ∈ offs then true else s.isWritten o
  other : (∀ o ∈ offs, isCatRow o = false) → SameArming s t
  cat : offs ≠ [] → (∀ o ∈ offs, isCatRow o = true) → Rearmed s t

theorem Zeroed.nil (s : State) : Zeroed [] s s :=
  ⟨.refl s, fun _ => rfl, fun _ => rfl, fun _ => .refl s, fun h => absurd rfl h⟩

theorem Zeroed.cons {off : RowOff} {offs : List RowOff} (h1 : Wrote off 0 s t) (h2 : Zeroed offs t u) :
    Zeroed (off :: offs) s u where
  moved := h1.moved.trans h2.moved
  row o := by
    rw [h2.row, h1.row]
    by_cases ho : o = off <;> simp [ho]
  written o := by
    rw [h2.written, h1.written]
    by_cases ho : o = off <;> simp [ho]
  other hc := (h1.other (hc off (by simp))).1.trans (h2.other fun o ho => hc o (by simp [ho]))
  cat _ hc := by
    have hr := h1.cat (hc off (by simp))
    by_cases he : offs = []
    · subst he
      exact hr.after (h2.other (by simp))
    · exact hr.trans h1.moved.cfg (h2.cat he fun o ho => hc o (by simp [ho]))

theorem zeroRows_does (c : Params) (hn : 1 ≤ c.rpRetries) (offs : List RowOff) :
    ∀ {s : State}, s.Calm → s.lock = none → (∀ off ∈ offs, reservedRow s.cfg off = false) →
    Does a (zeroRows c offs) s fun x t => x = { rc := some .ok } ∧ Zeroed offs s t := by
  induction offs with
  | nil => exact fun _ _ _ => .ret ⟨rfl, .nil _⟩
  | cons off offs ih =>
    intro s h hl hr
    refine .bind (lockedWrite_does c 0 h hl (hr off (by simp)) hn) ?_
    rintro x t ⟨rfl, hw⟩
    refine (ih (hw.moved.calm h) (hw.moved.lock.trans hl) ?_).mono fun x u hu => ⟨hu.1, .cons hw hu.2⟩
    rw [hw.moved.cfg]
    exact fun o ho => hr o (by simp [ho])

theorem mem_catRows (off : RowOff) : off ∈ catRows ↔ isCatRow off = true := by
  revert off
  decide

/-- A channel whose two entries are 0 is not armed. -/
theorem not_armed_of_zero {ch : Chan} (h : s.catEntry .bus ch = 0) : s.armed ch = false := by
  rw [← Bool.not_eq_true, armed_iff]
  intro ha
  have hb := (ha .bus).1
  rw [h] at hb
  cases hb

/-- Settles O38. -/
theorem resetAllZeroesTheTable : Obligations.ResetAllZeroesTheTable := by
  intro s a ht
  refine ⟨fun h hnch => ?_, fun h => ?_⟩
  · have run := zeroRows_does (a := a) (s := s.begun) s.cfg ht.2.2.2 ((chansOf s.cfg).map cdtOff) (begun_calm h.safe ht) ht.2.2.1 ?_
    · obtain ⟨u, t, hz, hm, he, hr, hi, hs, hk⟩ := (run.mono fun x u hx => ⟨hx.1, hx.2.moved, hx.2⟩).tableCommand h ht (by simp)
      obtain ⟨_, _, _, _, rfl⟩ := hm
      refine ⟨_, he, hr, fun ch hch => ?_, fun off hoff => ?_, (hz.other ?_).1, hi, hs, hk⟩
      · have hin : cdtOff ch ∈ (chansOf s.cfg).map cdtOff := List.mem_map_of_mem ((mem_chansOf _ _).mpr hch)
        exact ⟨(hz.row _).trans (if_pos hin), (hz.written _).trans (if_pos hin)⟩
      · have hout : off ∉ (chansOf s.cfg).map cdtOff := by
          intro hin
          obtain ⟨ch, hch, rfl⟩ := List.mem_map.mp hin
          rw [mem_chansOf] at hch
          rw [toNat_cdtOff] at hoff
          omega
        exact ⟨(hz.row _).trans (if_neg hout), (hz.written _).trans (if_neg hout)⟩
      · rintro o ho
        obtain ⟨ch, -, rfl⟩ := List.mem_map.mp ho
        exact isCatRow_cdtOff ch
    · rintro o ho
      obtain ⟨ch, hch, rfl⟩ := List.mem_map.mp ho
      exact reserved_cdtOff ((mem_chansOf _ _).mp hch)
  · have run := zeroRows_does (a := a) (s := s.begun) s.cfg ht.2.2.2 catRows (begun_calm h.safe ht) ht.2.2.1
      fun o ho => reserved_of_cat _ ((mem_catRows o).mp ho)
    obtain ⟨u, t, hz, hm, he, hr, hi, hs, hk⟩ := (run.mono fun x u hx => ⟨hx.1, hx.2.moved, hx.2⟩).tableCommand h ht (by simp)
    obtain ⟨_, _, _, _, rfl⟩ := hm
    refine ⟨_, he, hr, fun off hc => ?_, fun off hc => ?_, fun ch => not_armed_of_zero ?_,
      hz.cat (by decide) fun o ho => (mem_catRows o).mp ho, hi, hs, hk⟩
    · have hin := (mem_catRows off).mpr hc
      exact ⟨(hz.row _).trans (if_pos hin), (hz.written _).trans (if_pos hin)⟩
    · have hout : off ∉ catRows := by rw [mem_catRows, hc]; decide
      exact ⟨(hz.row _).trans (if_neg hout), (hz.written _).trans (if_neg hout)⟩
    · have hzero : u.row (catOff .bus ch) = 0 :=
        (hz.row _).trans (if_pos ((mem_catRows _).mpr (isCatRow_catOff .bus ch)))
      show getSub (u.row (catOff .bus ch)) ch = 0
      rw [hzero, getSub, bits]
      exact BitVec.extractLsb'_zero

end Sys2Proof.Machine
end

section
/-! PROOFS. The CAT and ADT Managers (42_cat.md, 43_adt.md): CAT.UNMUTE_SYNC, ADT.INIT and ADT.REARM. -/

namespace Sys2Proof.Machine

variable {α : Type} {s t u : State} {a : Agent} {i : Instr} {p : Prog Result} {rc : RC} {res : List (Fin 4 × Word)}

/-! ## Polls of BSTAT (R193) -/

/-- A poll of a bit that is 1 sees it at its first evaluation. -/
theorem pollBstat_true {b n : Nat} {Q : Bool → State → Prop} (hf : s.safe) (hs : s.Still) (hb : s.bstat.getLsbD b = true)
    (hlt : b < 32) (hn : 1 ≤ n) (hq : Q true s) : Does a (pollBstat b n) s Q := by
  obtain ⟨n, rfl⟩ : ∃ m, n = m + 1 := ⟨n - 1, by omega⟩
  refine .still hf hs (t := s) (r := s.bstat.setWidth 128) rfl ?_
  rw [if_pos (by rw [BitVec.getLsbD_setWidth, hb]; simp; omega)]
  exact .ret hq

/-- A poll of a bit that is 0 exhausts its evaluations. -/
theorem pollBstat_false {b : Nat} (hf : s.safe) (hs : s.Still) (hb : s.bstat.getLsbD b = false) (n : Nat) :
    Does a (pollBstat b n) s fun x t => x = false ∧ t = s := by
  induction n with
  | zero => exact .ret ⟨rfl, rfl⟩
  | succ n ih =>
    refine .still hf hs (t := s) (r := s.bstat.setWidth 128) rfl ?_
    rw [if_neg (by rw [BitVec.getLsbD_setWidth, hb]; simp)]
    exact ih

/-- Settles O40: the first poll, or the second, exhausts its evaluations. -/
theorem unmuteSyncOnAnUnlockedBusTouchesNothing : Obligations.UnmuteSyncOnAnUnlockedBusTouchesNothing := by
  intro s a rx tx h hst
  refine ⟨fun hclk => ?_, fun hclk hn hlck => ?_⟩
  · refine Does.untouchedCommand h (.bind (pollBstat_false (s := s.begun) h.safe hst hclk _) ?_) (by simp)
    rintro x u ⟨rfl, rfl⟩
    exact .ret ⟨rfl, rfl⟩
  · refine Does.untouchedCommand h (.bind (pollBstat_true (s := s.begun) (Q := fun x u => x = true ∧ u = s.begun)
      h.safe hst hclk (by omega) hn ⟨rfl, rfl⟩) ?_) (by simp)
    rintro x u ⟨rfl, rfl⟩
    refine .bind (pollBstat_false (s := s.begun) h.safe hst hlck _) ?_
    rintro x u ⟨rfl, rfl⟩
    exact .ret ⟨rfl, rfl⟩

/-! ## Entries of a pair of channels -/

theorem still_of_calm (h : s.Calm) : s.Still := ⟨h.2.2.1, .inr ⟨h.2.2.2, h.2.1⟩⟩

/-- `f` applied to each of the four entries of a pair, read first, with the lock held: what CAT.UNMUTE_SYNC and
CH.STOP share (R194, R262). -/
theorem readWriteEntries_does {rx tx : Chan} (c : Params) (f : SubField → SubField) (h : s.Calm) (hl : s.lock = some a)
    (hw : ∀ ns, s.isWritten (catOff ns rx) = true ∧ s.isWritten (catOff ns tx) = true) (hn : 1 ≤ c.rpRetries) :
    Does a (readEntries c (pairEntries rx tx)) s fun xs t => ∃ l, xs = some l ∧ t.Calm ∧ t.lock = some a ∧
      Does a (writeEntries c f [] l) t fun y u => y = .ok ∧
        Patched (pairEntries rx tx) (fun ns ch => f (s.catEntry ns ch)) s u := by
  have written : ∀ e ∈ pairEntries rx tx, s.isWritten (catOff e.1 e.2) = true := by
    rintro ⟨ns, ch⟩ he
    rcases mem_pairEntries.mp he with rfl | rfl
    · exact (hw ns).1
    · exact (hw ns).2
  refine (readEntries_does c hn (pairEntries rx tx) h hl written).mono ?_
  rintro x t ⟨rfl, ht⟩
  refine ⟨_, rfl, ht.moved.calm h, ht.moved.lock.trans hl, ?_⟩
  refine (writeEntries_does c hn f (fun ns ch => f (s.catEntry ns ch)) _ (ht.moved.calm h) (ht.moved.lock.trans hl) ?_).mono ?_
  · intro x hx
    obtain ⟨e, he, rfl⟩ := List.mem_map.mp hx
    refine ⟨?_, rfl⟩
    obtain ⟨_, _, rfl⟩ := ht
    exact written e he
  · rintro y u ⟨rfl, hu⟩
    exact ⟨rfl, (Patched.nil (fun ns ch => f (s.catEntry ns ch)) ht).then hu⟩

/-- A patch of entries under a hold of L is one without it. -/
theorem Patched.unlock {es : List (Ns × Chan)} {g : Ns → Chan → SubField} {l : Option Agent}
    (h : Patched es g { s with lock := l } t) : Patched es g s { t with lock := s.lock } := by
  have hm := h.moved.withLock s.lock
  exact ⟨hm, h.entry, h.row, h.written, h.arming⟩

/-- CAT.UNMUTE_SYNC on a running and locked bus (R194). -/
theorem unmuteSync_does {rx tx : Chan} (c : Params) (h : s.Calm) (hl : s.lock = none) (hclk : s.bstat.getLsbD 0 = true)
    (hlck : s.bstat.getLsbD 1 = true) (hu : 1 ≤ c.unmuteRetries)
    (hw : ∀ ns, s.isWritten (catOff ns rx) = true ∧ s.isWritten (catOff ns tx) = true) (hn : 1 ≤ c.rpRetries) :
    Does a (progCatUnmuteSync c rx tx) s fun x t => x = { rc := some .ok, res := [(0, 0)] } ∧
      Patched (pairEntries rx tx) (fun ns ch => setCe (s.catEntry ns ch)) s t := by
  have hst := still_of_calm h
  refine .bind (pollBstat_true (Q := fun x u => x = true ∧ u = s) h.1 hst hclk (by omega) hu ⟨rfl, rfl⟩) ?_
  rintro x u ⟨rfl, rfl⟩
  refine .bind (pollBstat_true (Q := fun x t => x = true ∧ t = u) h.1 hst hlck (by omega) hu ⟨rfl, rfl⟩) ?_
  rintro x u ⟨rfl, rfl⟩
  refine .calm h (s2 := { u with lock := some a }) (r := 0) (by simp [Act.apply, actAcquire, hl]) ?_
  refine .bind (readWriteEntries_does (s := { u with lock := some a }) c setCe h rfl hw hn) ?_
  rintro x t ⟨l, rfl, htc, htl, run⟩
  refine .bind run ?_
  rintro y v ⟨rfl, hv⟩
  have hp := hv.unlock
  rw [hl] at hp
  refine .calm (s2 := { v with lock := none }) (r := 0) (hv.moved.calm h) (by simp [Act.apply, actRelease, hv.moved.lock]) ?_
  exact .ret ⟨rfl, hp⟩

/-- Settles O39. -/
theorem unmuteSyncEnablesFourEntries : Obligations.UnmuteSyncEnablesFourEntries := by
  intro s a rx tx h ht hclk hlck hu hw
  have run := unmuteSync_does (a := a) (s := s.begun) s.cfg (begun_calm h.safe ht) ht.2.2.1 hclk hlck hu hw ht.2.2.2
  obtain ⟨u, t, hp, hm, he, hr, hi, hs, hk⟩ := (run.mono fun x u hx => ⟨hx.1, hx.2.moved, hx.2⟩).tableCommand h ht (by simp)
  obtain ⟨_, _, _, _, rfl⟩ := hm
  refine ⟨_, he, hr, fun ns ch hch => ?_, hp.keepsEntriesBut, hp.keepsRowsBut, hi, ?_, hs, hk⟩
  · exact (hp.entry ns ch).trans (if_pos (mem_pairEntries.mpr hch))
  · have harm := hp.arming
    rwa [if_neg (by simp [pairEntries])] at harm

/-! ## ADT.INIT (R211) -/

/-- The software side after a step of software's cursor. -/
theorem keepsSoft_setSw {ch : Chan} (h : Half) (e : t.softPart = s.softPart) : KeepsSoft [ch] [] s (t.setSw ch h) := by
  have hs := keepsSoft_of_softPart (chs := []) (ns := []) e
  refine ⟨hs.status, hs.masks, hs.config, fun c hc => ?_, hs.nodes, hs.log, hs.mem⟩
  rw [sw_setSw, if_neg (by simpa using hc)]
  exact hs.halves c (by simp)

/-- ADT.INIT with valid operands (R211). -/
theorem adtInitWith_does {ch : Chan} {ty : ChType} {ping pong : Word} {d : Nat} (c : Params) (h : s.Calm) (hl : s.lock = none)
    (hch : ch.toNat < s.cfg.nch) (hn : 1 ≤ c.rpRetries) (h1 : 1 ≤ d) (h2 : d ≤ 8192)
    (hp : aligned ping = true) (hq : aligned pong = true) (hpw : wraps ping d = false) (hqw : wraps pong d = false) :
    Does a (adtInitWith c ch ty ping pong d) s fun x t => x = { rc := some .ok } ∧
      ∃ u, Wrote (adtOff ch) (adtRow ping pong (encodeDepth d) (packetStart ty)) s u ∧ t = u.setSw ch .ping := by
  rw [adtInitWith_valid h1 h2, hp, hq, hpw, hqw]
  refine .bind (lockedWrite_does c _ h hl (reserved_adtOff hch) hn) ?_
  rintro x u ⟨rfl, hw⟩
  exact .calm (hw.moved.calm h) rfl (.ret ⟨rfl, u, hw, rfl⟩)

/-- Settles O41. -/
theorem adtInitProgramsBothHalves : Obligations.AdtInitProgramsBothHalves := by
  intro s a ch ty h ht p q d h1 h2 hp hq hpw hqw
  have hch : ch.toNat < s.cfg.nch := lt_nch_of_ready h (by simp [channelField])
  have run := adtInitWith_does (a := a) (s := s.begun) (ty := ty) s.cfg (begun_calm h.safe ht) ht.2.2.1 hch ht.2.2.2 h1 h2 hp hq
    hpw hqw
  have run : Does a (progAdtInit s.cfg (s.ctx a).op ch ty) s.begun fun x v => x = { rc := some .ok } ∧ Quiet s v ∧
      ∃ u, Wrote (adtOff ch) (adtRow p q (encodeDepth d) (packetStart ty)) s.begun u ∧ v = u.setSw ch .ping := by
    refine run.mono ?_
    rintro x v ⟨rfl, u, hw, rfl⟩
    have hq := hw.moved.quiet
    exact ⟨rfl, ⟨hq.contexts, hq.cur, hq.engine⟩, u, hw, rfl⟩
  obtain ⟨_, t, ⟨u, hw, rfl⟩, hm, he, hr, hk⟩ := run.quietCommand h List.nodup_nil
  have hsoft := keepsSoft_setSw (ch := ch) .ping hw.moved.softPart
  have hsw : (u.setSw ch .ping).sw ch = .ping := by simp [sw_setSw]
  have hcalm := hw.moved.calm (begun_calm h.safe ht)
  have hrow := hw.row_same
  obtain rfl := h.cur
  obtain ⟨hpf, hqf, hbd, hbd', h77, h93, h100, h108, h113⟩ := adtRow_fields p q (encodeDepth d) (packetStart ty)
  obtain ⟨hflags, hps, hps', hce⟩ := adtRow_flags p q (encodeDepth d) (packetStart ty)
  rw [← hrow] at hpf hqf hbd hbd' h77 h93 h100 h108 h113 hflags hps hps' hce
  obtain ⟨_, _, _, _, rfl⟩ := hm
  refine ⟨_, he, hr, ⟨hpf, hqf, fun h => ?_, hce, h77, h93, h100, h108, h113⟩, hw.written_same, hw.keepsRowsBut,
    (hw.other (isCatRow_adtOff ch)).1.1, hcalm.2.1, hsw, hsoft.of_parts rfl rfl, hk⟩
  cases h with
  | ping => exact ⟨hbd, hps, hflags 96 (by decide), hflags 97 (by decide), hflags 98 (by decide)⟩
  | pong => exact ⟨hbd', hps', hflags 104 (by decide), hflags 105 (by decide), hflags 106 (by decide)⟩

/-! ## ADT.REARM (R210, R213) -/

/-- ADT.REARM of a completed half that is idle, within memory (R213). -/
theorem adtRearmWith_does {ch : Chan} {x : Half} {w addr : Word} (c : Params) (h : s.Calm) (hl : s.lock = none)
    (hch : ch.toNat < s.cfg.nch) (hn : 1 ≤ c.rpRetries) (ha : aligned addr = true) (hc : completed w (s.sw ch) = some x)
    (hw : s.isWritten (adtOff ch) = true) (hr : rdyOf (s.row (adtOff ch)) x = false)
    (hwrap : wraps addr (decodeDepth (bdOf (s.row (adtOff ch)) x)) = false) :
    Ends a (adtRearmWith c ch w addr) s { rc := some .ok, res := [(0, BitVec.ofNat 32 (Half.idx x))] }
      ((s.afterWrite c.readbackCheck (adtOff ch) (rearmRow (s.row (adtOff ch)) x addr)).setSw ch (Half.other x)) := by
  have hres := reserved_adtOff hch
  rw [adtRearmWith, ha]
  refine .calm h (s2 := s) rfl ?_
  rw [halfOf_halfResp, hc]
  refine .acquire h hl ?_
  refine .bind (readRow_ends (s := { s with lock := some a }) c h rfl hres hw hn) ?_
  rw [show State.row { s with lock := some a } (adtOff ch) = s.row (adtOff ch) from rfl]
  dsimp only
  rw [hr, hwrap]
  refine .bind (writeRow_ends (s := State.afterRead { s with lock := some a } (adtOff ch)) c h rfl hres hn) ?_
  rw [afterWrite_afterRead, afterWrite_lock_comm]
  have hcalm := calm_afterWrite c.readbackCheck (adtOff ch) (rearmRow (s.row (adtOff ch)) x addr) h
  refine .calm (by exact hcalm) (actRelease_held (by simpa using hl) rfl) ?_
  exact .calm hcalm rfl (.ret _ _ _)

/-- ADT.REARM of a half that is ready already, or past memory, raises after it has read the row (R213). -/
theorem adtRearmWith_raises {ch : Chan} {x : Half} {w addr : Word} {f : FReason} (c : Params) (h : s.Calm) (hl : s.lock = none)
    (hch : ch.toNat < s.cfg.nch) (hn : 1 ≤ c.rpRetries) (ha : aligned addr = true) (hc : completed w (s.sw ch) = some x)
    (hw : s.isWritten (adtOff ch) = true)
    (hf : (rdyOf (s.row (adtOff ch)) x = true ∧ f = .doubleArm) ∨ (rdyOf (s.row (adtOff ch)) x = false ∧
      wraps addr (decodeDepth (bdOf (s.row (adtOff ch)) x)) = true ∧ f = .addressWrap)) :
    Raises a (adtRearmWith c ch w addr) s f (s.afterRead (adtOff ch)) := by
  rw [adtRearmWith, ha]
  refine .act (tick_calm h) h.1 (s2 := s) rfl ?_
  rw [halfOf_halfResp, hc]
  refine .act (tick_calm h) h.1 (s2 := { s with lock := some a }) (r := 0) (by simp [Act.apply, actAcquire, hl]) ?_
  refine .bind_right (readRow_ends (s := { s with lock := some a }) c h rfl (reserved_adtOff hch) hw hn) ?_
  rw [show State.row { s with lock := some a } (adtOff ch) = s.row (adtOff ch) from rfl]
  dsimp only
  have raised : Raises a (.after .release (.raise f) : Prog Result) (State.afterRead { s with lock := some a } (adtOff ch)) f
      (s.afterRead (adtOff ch)) :=
    .act (tick_calm (by exact h)) h.1 (actRelease_held (s := s.afterRead (adtOff ch)) hl rfl) (.raise _ _ _)
  rcases hf with ⟨hr, rfl⟩ | ⟨hr, hwrap, rfl⟩
  · rw [hr]
    exact raised
  · rw [hr, hwrap]
    exact raised

theorem addrOf_putFlags (v : Row) (h : Half) (rdy dne err : Bool) (h' : Half) :
    addrOf (putFlags v h rdy dne err) h' = addrOf v h' := by
  refine bits_setField_other _ _ _ _ _ (.inl ?_)
  cases h <;> cases h' <;> decide

theorem addrOf_putAddr (v : Row) (h : Half) (w : Word) : addrOf (putAddr v h w) h = w := by
  refine bits_setField_same _ _ _ ?_
  cases h <;> decide

theorem getLsbD_rearmRow_other (v : Row) (h : Half) (w : Word) {k : Nat} (h1 : k < 32 * Half.idx h ∨ 32 * Half.idx h + 32 ≤ k)
    (h2 : k < flagLo h ∨ flagLo h + 3 ≤ k) : (rearmRow v h w).getLsbD k = v.getLsbD k := by
  rw [rearmRow, getLsbD_putFlags_other _ _ _ _ h2]
  exact bit_setField_other _ _ _ _ h1

/-- Settles O42. -/
theorem rearmHandsTheCompletedHalfBack : Obligations.RearmHandsTheCompletedHalfBack := by
  intro s a ch x h ht ha hc hw old wrap stopped
  have hch : ch.toNat < s.cfg.nch := lt_nch_of_ready h (by simp [channelField])
  have hcalm := begun_calm h.safe ht
  have raised : ∀ f, Raises a (progOf s.cfg (s.ctx a).op false (.adtRearm ch)) s.begun f (s.begun.afterRead (adtOff ch)) →
      stopped f := by
    intro f e
    obtain ⟨he, hr⟩ := e.command h ⟨rfl, rfl, rfl⟩
    have hread := (onlyRead_afterRead (s := s) ht.2.1 (adtOff ch)).of_parts (t := State.raise (s.begun.afterRead (adtOff ch)) a f)
      (tablePart_raise _ _ _) (softPart_raise _ _ _)
    obtain rfl := h.cur
    exact ⟨_, he, hr, hread, (raise_lock ..).trans ht.2.2.1⟩
  have raises := fun f hf => raised f
    (adtRearmWith_raises (s := s.begun) s.cfg hcalm ht.2.2.1 hch ht.2.2.2 ha hc hw hf)
  refine ⟨fun hr => raises _ (.inl ⟨hr, rfl⟩), fun hr hwrap => raises _ (.inr ⟨hr, hwrap, rfl⟩), fun hr hwrap => ?_⟩
  have run : Does a (progAdtRearm s.cfg (s.ctx a).op ch) s.begun fun y v =>
      y = { rc := some .ok, res := [(0, BitVec.ofNat 32 (Half.idx x))] } ∧ Quiet s v ∧
      ∃ u, Wrote (adtOff ch) (rearmRow old x (s.ctx a).op[1]) s.begun u ∧ v = u.setSw ch (Half.other x) := by
    refine (Does.of_ends (adtRearmWith_does s.cfg hcalm ht.2.2.1 hch ht.2.2.2 ha hc hw hr hwrap)).mono ?_
    rintro y v ⟨rfl, rfl⟩
    have wrote := wrote_afterWrite s.begun s.cfg.readbackCheck (adtOff ch) (rearmRow old x (s.ctx a).op[1])
    have hq := wrote.moved.quiet
    exact ⟨rfl, ⟨hq.contexts, hq.cur, hq.engine⟩, _, wrote, rfl⟩
  obtain ⟨_, t, ⟨u, wrote, rfl⟩, hm, he, hrest, hk⟩ := run.quietCommand h (List.nodup_singleton _)
  have hsoft := keepsSoft_setSw (ch := ch) (Half.other x) wrote.moved.softPart
  have hsw : (u.setSw ch (Half.other x)).sw ch = Half.other x := by simp [sw_setSw]
  have hidle := (wrote.moved.calm hcalm).2.1
  have hfields : addrOf (u.row (adtOff ch)) x = (s.ctx a).op[1] ∧ rdyOf (u.row (adtOff ch)) x = true ∧
      dneOf (u.row (adtOff ch)) x = false ∧ errOf (u.row (adtOff ch)) x = false ∧
      ∀ k, (k < 32 * Half.idx x ∨ 32 * Half.idx x + 32 ≤ k) → (k < flagLo x ∨ flagLo x + 3 ≤ k) →
        (u.row (adtOff ch)).getLsbD k = old.getLsbD k := by
    rw [wrote.row_same]
    exact ⟨(addrOf_putFlags ..).trans (addrOf_putAddr ..), rdyOf_putFlags .., dneOf_putFlags .., errOf_putFlags ..,
      fun k => getLsbD_rearmRow_other _ _ _⟩
  obtain rfl := h.cur
  obtain ⟨_, _, _, _, rfl⟩ := hm
  exact ⟨_, he, hrest, hfields, wrote.written_same, wrote.keepsRowsBut, (wrote.other (isCatRow_adtOff ch)).1.1, hidle, hsw,
    hsoft.of_parts rfl rfl, hk⟩

end Sys2Proof.Machine
end

section
/-! PROOFS. Nodes and their ring (44_ring_buffer.md, 45_channel.md): the commands that make no transaction. -/

namespace Sys2Proof.Machine

variable {α : Type} {s t u : State} {a : Agent} {i : Instr} {p : Prog Result} {rc : RC} {res : List (Fin 4 × Word)} {n : NodeNo}

/-! ## One node replaced -/

@[simp] theorem setNode_setNode (s : State) (n : NodeNo) (x y : Node) : (s.setNode n x).setNode n y = s.setNode n y := by
  simp [State.setNode]

@[simp] theorem setNode_node (s : State) (n : NodeNo) : s.setNode n (s.node n) = s := by
  simp [State.setNode, State.node]

/-- The software side after a step that replaces a node. -/
theorem keepsSoft_setNode (x : Node) (e : t.softPart = s.softPart) : KeepsSoft [] [n] s (t.setNode n x) := by
  have hs := keepsSoft_of_softPart (chs := []) (ns := []) e
  refine ⟨hs.status, hs.masks, hs.config, hs.halves, fun m hm => ?_, hs.log, hs.mem⟩
  rw [node_setNode, if_neg (by simpa using hm)]
  exact hs.nodes m (by simp)

/-- A ready command whose run replaces one node, and may take an allocation draw. -/
theorem Does.nodeCommand {x : Node} (h : s.Ready a i)
    (d : Does a p s.begun fun y u => y = { rc := some rc, res := res } ∧ ∃ e, u = { s.begun.setNode n x with env := e })
    (nd : (res.map (·.1)).Nodup) :
    ∃ t, s.runCommand i p = .next t ∧ Ended a s t rc res ∧ t.node n = x ∧ KeepsTable s t ∧ KeepsSoft [] [n] s t ∧
      KeepsCore a s t := by
  obtain ⟨_, t, ⟨e, rfl⟩, hm, he, hr, hk⟩ := Does.quietCommand
    (R := fun u => ∃ e, u = { s.begun.setNode n x with env := e }) h
    (d.mono fun y u ⟨hy, e, hu⟩ => ⟨hy, hu ▸ ⟨rfl, rfl, rfl⟩, e, hu⟩) nd
  refine ⟨t, he, hr, ?_, keepsTable_of_tablePart hm.tablePart, (keepsSoft_setNode x rfl).of_parts rfl hm.softPart, hk⟩
  obtain ⟨_, _, _, _, rfl⟩ := hm
  exact node_setNode_same s n x

/-! ## Steps on a node -/

@[simp] theorem raise_node (s : State) (a : Agent) (f : FReason) (n : NodeNo) : (s.raise a f).node n = s.node n := by
  simp [State.node]

/-- The word an answer holds. -/
@[simp] theorem word_of_answer (w : Word) : (w.setWidth 128).setWidth 32 = w := by simp

theorem isOpen_iff (l : LState) : l.isOpen = true ↔ l ≠ .closed ∧ l ≠ .configuring := by
  cases l <;> decide

theorem lstateResp_inj {l m : LState} : lstateResp l = lstateResp m ↔ l = m := by
  cases l <;> cases m <;> decide

/-- The lifecycle mutex is taken when it is free and L is not the agent's (R90, R273). -/
theorem takeMutex_free (hl : s.lock ≠ some a) (hn : (s.node n).nm = none) :
    Act.apply a s (.takeMutex n) = .ok (s.setNode n { s.node n with nm := some a }) 0 := by
  simp [Act.apply, actTakeMutex, hl, hn]

theorem getRefcnt_apply {w : Word} (h : (s.node n).refcnt = w) : Act.apply a s (.getRefcnt n) = .ok s (w.setWidth 128) := by
  rw [← h]
  rfl

theorem getLstate_apply {l : LState} (h : (s.node n).lstate = l) : Act.apply a s (.getLstate n) = .ok s (lstateResp l) := by
  rw [← h]
  rfl

/-- An allocation draw that the allocator refuses (R251). -/
theorem allocate_refused {more : List (Option Bufs)} (h : s.env.allocs = none :: more) :
    Act.apply a s (.allocate n) = .ok { s with env := { s.env with allocs := more } } 0 := by
  simp [Act.apply, actAllocate, Env.alloc, h]

section

variable {q : Prog α} {k : Resp → Prog α} {Q : α → State → Prop}

/-- A command that begins by taking the lifecycle mutex. -/
theorem Does.takeMutex (hf : s.safe) (hs : s.Still) (hl : s.lock ≠ some a) (hn : (s.node n).nm = none)
    (hq : Does a q (s.setNode n { s.node n with nm := some a }) Q) : Does a (.after (.takeMutex n) q) s Q :=
  .still hf hs (takeMutex_free hl hn) hq

theorem Does.getRefcnt {w : Word} (hf : s.safe) (hs : s.Still) (hw : (s.node n).refcnt = w)
    (hk : Does a (k (w.setWidth 128)) s Q) : Does a (.act (.getRefcnt n) k) s Q := .still hf hs (getRefcnt_apply hw) hk

theorem Does.getLstate {l : LState} (hf : s.safe) (hs : s.Still) (hl : (s.node n).lstate = l)
    (hk : Does a (k (lstateResp l)) s Q) : Does a (.act (.getLstate n) k) s Q := .still hf hs (getLstate_apply hl) hk

/-! The node's fields written, `x` being the node as it was. -/

theorem Does.setRefcnt {x : Node} {w : Word} (hf : s.safe) (hs : s.Still) (hx : s.node n = x)
    (hq : Does a q (s.setNode n { x with refcnt := w }) Q) : Does a (.after (.setRefcnt n w) q) s Q := by
  subst hx
  exact .still hf hs rfl hq

theorem Does.giveMutex {x : Node} (hf : s.safe) (hs : s.Still) (hx : s.node n = x)
    (hq : Does a q (s.setNode n { x with nm := none }) Q) : Does a (.after (.giveMutex n) q) s Q := by
  subst hx
  exact .still hf hs rfl hq

theorem Does.setLstate {x : Node} {l : LState} (hf : s.safe) (hs : s.Still) (hx : s.node n = x)
    (hq : Does a q (s.setNode n { x with lstate := l }) Q) : Does a (.after (.setLstate n l) q) s Q := by
  subst hx
  exact .still hf hs rfl hq

end

/-- Settles O46. -/
theorem openAndCloseCountReferences : Obligations.OpenAndCloseCountReferences := by
  intro s a n hst hl hn
  refine ⟨fun h h0 h1 => ?_, fun h h1 => ?_, fun h h0 h1 => ?_⟩
  · refine Does.nodeCommand h (.takeMutex h.safe hst hl hn ?_) List.nodup_nil
    refine .getRefcnt (w := (s.node n).refcnt) h.safe hst (by rw [node_setNode_same]; rfl) ?_
    dsimp only
    rw [word_of_answer, if_neg h1, if_pos h0]
    refine .setRefcnt h.safe hst (node_setNode_same ..) (.giveMutex h.safe hst (node_setNode_same ..) (.ret ⟨rfl, s.env, ?_⟩))
    simp only [setNode_setNode]
    rw [← hn]
    rfl
  · have run : Raises a (progChOpen s.cfg n) s.begun .refOverflow (s.begun.setNode n { s.node n with nm := some a }) := by
      refine .act (tick_still h.safe hst) h.safe (takeMutex_free hl hn) ?_
      refine .act (tick_still (s := s.begun.setNode n _) h.safe hst) h.safe
        (getRefcnt_apply (w := 0xFFFFFFFF) (by rw [node_setNode_same]; exact h1)) ?_
      rw [if_pos (by decide)]
      exact .raise _ _ _
    obtain ⟨he, hr⟩ := run.command h ⟨rfl, rfl, rfl⟩
    refine ⟨_, he, hr, ?_, keepsTable_of_tablePart (tablePart_raise ..), ?_, raise_lock ..⟩
    · exact (raise_node ..).trans (node_setNode_same ..)
    · exact (keepsSoft_setNode _ rfl).of_parts rfl (softPart_raise ..)
  · refine Does.nodeCommand h (.takeMutex h.safe hst hl hn ?_) List.nodup_nil
    refine .getRefcnt (w := (s.node n).refcnt) h.safe hst (by rw [node_setNode_same]; rfl) ?_
    dsimp only
    rw [word_of_answer, if_neg h0]
    refine .setRefcnt h.safe hst (node_setNode_same ..) ?_
    rw [if_pos h1]
    refine .giveMutex h.safe hst (node_setNode_same ..) (.ret ⟨rfl, s.env, ?_⟩)
    simp only [setNode_setNode]
    rw [← hn]
    rfl

/-- Settles O48. -/
theorem refusedAllocationLeavesTheNodeClosed : Obligations.RefusedAllocationLeavesTheNodeClosed := by
  intro s a n more h hst hl hn h0 hall
  refine Does.nodeCommand h (.takeMutex h.safe hst hl hn ?_) List.nodup_nil
  refine .getRefcnt (w := 0) h.safe hst (by rw [node_setNode_same]; exact h0) ?_
  dsimp only
  rw [word_of_answer, if_neg (by decide), if_neg (by decide)]
  refine .bind (P := fun rc u => rc = .allocFailed ∧ ∃ e, e.script = s.env.script ∧ e.rest = s.env.rest ∧
    u = { s.begun.setNode n { s.node n with lstate := .closed, nm := some a } with env := e }) ?_ ?_
  · refine .setLstate h.safe hst (node_setNode_same ..) ?_
    let e : Env := { s.env with allocs := more }
    refine .still h.safe hst (allocate_refused hall) ?_
    rw [if_pos rfl]
    refine .setLstate h.safe hst (node_setNode_same ..) (.ret ⟨rfl, e, rfl, rfl, ?_⟩)
    simp [State.setNode, State.node, State.begun, e]
  · rintro rc u ⟨rfl, e, hes, her, rfl⟩
    rw [if_neg (by decide)]
    have hst : State.Still { s with env := e } := by
      rw [State.Still, hes, her]
      exact hst
    refine .giveMutex h.safe hst (node_setNode_same ..) (.ret ⟨rfl, e, ?_⟩)
    simp [State.setNode, hn]

end Sys2Proof.Machine
end

section
/-! PROOFS. The ring commands, the queries and the configuration calls (44_ring_buffer.md, 45_channel.md). -/

namespace Sys2Proof.Machine

variable {α : Type} {s t u : State} {a : Agent} {i : Instr} {p : Prog Result} {rc : RC} {res : List (Fin 4 × Word)} {n : NodeNo}

/-! ## The lifecycle checks (R249, R273) -/

theorem giveMutex_node {x : Node} (h : x.nm = none) : { x with nm := none } = x := by
  rw [← h]

/-- The mutex taken and given back leaves the node as it was. -/
theorem mutex_returned (h : (s.node n).nm = none) :
    (s.setNode n { s.node n with nm := some a }).setNode n { s.node n with nm := none } = s := by
  rw [setNode_setNode, giveMutex_node h, setNode_node]

/-- A command that takes the mutex and finds a lifecycle state that does not allow it. -/
theorem wrongState_command {k : Resp → Prog Result} (h : s.Ready a i) (hst : s.Still) (hl : s.lock ≠ some a)
    (hn : (s.node n).nm = none)
    (hk : k (lstateResp (s.node n).lstate) = .after (.giveMutex n) (done .invalidState)) :
    ∃ t, s.runCommand i (.after (.takeMutex n) (.act (.getLstate n) k)) = .next t ∧ Ended a s t .invalidState [] ∧
      KeepsTable s t ∧ KeepsSoft [] [] s t ∧ KeepsCore a s t := by
  refine Does.untouchedCommand h (.takeMutex h.safe hst hl hn ?_) List.nodup_nil
  refine .getLstate (l := (s.node n).lstate) h.safe hst (by rw [node_setNode_same]; rfl) ?_
  rw [hk]
  exact .giveMutex h.safe hst (node_setNode_same ..) (.ret ⟨rfl, mutex_returned (s := s.begun) hn⟩)

/-- Settles O52. -/
theorem commandsCheckTheLifecycle : Obligations.CommandsCheckTheLifecycle := by
  intro s a n i h hst
  refine ⟨fun hl hn hi => ?_, fun hi => ?_⟩
  · rcases hi with ⟨rfl, h1, h2⟩ | ⟨rfl, h1⟩ | ⟨rfl, h1⟩
    · exact wrongState_command h hst hl hn
        (if_pos ⟨fun e => h1 (lstateResp_inj.mp e), fun e => h2 (lstateResp_inj.mp e)⟩)
    · exact wrongState_command h hst hl hn (if_pos fun e => h1 (lstateResp_inj.mp e))
    · exact wrongState_command h hst hl hn (if_pos fun e => h1 (lstateResp_inj.mp e))
  · rcases hi with ⟨rfl, h0, hn, hl⟩ | ⟨hi, hc⟩
    · refine runCommand_turnedAway h ?_
      refine .act (tick_still h.safe hst) h.safe (takeMutex_free hl hn) ?_
      refine .act (tick_still (s := s.begun.setNode n _) h.safe hst) h.safe
        (getRefcnt_apply (w := 0) (by rw [node_setNode_same]; exact h0)) ?_
      rw [if_pos (by decide)]
      refine .act (tick_still (s := s.begun.setNode n _) h.safe hst) h.safe (s2 := s.begun) (r := 0) ?_ (.raise _ _ _)
      simp only [Act.apply, actNode, node_setNode_same]
      rw [mutex_returned (s := s.begun) hn]
    · have hopen : (s.node n).lstate.isOpen = false := by
        rw [← Bool.not_eq_true, isOpen_iff]
        exact fun ho => hc.elim ho.1 ho.2
      rcases hi with rfl | rfl | rfl
      all_goals
        have hopen : (!(s.begun.node n).lstate.isOpen) = true := by rw [Bool.not_eq_true']; exact hopen
        refine runCommand_turnedAway h (.step (tick_still h.safe hst) h.safe ?_)
      · exact if_pos hopen
      · exact if_pos hopen
      · exact if_pos hopen

/-! ## Queries and configuration calls (R268, R270, R275 to R277) -/

theorem readyBits_eq (p q r : Bool) :
    readyBits p q r = (if p then 1 else 0) ||| (if q then 2 else 0) ||| (if r then 4 else 0) := by
  cases p <;> cases q <;> cases r <;> decide

/-- The two words of an answer. -/
theorem rowWord_of_pair (x y : Word) :
    rowWord ((x ++ y : BitVec 64).setWidth 128) 0 = y ∧ rowWord ((x ++ y : BitVec 64).setWidth 128) 1 = x := by
  refine ⟨?_, ?_⟩
  · refine BitVec.eq_of_getLsbD_eq fun k hk => ?_
    simp only [rowWord, BitVec.getLsbD_extractLsb', BitVec.getLsbD_setWidth, BitVec.getLsbD_append]
    simp [hk, show k < 128 by omega]
  · refine BitVec.eq_of_getLsbD_eq fun k hk => ?_
    simp only [rowWord, BitVec.getLsbD_extractLsb', BitVec.getLsbD_setWidth, BitVec.getLsbD_append]
    simp [hk, show 32 + k < 128 by omega]

/-- Settles O55. -/
theorem queriesAnswerFromTheNode : Obligations.QueriesAnswerFromTheNode := by
  intro s a n hst h1 h2
  have hopen : (s.node n).lstate.isOpen = true := (isOpen_iff _).mpr ⟨h1, h2⟩
  refine ⟨fun h => ?_, fun r h hr => ?_⟩
  · refine Does.nodeCommand h (.still (t := s.begun.setNode n { s.node n with exc := 0 }) (r := (s.node n).exc.setWidth 128)
      h.safe hst ?_ (.ret ⟨?_, s.env, rfl⟩)) (List.nodup_singleton _)
    · refine if_neg ?_
      rw [show (s.begun.node n).lstate.isOpen = true from hopen]
      decide
    · simp
  · refine Does.untouchedCommand h (.still (t := s.begun) (r := (r.dropcnt ++ readyBits (!r.empty) (!(s.node n).txBusy)
      (decide ((s.node n).exc ≠ 0))).setWidth 128) h.safe hst ?_ (.ret ⟨?_, rfl⟩)) (by simp)
    · have hr : (s.begun.node n).ring = some r := hr
      have hopen : (s.begun.node n).lstate.isOpen = true := hopen
      simp only [Act.apply, actReadiness, hopen, hr]
      rfl
    · obtain ⟨e0, e1⟩ := rowWord_of_pair r.dropcnt (readyBits (!r.empty) (!(s.node n).txBusy) (decide ((s.node n).exc ≠ 0)))
      rw [e0, e1, readyBits_eq]
      cases (s.node n).txBusy <;> simp [Ring.empty]

/-- Settles O57. -/
theorem configurationCallsAccessTheirRegisters : Obligations.ConfigurationCallsAccessTheirRegisters := by
  intro s a hst
  refine ⟨fun h => ?_, fun h => ?_, fun h => ?_⟩
  · obtain rfl := h.cur
    obtain ⟨_, t, rfl, hm, he, hr, hk⟩ := Does.quietCommand (p := progSetBusClockClass s.operands)
      (R := fun u => u = { s.begun with busClkClass := s.operands[0] }) h
      (.still h.safe hst rfl (.ret ⟨rfl, ⟨rfl, rfl, rfl⟩, rfl⟩)) List.nodup_nil
    obtain ⟨_, _, _, _, rfl⟩ := hm
    exact ⟨_, he, hr, rfl, rfl, keepsTable_of_tablePart rfl, ⟨rfl, rfl⟩, ⟨rfl, rfl⟩, fun _ _ => rfl, fun _ _ => rfl, rfl,
      fun _ => rfl, hk⟩
  · obtain rfl := h.cur
    obtain ⟨_, t, rfl, hm, he, hr, hk⟩ := Does.quietCommand (p := progSetDeviceBusAddress s.operands)
      (R := fun u => u = { s.begun with devAddr := s.operands[0] }) h
      (.still h.safe hst rfl (.ret ⟨rfl, ⟨rfl, rfl, rfl⟩, rfl⟩)) List.nodup_nil
    obtain ⟨_, _, _, _, rfl⟩ := hm
    exact ⟨_, he, hr, rfl, rfl, keepsTable_of_tablePart rfl, ⟨rfl, rfl⟩, ⟨rfl, rfl⟩, fun _ _ => rfl, fun _ _ => rfl, rfl,
      fun _ => rfl, hk⟩
  · refine Does.untouchedCommand h (.still (t := s.begun) (r := s.cfg.protocolVersion.setWidth 128) h.safe hst rfl (.ret ⟨?_, rfl⟩))
      (List.nodup_singleton _)
    rw [word_of_answer]

end Sys2Proof.Machine
end

section
/-! PROOFS. CH.SET_CHANNEL_ADDRESSES and the ring commands (44_ring_buffer.md, 45_channel.md R269). -/

namespace Sys2Proof.Machine

variable {α : Type} {s t u : State} {a : Agent} {i : Instr} {p : Prog Result} {rc : RC} {res : List (Fin 4 × Word)} {n : NodeNo}

/-! ## CH.SET_CHANNEL_ADDRESSES (R269) -/

theorem mem_nodesOf (c : Params) (m : NodeNo) : m ∈ nodesOf c ↔ m.toNat < c.nnodes := by
  have := m.isLt
  simp only [nodesOf, List.mem_map, List.mem_range]
  constructor
  · rintro ⟨k, hk, rfl⟩
    rw [BitVec.toNat_ofNat]
    omega
  · exact fun h => ⟨m.toNat, by omega, by simp⟩

theorem chansUsedBy_iff (s : State) (n : NodeNo) (b c : Chan) : chansUsedBy s n b c = true ↔
    ∃ m : NodeNo, m.toNat < s.cfg.nnodes ∧ m ≠ n ∧
      ((s.node m).rxCh = b ∨ (s.node m).rxCh = c ∨ (s.node m).txCh = b ∨ (s.node m).txCh = c) := by
  simp [chansUsedBy, mem_nodesOf, or_assoc]

/-- The nodes other than n decide whether its new channels are used. -/
theorem chansUsedBy_setNode (x : Node) (b c : Chan) : chansUsedBy (s.setNode n x) n b c = chansUsedBy s n b c := by
  rw [Bool.eq_iff_iff, chansUsedBy_iff, chansUsedBy_iff]
  refine exists_congr fun m => and_congr_right fun _ => and_congr_right fun hm => ?_
  rw [node_setNode, if_neg hm]

/-- The channel an operand below NCH names. -/
theorem eq_setWidth_iff {c : Params} (hc : c.nch ≤ 64) {w : Word} (h : w.toNat < c.nch) (x : Chan) :
    x = w.setWidth 6 ↔ x.toNat = w.toNat := by
  rw [← BitVec.toNat_inj, toNat_setWidth_chan hc h]

section

variable {op : Vector Word 4} {c : Params} {Q : Result → State → Prop}

/-- On a Closed node with its mutex free the command comes to the checks of the pair. -/
theorem setChannelAddresses_starts (hf : s.safe) (hst : s.Still) (hl : s.lock ≠ some a) (hn : (s.node n).nm = none)
    (hc : (s.node n).lstate = .closed)
    (hQ : Does a (if c.nch ≤ op[0].toNat ∨ c.nch ≤ op[1].toNat ∨ op[0] = op[1] then
        .after (.giveMutex n) <| done .validationError
      else .act (.chansUsed n (op[0].setWidth 6) (op[1].setWidth 6)) fun used =>
        if used ≠ 0 then .after (.giveMutex n) <| done .validationError
        else .after (.setChans n (op[0].setWidth 6) (op[1].setWidth 6)) <| .after (.giveMutex n) <| done .ok)
      (s.setNode n { s.node n with nm := some a }) Q) :
    Does a (progChSetChannelAddresses c op n) s Q := by
  refine .takeMutex hf hst hl hn (.getLstate (l := .closed) hf hst (by rw [node_setNode_same]; exact hc) ?_)
  rw [if_neg (by decide)]
  exact hQ

/-- The question whether a channel of the pair is used, with the mutex held. -/
theorem chansUsed_apply (x : Node) (b c : Chan) : Act.apply a (s.setNode n x) (.chansUsed n b c) =
    .ok (s.setNode n x) (bitResp (chansUsedBy s n b c)) := by
  simp only [Act.apply, chansUsedBy_setNode]

theorem setChannelAddresses_rejected (hf : s.safe) (hst : s.Still) (hl : s.lock ≠ some a) (hn : (s.node n).nm = none)
    (hc : (s.node n).lstate = .closed)
    (hb : (c.nch ≤ op[0].toNat ∨ c.nch ≤ op[1].toNat ∨ op[0] = op[1]) ∨
      chansUsedBy s n (op[0].setWidth 6) (op[1].setWidth 6) = true) :
    Does a (progChSetChannelAddresses c op n) s fun x u => x = { rc := some .validationError } ∧ u = s := by
  have give : Does a (.after (.giveMutex n) <| done .validationError) (s.setNode n { s.node n with nm := some a })
      fun x u => x = { rc := some .validationError } ∧ u = s :=
    .giveMutex hf hst (node_setNode_same ..) (.ret ⟨rfl, mutex_returned hn⟩)
  refine setChannelAddresses_starts hf hst hl hn hc ?_
  split
  · exact give
  · next hp =>
    refine .still hf hst (chansUsed_apply ..) ?_
    rw [hb.resolve_left hp, if_pos (by decide)]
    exact give

theorem setChannelAddresses_accepted (hf : s.safe) (hst : s.Still) (hl : s.lock ≠ some a) (hn : (s.node n).nm = none)
    (hc : (s.node n).lstate = .closed) (hp : ¬ (c.nch ≤ op[0].toNat ∨ c.nch ≤ op[1].toNat ∨ op[0] = op[1]))
    (hu : chansUsedBy s n (op[0].setWidth 6) (op[1].setWidth 6) = false) :
    Does a (progChSetChannelAddresses c op n) s fun x u => x = { rc := some .ok } ∧
      u = s.setNode n { s.node n with rxCh := op[0].setWidth 6, txCh := op[1].setWidth 6 } := by
  refine setChannelAddresses_starts hf hst hl hn hc ?_
  rw [if_neg hp]
  refine .still hf hst (chansUsed_apply ..) ?_
  rw [hu, if_neg (by decide)]
  refine .still hf hst rfl (.giveMutex hf hst (node_setNode_same ..) (.ret ⟨rfl, ?_⟩))
  rw [setNode_setNode, setNode_setNode, node_setNode_same, ← hn]

end

/-- Settles O56. -/
theorem setChannelAddressesChecksThePair : Obligations.SetChannelAddressesChecksThePair := by
  intro s a n p q used bad h hst hl hn hc hnch
  have pair (hp : ¬ (s.cfg.nch ≤ p.toNat ∨ s.cfg.nch ≤ q.toNat ∨ p = q)) : p.toNat < s.cfg.nch ∧ q.toNat < s.cfg.nch := by
    omega
  have hused (hp : ¬ (s.cfg.nch ≤ p.toNat ∨ s.cfg.nch ≤ q.toNat ∨ p = q)) :
      chansUsedBy s n (p.setWidth 6) (q.setWidth 6) = true ↔ used := by
    rw [chansUsedBy_iff]
    simp only [eq_setWidth_iff hnch (pair hp).1, eq_setWidth_iff hnch (pair hp).2, used]
  have hbad : bad ↔ (s.cfg.nch ≤ p.toNat ∨ s.cfg.nch ≤ q.toNat ∨ p = q) ∨ used := by simp only [bad, or_assoc]
  by_cases hb : bad
  · have why : (s.cfg.nch ≤ p.toNat ∨ s.cfg.nch ≤ q.toNat ∨ p = q) ∨
        chansUsedBy s.begun n (p.setWidth 6) (q.setWidth 6) = true := by
      by_cases hp : s.cfg.nch ≤ p.toNat ∨ s.cfg.nch ≤ q.toNat ∨ p = q
      · exact .inl hp
      · exact .inr ((hused hp).mpr ((hbad.mp hb).resolve_left hp))
    obtain ⟨t, he, hr, htab, hs, hk⟩ := (setChannelAddresses_rejected (s := s.begun) h.safe hst hl hn hc why).untouchedCommand h
      List.nodup_nil
    obtain rfl := h.cur
    exact ⟨t, he, htab, hk, fun _ => ⟨hr, hs⟩, fun hnb => absurd hb hnb⟩
  · obtain ⟨hp, hu⟩ := not_or.mp (mt hbad.mpr hb)
    have hu : chansUsedBy s.begun n (p.setWidth 6) (q.setWidth 6) = false :=
      Bool.eq_false_iff.mpr fun e => hu ((hused hp).mp e)
    obtain ⟨t, he, hr, hnode, htab, hs, hk⟩ := Does.nodeCommand h
      ((setChannelAddresses_accepted (s := s.begun) h.safe hst hl hn hc hp hu).mono fun x u hx => ⟨hx.1, s.env, hx.2⟩) List.nodup_nil
    obtain rfl := h.cur
    refine ⟨t, he, htab, hk, fun hb' => absurd hb' hb, fun _ => ⟨hr, ?_, ?_, by rw [hnode]; rfl, hs⟩⟩
    · rw [hnode]
      exact toNat_setWidth_chan hnch (pair hp).1
    · rw [hnode]
      exact toNat_setWidth_chan hnch (pair hp).2

end Sys2Proof.Machine
end

section
/-! PROOFS. The ring commands (44_ring_buffer.md). -/

namespace Sys2Proof.Machine

variable {α : Type} {s t u : State} {a : Agent} {n : NodeNo} {r : Ring}

/-! ## Wakes (45_channel.md R272) -/

theorem ctx_notify (s : State) (p : Instr → Bool) (k : Nat) : (s.notify p).ctx (.host k) =
    if Ctx.waitsIn p (s.ctx (.host k)) then { s.ctx (.host k) with notified := true } else s.ctx (.host k) := by
  obtain ⟨th, e, -, h⟩ := notify_frame s p
  rw [e]
  exact h k

theorem ctx_wakeAll (s : State) (n : NodeNo) (k : Nat) : (s.wakeAll n).ctx (.host k) =
    if Ctx.waitsOn n (s.ctx (.host k)) then { s.ctx (.host k) with woken := true } else s.ctx (.host k) := by
  obtain ⟨th, e, -, h⟩ := wakeAll_frame s n
  rw [e]
  exact h k

/-- A wake (a) reaches the threads blocked in a command of its kind. -/
theorem rechecks_of_notify {p : Instr → Bool} (hu : u.contexts = s.contexts)
    (ht : ∀ b, b ≠ a → t.ctx b = (u.notify p).ctx b) : Rechecks (fun x => x.waitsIn p = true) a s t := by
  refine ⟨fun k hk => ⟨fun hw => ?_, fun hw => ?_⟩, fun hk => ?_, fun hk => ?_⟩
  · rw [ht _ hk, ctx_notify, ctx_of_contexts hu, if_pos hw]
  · rw [ht _ hk, ctx_notify, ctx_of_contexts hu, if_neg hw]
  · exact (ht _ hk).trans (ctx_of_contexts hu .hd)
  · exact (ht _ hk).trans (ctx_of_contexts hu .bd)

/-- `wake_all` reaches the threads blocked on the node. -/
theorem wakesNode_of_wakeAll (hu : u.contexts = s.contexts) (ht : ∀ b, b ≠ a → t.ctx b = (u.wakeAll n).ctx b) :
    WakesNode n a s t := by
  refine ⟨fun k hk => ?_, fun hk => ?_, fun hk => ?_⟩
  · rw [ht _ hk, ctx_wakeAll, ctx_of_contexts hu]
  · exact (ht _ hk).trans (ctx_of_contexts hu .hd)
  · exact (ht _ hk).trans (ctx_of_contexts hu .bd)

/-- A wake moves no register of the waking agent's context. -/
theorem sameAgent_notify (p : Instr → Bool) (h : SameAgent a s u) : SameAgent a s (u.notify p) := by
  have hx : ∀ k, ∃ b, (u.notify p).ctx (.host k) = { u.ctx (.host k) with notified := b } := by
    intro k
    rw [ctx_notify]
    split
    · exact ⟨true, rfl⟩
    · exact ⟨(u.ctx (.host k)).notified, rfl⟩
  have hlen : (u.notify p).threads.length = s.threads.length := by
    obtain ⟨th, e, hl, -⟩ := notify_frame u p
    rw [e]
    exact hl.trans h.threads
  cases a with
  | host k =>
    obtain ⟨b, e⟩ := hx k
    exact ⟨h.cur, hlen, by rw [e]; exact h.res, by rw [e]; exact h.rc, by rw [e]; exact h.command⟩
  | hd => exact ⟨h.cur, hlen, h.res, h.rc, h.command⟩
  | bd => exact ⟨h.cur, hlen, h.res, h.rc, h.command⟩
  | hw => exact ⟨h.cur, hlen, h.res, h.rc, h.command⟩

theorem sameAgent_wakeAll (m : NodeNo) (h : SameAgent a s u) : SameAgent a s (u.wakeAll m) := by
  have hx : ∀ k, ∃ b, (u.wakeAll m).ctx (.host k) = { u.ctx (.host k) with woken := b } := by
    intro k
    rw [ctx_wakeAll]
    split
    · exact ⟨true, rfl⟩
    · exact ⟨(u.ctx (.host k)).woken, rfl⟩
  have hlen : (u.wakeAll m).threads.length = s.threads.length := by
    obtain ⟨th, e, hl, -⟩ := wakeAll_frame u m
    rw [e]
    exact hl.trans h.threads
  cases a with
  | host k =>
    obtain ⟨b, e⟩ := hx k
    exact ⟨h.cur, hlen, by rw [e]; exact h.res, by rw [e]; exact h.rc, by rw [e]; exact h.command⟩
  | hd => exact ⟨h.cur, hlen, h.res, h.rc, h.command⟩
  | bd => exact ⟨h.cur, hlen, h.res, h.rc, h.command⟩
  | hw => exact ⟨h.cur, hlen, h.res, h.rc, h.command⟩

/-! ## RB.TRY_ENQUEUE (R230) -/

theorem full_iff (r : Ring) (cap : Nat) : r.full cap = true ↔ (r.widx + 1) % cap = r.ridx := decide_eq_true_iff

theorem enqueue_full {cap : Nat} (hf : (r.widx + 1) % cap = r.ridx) (d : List Byte) :
    r.enqueue cap d = ({ r with slots := r.slots.set cap (some d), dropcnt := r.dropcnt + 1 }, true) :=
  if_pos ((full_iff r cap).mpr hf)

theorem enqueue_not_full {cap : Nat} (hf : ¬ (r.widx + 1) % cap = r.ridx) (d : List Byte) :
    r.enqueue cap d = ({ r with slots := r.slots.set r.widx (some d), widx := (r.widx + 1) % cap }, false) :=
  if_neg (mt (full_iff r cap).mp hf)

/-- The packet of a full ring is dropped, and wakes nobody. -/
theorem enqueue_drops {b : Word} (hr : (s.node n).ring = some r) (hw : wraps b (s.cfg.slot n) = false)
    (hf : (r.widx + 1) % s.cfg.cap n = r.ridx) : Act.apply a s (.enqueue n b) =
      .ok (s.setNode n { s.node n with
        ring := some (r.enqueue (s.cfg.cap n) (memReadBytes s.mem b.toNat (s.cfg.slot n))).1 }) 1 := by
  simp only [Act.apply, actEnqueue, hr, hw, enqueue_full hf]
  rfl

/-- The packet of a ring that is not full is stored, and wakes the readers of the node. -/
theorem enqueue_stores {b : Word} (hr : (s.node n).ring = some r) (hw : wraps b (s.cfg.slot n) = false)
    (hf : ¬ (r.widx + 1) % s.cfg.cap n = r.ridx) : Act.apply a s (.enqueue n b) =
      .ok ((s.setNode n { s.node n with
        ring := some (r.enqueue (s.cfg.cap n) (memReadBytes s.mem b.toNat (s.cfg.slot n))).1 }).notify (readsFrom n)) 0 := by
  simp only [Act.apply, actEnqueue, hr, hw, enqueue_not_full hf]
  rfl

/-- Settles O43. -/
theorem tryEnqueueNeverWaits : Obligations.TryEnqueueNeverWaits := by
  intro s n h hst data cap wrap turned
  refine ⟨fun hr => ?_, fun hr hw => ?_, fun r hr hw => ?_⟩
  · obtain hc := h.cur
    refine runCommand_turnedAway h (.step (tick_still h.safe hst) h.safe ?_)
    have hr : (s.begun.node n).ring = none := hr
    simp only [Act.apply, actEnqueue, hr]
  · refine runCommand_turnedAway h (.step (tick_still h.safe hst) h.safe ?_)
    obtain ⟨r, hr⟩ := Option.ne_none_iff_exists'.mp hr
    have hr : (s.begun.node n).ring = some r := hr
    simp only [Act.apply, actEnqueue, hr, State.operands, h.cur]
    exact if_pos hw
  · have hop : s.operands = (s.ctx .hd).op := by rw [State.operands, h.cur]
    rw [exec_eq, hop]
    by_cases hf : (r.widx + 1) % cap = r.ridx
    · obtain ⟨t, hx, hend, hn, htab, hs, hk⟩ := Does.nodeCommand (p := progRbTryEnqueue (s.ctx .hd).op n) h
        (.still h.safe hst (enqueue_drops (s := s.begun) hr hw hf) (.ret ⟨rfl, s.env, rfl⟩)) (List.nodup_singleton _)
      refine ⟨t, hx, ?_, htab, hs, hk.engine⟩
      rw [if_pos hf]
      exact ⟨hend, hn.trans (congrArg (fun x : Ring × Bool => { s.node n with ring := some x.1 }) (enqueue_full hf _)), hk.others⟩
    · obtain ⟨_, t, rfl, hm, hx, hend, ho⟩ := Does.endsCommand (p := progRbTryEnqueue (s.ctx .hd).op n)
        (R := fun u => u = State.notify (s.begun.setNode n { s.node n with ring := some (r.enqueue cap data).1 }) (readsFrom n)) h
        (.still h.safe hst (enqueue_stores (s := s.begun) hr hw hf)
          (.ret ⟨rfl, sameAgent_notify _ ⟨rfl, rfl, fun _ => rfl, rfl, rfl, rfl⟩, rfl⟩)) (List.nodup_singleton _)
      have hsoft : KeepsSoft [] [n] s t := (keepsSoft_setNode (s := s) (t := s.begun) _ rfl).of_parts rfl hm.softPart
      have hre := rechecks_of_notify (s := s) (a := .hd) rfl ho
      refine ⟨t, hx, ?_, keepsTable_of_tablePart hm.tablePart, hsoft, ?_⟩
      · rw [if_neg hf]
        refine ⟨hend, ?_, hre⟩
        obtain ⟨_, _, _, _, rfl⟩ := hm
        refine (node_setNode_same s n _).trans ?_
        rw [enqueue_not_full hf]
      · obtain ⟨_, _, _, _, rfl⟩ := hm
        exact keepsEngine_of_enginePart rfl

/-! ## RB.DEQUEUE (R232) -/

/-- The checks of RB.DEQUEUE pass: the agent becomes the consumer. -/
theorem deqEnter_apply {dst len : Word} (hr : (s.node n).ring = some r) (hc : (s.node n).consumer = none)
    (hl : s.cfg.slot n ≤ len.toNat) (hw : wraps dst (s.cfg.slot n) = false) :
    Act.apply a s (.deqEnter n dst len) = .ok (s.setNode n { s.node n with consumer := some a }) 0 := by
  simp [Act.apply, actDeqEnter, hr, hc, hw, Nat.not_lt.mpr hl]

/-- The oldest packet taken. -/
theorem deqTake_apply {dst : Word} {data : List Byte} (hr : (s.node n).ring = some r) (hne : r.ridx ≠ r.widx)
    (hd : r.slots[r.ridx]? = some (some data)) : Act.apply a s (.deqTake n dst) =
      .ok { s.setNode n { s.node n with ring := some { r with ridx := (r.ridx + 1) % s.cfg.cap n } } with
        mem := memWriteBytes s.mem dst.toNat data } 1 := by
  simp [Act.apply, actDeqTake, hr, Ring.empty, hne, Ring.dequeue, hd]

/-- RB.DEQUEUE of a ring that is not empty (R232). -/
theorem dequeue_does {op : Vector Word 4} {blk : Bool} {data : List Byte} (hf : s.safe) (hst : s.Still)
    (hr : (s.node n).ring = some r) (hc : (s.node n).consumer = none) (hl : s.cfg.slot n ≤ op[1].toNat)
    (hw : wraps op[0] (s.cfg.slot n) = false) (hne : r.ridx ≠ r.widx) (hd : r.slots[r.ridx]? = some (some data)) :
    Does a (progRbDequeue s.cfg op n blk) s fun x u => x = { rc := some .ok, res := [(0, BitVec.ofNat 32 (s.cfg.slot n))] } ∧
      u = { s.setNode n { s.node n with ring := some { r with ridx := (r.ridx + 1) % s.cfg.cap n } } with
        mem := memWriteBytes s.mem op[0].toNat data } := by
  refine .still hf hst (deqEnter_apply hr hc hl hw) ?_
  refine .still hf hst (deqTake_apply (by rw [node_setNode_same]; exact hr) hne hd) ?_
  rw [if_pos (by decide)]
  refine .still hf hst rfl (.ret ⟨rfl, ?_⟩)
  simp [State.setNode, State.node, ← hc]

/-- Settles O44. -/
theorem dequeueCopiesTheOldestPacket : Obligations.DequeueCopiesTheOldestPacket := by
  intro s a n blk h hst x dst len slot turned
  have hop : s.operands = (s.ctx a).op := by rw [State.operands, h.cur]
  have raises : ∀ f, actDeqEnter a n dst (s.ctx a).op[1] s.begun = .fault f s.begun → turned f := by
    intro f hf
    have e : Raises a (progOf s.cfg s.operands false (.rbDequeue n blk)) s.begun f s.begun := by
      rw [hop]
      exact .step (tick_still h.safe hst) h.safe hf
    exact runCommand_turnedAway h e
  refine ⟨fun hr => raises _ (if_pos hr), fun hr hc => raises _ ?_, fun hr hc hl => raises _ ?_, fun hr hc hl hw => raises _ ?_,
    fun r data hmem hr hwf hne hd hc hl hw => ?_⟩
  · exact (if_neg hr).trans (if_pos hc)
  · exact (if_neg hr).trans ((if_neg (not_not.mpr hc)).trans (if_pos hl))
  · exact (if_neg hr).trans ((if_neg (not_not.mpr hc)).trans ((if_neg (Nat.not_lt.mpr hl)).trans (if_pos hw)))
  · have run := dequeue_does (a := a) (s := s.begun) (op := (s.ctx a).op) (blk := blk) h.safe hst hr hc hl hw hne hd
    obtain ⟨_, t, rfl, hm, he, hend, hk⟩ := (run.mono fun x u hx => ⟨hx.1, hx.2 ▸ ⟨rfl, rfl, rfl⟩, hx.2⟩ : Does a _ s.begun
      fun x u => x = _ ∧ Quiet s u ∧ u = _).quietCommand h (List.nodup_singleton _)
    rw [exec_eq, hop]
    have hlen : data.length = slot := hwf.sizes data (List.mem_of_getElem? hd)
    have fit : dst.toNat + data.length ≤ memSize := by
      simp only [wraps, decide_eq_false_iff_not] at hw
      simp only [memSize, hlen]
      omega
    have hread : ∀ y, memRead t.mem y = if dst.toNat ≤ y ∧ y < dst.toNat + data.length then data.getD (y - dst.toNat) 0
        else memRead s.mem y := by
      obtain ⟨_, _, _, _, rfl⟩ := hm
      exact fun y => memRead_memWriteBytes _ _ y hmem fit
    refine ⟨t, he, hend, fun k hk => ?_, fun y hy => ?_, ?_, fun m hm' => ?_, keepsTable_of_tablePart hm.tablePart, ?_⟩
    · rw [hread, if_pos (by omega), Nat.add_sub_cancel_left]
    · rw [hread, if_neg (by rw [hlen]; exact hy)]
    all_goals obtain ⟨_, _, _, _, rfl⟩ := hm
    · exact node_setNode_same s n _
    · exact (node_setNode s n m _).trans (if_neg (by simpa using hm'))
    · exact ⟨⟨rfl, rfl⟩, ⟨rfl, rfl⟩, ⟨rfl, rfl⟩, fun _ _ => rfl, rfl, hk⟩

end Sys2Proof.Machine
end

section
/-! PROOFS. CH.WRITE of a node that is not busy (45_channel.md R265). -/

namespace Sys2Proof.Machine

variable {α : Type} {s t u : State} {a : Agent} {n : NodeNo}

/-! ## The steps of CH.WRITE -/

theorem getBusy_apply {b : Bool} (h : (s.node n).txBusy = b) : Act.apply a s (.getBusy n) = .ok s (bitResp b) := by
  rw [← h]
  rfl

/-- The node's channels read: the answer names both. -/
theorem Does.getChans {rx tx : Chan} {k : Resp → Prog α} {Q : α → State → Prop} (hf : s.safe) (hst : s.Still)
    (hrx : (s.node n).rxCh = rx) (htx : (s.node n).txCh = tx)
    (hk : ∀ r, rxOf r = rx → txOf r = tx → Does a (k r) s Q) : Does a (.act (.getChans n) k) s Q := by
  subst hrx htx
  exact .still hf hst rfl (hk _ (chans_of_answer ..).1 (chans_of_answer ..).2)

/-- The checks of CH.WRITE pass (R265). -/
theorem writeEnter_apply {src len : Word} (ho : (s.node n).lstate.isOpen = true) (h1 : 1 ≤ len.toNat)
    (h2 : len.toNat ≤ s.cfg.depth n) (hw : wraps src len.toNat = false) : Act.apply a s (.writeEnter n src len) = .ok s 0 := by
  have hlen : ¬ (len.toNat < 1 ∨ s.cfg.depth n < len.toNat) := by omega
  simp only [Act.apply, actWriteEnter, ho, hw, if_neg hlen]
  rfl

/-- CH.WRITE up to its row read, which finds the half ready or past memory, raises with the lock given back. -/
theorem writeFrame_raises {op : Vector Word 4} {tx : Chan} {h : Half} {f : FReason} (c : Params) (hcalm : s.Calm)
    (hl : s.lock = none) (hch : tx.toNat < s.cfg.nch) (hn : 1 ≤ c.rpRetries) (hw : s.isWritten (adtOff tx) = true)
    (hh : s.sw tx = h)
    (hf : (rdyOf (s.row (adtOff tx)) h = true ∧ f = .doubleArm) ∨ (rdyOf (s.row (adtOff tx)) h = false ∧
      wraps (addrOf (s.row (adtOff tx)) h) op[1].toNat = true ∧ f = .addressWrap)) :
    Raises a (writeFrame c op n tx) { s with lock := some a } f (s.afterRead (adtOff tx)) := by
  subst hh
  refine .act (tick_calm (s := { s with lock := some a }) hcalm) hcalm.1 rfl ?_
  dsimp only
  rw [halfOf_halfResp, show State.sw { s with lock := some a } tx = s.sw tx from rfl]
  refine .bind_right (readRow_ends (s := { s with lock := some a }) c hcalm rfl (reserved_adtOff hch) hw hn) ?_
  rw [show State.row { s with lock := some a } (adtOff tx) = s.row (adtOff tx) from rfl]
  dsimp only
  have raised : Raises a (.after .release (.raise f) : Prog Result) (State.afterRead { s with lock := some a } (adtOff tx)) f
      (s.afterRead (adtOff tx)) :=
    .act (tick_calm (by exact hcalm)) hcalm.1 (actRelease_held (s := s.afterRead (adtOff tx)) hl rfl) (.raise _ _ _)
  rcases hf with ⟨hr, rfl⟩ | ⟨hr, hwrap, rfl⟩
  · rw [if_pos hr]
    exact raised
  · rw [if_neg (by rw [hr]; decide), if_pos hwrap]
    exact raised

/-- The memory after the frame was copied to the half. -/
def copied (s : State) (op : Vector Word 4) (tx : Chan) (h : Half) : List Host.Cell :=
  memWriteBytes s.mem (addrOf (s.row (adtOff tx)) h).toNat (memReadBytes s.mem op[0].toNat op[1].toNat)

/-- CH.WRITE that finds its half idle and within memory copies the frame, arms the half and marks the node busy. -/
theorem writeFrame_does {op : Vector Word 4} {tx : Chan} {h : Half} (c : Params) (hcalm : s.Calm) (hl : s.lock = some a)
    (hch : tx.toNat < s.cfg.nch) (hn : 1 ≤ c.rpRetries) (hw : s.isWritten (adtOff tx) = true) (hh : s.sw tx = h)
    (hr : rdyOf (s.row (adtOff tx)) h = false) (hwrap : wraps (addrOf (s.row (adtOff tx)) h) op[1].toNat = false) :
    Does a (writeFrame c op n tx) s fun x u => x = { rc := some .ok, res := [(0, op[1])] } ∧
      ∃ w, Wrote (adtOff tx) (armFrame (s.row (adtOff tx)) h op[1].toNat) { s with mem := copied s op tx h } w ∧
        u = { (w.setNode n { s.node n with txBusy := true }).setSw tx (Half.other h) with lock := none } := by
  subst hh
  have hres := reserved_adtOff hch
  refine .calm hcalm rfl ?_
  dsimp only
  rw [halfOf_halfResp]
  refine .bind (.of_ends (readRow_ends c hcalm hl hres hw hn)) ?_
  rintro x z ⟨rfl, rfl⟩
  dsimp only
  rw [if_neg (by rw [hr]; decide), if_neg (by rw [hwrap]; decide)]
  refine .calm (by exact hcalm) rfl ?_
  refine .bind (.of_ends (writeRow_ends (s := { s.afterRead (adtOff tx) with mem := copied s op tx (s.sw tx) }) c hcalm hl hres hn)) ?_
  rintro x w ⟨rfl, rfl⟩
  have hx : State.afterWrite { s.afterRead (adtOff tx) with mem := copied s op tx (s.sw tx) } c.readbackCheck (adtOff tx)
      (armFrame (s.row (adtOff tx)) (s.sw tx) op[1].toNat) =
      State.afterWrite { s with mem := copied s op tx (s.sw tx) } c.readbackCheck (adtOff tx)
        (armFrame (s.row (adtOff tx)) (s.sw tx) op[1].toNat) :=
    afterWrite_afterRead { s with mem := copied s op tx (s.sw tx) } ..
  rw [hx]
  have wrote := wrote_afterWrite { s with mem := copied s op tx (s.sw tx) } c.readbackCheck (adtOff tx)
    (armFrame (s.row (adtOff tx)) (s.sw tx) op[1].toNat)
  generalize State.afterWrite { s with mem := copied s op tx (s.sw tx) } c.readbackCheck (adtOff tx)
    (armFrame (s.row (adtOff tx)) (s.sw tx) op[1].toNat) = w at wrote
  have hcw := wrote.moved.calm hcalm
  have hnode : w.node n = s.node n := wrote.moved.node n
  refine .calm hcw rfl ?_
  rw [hnode]
  refine .calm (by exact hcw) rfl (.calm (by exact hcw) (s2 := { (w.setNode n { s.node n with txBusy := true }).setSw tx
    (Half.other (s.sw tx)) with lock := none }) (r := 0) ?_ (.ret ⟨rfl, w, wrote, rfl⟩))
  have hlw : w.lock = some a := wrote.moved.lock.trans hl
  simp [Act.apply, actRelease, hlw]

/-! ## The row armed for a frame -/

theorem bdOf_armFrame (v : Row) (h : Half) (len : Nat) : bdOf (armFrame v h len) h = encodeDepth len := by
  have e : bdOf (armFrame v h len) h = bdOf (putBd v h (encodeDepth len)) h := by
    refine bits_setField_other _ _ _ _ _ (.inl ?_)
    cases h <;> decide
  refine e.trans (bits_setField_same _ _ _ ?_)
  cases h <;> decide

theorem getLsbD_armFrame_other (v : Row) (h : Half) (len : Nat) {k : Nat}
    (h1 : k < 64 + 16 * Half.idx h ∨ 64 + 16 * Half.idx h + 13 ≤ k) (h2 : k < flagLo h ∨ flagLo h + 3 ≤ k) :
    (armFrame v h len).getLsbD k = v.getLsbD k := by
  rw [armFrame, getLsbD_putFlags_other _ _ _ _ h2]
  exact bit_setField_other _ _ _ _ h1

/-- The bytes copied: each at its place in the half, no other byte moved. -/
theorem memRead_copied {op : Vector Word 4} {tx : Chan} {h : Half} (hm : memWf s.mem)
    (hw : wraps (addrOf (s.row (adtOff tx)) h) op[1].toNat = false) (x : Nat) :
    memRead (copied s op tx h) x =
      if (addrOf (s.row (adtOff tx)) h).toNat ≤ x ∧ x < (addrOf (s.row (adtOff tx)) h).toNat + op[1].toNat then
        memRead s.mem (op[0].toNat + (x - (addrOf (s.row (adtOff tx)) h).toNat))
      else memRead s.mem x := by
  have fit : (addrOf (s.row (adtOff tx)) h).toNat + (memReadBytes s.mem op[0].toNat op[1].toNat).length ≤ memSize := by
    simp only [wraps, decide_eq_false_iff_not] at hw
    simp only [memSize, length_memReadBytes]
    omega
  rw [copied, memRead_memWriteBytes _ _ _ hm fit, length_memReadBytes]
  split
  · next hx =>
    rw [List.getD_eq_getElem _ _ (by rw [length_memReadBytes]; omega), getElem_memReadBytes]
  · rfl

/-- Settles O53. -/
theorem writeArmsTheFrame : Obligations.WriteArmsTheFrame := by
  intro s a n x src len h r dst turned stopped hrdy h1 h2
  have hopen : (s.begun.node n).lstate.isOpen = true := (isOpen_iff _).mpr ⟨h1, h2⟩
  have hop : s.operands = (s.ctx a).op := by rw [State.operands, hrdy.cur]
  have hex : exec (.chWrite n) s = s.runCommand (.chWrite n) (progChWrite s.cfg (s.ctx a).op n) := by
    rw [exec_eq, hop]
    rfl
  refine ⟨fun hst => ⟨fun hlen => ?_, fun hlen hlen' hw => ?_⟩, fun ht hlen hlen' hw hb hch hwr => ?_⟩
  · simp only [turned, hex]
    refine runCommand_turnedAway hrdy (.step (tick_still hrdy.safe hst) hrdy.safe ?_)
    exact (if_neg (by rw [hopen]; decide)).trans (if_pos hlen)
  · simp only [turned, hex]
    refine runCommand_turnedAway hrdy (.step (tick_still hrdy.safe hst) hrdy.safe ?_)
    exact (if_neg (by rw [hopen]; decide)).trans ((if_neg (show ¬ (len < 1 ∨ s.cfg.depth n < len) by omega)).trans (if_pos hw))
  · have hcalm := begun_calm hrdy.safe ht
    have hl : s.begun.lock = none := ht.2.2.1
    have enter := writeEnter_apply (a := a) (s := s.begun) (src := src) hopen hlen hlen' hw
    have acquire : Act.apply a s.begun .acquire = .ok { s.begun with lock := some a } 0 := by
      simp [Act.apply, actAcquire, hl]
    have busy := getBusy_apply (a := a) (s := { s.begun with lock := some a }) (n := n) hb
    have raises : ∀ f, Raises a (writeFrame s.cfg (s.ctx a).op n x.txCh) { s.begun with lock := some a } f
        (s.begun.afterRead (adtOff x.txCh)) → stopped f := by
      intro f e
      have run : Raises a (progChWrite s.cfg (s.ctx a).op n) s.begun f (s.begun.afterRead (adtOff x.txCh)) := by
        refine .act (tick_calm hcalm) hcalm.1 enter (.act (tick_calm hcalm) hcalm.1 acquire ?_)
        refine .act (tick_calm (s := { s.begun with lock := some a }) hcalm) hcalm.1 busy ?_
        refine .act (tick_calm (s := { s.begun with lock := some a }) hcalm) hcalm.1 rfl ?_
        rw [(chans_of_answer _ _).2]
        exact e
      obtain ⟨he, hr⟩ := run.command hrdy ⟨rfl, rfl, rfl⟩
      rw [← hex] at he
      exact ⟨_, he, hr, (onlyRead_afterRead (s := s) ht.2.1 _).of_parts (tablePart_raise ..) (softPart_raise ..),
        (raise_lock ..).trans hl⟩
    refine ⟨fun hr => raises _ (writeFrame_raises (h := h) s.cfg hcalm hl hch ht.2.2.2 hwr rfl (.inl ⟨hr, rfl⟩)),
      fun hr hwrap => raises _ (writeFrame_raises (h := h) s.cfg hcalm hl hch ht.2.2.2 hwr rfl (.inr ⟨hr, hwrap, rfl⟩)),
      fun hmem hr hwrap => ?_⟩
    have run : Does a (progChWrite s.cfg (s.ctx a).op n) s.begun fun y u =>
        y = { rc := some .ok, res := [(0, (s.ctx a).op[1])] } ∧ Quiet s u ∧
        ∃ w, Wrote (adtOff x.txCh) (armFrame r h len)
            { s.begun with lock := some a, mem := copied s (s.ctx a).op x.txCh h } w ∧
          u = { (w.setNode n { x with txBusy := true }).setSw x.txCh (Half.other h) with lock := none } := by
      refine .calm hcalm enter (.calm hcalm acquire (.calm (s := { s.begun with lock := some a }) hcalm busy ?_))
      refine .getChans (s := { s.begun with lock := some a }) hcalm.1 (still_of_calm hcalm) rfl rfl fun r _ htx => ?_
      rw [htx]
      refine (writeFrame_does (s := { s.begun with lock := some a }) s.cfg hcalm rfl hch ht.2.2.2 hwr rfl hr hwrap).mono ?_
      rintro y u ⟨rfl, w, wrote, rfl⟩
      refine ⟨rfl, ?_, w, wrote, rfl⟩
      obtain ⟨_, _, _, _, _, _, rfl⟩ := wrote.moved
      exact ⟨rfl, rfl, congrArg (fun l => (s.cfg, s.bstat, l, s.fault)) hl.symm⟩
    obtain ⟨_, t, ⟨w, wrote, rfl⟩, hm, he, hend, hk⟩ := run.quietCommand hrdy (List.nodup_singleton _)
    have hrow := wrote.row_same
    have hfields : bdOf (w.row (adtOff x.txCh)) h = BitVec.ofNat 13 (len - 1) ∧ rdyOf (w.row (adtOff x.txCh)) h = true ∧
        dneOf (w.row (adtOff x.txCh)) h = false ∧ errOf (w.row (adtOff x.txCh)) h = false ∧
        ∀ k, (k < 64 + 16 * Half.idx h ∨ 64 + 16 * Half.idx h + 13 ≤ k) → (k < flagLo h ∨ flagLo h + 3 ≤ k) →
          (w.row (adtOff x.txCh)).getLsbD k = r.getLsbD k := by
      rw [hrow]
      exact ⟨bdOf_armFrame .., rdyOf_putFlags .., dneOf_putFlags .., errOf_putFlags .., fun k => getLsbD_armFrame_other _ _ _⟩
    have hcopy := memRead_copied (op := (s.ctx a).op) (tx := x.txCh) (h := h) hmem hwrap
    have hidle := (wrote.moved.calm hcalm).2.1
    have hwritten := wrote.written_same
    have hrows := wrote.keepsRowsBut
    have harm := (wrote.other (isCatRow_adtOff _)).1.1
    have hsw : ((w.setNode n { x with txBusy := true }).setSw x.txCh (Half.other h)).sw x.txCh = Half.other h := by simp [sw_setSw]
    have hsw' : ∀ ch, ch ∉ [x.txCh] → ((w.setNode n { x with txBusy := true }).setSw x.txCh (Half.other h)).sw ch = w.sw ch :=
      fun ch hc => (sw_setSw ..).trans (if_neg (by simpa using hc))
    have hnode : ((w.setNode n { x with txBusy := true }).setSw x.txCh (Half.other h)).node n = { x with txBusy := true } :=
      node_setNode_same ..
    have hnode' : ∀ m, m ∉ [n] →
        ((w.setNode n { x with txBusy := true }).setSw x.txCh (Half.other h)).node m = w.node m :=
      fun m hm => (node_setNode ..).trans (if_neg (by simpa using hm))
    rw [← hex] at he
    obtain ⟨_, _, _, _, _, _, rfl⟩ := wrote.moved
    obtain ⟨_, _, _, _, rfl⟩ := hm
    refine ⟨_, he, hend, fun k hlt => ?_, fun y hy => ?_, hfields, hwritten, hrows, harm, hidle, hnode, hsw, ⟨rfl, rfl⟩, ⟨rfl, rfl⟩,
      ⟨rfl, rfl⟩, hsw', hnode', rfl, hk⟩
    · exact (hcopy _).trans ((if_pos ⟨Nat.le_add_right .., Nat.add_lt_add_left hlt _⟩).trans
        (congrArg (fun j => memRead s.mem (src.toNat + j)) (Nat.add_sub_cancel_left ..)))
    · exact (hcopy y).trans (if_neg hy)

end Sys2Proof.Machine
end

section
/-! PROOFS. Commands that block (45_channel.md R272): RB.DEQUEUE of an empty ring, CH.WRITE of a busy node. -/

namespace Sys2Proof.Machine

variable {α : Type} {s t u v : State} {a : Agent} {n : NodeNo} {i : Instr} {p : Prog Result}

/-! ## Waits -/

/-- The context of a thread that waits for a wake. -/
def Ctx.waiting (x : Ctx) : Ctx := { x with blocked := true, woken := false, notified := false }

/-- The context of a thread that goes on. -/
def Ctx.awake (x : Ctx) : Ctx := { x with blocked := false, woken := false, notified := false }

/-- A wait whose condition does not hold blocks. -/
theorem actWait_blocks (hl : s.lock ≠ some a) (hw : (s.ctx a).woken = false) :
    actWait a false s = .stay (s.setCtx a (s.ctx a).waiting) := by
  unfold actWait Ctx.waiting
  dsimp only
  rw [if_neg hl]
  generalize s.ctx a = x at hw
  cases hb : x.blocked with
  | false => simp
  | true =>
    obtain ⟨rc, op, res, wr, cmd, task, bl, wk, nt⟩ := x
    simp_all

/-- A blocked thread no wake has reached stays where it is. -/
theorem actWait_stays {b : Bool} (hl : s.lock ≠ some a) (hb : (s.ctx a).blocked = true) (hw : (s.ctx a).woken = false)
    (hn : (s.ctx a).notified = false) : ∃ w, actWait a b s = .stay w := by
  unfold actWait
  dsimp only
  rw [if_neg hl, hb, hw, hn]
  exact ⟨_, rfl⟩

/-- A wake of the kinds (b) and (c) ends the wait. -/
theorem actWait_woken {b : Bool} (hl : s.lock ≠ some a) (hb : (s.ctx a).blocked = true) (hw : (s.ctx a).woken = true) :
    actWait a b s = .ok (s.setCtx a (s.ctx a).awake) 1 := by
  unfold actWait
  dsimp only
  rw [if_neg hl, hb, hw]
  rfl

/-- A wake of the kind (a) ends it when the condition holds. -/
theorem actWait_notified (hl : s.lock ≠ some a) (hb : (s.ctx a).blocked = true) (hw : (s.ctx a).woken = false)
    (hn : (s.ctx a).notified = true) : actWait a true s = .ok (s.setCtx a (s.ctx a).awake) 0 := by
  unfold actWait
  dsimp only
  rw [if_neg hl, hb, hw, hn]
  rfl

/-! ## A command that blocks -/

@[simp] theorem finish_node (s : State) (a : Agent) (r : Result) (n : NodeNo) : (s.finish a r).node n = s.node n := by
  simp [State.node]

/-- The state of a command that waits. -/
structure Blocks (a : Agent) (i : Instr) (hist : List Resp) (s v t : State) : Prop where
  machine : SameMachine v t
  ctx : t.ctx a = { (s.ctx a).waiting with task := some { instr := i, looping := false, hist := hist } }
  others : KeepsOthers a s t
  has : t.has a

/-- A ready command whose run blocks with no context touched before. -/
theorem Waits.command {hist : List Resp} (h : s.Ready a i) (hv : v.contexts = s.contexts)
    (hw : Waits a p [] s.begun hist (v.setCtx a (v.ctx a).waiting)) :
    ∃ t, s.runCommand i p = .next t ∧ Blocks a i hist s v t := by
  have hx : ∀ b, v.ctx b = s.ctx b := ctx_of_contexts hv
  have hhas : v.has a := has_of_contexts hv (has_of_mayIssue h.threads h.issuer)
  refine ⟨(v.setCtx a (v.ctx a).waiting).suspend a { instr := i, looping := false, hist := hist }, ?_, ?_, ?_, fun b hb => ?_, ?_⟩
  · obtain rfl := h.cur
    unfold State.runCommand
    rw [entryFault_ready h, show run s.cur p [] { s with presented := true } = _ from hw]
    rfl
  · unfold State.suspend
    dsimp only
    cases a <;> split <;> exact ⟨_, _, _, _, rfl⟩
  · rw [ctx_suspend _ _ ((has_setCtx v a a _).mpr hhas), ctx_setCtx_same v _ hhas, hx]
  · rw [ctx_suspend_other _ _ hb, ctx_setCtx_other v _ hb, hx]
  · unfold State.suspend
    dsimp only
    split <;> exact (has_setCtx _ a a _).mpr ((has_setCtx v a a _).mpr hhas)

/-- An agent can move when its next step is enabled, and only then. -/
theorem canMove_of_stay {k : Task} {d : Act} {next : Resp → Prog Result} (hk : (s.ctx a).task = some k)
    (hs : s.standing a k = .act d next) (hd : Act.apply a s d = .stay u) : s.canMove a = false := by
  simp only [State.canMove, hk, hs, hd]

theorem canMove_of_ok {k : Task} {d : Act} {next : Resp → Prog Result} {r : Resp} (hk : (s.ctx a).task = some k)
    (hs : s.standing a k = .act d next) (hd : Act.apply a s d = .ok u r) : s.canMove a = true := by
  simp only [State.canMove, hk, hs, hd]

/-- Where a command stands depends on the parameters and the operands only. -/
theorem standing_congr {k : Task} (hc : t.cfg = s.cfg) (ho : (t.ctx a).op = (s.ctx a).op) :
    t.standing a k = s.standing a k := by
  rw [State.standing, State.standing, hc, ho]

/-- The rest of a command, run to its end, ends the command. -/
theorem resume_of_ends {k : Task} {r : Result} (hk : (s.ctx a).task = some k)
    (e : Ends a (s.standing a k) { s with cur := a, presented := true } r u) : s.resume a = u.finish a r := by
  obtain ⟨h1, e⟩ := e k.hist
  simp only [State.resume, hk, e]
  rfl

/-- A signal to a blocked thread (R272 c). -/
theorem ctx_signalThread {k : Nat} (hb : (s.ctx (.host k)).blocked = true) (hh : s.has (.host k)) :
    (s.signalThread k).ctx (.host k) = { s.ctx (.host k) with woken := true } := by
  rw [State.signalThread, if_pos hb]
  exact ctx_setCtx_same s _ hh

theorem signalThread_frame (s : State) (k : Nat) : ∃ th, s.signalThread k = { s with threads := th } := by
  unfold State.signalThread
  dsimp only
  split
  · exact ⟨_, rfl⟩
  · exact ⟨s.threads, rfl⟩

/-- A signal ends a blocked command with Interrupted: the wait answers 1, and `f` is what the rest does. -/
theorem Blocks.interrupted {k : Nat} {hist : List Resp} {d : Act} {next : Resp → Prog Result} {f : State → State}
    (B : Blocks (.host k) i hist s v t) (hsafe : t.safe) (hst : t.Still) (hl : t.lock ≠ some (.host k))
    (hs : t.standing (.host k) { instr := i, looping := false, hist := hist } = .act d next)
    (hd : ∀ y, ∃ b, Act.apply (.host k) y d = actWait (.host k) b y)
    (hf : ∀ y, y.safe → y.Still → Ends (.host k) (next 1) y { rc := some .interrupted } (f y))
    (hc : ∀ y, (f y).contexts = y.contexts ∧ (f y).cur = y.cur) :
    ∃ y, (t.signalThread k).resume (.host k) = (f y).finish (.host k) { rc := some .interrupted } ∧ y.nodes = t.nodes ∧
      Ended (.host k) s ((t.signalThread k).resume (.host k)) .interrupted [] := by
  have hblocked : (t.ctx (.host k)).blocked = true := by rw [B.ctx]; rfl
  have hctx := ctx_signalThread hblocked B.has
  have hop : ((t.signalThread k).ctx (.host k)).op = (t.ctx (.host k)).op := by rw [hctx]
  obtain ⟨th, e⟩ := signalThread_frame t k
  have hhas : (t.signalThread k).has (.host k) := by
    rw [State.signalThread, if_pos hblocked]
    exact (has_setCtx t _ _ _).mpr B.has
  have hs' : (t.signalThread k).standing (.host k) { instr := i, looping := false, hist := hist } = .act d next :=
    (standing_congr (by rw [e]) hop).trans hs
  have htask : ((t.signalThread k).ctx (.host k)).task = some { instr := i, looping := false, hist := hist } := by
    rw [hctx, B.ctx]
  generalize hw : ({ t.signalThread k with cur := .host k, presented := true } : State) = w
  have hwctx : w.ctx (.host k) = { t.ctx (.host k) with woken := true } := by
    rw [← hw]
    exact hctx
  have hwsafe : w.safe := by
    rw [← hw, e]
    exact hsafe
  have hwst : w.Still := by
    rw [← hw, e]
    exact hst
  have hwl : w.lock ≠ some (.host k) := by
    rw [← hw, e]
    exact hl
  have hwhas : w.has (.host k) := by
    rw [← hw]
    exact hhas
  obtain ⟨b, hb⟩ := hd w
  have woken := actWait_woken (b := b) hwl (by rw [hwctx]; exact hblocked) (by rw [hwctx])
  have run : Ends (.host k) ((t.signalThread k).standing (.host k) { instr := i, looping := false, hist := hist }) w
      { rc := some .interrupted } (f (w.setCtx (.host k) (w.ctx (.host k)).awake)) := by
    rw [hs']
    exact .act (tick_still hwsafe hwst) hwsafe (hb.trans woken) (hf _ hwsafe hwst)
  have hres := resume_of_ends htask (by rw [hw]; exact run)
  refine ⟨_, hres, ?_, ?_⟩
  · rw [setCtx_nodes, ← hw, e]
  · rw [hres]
    have hx := (ctx_of_contexts (hc (w.setCtx (.host k) (w.ctx (.host k)).awake)).1 (.host k)).trans
      ((ctx_setCtx_same w _ hwhas).trans (congrArg Ctx.awake
        (hwctx.trans (congrArg (fun x : Ctx => { x with woken := true }) B.ctx))))
    refine ended_finish (has_of_contexts (hc _).1 ((has_setCtx w _ _ _).mpr hwhas)) ?_ (fun j => ?_) ?_ List.nodup_nil
    · rw [(hc _).2, setCtx_cur, ← hw]
    · rw [hx]
      rfl
    · rw [hx]
      exact ⟨rfl, rfl⟩

/-! ## RB.DEQUEUE of an empty ring (R232) -/

/-- Of an empty ring nothing is taken. -/
theorem deqTake_empty {r : Ring} {dst : Word} (hr : (s.node n).ring = some r) (he : r.ridx = r.widx) :
    Act.apply a s (.deqTake n dst) = .ok s 0 := by
  simp [Act.apply, actDeqTake, hr, Ring.empty, he]

/-- An empty ring of a capacity of 2 or more is not full. -/
theorem not_full_of_empty {r : Ring} {cap : Nat} (hcap : 2 ≤ cap) (he : r.ridx = r.widx) : ¬ (r.widx + 1) % cap = r.ridx := by
  rw [he]
  intro h
  have hlt : (r.widx + 1) % cap < cap := Nat.mod_lt _ (by omega)
  rw [h] at hlt
  by_cases hs : r.widx + 1 < cap
  · rw [Nat.mod_eq_of_lt hs] at h
    omega
  · have hw : r.widx + 1 = cap := by omega
    rw [hw, Nat.mod_self] at h
    omega

/-- What RB.DEQUEUE does after a wait. -/
def afterWaitRing (n : NodeNo) (r : Resp) : Prog Result :=
  if r ≠ 0 then .after (.deqLeave n) <| done .interrupted else .loop

/-- A thread blocked in a read of the node is told of the packet that is stored, and can move. -/
theorem canMove_after_enqueue {k : Nat} {hist : List Resp} {b : Word} {r : Ring} {next : Resp → Prog Result}
    (B : Blocks (.host k) (.rbDequeue n true) hist s v t) (hl : t.lock ≠ some (.host k))
    (hs : t.standing (.host k) { instr := .rbDequeue n true, looping := false, hist := hist } = .act (.waitRing n) next)
    (hr : (t.node n).ring = some r) (he : r.ridx = r.widx) (hcap : 2 ≤ t.cfg.cap n) (hb : wraps b (t.cfg.slot n) = false) :
    (Act.apply .hd t (.enqueue n b)).state.canMove (.host k) = true := by
  have hf := not_full_of_empty hcap he
  rw [enqueue_stores hr hb hf]
  generalize hu : t.setNode n { t.node n with ring := some (r.enqueue (t.cfg.cap n) (memReadBytes t.mem b.toNat (t.cfg.slot n))).1 } = u
  show (u.notify (readsFrom n)).canMove (.host k) = true
  have hctx : (u.notify (readsFrom n)).ctx (.host k) = { t.ctx (.host k) with notified := true } := by
    have hx : u.ctx (.host k) = t.ctx (.host k) := by rw [← hu]; rfl
    rw [ctx_notify, hx, if_pos]
    rw [B.ctx]
    simp [Ctx.waitsIn, Ctx.waiting, readsFrom]
  have hop : ((u.notify (readsFrom n)).ctx (.host k)).op = (t.ctx (.host k)).op := by rw [hctx]
  refine canMove_of_ok (by rw [hctx, B.ctx]) ((standing_congr (by rw [← hu]; rfl) hop).trans hs) ?_ (r := 0)
    (u := (u.notify (readsFrom n)).setCtx (.host k) ((u.notify (readsFrom n)).ctx (.host k)).awake)
  have hring : ((u.notify (readsFrom n)).node n).ring = some (r.enqueue (t.cfg.cap n) (memReadBytes t.mem b.toNat (t.cfg.slot n))).1 := by
    rw [← hu]
    exact congrArg Node.ring (node_setNode_same t n _)
  have hready : (!(r.enqueue (t.cfg.cap n) (memReadBytes t.mem b.toNat (t.cfg.slot n))).1.empty) = true := by
    rw [enqueue_not_full hf, Ring.empty, Bool.not_eq_true', decide_eq_false_iff_not]
    exact fun e => hf e.symm
  simp only [Act.apply, actWaitRing, hring, hready]
  refine actWait_notified (by rw [← hu]; exact hl) ?_ ?_ ?_
  · rw [hctx, B.ctx]
    rfl
  · rw [hctx, B.ctx]
    rfl
  · rw [hctx]

/-- Settles O45. -/
theorem dequeueOfAnEmptyRing : Obligations.DequeueOfAnEmptyRing := by
  intro s k n r hst hr he hc hlen hw
  refine ⟨fun h => ?_, fun h hl hwoken => ?_⟩
  · have hop : s.operands = (s.ctx (.host k)).op := by rw [State.operands, h.cur]
    rw [exec_eq, hop]
    refine Does.untouchedCommand h ?_ List.nodup_nil
    refine .still (s := s.begun) h.safe hst (deqEnter_apply (s := s.begun) hr hc hlen hw) ?_
    refine .still h.safe hst (deqTake_empty (by rw [node_setNode_same]; exact hr) he) ?_
    rw [if_neg (by decide), if_pos (by decide)]
    refine .still h.safe hst rfl (.ret ⟨rfl, ?_⟩)
    rw [setNode_setNode, node_setNode_same]
    have hn : ({ s.begun.node n with consumer := none } : Node) = s.begun.node n := by rw [← show (s.begun.node n).consumer = none from hc]
    exact (congrArg (s.begun.setNode n) hn).trans (setNode_node _ _)
  · have hop : s.operands = (s.ctx (.host k)).op := by rw [State.operands, h.cur]
    rw [exec_eq, hop]
    let v := s.begun.setNode n { s.node n with consumer := some (.host k) }
    have hvr : (v.node n).ring = some r := (congrArg Node.ring (node_setNode_same s.begun n _)).trans hr
    have hempty : (!r.empty) = false := by simp [Ring.empty, he]
    have waits : Waits (.host k) (progRbDequeue s.cfg (s.ctx (.host k)).op n true) [] s.begun [0, 0]
        (v.setCtx (.host k) (v.ctx (.host k)).waiting) := by
      refine .act (tick_still h.safe hst) h.safe (deqEnter_apply (s := s.begun) hr hc hlen hw) ?_
      refine .act (tick_still (s := v) h.safe hst) h.safe (deqTake_empty hvr he) ?_
      refine .step (tick_still (s := v) h.safe hst) h.safe ?_
      simp only [Act.apply, actWaitRing, hvr, hempty]
      exact actWait_blocks hl hwoken
    obtain ⟨t, hrun, B⟩ := Waits.command (v := v) h rfl waits
    have hctx := B.ctx
    have htask : (t.ctx (.host k)).task = some { instr := .rbDequeue n true, looping := false, hist := [0, 0] } := by rw [hctx]
    have hm := B.machine
    have hnode : t.node n = { s.node n with consumer := some (.host k) } := by
      obtain ⟨_, _, _, _, rfl⟩ := hm
      exact node_setNode_same s.begun n _
    have hring : (t.node n).ring = some r := by rw [hnode]; exact hr
    have hcfg : t.cfg = s.cfg := by
      obtain ⟨_, _, _, _, rfl⟩ := hm
      rfl
    have hlock : t.lock ≠ some (.host k) := by
      obtain ⟨_, _, _, _, rfl⟩ := hm
      exact hl
    have hsafe : t.safe := by
      obtain ⟨_, _, _, _, rfl⟩ := hm
      exact h.safe
    have hstill : t.Still := by
      obtain ⟨_, _, _, _, rfl⟩ := hm
      exact hst
    have hstand : t.standing (.host k) { instr := .rbDequeue n true, looping := false, hist := [0, 0] } =
        .act (.waitRing n) (afterWaitRing n) := rfl
    obtain ⟨w, hw⟩ := actWait_stays (b := !r.empty) hlock (by rw [hctx]; rfl) (by rw [hctx]; rfl) (by rw [hctx]; rfl)
    obtain ⟨y, hres, hy, hend⟩ := B.interrupted (f := fun y => y.setNode n { y.node n with consumer := none }) hsafe hstill hlock hstand
      (fun y => ⟨_, rfl⟩) (fun y hf hst => .act (tick_still hf hst) hf rfl (.ret _ _ _)) (fun y => ⟨rfl, rfl⟩)
    refine ⟨t, hrun, by rw [hctx]; rfl, by rw [hctx]; rfl, by rw [hctx]; rfl, fun j => by rw [hctx]; rfl, ?_,
      fun hcap b hb => canMove_after_enqueue B hlock hstand hring he (by rw [hcfg]; exact hcap) (by rw [hcfg]; exact hb), hnode,
      keepsTable_of_tablePart hm.tablePart, (keepsSoft_setNode (s := s) (t := s.begun) _ rfl).of_parts rfl hm.softPart,
      ⟨?_, B.others⟩, hend, ?_⟩
    · refine canMove_of_stay htask hstand (u := w) ?_
      simp only [Act.apply, actWaitRing, hring]
      exact hw
    · obtain ⟨_, _, _, _, rfl⟩ := hm
      exact keepsEngine_of_enginePart rfl
    · rw [hres]
      have hyn : y.node n = t.node n := by simp only [State.node, hy]
      refine (finish_node ..).trans ((node_setNode_same y n { y.node n with consumer := none }).trans ?_)
      rw [hyn, hnode, ← hc]

/-! ## CH.WRITE of a busy node (R265) -/

/-- What CH.WRITE does after a wait. -/
def afterWaitTx (r : Resp) : Prog Result := if r ≠ 0 then done .interrupted else .loop

/-- A thread blocked in a write to the node is told that `tx_busy` is 0, and can move. -/
theorem canMove_after_setBusy {k : Nat} {hist : List Resp} {next : Resp → Prog Result}
    (B : Blocks (.host k) (.chWrite n) hist s v t) (hl : t.lock ≠ some (.host k))
    (hs : t.standing (.host k) { instr := .chWrite n, looping := false, hist := hist } = .act (.waitTx n) next) :
    (Act.apply .hd t (.setBusy n false)).state.canMove (.host k) = true := by
  generalize hu : t.setNode n { t.node n with txBusy := false } = u
  have hset : (Act.apply .hd t (.setBusy n false)).state = u.notify (writesTo n) := by rw [← hu]; rfl
  rw [hset]
  have hctx : (u.notify (writesTo n)).ctx (.host k) = { t.ctx (.host k) with notified := true } := by
    have hx : u.ctx (.host k) = t.ctx (.host k) := by rw [← hu]; rfl
    rw [ctx_notify, hx, if_pos]
    rw [B.ctx]
    simp [Ctx.waitsIn, Ctx.waiting, writesTo]
  have hop : ((u.notify (writesTo n)).ctx (.host k)).op = (t.ctx (.host k)).op := by rw [hctx]
  refine canMove_of_ok (by rw [hctx, B.ctx]) ((standing_congr (by rw [← hu]; rfl) hop).trans hs) ?_ (r := 0)
    (u := (u.notify (writesTo n)).setCtx (.host k) ((u.notify (writesTo n)).ctx (.host k)).awake)
  have hfree : ((u.notify (writesTo n)).node n).txBusy = false := by
    rw [← hu]
    exact congrArg Node.txBusy (node_setNode_same t n _)
  simp only [Act.apply, actWaitTx, hfree]
  refine actWait_notified (by rw [← hu]; exact hl) ?_ ?_ ?_
  · rw [hctx, B.ctx]
    rfl
  · rw [hctx, B.ctx]
    rfl
  · rw [hctx]

/-- Settles O54. -/
theorem writeWaitsWhileBusy : Obligations.WriteWaitsWhileBusy := by
  intro s k n h hst hl h1 h2 hlen hlen' hw hb hwoken
  have hopen : (s.begun.node n).lstate.isOpen = true := (isOpen_iff _).mpr ⟨h1, h2⟩
  have hop : s.operands = (s.ctx (.host k)).op := by rw [State.operands, h.cur]
  rw [exec_eq, hop]
  have waits : Waits (.host k) (progChWrite s.cfg (s.ctx (.host k)).op n) [] s.begun [0, 1, 0, 0]
      (s.begun.setCtx (.host k) (s.begun.ctx (.host k)).waiting) := by
    refine .act (tick_still h.safe hst) h.safe (writeEnter_apply hopen hlen hlen' hw) ?_
    refine .act (tick_still h.safe hst) h.safe (s2 := { s.begun with lock := some (.host k) }) (r := 0)
      (by simp [Act.apply, actAcquire, State.begun, hl]) ?_
    refine .act (tick_still (s := { s.begun with lock := some (.host k) }) h.safe hst) h.safe (getBusy_apply (b := true) hb) ?_
    rw [if_neg (by decide)]
    refine .act (tick_still (s := { s.begun with lock := some (.host k) }) h.safe hst) h.safe
      (actRelease_held (s := s.begun) hl rfl) ?_
    refine .step (tick_still (s := s.begun) h.safe hst) h.safe ?_
    have hb : (s.begun.node n).txBusy = true := hb
    simp only [Act.apply, actWaitTx, hb]
    exact actWait_blocks (by rw [show s.begun.lock = none from hl]; exact nofun) hwoken
  obtain ⟨t, hrun, B⟩ := Waits.command (v := s.begun) h rfl waits
  have hctx := B.ctx
  have htask : (t.ctx (.host k)).task = some { instr := .chWrite n, looping := false, hist := [0, 1, 0, 0] } := by rw [hctx]
  have hm := B.machine
  have hlock : t.lock ≠ some (.host k) := by
    obtain ⟨_, _, _, _, rfl⟩ := hm
    rw [show s.begun.lock = none from hl]
    exact nofun
  have hsafe : t.safe := by
    obtain ⟨_, _, _, _, rfl⟩ := hm
    exact h.safe
  have hstill : t.Still := by
    obtain ⟨_, _, _, _, rfl⟩ := hm
    exact hst
  have hstand : t.standing (.host k) { instr := .chWrite n, looping := false, hist := [0, 1, 0, 0] } =
      .act (.waitTx n) afterWaitTx := rfl
  obtain ⟨y, -, -, hend⟩ := B.interrupted (f := id) hsafe hstill hlock hstand
    (fun y => ⟨_, rfl⟩) (fun y _ _ => .ret _ _ _) (fun y => ⟨rfl, rfl⟩)
  have stays : ∀ w : State, w.cfg = t.cfg → w.lock = t.lock → w.contexts = t.contexts → w.canMove (.host k) = false := by
    intro w hc hwl hx
    have hwx := ctx_of_contexts hx (.host k)
    obtain ⟨z, hz⟩ := actWait_stays (s := w) (a := .host k) (b := !(w.node n).txBusy) (by rw [hwl]; exact hlock)
      (by rw [hwx, hctx]; rfl) (by rw [hwx, hctx]; rfl) (by rw [hwx, hctx]; rfl)
    exact canMove_of_stay (by rw [hwx]; exact htask) ((standing_congr hc (by rw [hwx])).trans hstand) hz
  refine ⟨t, hrun, by rw [hctx]; rfl, by rw [hctx]; rfl, by rw [hctx]; rfl, fun j => by rw [hctx]; rfl, stays t rfl rfl rfl,
    canMove_after_setBusy B hlock hstand, fun b => stays _ rfl rfl rfl, keepsTable_of_tablePart hm.tablePart,
    keepsSoft_of_softPart hm.softPart, ⟨?_, B.others⟩, hend⟩
  obtain ⟨_, _, _, _, rfl⟩ := hm
  exact keepsEngine_of_enginePart rfl

end Sys2Proof.Machine
end

section
/-! PROOFS. CH.STOP (45_channel.md R262). -/

namespace Sys2Proof.Machine

variable {α : Type} {s t u w : State} {a : Agent} {n : NodeNo} {rx tx : Chan}

/-- A calm state once more after a step that touches neither its window, its environment nor its fault record. -/
theorem Patched.calm {es : List (Ns × Chan)} {g : Ns → Chan → SubField} (h : Patched es g s t) (hc : s.Calm) : t.Calm :=
  h.moved.calm hc

/-- CE cleared in the four entries of a pair under a hold of L, and `p` after it (R262). -/
theorem disablePair_does {p : Prog Result} {k : WrRes → Prog Result} {Q : Result → State → Prop} (c : Params) (h : s.Calm)
    (hl : s.lock = none) (hn : 1 ≤ c.rpRetries)
    (hw : ∀ ns, s.isWritten (catOff ns rx) = true ∧ s.isWritten (catOff ns tx) = true)
    (hk : ∀ w, Patched (pairEntries rx tx) (fun ns ch => clearCe (s.catEntry ns ch)) s w → Does a (k .ok) w Q) :
    Does a (.after .acquire <| (readEntries c (pairEntries rx tx)).bind fun xs =>
      match xs with
      | none => p
      | some xs => (writeEntries c clearCe [] xs).bind fun w => .after .release <| k w) s Q := by
  refine .calm h (s2 := { s with lock := some a }) (r := 0) (by simp [Act.apply, actAcquire, hl]) ?_
  refine .bind (readWriteEntries_does (s := { s with lock := some a }) c clearCe h rfl hw hn) ?_
  rintro x t ⟨l, rfl, htc, htl, run⟩
  refine .bind run ?_
  rintro y v ⟨rfl, hv⟩
  have hp := hv.unlock
  rw [hl] at hp
  exact .calm (s2 := { v with lock := none }) (r := 0) (hv.calm h) (by simp [Act.apply, actRelease, hv.moved.lock]) (hk _ hp)

theorem Moved.contexts (h : Moved s t) : t.contexts = s.contexts := by
  obtain ⟨_, _, _, _, _, _, rfl⟩ := h
  rfl

theorem Moved.cur (h : Moved s t) : t.cur = s.cur := by
  obtain ⟨_, _, _, _, _, _, rfl⟩ := h
  rfl

theorem sameAgent_of_contexts (hx : t.contexts = s.contexts) (hc : t.cur = s.cur) : SameAgent a s t :=
  sameAgent_of_ctx hc (congrArg (fun x : List Ctx × _ => x.1.length) hx) (ctx_of_contexts hx a)

/-- A step on a node moves no context. -/
theorem sameAgent_setNode (m : NodeNo) (x : Node) (h : SameAgent a s t) : SameAgent a s (t.setNode m x) :=
  ⟨h.cur, h.threads, h.res, h.rc, h.command⟩

/-- Settles O51: the four entries are patched under one hold of L, between the masking and the wake of R262. -/
theorem stopDisablesTheNode : Obligations.StopDisablesTheNode := by
  intro s a n x both h ht hn hst hw
  have hcalm := begun_calm h.safe ht
  let v : State := { s.begun.setNode n { x with nm := some a } with
    hcMsk := s.hcMsk &&& ~~~both, busMsk := s.busMsk &&& ~~~both }
  have run : Does a (progChStop s.cfg n) s.begun fun y u => y = { rc := some .ok } ∧ SameAgent a s u ∧
      ∃ w, Patched (pairEntries x.rxCh x.txCh) (fun ns ch => clearCe (s.catEntry ns ch)) v w ∧
        u = ((w.setNode n { x with nm := some a, lstate := .stopped }).wakeAll n).setNode n { x with lstate := .stopped } := by
    refine .takeMutex h.safe (still_of_calm hcalm) (by rw [show s.begun.lock = none from ht.2.2.1]; exact nofun) hn ?_
    refine .getLstate (l := .started) hcalm.1 (still_of_calm hcalm) (by rw [node_setNode_same]; exact hst) ?_
    rw [if_neg (by decide)]
    refine .getChans (rx := x.rxCh) (tx := x.txCh) hcalm.1 (still_of_calm hcalm) (by rw [node_setNode_same]; rfl)
      (by rw [node_setNode_same]; rfl) fun r hrx htx => ?_
    dsimp only
    rw [hrx, htx]
    refine maskNode_does hcalm ?_
    refine disablePair_does (s := v) s.cfg hcalm ht.2.2.1 ht.2.2.2 hw fun w hp => ?_
    have hcw := hp.calm hcalm
    refine .setLstate hcw.1 (still_of_calm hcw) ((hp.moved.node n).trans (node_setNode_same ..)) ?_
    refine .calm (by exact hcw) rfl ?_
    refine .giveMutex hcw.1 (still_of_calm hcw) (x := { x with nm := some a, lstate := .stopped }) (node_setNode_same ..) (.ret ⟨rfl, ?_, w, hp, ?_⟩)
    · exact sameAgent_setNode n _ (sameAgent_wakeAll n (sameAgent_setNode n _ (sameAgent_of_contexts hp.moved.contexts hp.moved.cur)))
    · rw [← hn]
  obtain ⟨_, t, ⟨w, hp, rfl⟩, hm, he, hr, ho⟩ := run.endsCommand h List.nodup_nil
  have hidle := (hp.calm hcalm).2.1
  have hwakes : WakesNode n a s t := wakesNode_of_wakeAll (u := w.setNode n { x with nm := some a, lstate := .stopped })
    hp.moved.contexts ho
  have hnode : (((w.setNode n { x with nm := some a, lstate := .stopped }).wakeAll n).setNode n { x with lstate := .stopped }).node n =
      { x with lstate := .stopped } := node_setNode_same ..
  have hnodes : ∀ m, m ∉ [n] → (((w.setNode n { x with nm := some a, lstate := .stopped }).wakeAll n).setNode n
      { x with lstate := .stopped }).node m = s.node m := by
    intro m hm
    have hne : m ≠ n := by simpa using hm
    rw [node_setNode, if_neg hne]
    refine (node_setNode ..).trans ((if_neg hne).trans ((hp.moved.node m).trans ?_))
    exact (node_setNode s n m _).trans (if_neg hne)
  have hentry : ∀ ns ch, ch = x.rxCh ∨ ch = x.txCh → w.catEntry ns ch = s.catEntry ns ch &&& ~~~0x0800 :=
    fun ns ch hch => (hp.entry ns ch).trans (if_pos (mem_pairEntries.mpr hch))
  have hentries : KeepsEntriesBut _ s w := hp.keepsEntriesBut
  have hrows : KeepsRowsBut _ s w := hp.keepsRowsBut
  have hwritten : ∀ ns, w.isWritten (catOff ns x.rxCh) = true ∧ w.isWritten (catOff ns x.txCh) = true :=
    fun ns => ⟨(hp.written _).trans (hw ns).1, (hp.written _).trans (hw ns).2⟩
  have harm := hp.arming
  rw [if_neg (by simp [pairEntries])] at harm
  obtain ⟨_, _, _, _, _, _, rfl⟩ := hp.moved
  obtain ⟨_, _, _, _, rfl⟩ := hm
  exact ⟨_, he, hr, hnode, hentry, hentries, hrows, hwritten, rfl, rfl, hwakes, hidle, harm, keepsEngine_of_enginePart rfl,
    ⟨rfl, rfl⟩, ⟨rfl, rfl⟩, fun _ _ => rfl, hnodes, rfl, fun _ => rfl⟩

end Sys2Proof.Machine
end

section
/-! PROOFS. Sequences of table commands (45_channel.md R251, R256, R258): the table RAM and software's cursors as
values, edited step by step. -/

namespace Sys2Proof.Machine

variable {α : Type} {s t u : State} {a : Agent}

/-! ## What moves beside the tables -/

/-- `t` is `s` but for the status and mask registers, the nodes, the contexts, the turn and the environment. -/
def Aside (s t : State) : Prop :=
  ∃ sts err hm bm nodes th h b p e, t = { s with
    hcSts := sts, hcErr := err, hcMsk := hm, busMsk := bm, nodes := nodes, threads := th, hd := h, bd := b, presented := p,
    env := e }

theorem Aside.trans (h1 : Aside s t) (h2 : Aside t u) : Aside s u := by
  obtain ⟨_, _, _, _, _, _, _, _, _, _, rfl⟩ := h1
  obtain ⟨_, _, _, _, _, _, _, _, _, _, rfl⟩ := h2
  exact ⟨_, _, _, _, _, _, _, _, _, _, rfl⟩

theorem aside_begun (s : State) : Aside s s.begun := ⟨_, _, _, _, _, _, _, _, _, _, rfl⟩

theorem aside_setNode (s : State) (n : NodeNo) (x : Node) : Aside s (s.setNode n x) := ⟨_, _, _, _, _, _, _, _, _, _, rfl⟩

theorem aside_notify (s : State) (p : Instr → Bool) : Aside s (s.notify p) := ⟨_, _, _, _, _, _, _, _, _, _, rfl⟩

theorem SameMachine.aside (h : SameMachine s t) : Aside s t := by
  obtain ⟨_, _, _, _, rfl⟩ := h
  exact ⟨_, _, _, _, _, _, _, _, _, _, rfl⟩

/-- What stays beside the tables, the registers of the interrupt block and the nodes. -/
structure Kept (s t : State) : Prop where
  engine : KeepsEngine s t
  config : KeepsConfig s t
  log : t.logcnt = s.logcnt
  mem : KeepsMem s t

theorem Kept.trans (h1 : Kept s t) (h2 : Kept t u) : Kept s u :=
  ⟨⟨h2.engine.cfg.trans h1.engine.cfg, h2.engine.bstat.trans h1.engine.bstat, h2.engine.lock.trans h1.engine.lock,
    h2.engine.fault.trans h1.engine.fault⟩,
    ⟨h2.config.1.trans h1.config.1, h2.config.2.trans h1.config.2⟩, h2.log.trans h1.log, fun x => (h2.mem x).trans (h1.mem x)⟩

theorem Aside.kept (h : Aside s t) : Kept s t := by
  obtain ⟨_, _, _, _, _, _, _, _, _, _, rfl⟩ := h
  exact ⟨⟨rfl, rfl, rfl, rfl⟩, ⟨rfl, rfl⟩, rfl, fun _ => rfl⟩

/-- The arming state is as before. -/
theorem Aside.arming (h : Aside s t) : SameArming s t := by
  obtain ⟨_, _, _, _, _, _, _, _, _, _, rfl⟩ := h
  exact ⟨⟨rfl, rfl⟩, fun _ => rfl⟩

theorem Aside.rearmed (h1 : Aside s t) (h : Rearmed t u) : Rearmed s u := h.before h1.arming.1 h1.kept.engine.cfg

/-- What table commands edit: the rows that are no CAT rows, the CAT entries, which rows were written, software's
cursors, and whether a CAT row was written on the way. -/
structure Tables where
  row : RowOff → Row
  entry : Ns → Chan → SubField
  written : RowOff → Bool
  sw : Chan → Half
  cat : Bool

/-- The tables a sequence begins with. -/
def State.tables (s : State) : Tables := ⟨s.row, s.catEntry, s.isWritten, s.sw, false⟩

/-- One row written. -/
def Tables.putRow (T : Tables) (off : RowOff) (v : Row) : Tables :=
  { T with row := fun o => if o = off then v else T.row o, written := fun o => if o = off then true else T.written o }

/-- The entries `es` set to the values `g` gives. -/
def Tables.putEntries (T : Tables) (es : List Entry) (g : Ns → Chan → SubField) : Tables :=
  { T with entry := fun ns ch => if (ns, ch) ∈ es then g ns ch else T.entry ns ch, cat := true }

/-- One cursor of software set. -/
def Tables.putSw (T : Tables) (ch : Chan) (h : Half) : Tables := { T with sw := fun c => if c = ch then h else T.sw c }

/-- The rows `offs`, no CAT rows, zeroed. -/
def Tables.zero (T : Tables) (offs : List RowOff) : Tables :=
  { T with row := fun o => if o ∈ offs then 0 else T.row o, written := fun o => if o ∈ offs then true else T.written o }

/-- The CAT rows zeroed. -/
def Tables.zeroCat (T : Tables) : Tables :=
  { T with entry := fun _ _ => 0, written := fun o => if isCatRow o then true else T.written o, cat := true }

/-- `t` is `s` with its tables edited to `T`. -/
structure Edited (T : Tables) (s t : State) : Prop where
  moved : ∃ h, Moved { s with swHalf := h } t
  row : ∀ o, isCatRow o = false → t.row o = T.row o
  entry : ∀ ns ch, t.catEntry ns ch = T.entry ns ch
  written : ∀ o, t.isWritten o = T.written o
  sw : ∀ ch, t.sw ch = T.sw ch
  arming : if T.cat then Rearmed s t else SameArming s t

theorem Edited.refl (s : State) : Edited s.tables s s :=
  ⟨⟨s.swHalf, .refl s⟩, fun _ _ => rfl, fun _ _ => rfl, fun _ => rfl, fun _ => rfl, .refl s⟩

section

variable {T : Tables}

theorem Edited.calm (E : Edited T s t) (h : s.Calm) : t.Calm := by
  obtain ⟨_, hm⟩ := E.moved
  exact hm.calm h

theorem Edited.lock (E : Edited T s t) : t.lock = s.lock := by
  obtain ⟨_, hm⟩ := E.moved
  exact hm.lock

theorem Edited.cfg (E : Edited T s t) : t.cfg = s.cfg := by
  obtain ⟨_, hm⟩ := E.moved
  exact hm.cfg

theorem Edited.node (E : Edited T s t) (n : NodeNo) : t.node n = s.node n := by
  obtain ⟨_, hm⟩ := E.moved
  exact hm.node n

theorem Edited.contexts (E : Edited T s t) : t.contexts = s.contexts := by
  obtain ⟨_, hm⟩ := E.moved
  exact hm.contexts

theorem Edited.cur (E : Edited T s t) : t.cur = s.cur := by
  obtain ⟨_, hm⟩ := E.moved
  exact hm.cur

theorem Edited.sameAgent {b : State} (E : Edited T s t) (h : SameAgent a b s) : SameAgent a b t := by
  have hx := ctx_of_contexts E.contexts a
  exact ⟨E.cur.trans h.cur, (congrArg (fun x : List Ctx × _ => x.1.length) E.contexts).trans h.threads,
    by rw [hx]; exact h.res, by rw [hx]; exact h.rc, by rw [hx]; exact h.command⟩

/-- The tables a step aside leaves are those it found. -/
theorem Aside.tables (h : Aside s t) : t.tables = s.tables := by
  obtain ⟨_, _, _, _, _, _, _, _, _, _, rfl⟩ := h
  rfl

theorem Edited.kept (E : Edited T s t) : Kept s t := by
  obtain ⟨_, _, _, _, _, _, _, rfl⟩ := E.moved
  exact ⟨⟨rfl, rfl, rfl, rfl⟩, ⟨rfl, rfl⟩, rfl, fun _ => rfl⟩

theorem Edited.status (E : Edited T s t) : KeepsStatus s t := by
  obtain ⟨_, _, _, _, _, _, _, rfl⟩ := E.moved
  exact ⟨rfl, rfl⟩

theorem Edited.masks (E : Edited T s t) : KeepsMasks s t := by
  obtain ⟨_, _, _, _, _, _, _, rfl⟩ := E.moved
  exact ⟨rfl, rfl⟩

/-! ## Edits -/

/-- The frame of an edit followed by transactions. -/
theorem Edited.moved_trans (E : Edited T s t) (h : Moved t u) : ∃ x, Moved { s with swHalf := x } u := by
  obtain ⟨x, hm⟩ := E.moved
  exact ⟨x, hm.trans h⟩

/-- Edits that leave the arming state alone. -/
theorem Edited.arming_after (E : Edited T s t) (h : SameArming t u) : if T.cat then Rearmed s u else SameArming s u := by
  have ha := E.arming
  split
  · next hc =>
    rw [if_pos hc] at ha
    exact ha.after h
  · next hc =>
    rw [if_neg hc] at ha
    exact ha.trans h

/-- Edits that write a CAT row. -/
theorem Edited.rearmed_after (E : Edited T s t) (h : Rearmed t u) : Rearmed s u := by
  have ha := E.arming
  split at ha
  · exact ha.trans E.cfg h
  · exact Rearmed.before ha.1 E.cfg h

theorem Edited.rearmed (E : Edited T s t) (hc : T.cat = true) : Rearmed s t := by
  have ha := E.arming
  rwa [if_pos hc] at ha

theorem Edited.putRow {off : RowOff} {v : Row} (E : Edited T s t) (hc : isCatRow off = false) (hw : Wrote off v t u) :
    Edited (T.putRow off v) s u where
  moved := E.moved_trans hw.moved
  row o ho := by
    rw [hw.row, E.row o ho]
    rfl
  entry ns ch := ((hw.other hc).2 ns ch).trans (E.entry ns ch)
  written o := by
    rw [hw.written, E.written]
    rfl
  sw ch := (hw.moved.sw ch).trans (E.sw ch)
  arming := E.arming_after (hw.other hc).1

theorem Edited.putEntries {es : List Entry} {g : Ns → Chan → SubField} (E : Edited T s t) (he : es ≠ []) (hp : Patched es g t u) :
    Edited (T.putEntries es g) s u where
  moved := E.moved_trans hp.moved
  row o ho := by
    refine (hp.row o fun e _ h => ?_).trans (E.row o ho)
    rw [h, isCatRow_catOff] at ho
    cases ho
  entry ns ch := by
    rw [hp.entry, E.entry]
    rfl
  written o := (hp.written o).trans (E.written o)
  sw ch := (hp.moved.sw ch).trans (E.sw ch)
  arming := by
    have ha := hp.arming
    rw [if_neg he] at ha
    exact E.rearmed_after ha

theorem Edited.putSw (E : Edited T s t) (ch : Chan) (h : Half) : Edited (T.putSw ch h) s (t.setSw ch h) where
  moved := by
    obtain ⟨x, _, _, _, _, _, _, rfl⟩ := E.moved
    exact ⟨_, _, _, _, _, _, _, rfl⟩
  row := E.row
  entry := E.entry
  written := E.written
  sw c := by
    rw [sw_setSw, E.sw]
    rfl
  arming := E.arming

theorem Edited.zero {offs : List RowOff} (E : Edited T s t) (hc : ∀ o ∈ offs, isCatRow o = false) (hz : Zeroed offs t u) :
    Edited (T.zero offs) s u where
  moved := E.moved_trans hz.moved
  row o ho := by
    rw [hz.row, E.row o ho]
    rfl
  entry ns ch := by
    refine Eq.trans ?_ (E.entry ns ch)
    have hne : catOff ns ch ∉ offs := fun h => by
      have := hc _ h
      rw [isCatRow_catOff] at this
      cases this
    rw [State.catEntry, hz.row, if_neg hne]
    rfl
  written o := by
    rw [hz.written, E.written]
    rfl
  sw ch := (hz.moved.sw ch).trans (E.sw ch)
  arming := E.arming_after (hz.other hc)

theorem Edited.zeroCat (E : Edited T s t) (hz : Zeroed catRows t u) : Edited T.zeroCat s u where
  moved := E.moved_trans hz.moved
  row o ho := by
    rw [hz.row, if_neg (by rw [mem_catRows, ho]; decide)]
    exact E.row o ho
  entry ns ch := by
    rw [State.catEntry, hz.row, if_pos ((mem_catRows _).mpr (isCatRow_catOff ns ch)), getSub, bits]
    exact BitVec.extractLsb'_zero
  written o := by
    rw [hz.written, E.written]
    simp only [mem_catRows]
    rfl
  sw ch := (hz.moved.sw ch).trans (E.sw ch)
  arming := E.rearmed_after (hz.cat (by decide) fun o ho => (mem_catRows o).mp ho)

/-! ## What an edit left -/

/-- A CAT row is its entries. -/
theorem row_of_entries {o : RowOff} (hc : isCatRow o = true) (h : ∀ ns ch, catOff ns ch = o → t.catEntry ns ch = s.catEntry ns ch) :
    t.row o = s.row o := by
  rw [isCatRow_iff] at hc
  refine BitVec.eq_of_getLsbD_eq fun k hk => ?_
  obtain ⟨ns, ch, ho, hch⟩ : ∃ (ns : Ns) (ch : Chan), catOff ns ch = o ∧ ch.toNat % 8 = k / 16 := by
    refine ⟨if o.toNat < 0x88 then .bus else .host, BitVec.ofNat 6 (8 * (o.toNat % 8) + k / 16), BitVec.eq_of_toNat_eq ?_, ?_⟩
    · rw [toNat_catOff, BitVec.toNat_ofNat]
      by_cases h88 : o.toNat < 0x88
      · rw [if_pos h88]
        change 0x80 + _ = _
        omega
      · rw [if_neg h88]
        change 0x88 + _ = _
        omega
    · rw [BitVec.toNat_ofNat]
      omega
  have hsub : ∀ v : Row, (getSub v ch).getLsbD (k % 16) = v.getLsbD k := fun v => by
    rw [getSub, subLo, hch, BitVec.getLsbD_extractLsb', decide_eq_true (by omega), Bool.true_and]
    congr 1
    omega
  have he := h ns ch ho
  rw [State.catEntry, State.catEntry, ho] at he
  rw [← hsub, ← hsub, he]

/-- Rows whose value, entries and written bit the edits kept are those of `b`. -/
theorem Edited.keepsRowsBut {b : State} {offs : List RowOff} (E : Edited T s t) (h1 : ∀ o, o ∉ offs → isCatRow o = false → T.row o = b.row o)
    (h2 : ∀ ns ch, catOff ns ch ∉ offs → T.entry ns ch = b.catEntry ns ch)
    (h3 : ∀ o, o ∉ offs → T.written o = b.isWritten o) : KeepsRowsBut offs b t := by
  refine fun o ho => ⟨?_, (E.written o).trans (h3 o ho)⟩
  by_cases hc : isCatRow o = true
  · refine row_of_entries hc fun ns ch e => (E.entry ns ch).trans (h2 ns ch ?_)
    rw [e]
    exact ho
  · have hc : isCatRow o = false := by simpa using hc
    exact (E.row o hc).trans (h1 o ho hc)

/-! ## Commands of a sequence -/

theorem Edited.locked_write {off : RowOff} {v : Row} {c : Params} (E : Edited T s t) (h : s.Calm) (hl : s.lock = none)
    (hn : 1 ≤ c.rpRetries) (hc : isCatRow off = false) (hr : reservedRow s.cfg off = false) :
    Does a ((lockedWrite c off v).bind fun w => done w.rc) t fun x u => x = { rc := some .ok } ∧ Edited (T.putRow off v) s u := by
  refine .bind (lockedWrite_does c v (E.calm h) (E.lock.trans hl) (by rw [E.cfg]; exact hr) hn) ?_
  rintro x u ⟨rfl, hw⟩
  exact .ret ⟨rfl, E.putRow hc hw⟩

theorem Edited.patch_entry {ns : Ns} {ch : Chan} {v : SubField} {c : Params} (E : Edited T s t) (h : s.Calm) (hl : s.lock = none)
    (hn : 1 ≤ c.rpRetries) (hw : T.written (catOff ns ch) = true) :
    Does a ((lockedUpdate c (catOff ns ch) (fun r => putSub r ch v)).bind fun w => done w.rc) t fun x u =>
      x = { rc := some .ok } ∧ Edited (T.putEntries [(ns, ch)] fun _ _ => v) s u := by
  have hw : t.isWritten (catOff ns ch) = true := (E.written _).trans hw
  refine .bind (.of_ends (lockedUpdate_ends c (E.calm h) (E.lock.trans hl) (reserved_catOff ..) hw hn)) ?_
  rintro x u ⟨rfl, rfl⟩
  exact .ret ⟨rfl, E.putEntries (by simp) (patched_one _ _ hw)⟩

/-- One command of a sequence that stops at the first failure (R251). -/
theorem runSteps_step {q : Prog Result} {ps : List (Prog Result)} {P : State → Prop} {Q : RC → State → Prop}
    (hq : Does a q t fun x u => x = { rc := some .ok } ∧ P u) (hk : ∀ u, P u → Does a (runSteps ps) u Q) :
    Does a (runSteps (q :: ps)) t Q := by
  refine .bind hq ?_
  rintro x u ⟨rfl, hu⟩
  exact hk u hu

/-- One command of a sequence that goes past failures (R256). -/
theorem runBestEffort_step {q : Prog Result} {ps : List (Prog Result)} {b : Bool} {P : State → Prop} {Q : Bool → State → Prop}
    (hq : Does a q t fun x u => x = { rc := some .ok } ∧ P u) (hk : ∀ u, P u → Does a (runBestEffort ps b) u Q) :
    Does a (runBestEffort (q :: ps) b) t Q := by
  refine .bind hq ?_
  rintro x u ⟨rfl, hu⟩
  exact hk u hu

end

end Sys2Proof.Machine
end

section
/-! PROOFS. The last CH.CLOSE (45_channel.md R255, R256). -/

namespace Sys2Proof.Machine

variable {α : Type} {s t u v : State} {a : Agent} {n : NodeNo} {rx tx : Chan} {x : Node} {q : Prog α} {Q : α → State → Prop}

theorem rowOf_zero : rowOf (Vector.replicate 4 0) = 0 := by decide

theorem Does.freeNode (hf : s.safe) (hs : s.Still) (hx : s.node n = x)
    (hq : Does a q (s.setNode n { x with ring := none, bufs := none }) Q) : Does a (.after (.freeNode n) q) s Q := by
  subst hx
  exact .still hf hs rfl hq

theorem Does.clearPending (hf : s.safe) (hs : s.Still) (hx : s.node n = x)
    (hq : Does a q (s.setNode n { x with exc := 0, txBusy := false }) Q) : Does a (.after (.clearPending n) q) s Q := by
  subst hx
  exact .still hf hs rfl hq

/-- The edits of a teardown: the entries and rows of a pair of channels zeroed. -/
def Tables.tearDown (T : Tables) (rx tx : Chan) : Tables :=
  T.putEntries [(.bus, rx)] (fun _ _ => 0) |>.putEntries [(.host, rx)] (fun _ _ => 0)
    |>.putEntries [(.bus, tx)] (fun _ _ => 0) |>.putEntries [(.host, tx)] (fun _ _ => 0)
    |>.putRow (cdtOff rx) 0 |>.putRow (cdtOff tx) 0 |>.putRow (adtOff rx) 0 |>.putRow (adtOff tx) 0

theorem tearDown_entry (T : Tables) (rx tx : Chan) (ns : Ns) (ch : Chan) :
    (T.tearDown rx tx).entry ns ch = if ch = rx ∨ ch = tx then 0 else T.entry ns ch := by
  by_cases h1 : ch = rx <;> by_cases h2 : ch = tx <;> cases ns <;>
    simp [Tables.tearDown, Tables.putEntries, Tables.putRow, h1, h2]

theorem tearDown_row (T : Tables) (rx tx : Chan) (o : RowOff) :
    (T.tearDown rx tx).row o = if o ∈ [cdtOff rx, cdtOff tx, adtOff rx, adtOff tx] then 0 else T.row o := by
  by_cases h1 : o = cdtOff rx <;> by_cases h2 : o = cdtOff tx <;> by_cases h3 : o = adtOff rx <;> by_cases h4 : o = adtOff tx <;>
    simp [Tables.tearDown, Tables.putEntries, Tables.putRow, h1, h2, h3, h4]

theorem tearDown_written (T : Tables) (rx tx : Chan) (o : RowOff) :
    (T.tearDown rx tx).written o = if o ∈ [cdtOff rx, cdtOff tx, adtOff rx, adtOff tx] then true else T.written o := by
  by_cases h1 : o = cdtOff rx <;> by_cases h2 : o = cdtOff tx <;> by_cases h3 : o = adtOff rx <;> by_cases h4 : o = adtOff tx <;>
    simp [Tables.tearDown, Tables.putEntries, Tables.putRow, h1, h2, h3, h4]

/-- The eight commands of R256 on hardware that answers. -/
theorem tearDownSteps_does (c : Params) (h : s.Calm) (hl : s.lock = none) (hn : 1 ≤ c.rpRetries) (hrx : rx.toNat < s.cfg.nch)
    (htx : tx.toNat < s.cfg.nch) (hw : ∀ ns, s.isWritten (catOff ns rx) = true ∧ s.isWritten (catOff ns tx) = true) :
    Does a (runBestEffort [catZero c .bus rx, catZero c .host rx, catZero c .bus tx, catZero c .host tx,
      cdtZero c rx, cdtZero c tx, adtZero c rx, adtZero c tx] false) s fun b u =>
        b = false ∧ Edited (s.tables.tearDown rx tx) s u := by
  have zero : ∀ {T : Tables} {u : State} {off : RowOff}, Edited T s u → isCatRow off = false → reservedRow s.cfg off = false →
      Does a (progRpWriteRow c (Vector.replicate 4 0) off) u fun x v => x = { rc := some .ok } ∧ Edited (T.putRow off 0) s v := by
    intro T u off E hc hr
    rw [progRpWriteRow, rowOf_zero]
    exact E.locked_write h hl hn hc hr
  refine runBestEffort_step ((Edited.refl s).patch_entry h hl hn (hw .bus).1) fun u E => ?_
  refine runBestEffort_step (E.patch_entry h hl hn (hw .host).1) fun u E => ?_
  refine runBestEffort_step (E.patch_entry h hl hn (hw .bus).2) fun u E => ?_
  refine runBestEffort_step (E.patch_entry h hl hn (hw .host).2) fun u E => ?_
  refine runBestEffort_step (zero E (isCatRow_cdtOff rx) (reserved_cdtOff hrx)) fun u E => ?_
  refine runBestEffort_step (zero E (isCatRow_cdtOff tx) (reserved_cdtOff htx)) fun u E => ?_
  refine runBestEffort_step (zero E (isCatRow_adtOff rx) (reserved_adtOff hrx)) fun u E => ?_
  refine runBestEffort_step (zero E (isCatRow_adtOff tx) (reserved_adtOff htx)) fun u E => ?_
  exact .ret ⟨rfl, E⟩

/-- The mask bits of a pair of channels cleared when its node is Started. -/
def State.maskedIf (s : State) (l : LState) (rx tx : Chan) : State :=
  { s with
    hcMsk := if l = LState.started then s.hcMsk &&& ~~~(chanBit rx ||| chanBit tx) else s.hcMsk
    busMsk := if l = LState.started then s.busMsk &&& ~~~(chanBit rx ||| chanBit tx) else s.busMsk }

theorem maskedIf_does {p : Prog α} {l : LState} (h : s.Calm) (hp : Does a p (s.maskedIf l rx tx) Q) :
    Does a (if lstateResp l = lstateResp .started then maskNode rx tx false p else p) s Q := by
  unfold State.maskedIf at hp
  by_cases hl : l = .started
  · rw [if_pos (congrArg lstateResp hl)]
    rw [if_pos hl, if_pos hl] at hp
    exact maskNode_does h hp
  · rw [if_neg (hl ∘ lstateResp_inj.mp)]
    rw [if_neg hl, if_neg hl] at hp
    exact hp

/-- The machine before the rows of a teardown: the node masked if it was Started, Stopped, its threads woken. -/
def State.stopping (s : State) (n : NodeNo) : State :=
  ((s.maskedIf (s.node n).lstate (s.node n).rxCh (s.node n).txCh).setNode n { s.node n with lstate := .stopped }).wakeAll n

theorem aside_stopping (s : State) (n : NodeNo) : Aside s (s.stopping n) := ⟨_, _, _, _, _, _, _, _, _, _, rfl⟩

theorem node_stopping (s : State) (n m : NodeNo) :
    (s.stopping n).node m = if m = n then { s.node n with lstate := .stopped } else s.node m := node_setNode ..

/-- What a teardown does to the registers of the interrupt block. -/
theorem stopping_registers (hx : s.node n = x) : KeepsStatus s (s.stopping n) ∧
    (s.stopping n).hcMsk = (if x.lstate = .started then s.hcMsk &&& ~~~(chanBit x.rxCh ||| chanBit x.txCh) else s.hcMsk) ∧
    (s.stopping n).busMsk = if x.lstate = .started then s.busMsk &&& ~~~(chanBit x.rxCh ||| chanBit x.txCh) else s.busMsk := by
  subst hx
  exact ⟨⟨rfl, rfl⟩, rfl, rfl⟩

theorem wakesNode_of_stopping (hv : v.contexts = s.contexts) (ht : ∀ b, b ≠ a → t.ctx b = (v.stopping n).ctx b) :
    WakesNode n a s t := wakesNode_of_wakeAll hv ht

/-- Teardown(n) on hardware that answers (R256). -/
theorem teardown_does (c : Params) (h : s.Calm) (hl : s.lock = none) (hn : 1 ≤ c.rpRetries) (hx : s.node n = x)
    (hrx : x.rxCh.toNat < s.cfg.nch) (htx : x.txCh.toNat < s.cfg.nch)
    (hw : ∀ ns, s.isWritten (catOff ns x.rxCh) = true ∧ s.isWritten (catOff ns x.txCh) = true) :
    Does a (teardown c n) s fun rc u => rc = .ok ∧
      ∃ w, Edited (s.tables.tearDown x.rxCh x.txCh) (s.stopping n) w ∧
        u = w.setNode n { x with lstate := .closed, exc := 0, txBusy := false, bufs := none, ring := none } := by
  subst hx
  refine .getLstate h.1 (still_of_calm h) rfl ?_
  refine .getChans h.1 (still_of_calm h) rfl rfl fun r hrr hrt => ?_
  dsimp only
  rw [hrr, hrt]
  refine maskedIf_does h ?_
  refine .setLstate h.1 (still_of_calm h) rfl ?_
  refine .calm (by exact h) rfl ?_
  refine .bind (tearDownSteps_does (s := s.stopping n) c h hl hn hrx htx hw) ?_
  rintro b w ⟨rfl, E⟩
  have hc := E.calm h
  have hst := still_of_calm hc
  refine .freeNode hc.1 hst ((E.node n).trans (node_setNode_same ..)) ?_
  refine .clearPending hc.1 hst (node_setNode_same ..) ?_
  refine .setLstate hc.1 hst (node_setNode_same ..) (.ret ⟨rfl, w, E, ?_⟩)
  rw [setNode_setNode, setNode_setNode]

/-- What a teardown left, seen from a state `b` whose tables it began with. -/
theorem Edited.tornDown {b : State} (E : Edited (b.tables.tearDown rx tx) s t)
    (hw : ∀ ns, b.isWritten (catOff ns rx) = true ∧ b.isWritten (catOff ns tx) = true) :
    (∀ ch, ch = rx ∨ ch = tx →
      t.row (cdtOff ch) = 0 ∧ t.row (adtOff ch) = 0 ∧ t.isWritten (cdtOff ch) = true ∧ t.isWritten (adtOff ch) = true ∧
      ∀ ns, t.catEntry ns ch = 0 ∧ t.isWritten (catOff ns ch) = true) ∧
    KeepsEntriesBut [(.bus, rx), (.host, rx), (.bus, tx), (.host, tx)] b t ∧
    KeepsRowsBut [cdtOff rx, cdtOff tx, adtOff rx, adtOff tx, catOff .bus rx, catOff .host rx, catOff .bus tx,
      catOff .host tx] b t := by
  have hentry : ∀ ns ch, ch = rx ∨ ch = tx → t.catEntry ns ch = 0 :=
    fun ns ch hch => (E.entry ns ch).trans ((tearDown_entry ..).trans (if_pos hch))
  have hzero : ∀ o ∈ [cdtOff rx, cdtOff tx, adtOff rx, adtOff tx], isCatRow o = false →
      t.row o = 0 ∧ t.isWritten o = true := fun o ho hc =>
    ⟨(E.row o hc).trans ((tearDown_row ..).trans (if_pos ho)), (E.written o).trans ((tearDown_written ..).trans (if_pos ho))⟩
  have hcat : ∀ ns ch, ch = rx ∨ ch = tx → t.isWritten (catOff ns ch) = true := by
    rintro ns ch hch
    refine (E.written _).trans ((tearDown_written ..).trans ?_)
    split
    · rfl
    · rcases hch with rfl | rfl
      · exact (hw ns).1
      · exact (hw ns).2
  have hentries : KeepsEntriesBut [(.bus, rx), (.host, rx), (.bus, tx), (.host, tx)] b t := by
    intro ns ch hout
    refine (E.entry ns ch).trans ((tearDown_entry ..).trans (if_neg fun hch => hout (mem_pairEntries.mpr hch)))
  have hrows : KeepsRowsBut [cdtOff rx, cdtOff tx, adtOff rx, adtOff tx, catOff .bus rx,
      catOff .host rx, catOff .bus tx, catOff .host tx] b t := by
    have hsub : ∀ {o}, o ∉ [cdtOff rx, cdtOff tx, adtOff rx, adtOff tx, catOff .bus rx,
        catOff .host rx, catOff .bus tx, catOff .host tx] →
        o ∉ [cdtOff rx, cdtOff tx, adtOff rx, adtOff tx] :=
      fun ho h => ho (List.mem_append_left [_, _, _, _] h)
    refine E.keepsRowsBut (b := b) (fun o ho _ => (tearDown_row ..).trans (if_neg (hsub ho))) (fun ns ch ho => ?_)
      fun o ho => (tearDown_written ..).trans (if_neg (hsub ho))
    refine (tearDown_entry ..).trans (if_neg ?_)
    rintro (rfl | rfl) <;> cases ns <;> simp at ho
  refine ⟨fun ch hch => ?_, hentries, hrows⟩
  have hc := hzero (cdtOff ch) (by rcases hch with rfl | rfl <;> simp) (isCatRow_cdtOff ch)
  have hd := hzero (adtOff ch) (by rcases hch with rfl | rfl <;> simp) (isCatRow_adtOff ch)
  exact ⟨hc.1, hd.1, hc.2, hd.2, fun ns => ⟨hentry ns ch hch, hcat ns ch hch⟩⟩

/-- The last CH.CLOSE on hardware that answers. -/
theorem lastClose_does (h : s.Ready a (.chClose n)) (ht : s.TableReady) (hx : s.node n = x) (hn : x.nm = none)
    (hone : x.refcnt = 1) (hrx : x.rxCh.toNat < s.cfg.nch) (htx : x.txCh.toNat < s.cfg.nch)
    (hw : ∀ ns, s.isWritten (catOff ns x.rxCh) = true ∧ s.isWritten (catOff ns x.txCh) = true)
    (hv : v = s.begun.setNode n { x with nm := some a, refcnt := 0 }) :
    Does a (progChClose s.cfg n) s.begun fun y u => y = { rc := some .ok } ∧ SameAgent a s u ∧
      ∃ w, Edited (s.tables.tearDown x.rxCh x.txCh) (v.stopping n) w ∧
        u = w.setNode n { x with lstate := .closed, refcnt := 0, exc := 0, txBusy := false, bufs := none, ring := none } := by
  have hcalm := begun_calm h.safe ht
  subst hv hx
  refine .takeMutex h.safe (still_of_calm hcalm) (by rw [show s.begun.lock = none from ht.2.2.1]; exact nofun) hn ?_
  refine .getRefcnt (w := 1) hcalm.1 (still_of_calm hcalm) (by rw [node_setNode_same]; exact hone) ?_
  rw [word_of_answer, if_neg (by decide)]
  refine .setRefcnt hcalm.1 (still_of_calm hcalm) (node_setNode_same ..) ?_
  rw [if_neg (by decide), setNode_setNode]
  refine .bind (teardown_does s.cfg hcalm ht.2.2.1 ht.2.2.2 (node_setNode_same ..) hrx htx hw) ?_
  rintro rc u ⟨rfl, w, E, rfl⟩
  have hc := E.calm hcalm
  refine .giveMutex hc.1 (still_of_calm hc) (node_setNode_same ..) (.ret ⟨rfl, ?_, w, E, ?_⟩)
  · exact sameAgent_setNode n _ (sameAgent_setNode n _ (E.sameAgent
      (sameAgent_wakeAll n (sameAgent_setNode n _ (sameAgent_of_contexts rfl rfl)))))
  · rw [setNode_setNode, ← hn]
    rfl

/-- Settles O49: the eight edits of the teardown, followed from the tables the command began with. -/
theorem lastCloseTearsTheNodeDown : Obligations.LastCloseTearsTheNodeDown := by
  intro s a n x both h ht hn hone hrx htx hw
  obtain ⟨v, ev⟩ : ∃ v, v = s.begun.setNode n { x with nm := some a, refcnt := 0 } := ⟨_, rfl⟩
  have hv : v.node n = { x with nm := some a, refcnt := 0 } := by
    rw [ev]
    exact node_setNode_same ..
  obtain ⟨_, t, ⟨w, E, rfl⟩, hm, he, hr, ho⟩ := (lastClose_does h ht rfl hn hone hrx htx hw ev).endsCommand h List.nodup_nil
  have hA : Aside s (v.stopping n) := by
    rw [ev]
    exact (aside_begun s).trans ((aside_setNode ..).trans (aside_stopping ..))
  have hregs : KeepsStatus s (v.stopping n) ∧
      (v.stopping n).hcMsk = (if x.lstate = .started then s.hcMsk &&& ~~~both else s.hcMsk) ∧
      (v.stopping n).busMsk = if x.lstate = .started then s.busMsk &&& ~~~both else s.busMsk := by
    have hr := stopping_registers hv
    rw [ev] at hr ⊢
    exact hr
  have hnodes : ∀ m, m ∉ [n] → (v.stopping n).node m = s.node m := by
    intro m hm
    have hne : m ≠ n := by simpa using hm
    rw [node_stopping, if_neg hne, ev]
    exact (node_setNode s n m _).trans (if_neg hne)
  have hwakes : WakesNode n a s t := wakesNode_of_stopping (v := v) (by rw [ev]; rfl) fun b hb =>
    (ho b hb).trans (ctx_of_contexts (s := v.stopping n) E.contexts b)
  have hcalm : (v.stopping n).Calm := by
    rw [ev]
    exact begun_calm h.safe ht
  generalize v.stopping n = b at E hA hregs hnodes hcalm
  obtain ⟨hzero, hentries, hrows⟩ := E.tornDown hw
  have hk := (hA.kept.trans E.kept).trans ((aside_setNode w n _).trans hm.aside).kept
  have harm := hA.rearmed (E.rearmed rfl)
  have hidle := (E.calm hcalm).2.1
  obtain ⟨_, _, _, _, rfl⟩ := hm
  exact ⟨_, he, hr, node_setNode_same .., hzero, hentries, hrows, E.masks.1.trans hregs.2.1, E.masks.2.trans hregs.2.2,
    hwakes, hidle, harm, hk.engine, ⟨E.status.1.trans hregs.1.1, E.status.2.trans hregs.1.2⟩, hk.config, fun ch _ => E.sw ch,
    fun m hm => (node_setNode ..).trans ((if_neg (by simpa using hm)).trans ((E.node m).trans (hnodes m hm))), hk.log, hk.mem⟩

end Sys2Proof.Machine
end

section
/-! PROOFS. CH.START (45_channel.md R258, R259). -/

namespace Sys2Proof.Machine

variable {α : Type} {s t u v w : State} {a : Agent} {n : NodeNo} {rx tx : Chan} {x : Node} {q : Prog α} {Q : α → State → Prop}

/-! ## The registers of the interrupt block -/

/-- A channel set is its two groups. -/
theorem eq_of_groups {v x : ChanSet} (h : ∀ g, groupOf v g = groupOf x g) : v = x := by
  refine BitVec.eq_of_getLsbD_eq fun k hk => ?_
  have hbit : ∀ (g : Fin 2) (j : Nat), j < 32 → v.getLsbD (32 * g.val + j) = x.getLsbD (32 * g.val + j) := fun g j hj => by
    have hg := congrArg (·.getLsbD j) (h g)
    simpa only [getLsbD_groupOf, hj, decide_true, Bool.true_and] using hg
  by_cases hlt : k < 32
  · have h0 := hbit 0 k hlt
    rwa [Fin.val_zero, Nat.mul_zero, Nat.zero_add] at h0
  · have h1 := hbit 1 (k - 32) (by omega)
    rwa [Fin.val_one, Nat.mul_one, Nat.add_sub_cancel' (by omega)] at h1

/-- A channel set acknowledged group by group (R35). -/
theorem clear_groups (v x : ChanSet) : v &&& ~~~(spread 0 (groupOf x 0)) &&& ~~~(spread 1 (groupOf x 1)) = v &&& ~~~x := by
  refine eq_of_groups fun g => ?_
  rw [groupOf_clear, groupOf_clear, groupOf_and, groupOf_not]
  match g with
  | 0 => rfl
  | 1 => rfl

/-- Stale status dropped (R258). -/
theorem clearStatus_does {sts err : ChanSet} (hf : s.safe) (hs : s.Still)
    (hq : Does a q { s with hcSts := s.hcSts &&& ~~~sts, hcErr := s.hcErr &&& ~~~err } Q) :
    Does a (clearStatus sts err q) s Q := by
  rw [← clear_groups, ← clear_groups s.hcErr] at hq
  refine .still hf hs rfl ?_
  refine .still (by exact hf) (by exact hs) rfl ?_
  refine .still (by exact hf) (by exact hs) rfl ?_
  exact .still (by exact hf) (by exact hs) rfl hq

theorem putChan_true {c : Params} {ch : Chan} (v : ChanSet) (h : ch.toNat < c.nch) : putChan c v ch true = v ||| chanBit ch := by
  rw [putChan, if_pos rfl]
  congr 1
  refine BitVec.eq_of_getLsbD_eq fun k hk => ?_
  rw [BitVec.getLsbD_and, getLsbD_chanBit, getLsbD_validChans]
  by_cases hc : k = ch.toNat <;> simp [hc, h, ch.isLt.trans_le (by decide : 2 ^ 6 ≤ 64)]

/-- The four mask bits of a node's channels set (R258). -/
theorem unmaskNode_does (h : s.Calm) (hrx : rx.toNat < s.cfg.nch) (htx : tx.toNat < s.cfg.nch)
    (hq : Does a q { s with
      hcMsk := s.hcMsk ||| (chanBit rx ||| chanBit tx), busMsk := s.busMsk ||| (chanBit rx ||| chanBit tx) } Q) :
    Does a (maskNode rx tx true q) s Q := by
  rw [← BitVec.or_assoc, ← BitVec.or_assoc, ← putChan_true _ hrx, ← putChan_true _ hrx, ← putChan_true _ htx,
    ← putChan_true _ htx] at hq
  refine .calm h rfl ?_
  refine .calm (by exact h) rfl ?_
  refine .calm (by exact h) rfl ?_
  exact .calm (by exact h) rfl hq

/-! ## A sync node on an unlocked bus -/

/-- CAT.UNMUTE_SYNC on a bus that does not run or is not locked: cause 1 or 2 (R194). -/
theorem unmuteSync_unlocked (c : Params) (hf : s.safe) (hs : s.Still)
    (hb : s.bstat.getLsbD 0 = false ∨ s.bstat.getLsbD 1 = false) :
    Does a (progCatUnmuteSync c rx tx) s fun y t =>
      (y = { rc := some .registerTimeout, res := [(0, 1)] } ∨ y = { rc := some .registerTimeout, res := [(0, 2)] }) ∧ t = s := by
  have stopped : ∀ {k : Bool → Prog Result} {n : Nat}, (s.bstat.getLsbD 0 = false ∨ n = 0) → k false = doneRes .registerTimeout 1 →
      Does a ((pollBstat 0 n).bind k) s fun y t => y = { rc := some .registerTimeout, res := [(0, 1)] } ∧ t = s := by
    intro k n hc hk
    have hp : Does a (pollBstat 0 n) s fun x t => x = false ∧ t = s := by
      rcases hc with hc | rfl
      · exact pollBstat_false hf hs hc n
      · exact .ret ⟨rfl, rfl⟩
    refine .bind hp ?_
    rintro x u ⟨rfl, rfl⟩
    rw [hk]
    exact .ret ⟨rfl, rfl⟩
  by_cases hc : s.bstat.getLsbD 0 = false ∨ c.unmuteRetries = 0
  · exact (stopped hc rfl).mono fun y t hy => ⟨.inl hy.1, hy.2⟩
  · rw [not_or] at hc
    have hclk : s.bstat.getLsbD 0 = true := by simpa using hc.1
    have hlck : s.bstat.getLsbD 1 = false := hb.resolve_left hc.1
    refine .bind (pollBstat_true (Q := fun x t => x = true ∧ t = s) hf hs hclk (by omega) (by omega) ⟨rfl, rfl⟩) ?_
    rintro x u ⟨rfl, rfl⟩
    refine .bind (pollBstat_false hf hs hlck _) ?_
    rintro x v ⟨rfl, rfl⟩
    exact .ret ⟨.inr rfl, rfl⟩

/-- The enabling part of CH.START there (R258). -/
theorem enableNode_unlocked (c : Params) (hf : s.safe) (hs : s.Still) (hty : c.nodeType n = .sync)
    (hb : s.bstat.getLsbD 0 = false ∨ s.bstat.getLsbD 1 = false) :
    Does a (enableNode c n rx tx) s fun y t => y = .busNotLocked ∧ t = s := by
  rw [enableNode, if_pos hty]
  refine .bind (unmuteSync_unlocked c hf hs hb) ?_
  rintro y t ⟨rfl | rfl, rfl⟩
  · exact .ret ⟨rfl, rfl⟩
  · exact .ret ⟨rfl, rfl⟩

/-! ## The enabling part -/

/-- The edits of the four CAT.INIT of a pair (R251, R258). -/
def Tables.initPair (T : Tables) (ty : ChType) (en : Bool) (rx tx : Chan) : Tables :=
  T.putEntries [(.bus, rx)] (fun _ _ => catValue rx ty .inbound en)
    |>.putEntries [(.host, rx)] (fun _ _ => catValue rx ty .outbound en)
    |>.putEntries [(.bus, tx)] (fun _ _ => catValue tx ty .outbound en)
    |>.putEntries [(.host, tx)] (fun _ _ => catValue tx ty .inbound en)

/-- The edits of the enabling part: CE set, or the entries written (R258). -/
def Tables.enable (T : Tables) (ty : ChType) (rx tx : Chan) : Tables :=
  if ty = .sync then T.putEntries (pairEntries rx tx) fun ns ch => setCe (T.entry ns ch)
  else T.initPair ty true rx tx

section

variable (T : Tables) (ty : ChType) (en : Bool) (rx tx : Chan)

theorem initPair_entries : (T.initPair ty en rx tx).entry .bus tx = catValue tx ty .outbound en ∧
    (T.initPair ty en rx tx).entry .host tx = catValue tx ty .inbound en ∧
    (rx ≠ tx → (T.initPair ty en rx tx).entry .bus rx = catValue rx ty .inbound en ∧
      (T.initPair ty en rx tx).entry .host rx = catValue rx ty .outbound en) := by
  refine ⟨by simp [Tables.initPair, Tables.putEntries], by simp [Tables.initPair, Tables.putEntries], fun hne => ?_⟩
  constructor <;> simp [Tables.initPair, Tables.putEntries, hne]

theorem initPair_entry_other {ns : Ns} {ch : Chan} (h1 : ch ≠ rx) (h2 : ch ≠ tx) :
    (T.initPair ty en rx tx).entry ns ch = T.entry ns ch := by
  simp [Tables.initPair, Tables.putEntries, h1, h2]

theorem enable_keeps : (T.enable ty rx tx).row = T.row ∧ (T.enable ty rx tx).written = T.written ∧
    (T.enable ty rx tx).sw = T.sw ∧ (T.enable ty rx tx).cat = true := by
  unfold Tables.enable
  split
  · exact ⟨rfl, rfl, rfl, rfl⟩
  · exact ⟨rfl, rfl, rfl, rfl⟩

theorem enable_entry_other {ns : Ns} {ch : Chan} (h1 : ch ≠ rx) (h2 : ch ≠ tx) :
    (T.enable ty rx tx).entry ns ch = T.entry ns ch := by
  unfold Tables.enable
  split
  · exact if_neg fun h => (mem_pairEntries.mp h).elim h1 h2
  · exact initPair_entry_other T ty true rx tx h1 h2

end

theorem enableNode_does (c : Params) (h : s.Calm) (hl : s.lock = none) (hn : 1 ≤ c.rpRetries)
    (hw : ∀ ns, s.isWritten (catOff ns rx) = true ∧ s.isWritten (catOff ns tx) = true)
    (hsync : c.nodeType n = .sync → s.bstat.getLsbD 0 = true ∧ s.bstat.getLsbD 1 = true ∧ 1 ≤ c.unmuteRetries) :
    Does a (enableNode c n rx tx) s fun y t => y = .ok ∧ Edited (s.tables.enable (c.nodeType n) rx tx) s t := by
  by_cases hty : c.nodeType n = .sync
  · rw [enableNode, Tables.enable, if_pos hty, if_pos hty]
    obtain ⟨hclk, hlck, hu⟩ := hsync hty
    refine .bind (unmuteSync_does c h hl hclk hlck hu hw hn) ?_
    rintro y t ⟨rfl, hp⟩
    exact .ret ⟨rfl, (Edited.refl s).putEntries (by simp [pairEntries]) hp⟩
  · rw [enableNode, Tables.enable, if_neg hty, if_neg hty]
    refine .bind (P := fun y t => y = .ok ∧ Edited (s.tables.initPair (c.nodeType n) true rx tx) s t) ?_ ?_
    · refine runSteps_step ((Edited.refl s).patch_entry h hl hn (hw .bus).1) fun u E => ?_
      refine runSteps_step (E.patch_entry h hl hn (hw .host).1) fun u E => ?_
      refine runSteps_step (E.patch_entry h hl hn (hw .bus).2) fun u E => ?_
      refine runSteps_step (E.patch_entry h hl hn (hw .host).2) fun u E => ?_
      exact .ret ⟨rfl, E⟩
    · rintro y t ⟨rfl, E⟩
      exact .ret ⟨rfl, E⟩

/-! ## The arming part (R259) -/

section

variable (r : Row) (b : Bool) (h : Half)

theorem bothHalves_flags : rdyOf (bothHalves r b) h = b ∧ dneOf (bothHalves r b) h = false ∧ errOf (bothHalves r b) h = false := by
  cases h with
  | pong => exact ⟨rdyOf_putFlags .., dneOf_putFlags .., errOf_putFlags ..⟩
  | ping =>
    have keep : ∀ k, k < 104 → (bothHalves r b).getLsbD k = (putFlags r .ping b false false).getLsbD k :=
      fun k hk => getLsbD_putFlags_other _ _ _ _ (.inl hk)
    exact ⟨(keep 96 (by decide)).trans (rdyOf_putFlags ..), (keep 97 (by decide)).trans (dneOf_putFlags ..),
      (keep 98 (by decide)).trans (errOf_putFlags ..)⟩

theorem getLsbD_bothHalves_other {k : Nat} (h1 : k < 96 ∨ 99 ≤ k) (h2 : k < 104 ∨ 107 ≤ k) :
    (bothHalves r b).getLsbD k = r.getLsbD k :=
  (getLsbD_putFlags_other (h := .pong) _ _ _ _ h2).trans (getLsbD_putFlags_other (h := .ping) _ _ _ _ h1)

end

/-- The edits of the arming part: both halves of one row, and software's cursor at the ping half. -/
def Tables.arm (T : Tables) (ch : Chan) (rdy : Bool) : Tables :=
  (T.putRow (adtOff ch) (bothHalves (T.row (adtOff ch)) rdy)).putSw ch .ping

theorem Edited.arm_does {T : Tables} {c : Params} {ch : Chan} {k : WrRes → Prog α} (f : Row → Row) (E : Edited T s t) (h : s.Calm)
    (hl : s.lock = none) (hn : 1 ≤ c.rpRetries) (hch : ch.toNat < s.cfg.nch) (hw : T.written (adtOff ch) = true)
    (hk : ∀ u, Edited ((T.putRow (adtOff ch) (f (T.row (adtOff ch)))).putSw ch .ping) s u → Does a q u Q)
    (e : k .ok = .after (.setSw ch .ping) q) :
    Does a ((lockedUpdate c (adtOff ch) f).bind k) t Q := by
  refine .bind (lockedUpdate_does c f (E.calm h) (E.lock.trans hl) (by rw [E.cfg]; exact reserved_adtOff hch)
    ((E.written _).trans hw) hn) ?_
  rintro x u ⟨rfl, hu⟩
  rw [E.row _ (isCatRow_adtOff ch)] at hu
  have E2 := E.putRow (isCatRow_adtOff ch) hu
  rw [e]
  exact .calm (E2.calm h) rfl (hk _ (E2.putSw ch .ping))

/-- ArmRx(n) and IdleTx(n) on hardware that answers (R259). -/
theorem Edited.armNode_does {T : Tables} {c : Params} (E : Edited T s t) (h : s.Calm) (hl : s.lock = none)
    (hn : 1 ≤ c.rpRetries) (hrx : rx.toNat < s.cfg.nch) (htx : tx.toNat < s.cfg.nch)
    (hwr : T.written (adtOff rx) = true) (hwt : T.written (adtOff tx) = true) (hx : s.node n = x) :
    Does a (armNode c n rx tx) t fun y u => y = .ok ∧ ∃ w, Edited ((T.arm rx true).arm tx false) s w ∧
      u = (w.setNode n { x with txBusy := false }).notify (writesTo n) := by
  subst hx
  have harm : Does a (armRx c rx) t fun y u => y = .ok ∧ Edited (T.arm rx true) s u :=
    E.arm_does (fun v => bothHalves v true) h hl hn hrx hwr (fun u E => .ret ⟨rfl, E⟩) rfl
  refine .bind harm ?_
  rintro y t ⟨rfl, E⟩
  have hidle : Does a (idleTx c n tx) t fun y u => y = .ok ∧ ∃ w, Edited ((T.arm rx true).arm tx false) s w ∧
      u = (w.setNode n { s.node n with txBusy := false }).notify (writesTo n) := by
    refine E.arm_does (fun v => bothHalves v false) h hl hn htx ?_ (fun u E => ?_) rfl
    · change (if adtOff tx = adtOff rx then true else T.written (adtOff tx)) = true
      rw [hwt, ite_self]
    · refine .calm (E.calm h) rfl (.ret ⟨rfl, u, E, ?_⟩)
      rw [E.node]
      rfl
  refine .bind hidle ?_
  rintro y u ⟨rfl, hu⟩
  exact .ret ⟨rfl, hu⟩

/-! ## The command -/

/-- CH.START once stale status is dropped. -/
def startRest (c : Params) (n : NodeNo) (rx tx : Chan) : Prog Result :=
  (enableNode c n rx tx).bind fun rc =>
  if rc ≠ .ok then .after (.giveMutex n) <| done rc
  else
    (armNode c n rx tx).bind fun rc =>
    if rc ≠ .ok then .after (.giveMutex n) <| done rc
    else maskNode rx tx true <| .after (.setLstate n .started) <| .after (.giveMutex n) <| done .ok

/-- The machine then: the mutex taken, the status of the node's channels acknowledged. -/
def State.starting (s : State) (a : Agent) (n : NodeNo) : State :=
  let x := s.node n
  let both := chanBit x.rxCh ||| chanBit x.txCh
  { s.begun.setNode n { x with nm := some a } with hcSts := s.hcSts &&& ~~~both, hcErr := s.hcErr &&& ~~~both }

theorem aside_starting (s : State) (a : Agent) (n : NodeNo) : Aside s (s.starting a n) := ⟨_, _, _, _, _, _, _, _, _, _, rfl⟩

theorem node_starting (s : State) (a : Agent) (n m : NodeNo) :
    (s.starting a n).node m = if m = n then { s.node n with nm := some a } else s.node m := node_setNode ..

theorem chStart_enters {Q : Result → State → Prop} (hf : s.safe) (hst : s.Still) (hl : s.lock ≠ some a) (hx : s.node n = x)
    (hn : x.nm = none) (hls : x.lstate = .configured ∨ x.lstate = .stopped)
    (hq : Does a (startRest s.cfg n x.rxCh x.txCh) (s.starting a n) Q) : Does a (progChStart s.cfg n) s.begun Q := by
  subst hx
  refine .takeMutex hf hst hl hn ?_
  refine .getLstate (l := (s.node n).lstate) hf hst (by rw [node_setNode_same]; rfl) ?_
  rw [if_neg fun hc => hls.elim (fun e => hc.1 (congrArg lstateResp e)) fun e => hc.2 (congrArg lstateResp e)]
  refine .getChans (rx := (s.node n).rxCh) (tx := (s.node n).txCh) hf hst (by rw [node_setNode_same]; rfl)
    (by rw [node_setNode_same]; rfl) fun r hrx htx => ?_
  dsimp only
  rw [hrx, htx]
  exact clearStatus_does hf hst hq

/-- The machine CH.START left, `w` being the tables edited. -/
def State.start (w : State) (n : NodeNo) (x : Node) : State :=
  let both := chanBit x.rxCh ||| chanBit x.txCh
  { (w.notify (writesTo n)).setNode n { x with lstate := .started, txBusy := false } with
    hcMsk := w.hcMsk ||| both, busMsk := w.busMsk ||| both }

theorem aside_start (w : State) (n : NodeNo) (x : Node) : Aside w (w.start n x) := ⟨_, _, _, _, _, _, _, _, _, _, rfl⟩

theorem node_start (w : State) (n m : NodeNo) (x : Node) :
    (w.start n x).node m = if m = n then { x with lstate := .started, txBusy := false } else w.node m := node_setNode ..

theorem startRest_does (h : s.safe) (ht : s.TableReady) (hx : s.node n = x) (hn : x.nm = none)
    (hrx : x.rxCh.toNat < s.cfg.nch) (htx : x.txCh.toNat < s.cfg.nch)
    (hw : ∀ ns, s.isWritten (catOff ns x.rxCh) = true ∧ s.isWritten (catOff ns x.txCh) = true)
    (hwr : s.isWritten (adtOff x.rxCh) = true) (hwt : s.isWritten (adtOff x.txCh) = true)
    (hsync : s.cfg.nodeType n = .sync → s.bstat.getLsbD 0 = true ∧ s.bstat.getLsbD 1 = true ∧ 1 ≤ s.cfg.unmuteRetries) :
    Does a (startRest s.cfg n x.rxCh x.txCh) (s.starting a n) fun y u => y = { rc := some .ok } ∧ SameAgent a s u ∧
      ∃ w, Edited (((s.tables.enable (s.cfg.nodeType n) x.rxCh x.txCh).arm x.rxCh true).arm x.txCh false) (s.starting a n) w ∧
        u = w.start n x := by
  have hc : (s.starting a n).Calm := begun_calm h ht
  have hl : (s.starting a n).lock = none := ht.2.2.1
  have hnode : (s.starting a n).node n = { x with nm := some a } := by rw [node_starting, if_pos rfl, hx]
  obtain ⟨hrow, hwritten, -, -⟩ := enable_keeps s.tables (s.cfg.nodeType n) x.rxCh x.txCh
  refine .bind (enableNode_does s.cfg hc hl ht.2.2.2 hw hsync) ?_
  rintro rc t ⟨rfl, E⟩
  refine .bind (E.armNode_does hc hl ht.2.2.2 hrx htx ?_ ?_ hnode) ?_
  · exact (congrFun hwritten _).trans hwr
  · exact (congrFun hwritten _).trans hwt
  · rintro rc u ⟨rfl, w, E, rfl⟩
    have hcw := E.calm hc
    have hnch := congrArg Params.nch E.cfg
    refine unmaskNode_does hcw (lt_of_lt_of_eq hrx hnch.symm) (lt_of_lt_of_eq htx hnch.symm) ?_
    refine .setLstate hcw.1 (still_of_calm hcw) (node_setNode_same ..) ?_
    refine .giveMutex hcw.1 (still_of_calm hcw) (node_setNode_same ..) (.ret ⟨rfl, ?_, w, E, ?_⟩)
    · have hs : SameAgent a s (s.starting a n) := sameAgent_of_contexts rfl rfl
      have hs := sameAgent_notify (writesTo n) (sameAgent_setNode n { x with nm := some a, txBusy := false } (E.sameAgent hs))
      exact sameAgent_setNode n _ (sameAgent_setNode n _ ⟨hs.cur, hs.threads, hs.res, hs.rc, hs.command⟩)
    · rw [setNode_setNode, ← hn]
      simp [State.start, State.setNode, State.notify]

/-! ## What CH.START left -/

theorem start_tables (T : Tables) (rx tx : Chan) (hne : rx ≠ tx) (ch : Chan) (hch : ch = rx ∨ ch = tx) :
    ((T.arm rx true).arm tx false).row (adtOff ch) = bothHalves (T.row (adtOff ch)) (decide (ch = rx)) ∧
    ((T.arm rx true).arm tx false).written (adtOff ch) = true ∧ ((T.arm rx true).arm tx false).sw ch = .ping := by
  have hoff : ∀ {c d : Chan}, c ≠ d → adtOff c ≠ adtOff d := fun h e => h (adtOff_inj e)
  rcases hch with rfl | rfl
  · simp [Tables.arm, Tables.putRow, Tables.putSw, hoff hne, hne]
  · simp [Tables.arm, Tables.putRow, Tables.putSw, hoff hne.symm, hne.symm]

theorem start_tables_other (T : Tables) (rx tx : Chan) {o : RowOff} (h1 : o ≠ adtOff rx) (h2 : o ≠ adtOff tx) :
    ((T.arm rx true).arm tx false).row o = T.row o ∧ ((T.arm rx true).arm tx false).written o = T.written o := by
  simp [Tables.arm, Tables.putRow, Tables.putSw, h1, h2]

theorem start_sw_other (T : Tables) (rx tx : Chan) {ch : Chan} (h1 : ch ≠ rx) (h2 : ch ≠ tx) :
    ((T.arm rx true).arm tx false).sw ch = T.sw ch := by
  simp [Tables.arm, Tables.putRow, Tables.putSw, h1, h2]

theorem enable_entries (T : Tables) (ty : ChType) {rx tx : Chan} (hne : rx ≠ tx) : if ty = .sync then
      ∀ ns ch, ch = rx ∨ ch = tx → (T.enable ty rx tx).entry ns ch = T.entry ns ch ||| 0x0800
    else
      (T.enable ty rx tx).entry .bus rx = catValue rx ty .inbound true ∧
      (T.enable ty rx tx).entry .host rx = catValue rx ty .outbound true ∧
      (T.enable ty rx tx).entry .bus tx = catValue tx ty .outbound true ∧
      (T.enable ty rx tx).entry .host tx = catValue tx ty .inbound true := by
  unfold Tables.enable
  split
  · exact fun ns ch hch => if_pos (mem_pairEntries.mpr hch)
  · obtain ⟨h1, h2, h3⟩ := initPair_entries T ty true rx tx
    exact ⟨(h3 hne).1, (h3 hne).2, h1, h2⟩

/-- What the edits of CH.START left. -/
theorem Edited.started {b : State} {ty : ChType} (E : Edited (((b.tables.enable ty rx tx).arm rx true).arm tx false) s t)
    (hne : rx ≠ tx) :
    (∀ ch, ch = rx ∨ ch = tx → t.row (adtOff ch) = bothHalves (b.row (adtOff ch)) (decide (ch = rx)) ∧
      t.isWritten (adtOff ch) = true ∧ t.sw ch = .ping) ∧
    KeepsEntriesBut [(.bus, rx), (.host, rx), (.bus, tx), (.host, tx)] b t ∧
    KeepsRowsBut [adtOff rx, adtOff tx, catOff .bus rx, catOff .host rx, catOff .bus tx, catOff .host tx] b t ∧
    KeepsSwBut [rx, tx] b t ∧ Rearmed s t ∧ (∀ ns ch, t.isWritten (catOff ns ch) = b.isWritten (catOff ns ch)) ∧
    ∀ ns ch, t.catEntry ns ch = (b.tables.enable ty rx tx).entry ns ch := by
  obtain ⟨hrow, hwritten, hsw, hcat⟩ := enable_keeps b.tables ty rx tx
  have hentry : ∀ ns ch, ch ≠ rx → ch ≠ tx → t.catEntry ns ch = b.catEntry ns ch :=
    fun ns ch h1 h2 => (E.entry ns ch).trans (enable_entry_other _ ty rx tx h1 h2)
  refine ⟨fun ch hch => ?_, fun ns ch hout => ?_, ?_, fun ch hout => ?_, E.rearmed hcat, fun ns ch => ?_, E.entry⟩
  · obtain ⟨h1, h2, h3⟩ := start_tables (b.tables.enable ty rx tx) rx tx hne ch hch
    exact ⟨(E.row _ (isCatRow_adtOff ch)).trans (h1.trans (by rw [hrow]; rfl)), (E.written _).trans h2, (E.sw ch).trans h3⟩
  · have hch := mt mem_pairEntries.mpr hout
    exact hentry ns ch (fun h => hch (.inl h)) fun h => hch (.inr h)
  · refine E.keepsRowsBut (fun o ho _ => ?_) (fun ns ch ho => ?_) fun o ho => ?_
    · have hother := start_tables_other (b.tables.enable ty rx tx) rx tx (o := o) (fun h => ho (by simp [h])) fun h => ho (by simp [h])
      exact hother.1.trans (congrFun hrow o)
    · refine enable_entry_other b.tables ty rx tx (fun h => ho ?_) fun h => ho ?_
      · cases ns <;> simp [h]
      · cases ns <;> simp [h]
    · have hother := start_tables_other (b.tables.enable ty rx tx) rx tx (o := o) (fun h => ho (by simp [h])) fun h => ho (by simp [h])
      exact hother.2.trans (congrFun hwritten o)
  · refine (E.sw ch).trans ((start_sw_other _ rx tx (fun h => hout (by simp [h])) fun h => hout (by simp [h])).trans ?_)
    exact congrFun hsw ch
  · have hother := start_tables_other (b.tables.enable ty rx tx) rx tx (adtOff_ne_catOff rx ch ns).symm (adtOff_ne_catOff tx ch ns).symm
    exact (E.written _).trans (hother.2.trans (congrFun hwritten _))

/-- Settles O50: on an unlocked bus the poll fails after the acknowledgement; else the enabling and the arming edits follow it. -/
theorem startEnablesTheNode : Obligations.StartEnablesTheNode := by
  intro s a n x ty both h hn hls
  refine ⟨fun hst hl hty hb => ?_, fun ht hrx htx hne hw hwr hwt hsync => ?_⟩
  · have run : Does a (progChStart s.cfg n) s.begun fun y u => y = { rc := some .busNotLocked } ∧ Quiet s u ∧
        u = { s.begun with hcSts := s.hcSts &&& ~~~both, hcErr := s.hcErr &&& ~~~both } := by
      refine chStart_enters h.safe hst hl rfl hn hls (.bind (enableNode_unlocked s.cfg h.safe hst hty hb) ?_)
      rintro rc t ⟨rfl, rfl⟩
      refine .giveMutex h.safe hst (x := { x with nm := some a }) (by rw [node_starting, if_pos rfl]) (.ret ⟨rfl, ⟨rfl, rfl, rfl⟩, ?_⟩)
      rw [← hn]
      simp only [State.starting, State.setNode, State.node, State.begun, x, both, Vector.set_set]
      exact congrArg (fun v => { s.begun with
        nodes := v, hcSts := s.hcSts &&& ~~~both, hcErr := s.hcErr &&& ~~~both }) (congrArg State.nodes (setNode_node s n))
    obtain ⟨_, t, rfl, hm, he, hr, hk⟩ := run.quietCommand h List.nodup_nil
    obtain ⟨_, _, _, _, rfl⟩ := hm
    exact ⟨_, he, hr, rfl, rfl, keepsTable_of_tablePart rfl, ⟨rfl, rfl⟩, ⟨rfl, rfl⟩, fun _ _ => rfl, fun _ _ => rfl, rfl,
      fun _ => rfl, hk⟩
  · obtain ⟨_, t, ⟨w, E, rfl⟩, hm, he, hr, ho⟩ := (chStart_enters h.safe (still_of_calm (begun_calm h.safe ht))
      (by rw [ht.2.2.1]; exact nofun) rfl hn hls (startRest_does h.safe ht rfl hn hrx htx hw hwr hwt hsync)).endsCommand h List.nodup_nil
    have hrechecks : Rechecks (fun x => x.waitsIn (writesTo n)) a s t :=
      rechecks_of_notify (u := w) E.contexts fun b hb => ho b hb
    have hidle := (E.calm (begun_calm h.safe ht)).2.1
    have hnodes : ∀ m, m ∉ [n] → w.node m = s.node m := fun m hm =>
      (E.node m).trans ((node_starting s a n m).trans (if_neg (by simpa using hm)))
    have hregs := E.masks
    have hsts := E.status
    have hk := ((aside_starting s a n).kept.trans E.kept).trans ((aside_start w n x).trans (SameMachine.aside hm)).kept
    obtain ⟨hadt, hentries, hrows, hsw, harm, hwritten, hentry⟩ := E.started hne
    have harm := (aside_starting s a n).rearmed harm
    have hent := enable_entries s.tables ty hne
    simp only [show ∀ ns ch, (s.tables.enable ty x.rxCh x.txCh).entry ns ch = w.catEntry ns ch from
      fun ns ch => (hentry ns ch).symm] at hent
    have hcat : ∀ ns ch, ch = x.rxCh ∨ ch = x.txCh → w.isWritten (catOff ns ch) = true := by
      rintro ns ch hch
      refine (hwritten ns ch).trans ?_
      rcases hch with rfl | rfl
      · exact (hw ns).1
      · exact (hw ns).2
    have hrow : ∀ ch, ch = x.rxCh ∨ ch = x.txCh →
        (∀ h, rdyOf (w.row (adtOff ch)) h = decide (ch = x.rxCh) ∧ dneOf (w.row (adtOff ch)) h = false ∧
          errOf (w.row (adtOff ch)) h = false) ∧
        (∀ k, (k < 96 ∨ 99 ≤ k) → (k < 104 ∨ 107 ≤ k) → (w.row (adtOff ch)).getLsbD k = (s.row (adtOff ch)).getLsbD k) ∧
        w.isWritten (adtOff ch) = true ∧ (∀ ns, w.isWritten (catOff ns ch) = true) ∧ w.sw ch = .ping := by
      intro ch hch
      obtain ⟨hr, hwr, hp⟩ := hadt ch hch
      rw [hr]
      exact ⟨fun h => bothHalves_flags .., fun k h1 h2 => getLsbD_bothHalves_other _ _ h1 h2, hwr, fun ns => hcat ns ch hch, hp⟩
    obtain ⟨_, _, _, _, rfl⟩ := hm
    refine ⟨_, he, hr, (node_start w n n x).trans (if_pos rfl), hent, hrow, hsts.1, hsts.2, ?_, ?_, hentries, hrows, hidle, harm,
      hk.config, hsw, fun m hm => ?_, hk.log, hk.mem, hk.engine, hrechecks⟩
    · exact congrArg (· ||| both) hregs.1
    · exact congrArg (· ||| both) hregs.2
    · exact (node_start w n m x).trans ((if_neg (by simpa using hm)).trans (hnodes m hm))

end Sys2Proof.Machine
end

section
/-! PROOFS. The first CH.OPEN (45_channel.md R250, R251). -/

namespace Sys2Proof.Machine

variable {α : Type} {s t u v w : State} {a : Agent} {n : NodeNo} {rx tx : Chan} {x : Node} {b : Bufs} {c : Params}
  {T : Tables} {ty : ChType} {q : Prog α} {Q : α → State → Prop}

/-! ## The allocation draw -/

theorem rowWord_rowOf (w : Vector Word 4) (k : Fin 4) : rowWord (rowOf w) k = w[k] :=
  (wordsOf_get (rowOf w) k).symm.trans (by rw [wordsOf_rowOf])

theorem bufsOf_answer (b : Bufs) : bufsOf (bufsResp (some b)) = b := by
  have hrow : bufsResp (some b) = rowOf #v[b.rxPing, b.rxPong, b.txPing, b.txPong] := rfl
  rw [bufsOf, hrow, rowWord_rowOf, rowWord_rowOf, rowWord_rowOf, rowWord_rowOf]
  rfl

/-- The buffers R251 admits are what ADT.INIT asks of its addresses. -/
theorem legal_address {d : Nat} {w : Word} (h : legalBufs d b = true) (hw : w ∈ [b.rxPing, b.rxPong, b.txPing, b.txPong]) :
    aligned w = true ∧ wraps w d = false := by
  simp only [legalBufs, Bool.and_eq_true] at h
  have hall := List.all_eq_true.mp h.1.1.1.1.1.1 w hw
  simpa using hall

/-- The machine after the allocator answered `b`. -/
def State.allocated (s : State) (n : NodeNo) (b : Bufs) (more : List (Option Bufs)) : State :=
  { s.setNode n { s.node n with lstate := .configuring, ring := some (Ring.new (s.cfg.cap n)), bufs := some b } with
    env := { s.env with allocs := more } }

theorem allocate_accepted {more : List (Option Bufs)} (h : s.env.allocs = some b :: more)
    (hb : legalBufs (s.cfg.depth n) b = true) : Act.apply a s (.allocate n) = .ok
      { s.setNode n { s.node n with ring := some (Ring.new (s.cfg.cap n)), bufs := some b } with
        env := { s.env with allocs := more } } 1 := by
  simp only [Act.apply, actAllocate, Env.alloc, h, if_pos hb]
  rfl

theorem node_allocated (s : State) (n m : NodeNo) (b : Bufs) (more : List (Option Bufs)) : (s.allocated n b more).node m =
    if m = n then { s.node n with lstate := .configuring, ring := some (Ring.new (s.cfg.cap n)), bufs := some b }
    else s.node m := node_setNode ..

theorem othersAreClosed_iff (s : State) (n : NodeNo) : othersAreClosed s n = true ↔
    ∀ m : NodeNo, m.toNat < s.cfg.nnodes → m ≠ n → (s.node m).lstate = .closed := by
  simp only [othersAreClosed, List.all_eq_true, mem_nodesOf, Bool.or_eq_true, decide_eq_true_eq]
  exact forall_congr' fun m => imp_congr_right fun _ => or_iff_not_imp_left

/-! ## The edits of the sequence S (R251) -/

/-- The tables zeroed first when every other node is Closed. -/
def Tables.reset (T : Tables) (c : Params) (first : Bool) : Tables :=
  if first then (T.zero ((chansOf c).map cdtOff)).zeroCat else T

/-- The rows and entries of a pair of channels written. -/
def Tables.configure (T : Tables) (ty : ChType) (cdt : Chan → Row) (adtRx adtTx : Row) (rx tx : Chan) : Tables :=
  ((((((T.putRow (cdtOff rx) (cdt rx)).putRow (cdtOff tx) (cdt tx)).initPair ty false rx tx).putRow (adtOff rx) adtRx).putSw
    rx .ping).putRow (adtOff tx) adtTx).putSw tx .ping

theorem runSteps_reset {first : Bool} {ps : List (Prog Result)} {Q : RC → State → Prop} (h : s.Calm) (hl : s.lock = none)
    (hn : 1 ≤ c.rpRetries) (hc : s.cfg = c) (hq : ∀ t, Edited (s.tables.reset c first) s t → Does a (runSteps ps) t Q) :
    Does a (runSteps ((if first then [progCdtResetAll c, progCatResetAll c] else []) ++ ps)) s Q := by
  subst hc
  cases first with
  | false => exact hq s (.refl s)
  | true =>
    have hcdt : ∀ o ∈ (chansOf s.cfg).map cdtOff, isCatRow o = false ∧ reservedRow s.cfg o = false := by
      rintro o ho
      obtain ⟨ch, hch, rfl⟩ := List.mem_map.mp ho
      exact ⟨isCatRow_cdtOff ch, reserved_cdtOff ((mem_chansOf _ _).mp hch)⟩
    have E := Edited.refl s
    refine runSteps_step (zeroRows_does s.cfg hn ((chansOf s.cfg).map cdtOff) h hl fun o ho => (hcdt o ho).2) fun t hz => ?_
    have E := E.zero (fun o ho => (hcdt o ho).1) hz
    refine runSteps_step (zeroRows_does s.cfg hn catRows (E.calm h) (E.lock.trans hl)
      fun o ho => reserved_of_cat _ ((mem_catRows o).mp ho)) fun u hz => ?_
    exact hq u (E.zeroCat hz)

/-- CDT.INIT in a sequence (R171). -/
theorem Edited.cdtInit {dir : Dir} {ch : Chan} {dbr d : Nat} (E : Edited T s t) (h : s.Calm) (hl : s.lock = none)
    (hn : 1 ≤ c.rpRetries) (hch : ch.toNat < s.cfg.nch) (h1 : dbr < 2 ^ 16) (h2 : validDepth c ty d = true) :
    Does a (cdtInitWith c ch ty dir dbr d) t fun y u => y = { rc := some .ok } ∧
      Edited (T.putRow (cdtOff ch) (cdtRow (BitVec.ofNat 16 dbr) (encodeDepth d) (blockSize c ty))) s u := by
  rw [cdtInitWith_valid h1 h2]
  exact E.locked_write h hl hn (isCatRow_cdtOff ch) (reserved_cdtOff hch)

/-- ADT.INIT in a sequence (R211). -/
theorem Edited.adtInit {ch : Chan} {ping pong : Word} {d : Nat} (E : Edited T s t) (h : s.Calm) (hl : s.lock = none)
    (hn : 1 ≤ c.rpRetries) (hch : ch.toNat < s.cfg.nch) (h1 : 1 ≤ d) (h2 : d ≤ 8192)
    (hp : aligned ping = true ∧ wraps ping d = false) (hq : aligned pong = true ∧ wraps pong d = false) :
    Does a (adtInitWith c ch ty ping pong d) t fun y u => y = { rc := some .ok } ∧
      Edited ((T.putRow (adtOff ch) (adtRow ping pong (encodeDepth d) (packetStart ty))).putSw ch .ping) s u := by
  refine (adtInitWith_does c (E.calm h) (E.lock.trans hl) (by rw [E.cfg]; exact hch) hn h1 h2 hp.1 hq.1 hp.2 hq.2).mono ?_
  rintro y u ⟨rfl, w, hw, rfl⟩
  exact ⟨rfl, (E.putRow (isCatRow_adtOff ch) hw).putSw ch .ping⟩

theorem reset_written {first : Bool} {ns : Ns} {ch : Chan} (hw : first = true ∨ T.written (catOff ns ch) = true) :
    (T.reset c first).written (catOff ns ch) = true := by
  cases first with
  | true => exact if_pos (isCatRow_catOff ns ch)
  | false => exact hw.resolve_left nofun

/-- The rows the sequence writes. -/
def cdtOfNode (c : Params) (n : NodeNo) (ch : Chan) : Row :=
  cdtRow (BitVec.ofNat 16 (c.dbrOffset ch)) (encodeDepth (c.depth n)) (blockSize c (c.nodeType n))

def adtOfNode (c : Params) (n : NodeNo) (ping pong : Word) : Row :=
  adtRow ping pong (encodeDepth (c.depth n)) (packetStart (c.nodeType n))

/-- The sequence S on hardware that answers (R251). -/
theorem configureSteps_does {first : Bool} (h : s.Calm) (hl : s.lock = none) (hn : 1 ≤ c.rpRetries) (hc : s.cfg = c)
    (hrx : rx.toNat < c.nch) (htx : tx.toNat < c.nch) (hb : legalBufs (c.depth n) b = true)
    (hv : validDepth c (c.nodeType n) (c.depth n) = true) (hd : c.depth n ≤ 8192)
    (hor : c.dbrOffset rx < 2 ^ 16) (hot : c.dbrOffset tx < 2 ^ 16)
    (hw : first = true ∨ ∀ ns, s.isWritten (catOff ns rx) = true ∧ s.isWritten (catOff ns tx) = true) :
    Does a (runSteps (configureSteps c n first rx tx b)) s fun y u => y = .ok ∧
      Edited ((s.tables.reset c first).configure (c.nodeType n) (cdtOfNode c n) (adtOfNode c n b.rxPing b.rxPong)
        (adtOfNode c n b.txPing b.txPong) rx tx) s u := by
  have h1 : 1 ≤ c.depth n := by
    unfold validDepth at hv
    exact of_decide_eq_true (Bool.and_eq_true_iff.mp hv).1
  have hcat : ∀ {ch : Chan}, (first = true ∨ ∀ ns, s.isWritten (catOff ns ch) = true) → ∀ ns,
      (((s.tables.reset c first).putRow (cdtOff rx) (cdtOfNode c n rx)).putRow (cdtOff tx) (cdtOfNode c n tx)).written
        (catOff ns ch) = true := fun hw ns =>
    (if_neg (cdtOff_ne_catOff _ _ _).symm).trans ((if_neg (cdtOff_ne_catOff _ _ _).symm).trans (reset_written (hw.imp_right (· ns))))
  have hwr := hcat (hw.imp_right fun h ns => (h ns).1)
  have hwt := hcat (hw.imp_right fun h ns => (h ns).2)
  rw [← hc] at hrx htx
  refine runSteps_reset h hl hn hc fun t E => ?_
  refine runSteps_step (E.cdtInit h hl hn hrx hor hv) fun u E => ?_
  refine runSteps_step (E.cdtInit h hl hn htx hot hv) fun u E => ?_
  refine runSteps_step (E.patch_entry h hl hn (hwr .bus)) fun u E => ?_
  refine runSteps_step (E.patch_entry h hl hn (hwr .host)) fun u E => ?_
  refine runSteps_step (E.patch_entry h hl hn (hwt .bus)) fun u E => ?_
  refine runSteps_step (E.patch_entry h hl hn (hwt .host)) fun u E => ?_
  refine runSteps_step (E.adtInit h hl hn hrx h1 hd (legal_address hb (by simp)) (legal_address hb (by simp))) fun u E => ?_
  refine runSteps_step (E.adtInit h hl hn htx h1 hd (legal_address hb (by simp)) (legal_address hb (by simp))) fun u E => ?_
  exact .ret ⟨rfl, E⟩

/-- Configure(n) on hardware that answers (R251). -/
theorem configure_does {more : List (Option Bufs)} {first : Bool} (h : s.Calm) (hl : s.lock = none) (hn : 1 ≤ c.rpRetries)
    (hc : s.cfg = c) (hx : s.node n = x) (hall : s.env.allocs = some b :: more)
    (hrx : x.rxCh.toNat < c.nch) (htx : x.txCh.toNat < c.nch) (hb : legalBufs (c.depth n) b = true)
    (hv : validDepth c (c.nodeType n) (c.depth n) = true) (hd : c.depth n ≤ 8192)
    (hor : c.dbrOffset x.rxCh < 2 ^ 16) (hot : c.dbrOffset x.txCh < 2 ^ 16)
    (hfirst : othersAreClosed (s.allocated n b more) n = first)
    (hw : first = true ∨ ∀ ns, s.isWritten (catOff ns x.rxCh) = true ∧ s.isWritten (catOff ns x.txCh) = true) :
    Does a (configure c n) s fun y u => y = .ok ∧ ∃ w,
      Edited ((s.tables.reset c first).configure (c.nodeType n) (cdtOfNode c n) (adtOfNode c n b.rxPing b.rxPong)
        (adtOfNode c n b.txPing b.txPong) x.rxCh x.txCh) (s.allocated n b more) w ∧
      u = w.setNode n { x with
        lstate := .configured, exc := 0, txBusy := false, bufs := some b, ring := some (Ring.new (c.cap n)) } := by
  subst hc hx
  have hst := still_of_calm h
  have hnode : (s.allocated n b more).node n =
      { s.node n with lstate := .configuring, ring := some (Ring.new (s.cfg.cap n)), bufs := some b } := by
    rw [node_allocated, if_pos rfl]
  have hca : (s.allocated n b more).Calm := h
  have hsta : (s.allocated n b more).Still := still_of_calm hca
  refine .setLstate h.1 hst rfl ?_
  refine .still (t := s.allocated n b more) (r := 1) (by exact h.1) (by exact hst) ?_ ?_
  · exact (allocate_accepted (s := s.setNode n _) hall hb).trans (by
      rw [node_setNode_same, State.allocated]
      simp [State.setNode])
  rw [if_neg (by decide)]
  refine .still hca.1 hsta rfl ?_
  refine .getChans hca.1 hsta (by rw [hnode]) (by rw [hnode]) fun r hrr hrt => ?_
  refine .still hca.1 hsta rfl ?_
  rw [hrr, hrt, hnode, bufsOf_answer, hfirst, show decide (bitResp first ≠ 0) = first by cases first <;> rfl]
  refine .bind (configureSteps_does (s := s.allocated n b more) hca hl hn rfl hrx htx hb hv hd hor hot hw) ?_
  rintro rc w ⟨rfl, E⟩
  have hcw := E.calm hca
  have hsw := still_of_calm hcw
  refine .clearPending hcw.1 hsw ((E.node n).trans hnode) ?_
  refine .setLstate hcw.1 hsw (node_setNode_same ..) (.ret ⟨rfl, w, E, ?_⟩)
  rw [setNode_setNode]

/-! ## What the sequence left -/

section

variable {cdt : Chan → Row} {ar at' : Row}

theorem configure_cdt (ch : Chan) (hch : ch = rx ∨ ch = tx) : (T.configure ty cdt ar at' rx tx).row (cdtOff ch) = cdt ch ∧
    (T.configure ty cdt ar at' rx tx).written (cdtOff ch) = true ∧ (T.configure ty cdt ar at' rx tx).written (adtOff ch) = true := by
  have hoff : ∀ {c d : Chan}, c ≠ d → cdtOff c ≠ cdtOff d := fun h e => h (cdtOff_inj e)
  by_cases h1 : ch = tx
  · subst h1
    simp [Tables.configure, Tables.putRow, Tables.putSw, Tables.initPair, Tables.putEntries, cdtOff_ne_adtOff]
  · obtain rfl := hch.resolve_right h1
    simp [Tables.configure, Tables.putRow, Tables.putSw, Tables.initPair, Tables.putEntries, cdtOff_ne_adtOff, hoff h1]

theorem configure_adt (hne : rx ≠ tx) : (T.configure ty cdt ar at' rx tx).row (adtOff rx) = ar ∧
    (T.configure ty cdt ar at' rx tx).row (adtOff tx) = at' := by
  have hoff : adtOff rx ≠ adtOff tx := fun e => hne (adtOff_inj e)
  simp [Tables.configure, Tables.putRow, Tables.putSw, Tables.initPair, Tables.putEntries, hoff]

theorem configure_sw (ch : Chan) : (T.configure ty cdt ar at' rx tx).sw ch = if ch = rx ∨ ch = tx then .ping else T.sw ch := by
  by_cases h1 : ch = rx <;> by_cases h2 : ch = tx <;>
    simp [Tables.configure, Tables.putRow, Tables.putSw, Tables.initPair, Tables.putEntries, h1, h2]

theorem configure_other {o : RowOff} (h : o ∉ [cdtOff rx, cdtOff tx, adtOff rx, adtOff tx]) :
    (T.configure ty cdt ar at' rx tx).row o = T.row o ∧ (T.configure ty cdt ar at' rx tx).written o = T.written o := by
  simp only [List.mem_cons, List.not_mem_nil, or_false, not_or] at h
  obtain ⟨h1, h2, h3, h4⟩ := h
  simp [Tables.configure, Tables.putRow, Tables.putSw, Tables.initPair, Tables.putEntries, h1, h2, h3, h4]

/-- What the sequence S left, whether it zeroed the tables first or not. -/
theorem Edited.configured (E : Edited (T.configure ty cdt ar at' rx tx) s t) (hne : rx ≠ tx)
    (hw : ∀ ns, T.written (catOff ns rx) = true ∧ T.written (catOff ns tx) = true) :
    (∀ ch, ch = rx ∨ ch = tx → t.row (cdtOff ch) = cdt ch ∧ t.isWritten (cdtOff ch) = true ∧ t.isWritten (adtOff ch) = true ∧
      ∀ ns, t.isWritten (catOff ns ch) = true) ∧
    t.row (adtOff rx) = ar ∧ t.row (adtOff tx) = at' ∧
    t.catEntry .bus rx = catValue rx ty .inbound false ∧ t.catEntry .host rx = catValue rx ty .outbound false ∧
    t.catEntry .bus tx = catValue tx ty .outbound false ∧ t.catEntry .host tx = catValue tx ty .inbound false ∧
    (∀ ch, t.sw ch = if ch = rx ∨ ch = tx then .ping else T.sw ch) ∧ Rearmed s t := by
  obtain ⟨hbt, hht, hr⟩ := initPair_entries T ty false rx tx
  obtain ⟨hbr, hhr⟩ := hr hne
  obtain ⟨har, hat⟩ := configure_adt (T := T) (ty := ty) (cdt := cdt) (ar := ar) (at' := at') hne
  refine ⟨fun ch hch => ?_, (E.row _ (isCatRow_adtOff _)).trans har, (E.row _ (isCatRow_adtOff _)).trans hat,
    (E.entry _ _).trans hbr, (E.entry _ _).trans hhr, (E.entry _ _).trans hbt, (E.entry _ _).trans hht,
    fun ch => (E.sw ch).trans (configure_sw ch), E.rearmed rfl⟩
  obtain ⟨h1, h2, h3⟩ := configure_cdt (T := T) (ty := ty) (cdt := cdt) (ar := ar) (at' := at') ch hch
  refine ⟨(E.row _ (isCatRow_cdtOff ch)).trans h1, (E.written _).trans h2, (E.written _).trans h3, fun ns => ?_⟩
  refine (E.written _).trans ((configure_other ?_).2.trans ?_)
  · simp [(cdtOff_ne_catOff _ ch ns).symm, (adtOff_ne_catOff _ ch ns).symm]
  · rcases hch with rfl | rfl
    · exact (hw ns).1
    · exact (hw ns).2

/-- Beside other open nodes every other row and entry is as before. -/
theorem Edited.configured_beside {z : State} (E : Edited (z.tables.configure ty cdt ar at' rx tx) s t) :
    KeepsEntriesBut [(.bus, rx), (.host, rx), (.bus, tx), (.host, tx)] z t ∧
    KeepsRowsBut [cdtOff rx, cdtOff tx, adtOff rx, adtOff tx, catOff .bus rx, catOff .host rx, catOff .bus tx,
      catOff .host tx] z t := by
  have hentry : ∀ ns ch, ¬ (ch = rx ∨ ch = tx) → (z.tables.configure ty cdt ar at' rx tx).entry ns ch = z.catEntry ns ch :=
    fun ns ch hch => initPair_entry_other z.tables ty false rx tx (fun h => hch (.inl h)) fun h => hch (.inr h)
  have hsub : ∀ {o}, o ∉ [cdtOff rx, cdtOff tx, adtOff rx, adtOff tx, catOff .bus rx, catOff .host rx, catOff .bus tx,
      catOff .host tx] → o ∉ [cdtOff rx, cdtOff tx, adtOff rx, adtOff tx] :=
    fun ho h => ho (List.mem_append_left [_, _, _, _] h)
  refine ⟨fun ns ch hout => (E.entry ns ch).trans (hentry ns ch (mt mem_pairEntries.mpr hout)), ?_⟩
  refine E.keepsRowsBut (fun o ho _ => (configure_other (hsub ho)).1) (fun ns ch ho => hentry ns ch ?_)
    fun o ho => (configure_other (hsub ho)).2
  rintro (rfl | rfl) <;> cases ns <;> simp at ho

/-- Alone the sequence leaves 0 in the CDT rows and CAT entries of the other channels. -/
theorem Edited.configured_alone {z : State} (E : Edited ((z.tables.reset c true).configure ty cdt ar at' rx tx) s t) (hrx : rx.toNat < c.nch) (htx : tx.toNat < c.nch) :
    (∀ ch : Chan, ch.toNat < c.nch → ch ≠ rx → ch ≠ tx → t.row (cdtOff ch) = 0) ∧
    (∀ ns ch, ch ≠ rx → ch ≠ tx → t.catEntry ns ch = 0) ∧
    ∀ off : RowOff, c.nch ≤ off.toNat → isCatRow off = false → off ≠ adtOff rx → off ≠ adtOff tx →
      t.row off = z.row off ∧ t.isWritten off = z.isWritten off := by
  refine ⟨fun ch hch h1 h2 => ?_, fun ns ch h1 h2 => ?_, fun off hoff hc h1 h2 => ?_⟩
  · refine (E.row _ (isCatRow_cdtOff ch)).trans ((configure_other ?_).1.trans ?_)
    · have hoff : ∀ {d : Chan}, ch ≠ d → cdtOff ch ≠ cdtOff d := fun h e => h (cdtOff_inj e)
      simp [hoff h1, hoff h2, cdtOff_ne_adtOff]
    · exact if_pos (List.mem_map_of_mem ((mem_chansOf _ _).mpr hch))
  · exact (E.entry ns ch).trans (initPair_entry_other _ ty false rx tx h1 h2)
  · have hne : ∀ {d : Chan}, d.toNat < c.nch → off ≠ cdtOff d := fun hd e => by
      have := congrArg BitVec.toNat e
      rw [toNat_cdtOff] at this
      omega
    have hout : off ∉ (chansOf c).map cdtOff := by
      intro hin
      obtain ⟨d, hd, rfl⟩ := List.mem_map.mp hin
      exact hne ((mem_chansOf _ _).mp hd) rfl
    have hother := configure_other (T := z.tables.reset c true) (ty := ty) (cdt := cdt) (ar := ar) (at' := at') (rx := rx) (tx := tx)
      (o := off) (by simp [hne hrx, hne htx, h1, h2])
    refine ⟨(E.row off hc).trans (hother.1.trans (if_neg hout)), (E.written off).trans (hother.2.trans ?_)⟩
    exact (if_neg (by rw [hc]; decide)).trans (if_neg hout)

end

/-! ## The command -/

/-- The edits of a first CH.OPEN that got the buffers `b`. -/
def State.opened (s : State) (n : NodeNo) (b : Bufs) (first : Bool) : Tables :=
  (s.tables.reset s.cfg first).configure (s.cfg.nodeType n) (cdtOfNode s.cfg n) (adtOfNode s.cfg n b.rxPing b.rxPong)
    (adtOfNode s.cfg n b.txPing b.txPong) (s.node n).rxCh (s.node n).txCh

/-- The machine before the rows of a first CH.OPEN: the mutex taken, the node Configuring with its ring and buffers. -/
def State.opening (s : State) (a : Agent) (n : NodeNo) (b : Bufs) (more : List (Option Bufs)) : State :=
  (s.begun.setNode n { s.node n with nm := some a }).allocated n b more

theorem opening_frame (s : State) (a : Agent) (n : NodeNo) (b : Bufs) (more : List (Option Bufs)) :
    ∃ ns e, e.script = s.env.script ∧ e.rest = s.env.rest ∧
      s.opening a n b more = { s with presented := true, nodes := ns, env := e } :=
  ⟨_, { s.env with allocs := more }, rfl, rfl, rfl⟩

theorem node_opening {m : NodeNo} (s : State) (a : Agent) (b : Bufs) (more : List (Option Bufs)) (hm : m ≠ n) :
    (s.opening a n b more).node m = s.node m :=
  (node_allocated ..).trans ((if_neg hm).trans ((node_setNode s n m _).trans (if_neg hm)))

/-- What the first steps of CH.OPEN left alone. -/
structure Opening (n : NodeNo) (s v : State) : Prop where
  aside : Aside s v
  quiet : Quiet s v
  status : KeepsStatus s v
  masks : KeepsMasks s v
  nodes : ∀ m, m ≠ n → v.node m = s.node m
  calm : s.begun.Calm → v.Calm

theorem opening_opening (s : State) (a : Agent) (n : NodeNo) (b : Bufs) (more : List (Option Bufs)) :
    Opening n s (s.opening a n b more) := by
  have hnodes : ∀ m, m ≠ n → (s.opening a n b more).node m = s.node m := fun m hm => node_opening s a b more hm
  obtain ⟨ns, e, h1, h2, hv⟩ := opening_frame s a n b more
  rw [hv] at hnodes ⊢
  refine ⟨⟨_, _, _, _, _, _, _, _, _, _, rfl⟩, ⟨rfl, rfl, rfl⟩, ⟨rfl, rfl⟩, ⟨rfl, rfl⟩, hnodes, fun hc => ?_⟩
  simp only [State.Calm, State.Prompt, h1, h2]
  exact hc

theorem firstOpen_does {more : List (Option Bufs)} {first : Bool} (h : s.Ready a (.chOpen n)) (ht : s.TableReady)
    (hx : s.node n = x) (hn : x.nm = none) (h0 : x.refcnt = 0) (hall : s.env.allocs = some b :: more)
    (hrx : x.rxCh.toNat < s.cfg.nch) (htx : x.txCh.toNat < s.cfg.nch) (hb : legalBufs (s.cfg.depth n) b = true)
    (hv : validDepth s.cfg (s.cfg.nodeType n) (s.cfg.depth n) = true) (hd : s.cfg.depth n ≤ 8192)
    (hor : s.cfg.dbrOffset x.rxCh < 2 ^ 16) (hot : s.cfg.dbrOffset x.txCh < 2 ^ 16)
    (hfirst : (∀ m : NodeNo, m.toNat < s.cfg.nnodes → m ≠ n → (s.node m).lstate = .closed) ↔ first = true)
    (hw : first = true ∨ ∀ ns, s.isWritten (catOff ns x.rxCh) = true ∧ s.isWritten (catOff ns x.txCh) = true) :
    Does a (progChOpen s.cfg n) s.begun fun y u => y = { rc := some .ok } ∧ Quiet s u ∧
      ∃ w, Edited (s.opened n b first) (s.opening a n b more) w ∧ u = w.setNode n { x with
        lstate := .configured, refcnt := 1, exc := 0, txBusy := false, bufs := some b, ring := some (Ring.new (s.cfg.cap n)) } := by
  subst hx
  have hcalm := begun_calm h.safe ht
  have hst := still_of_calm hcalm
  have hO := opening_opening s a n b more
  have hone : othersAreClosed (s.opening a n b more) n = first := by
    rw [Bool.eq_iff_iff, othersAreClosed_iff, ← hfirst]
    refine forall_congr' fun m => ?_
    rw [hO.aside.kept.engine.cfg]
    exact imp_congr_right fun _ => imp_congr_right fun hm => by rw [hO.nodes m hm]
  refine .takeMutex h.safe hst (by rw [show s.begun.lock = none from ht.2.2.1]; exact nofun) hn ?_
  refine .getRefcnt (w := 0) hcalm.1 hst (by rw [node_setNode_same]; exact h0) ?_
  rw [word_of_answer, if_neg (by decide), if_neg (by decide)]
  refine .bind (configure_does (s := s.begun.setNode n { s.node n with nm := some a }) hcalm ht.2.2.1 ht.2.2.2 rfl
    (node_setNode_same ..) hall hrx htx hb hv hd hor hot hone hw) ?_
  rintro rc u ⟨rfl, w, E, rfl⟩
  have hcw : w.Calm := E.calm (hO.calm hcalm)
  have hsw := still_of_calm hcw
  refine .setRefcnt hcw.1 hsw (node_setNode_same ..) ?_
  refine .giveMutex hcw.1 hsw (node_setNode_same ..) (.ret ⟨rfl, ?_, w, E, ?_⟩)
  · have hk := (hO.aside.kept.trans E.kept).engine
    refine ⟨E.contexts.trans hO.quiet.contexts, E.cur.trans hO.quiet.cur, ?_⟩
    change (w.cfg, w.bstat, w.lock, w.fault) = (s.cfg, s.bstat, s.lock, s.fault)
    rw [hk.cfg, hk.bstat, hk.lock, hk.fault]
  · rw [setNode_setNode, setNode_setNode, ← hn]

/-- Settles O47: the edits of the sequence S, from tables zeroed first or not as the other nodes are Closed or not. -/
theorem firstOpenConfiguresTheNode : Obligations.FirstOpenConfiguresTheNode := by
  intro s a n b more c x ty d alone h ht _ hn h0 hall hb hv hd hor hot hrx htx hne hw
  obtain ⟨first, hfirst⟩ : ∃ first : Bool, alone ↔ first = true := by
    by_cases ha : alone
    · exact ⟨true, iff_of_true ha rfl⟩
    · exact ⟨false, iff_of_false ha nofun⟩
  obtain ⟨_, t, ⟨w, E, rfl⟩, hm, he, hr, hk⟩ := (firstOpen_does h ht rfl hn h0 hall hrx htx hb hv hd hor hot hfirst
    (hw.imp_left hfirst.mp)).quietCommand h List.nodup_nil
  have hO := opening_opening s a n b more
  generalize s.opening a n b more = v at E hO
  have hidle := (E.calm (hO.calm (begun_calm h.safe ht))).2.1
  have hkept := (hO.aside.kept.trans E.kept).trans ((aside_setNode w n _).trans (SameMachine.aside hm)).kept
  have hstatus := E.status
  have hmasks := E.masks
  have hnodes : ∀ m, m ≠ n → w.node m = s.node m := fun m hm => (E.node m).trans (hO.nodes m hm)
  have hcat : ∀ ns, (s.tables.reset c first).written (catOff ns x.rxCh) = true ∧
      (s.tables.reset c first).written (catOff ns x.txCh) = true := fun ns =>
    ⟨reset_written ((hw.imp_left hfirst.mp).imp_right fun h => (h ns).1),
      reset_written ((hw.imp_left hfirst.mp).imp_right fun h => (h ns).2)⟩
  obtain ⟨hrows, har, hat, hbr, hhr, hbt, hht, hsw, harm⟩ := Edited.configured E hne hcat
  have harm := hO.aside.rearmed harm
  have hsw : ∀ ch, w.sw ch = if ch = x.rxCh ∨ ch = x.txCh then .ping else s.sw ch := fun ch => (hsw ch).trans (by
    cases first <;> rfl)
  have halone : alone → _ := fun ha => Edited.configured_alone (z := s) (by rw [← hfirst.mp ha]; exact E) hrx htx
  have hbeside : ¬ alone → _ := fun ha => Edited.configured_beside (z := s) (t := w) (by
    have hf : first = false := by simpa using mt hfirst.mpr ha
    rw [hf] at E
    exact E)
  obtain ⟨_, _, _, _, rfl⟩ := hm
  refine ⟨_, he, hr, node_setNode_same .., hrows, har, hat, hbr, hhr, hbt, hht, halone, hbeside, (hsw _).trans (if_pos (.inl rfl)),
    (hsw _).trans (if_pos (.inr rfl)), hidle, harm, ⟨?_, ?_, hkept.config, fun ch hch => ?_, fun m hm => ?_, hkept.log, hkept.mem⟩, hk⟩
  · exact ⟨hstatus.1.trans hO.status.1, hstatus.2.trans hO.status.2⟩
  · exact ⟨hmasks.1.trans hO.masks.1, hmasks.2.trans hO.masks.2⟩
  · exact (hsw ch).trans (if_neg (by simpa using hch))
  · have hne : m ≠ n := by simpa using hm
    exact (node_setNode ..).trans ((if_neg hne).trans (hnodes m hne))

end Sys2Proof.Machine
end

section
/-! PROOFS. IRQ.BUS_DISPATCH (46_interrupt_dispatch.md R295). -/

namespace Sys2Proof.Machine

variable {α : Type} {s t u : State} {a : Agent} {i : Instr} {p : Prog Result} {n : NodeNo} {ch : Chan} {l : List Chan}

/-! ## Invocations that return without a code (R344) -/

/-- An invocation of a dispatcher: it returns, and of the contexts its own keeps its registers. -/
theorem Does.returnsCommand {R : State → Prop} (h : s.Ready a i) (ha : ∀ u : State, u.has a)
    (d : Does a p s.begun fun x u => x = { rc := none } ∧ u.cur = s.cur ∧ u.ctx a = s.ctx a ∧ R u) :
    ∃ u t, R u ∧ SameMachine u t ∧ s.runCommand i p = .next t ∧ Returned a s t ∧ ∀ b, b ≠ a → t.ctx b = u.ctx b := by
  obtain ⟨x, u, e, rfl, hc, hx, hr⟩ := d
  exact ⟨u, _, hr, sameMachine_finish u a _, runCommand_ends h e, returned_finish (ha u) (hc.trans h.cur) hx,
    fun b hb => ctx_finish_other _ hb⟩

/-! ## What a status nibble is posted to -/

/-- The open node of a channel, the first if there were more (R295). -/
def State.owner (s : State) (ch : Chan) : Option NodeNo :=
  (nodesOf s.cfg).find? fun n => decide (((s.node n).rxCh = ch ∨ (s.node n).txCh = ch) ∧ (s.node n).lstate ≠ .closed)

/-- The status nibble of an unmasked channel. -/
def State.nibble (s : State) (ch : Chan) : BitVec 4 :=
  if s.busMsk.getLsbD ch.toNat = true then stsOf (s.row (cdtOff ch)) else 0

/-- What the channels of `l` post to a node. -/
def State.posted (s : State) (n : NodeNo) : List Chan → BitVec 4
  | [] => 0
  | ch :: l => (if s.owner ch = some n then s.nibble ch else 0) ||| s.posted n l

/-- A nibble of no open node. -/
def State.spurious (s : State) (ch : Chan) : Bool := decide (s.nibble ch ≠ 0) && (s.owner ch).isNone

/-- What the service of the channels `l` does. -/
structure BusServed (l : List Chan) (s t : State) : Prop where
  frame : ∃ rows wr d w hw ap ns k, t = { s with
    rows := rows, written := wr, dat := d, adr := w, hwHalf := hw, armedPrev := ap, nodes := ns, logcnt := k }
  arming : KeepsArming s t
  row : ∀ o, (∀ ch ∈ l, s.busMsk.getLsbD ch.toNat = true → o ≠ cdtOff ch) → t.row o = s.row o
  cleared : ∀ ch ∈ l, s.busMsk.getLsbD ch.toNat = true → t.row (cdtOff ch) = putSts (s.row (cdtOff ch)) 0
  written : ∀ o, t.isWritten o = s.isWritten o
  node : ∀ n, t.node n = { s.node n with exc := (s.node n).exc ||| s.posted n l }
  log : t.logcnt = s.logcnt + BitVec.ofNat 32 (l.filter s.spurious).length

theorem BusServed.calm (h : BusServed l s t) (hc : s.Calm) : t.Calm := by
  obtain ⟨_, _, _, _, _, _, _, _, rfl⟩ := h.frame
  exact hc

theorem BusServed.cfg (h : BusServed l s t) : t.cfg = s.cfg := by
  obtain ⟨_, _, _, _, _, _, _, _, rfl⟩ := h.frame
  rfl

theorem BusServed.lock (h : BusServed l s t) : t.lock = s.lock := by
  obtain ⟨_, _, _, _, _, _, _, _, rfl⟩ := h.frame
  rfl

theorem BusServed.busMsk (h : BusServed l s t) : t.busMsk = s.busMsk := by
  obtain ⟨_, _, _, _, _, _, _, _, rfl⟩ := h.frame
  rfl

theorem BusServed.owner (h : BusServed l s t) (ch : Chan) : t.owner ch = s.owner ch := by
  simp only [State.owner, h.cfg, h.node]

/-- The nibbles of the channels still to be served. -/
theorem BusServed.nibble (h : BusServed l s t) (hch : ch ∉ l) : t.nibble ch = s.nibble ch := by
  have hrow : t.row (cdtOff ch) = s.row (cdtOff ch) := h.row _ fun d hd _ e => hch (by rwa [cdtOff_inj e])
  rw [State.nibble, h.busMsk, hrow]
  rfl

theorem BusServed.posted (h : BusServed l s t) (n : NodeNo) {ls : List Chan} (hd : ∀ ch ∈ ls, ch ∉ l) : t.posted n ls = s.posted n ls := by
  induction ls with
  | nil => rfl
  | cons ch ls ih =>
    rw [State.posted, State.posted, h.owner, h.nibble (hd ch (by simp)), ih fun c hc => hd c (by simp [hc])]

theorem BusServed.nil (s : State) : BusServed [] s s where
  frame := ⟨_, _, _, _, _, _, _, _, rfl⟩
  arming := ⟨rfl, rfl⟩
  row _ _ := rfl
  cleared ch hch := absurd hch (by simp)
  written _ := rfl
  node n := by simp [State.posted]
  log := by simp

/-- The service of one channel and then of others. -/
theorem BusServed.cons (h1 : BusServed [ch] s t) (h2 : BusServed l t u) (hch : ch ∉ l) : BusServed (ch :: l) s u where
  frame := by
    obtain ⟨_, _, _, _, _, _, _, _, rfl⟩ := h1.frame
    obtain ⟨_, _, _, _, _, _, _, _, rfl⟩ := h2.frame
    exact ⟨_, _, _, _, _, _, _, _, rfl⟩
  arming := ⟨h2.arming.1.trans h1.arming.1, h2.arming.2.trans h1.arming.2⟩
  row o ho := by
    refine (h2.row o fun c hc hm => ho c (by simp [hc]) (by rwa [← h1.busMsk])).trans (h1.row o fun c hc hm => ho c ?_ hm)
    rw [List.mem_singleton] at hc
    simp [hc]
  cleared c hc hm := by
    by_cases e : c = ch
    · subst e
      exact (h2.row _ fun d hd _ e => hch (by rwa [cdtOff_inj e])).trans (h1.cleared c (by simp) hm)
    · have hl : c ∈ l := (List.mem_cons.mp hc).resolve_left e
      rw [h2.cleared c hl (by rwa [h1.busMsk])]
      congr 1
      exact h1.row _ fun d hd _ e2 => e ((cdtOff_inj e2).trans (List.mem_singleton.mp hd))
  written o := (h2.written o).trans (h1.written o)
  node n := by
    have hp : t.posted n l = s.posted n l := h1.posted n fun c hc e => hch (by rwa [← List.mem_singleton.mp e])
    rw [h2.node, h1.node, hp]
    simp [State.posted, BitVec.or_assoc]
  log := by
    have hf : l.filter t.spurious = l.filter s.spurious := by
      refine List.filter_congr fun c hc => ?_
      rw [State.spurious, State.spurious, h1.owner, h1.nibble fun e => hch (by rwa [← List.mem_singleton.mp e])]
    rw [h2.log, h1.log, hf, BitVec.add_assoc, ← BitVec.ofNat_add, List.filter_cons (xs := l)]
    cases hs : s.spurious ch <;> simp [hs, Nat.add_comm]

/-! ## The service of one channel -/

theorem posted_one (s : State) (n : NodeNo) (ch : Chan) : s.posted n [ch] = if s.owner ch = some n then s.nibble ch else 0 := by
  simp [State.posted]

/-- A masked channel, or one whose nibble is 0, posts nothing. -/
theorem posted_zero (h : s.nibble ch = 0) (n : NodeNo) : s.posted n [ch] = 0 := by
  rw [posted_one, h, ite_self]

theorem busServed_masked (h : s.busMsk.getLsbD ch.toNat = false) : BusServed [ch] s s where
  frame := ⟨_, _, _, _, _, _, _, _, rfl⟩
  arming := ⟨rfl, rfl⟩
  row _ _ := rfl
  cleared c hc hm := by
    rw [List.mem_singleton.mp hc, h] at hm
    cases hm
  written _ := rfl
  node n := by simp [posted_zero (show s.nibble ch = 0 by simp [State.nibble, h]) n]
  log := by simp [State.spurious, State.nibble, h]

/-- An unmasked channel: its nibble read and cleared, and `u` is what its post makes of the machine. -/
theorem busServed_unmasked (hm : s.busMsk.getLsbD ch.toNat = true) (hold : s.isWritten (cdtOff ch) = true)
    (hw : Wrote (cdtOff ch) (putSts (s.row (cdtOff ch)) 0) s t)
    (hu : ∃ ns k, u = { t with nodes := ns, logcnt := k })
    (hn : ∀ n, u.node n = { s.node n with exc := (s.node n).exc ||| s.posted n [ch] })
    (hl : u.logcnt = s.logcnt + BitVec.ofNat 32 ([ch].filter s.spurious).length) : BusServed [ch] s u := by
  have harm := (hw.other (isCatRow_cdtOff ch)).1.1
  have hrow := hw.row
  have hwr : ∀ o, t.isWritten o = if o = cdtOff ch then true else s.isWritten o := hw.written
  obtain ⟨ns, k, rfl⟩ := hu
  refine ⟨?_, harm, fun o ho => ?_, fun c hc _ => ?_, fun o => ?_, hn, hl⟩
  · obtain ⟨_, _, _, _, _, _, rfl⟩ := hw.moved
    exact ⟨_, _, _, _, _, _, _, _, rfl⟩
  · exact (hrow o).trans (if_neg (ho ch (by simp) hm))
  · rw [List.mem_singleton.mp hc]
    exact (hrow _).trans (if_pos rfl)
  · refine (hwr o).trans ?_
    split
    · next e => rw [e, hold]
    · rfl

/-- A post of a nibble: the node that has the channel takes it, else the log (R295). -/
theorem postExc_apply (x : BitVec 4) : ∃ ns k, Act.apply a s (.postExc ch x) = .ok { s with nodes := ns, logcnt := k } 0 ∧
    (∀ n, State.node { s with nodes := ns, logcnt := k } n =
      { s.node n with exc := (s.node n).exc ||| if s.owner ch = some n then x else 0 }) ∧
    k = if (s.owner ch).isNone then s.logcnt + 1 else s.logcnt := by
  cases ho : s.owner ch with
  | none =>
    refine ⟨s.nodes, s.logcnt + 1, ?_, fun n => by simp [State.node], rfl⟩
    unfold State.owner at ho
    simp only [Act.apply, actPostExc, ho]
    rfl
  | some m =>
    refine ⟨(s.setNode m { s.node m with exc := (s.node m).exc ||| x }).nodes, s.logcnt, ?_, fun n => ?_, rfl⟩
    · unfold State.owner at ho
      simp only [Act.apply, actPostExc, ho]
      rfl
    · refine (node_setNode s m n _).trans ?_
      by_cases e : n = m
      · rw [if_pos e, e, if_pos rfl]
      · rw [if_neg e, if_neg fun h => e (Option.some.inj h).symm]
        simp

theorem full_nibble (v : BitVec 4) : v &&& 0xF = v ∧ v &&& ~~~0xF = 0 := by
  revert v
  decide

/-- A nibble as a result register carries it. -/
theorem nibble_of_word (v : BitVec 4) : (v.setWidth 32 = 0 ↔ v = 0) ∧ (v.setWidth 32).setWidth 4 = v := by
  revert v
  decide

/-- The service of one channel on hardware that answers. -/
theorem busChannel_does (c : Params) (h : s.Calm) (hl : s.lock = none) (hch : ch.toNat < s.cfg.nch) (hn : 1 ≤ c.rpRetries)
    (hw : s.busMsk.getLsbD ch.toNat = true → s.isWritten (cdtOff ch) = true) :
    Does a (busChannel c ch) s fun _ t => BusServed [ch] s t := by
  refine .calm h rfl ?_
  cases hm : s.busMsk.getLsbD ch.toNat with
  | false => exact .ret (busServed_masked hm)
  | true =>
    rw [if_neg (by decide)]
    refine .bind (clearSts_does c 0xF h hl hch (hw hm) hn) ?_
    rintro x t ⟨rfl, hwr⟩
    obtain ⟨hand, hclear⟩ := full_nibble (stsOf (s.row (cdtOff ch)))
    rw [hclear] at hwr
    have hnib : stsOf (s.row (cdtOff ch)) = s.nibble ch := (if_pos hm).symm
    obtain ⟨_, _, _, _, _, _, et⟩ := hwr.moved
    have hnode : ∀ n, t.node n = s.node n := hwr.moved.node
    have hown : t.owner ch = s.owner ch := by simp only [State.owner, hwr.moved.cfg, hnode]
    have hlog : t.logcnt = s.logcnt := by rw [et]
    rw [if_pos rfl]
    have hread : ∀ w : Word, Result.read { rc := some .ok, res := [(0, w)] } 0 = w := fun _ => rfl
    rw [hread, hand, hnib]
    split
    · next hz =>
      have hz : s.nibble ch = 0 := (nibble_of_word _).1.mp hz
      refine .ret (busServed_unmasked hm (hw hm) hwr ⟨_, _, rfl⟩ (fun n => ?_) ?_)
      · rw [posted_zero hz, hnode]
        simp
      · simp [State.spurious, hz, hlog]
    · next hz =>
      obtain ⟨ns, k, e, hn, hk⟩ := postExc_apply (a := a) (s := t) (ch := ch) (((s.nibble ch).setWidth 32).setWidth 4)
      refine .calm (hwr.moved.calm h) e (.ret (busServed_unmasked hm (hw hm) hwr ⟨_, _, rfl⟩ (fun n => ?_) ?_))
      · rw [hn, hnode, posted_one, hown, (nibble_of_word _).2]
      · refine hk.trans ?_
        rw [hown, hlog]
        have hz : s.nibble ch ≠ 0 := mt (nibble_of_word _).1.mpr hz
        have hsp : s.spurious ch = (s.owner ch).isNone := by
          rw [State.spurious, decide_eq_true hz, Bool.true_and]
        rw [List.filter_singleton, hsp]
        cases (s.owner ch).isNone <;> simp

/-- The service of channels in turn. -/
theorem busChannels_does (c : Params) (hn : 1 ≤ c.rpRetries) (l : List Chan) : ∀ {s : State}, s.Calm → s.lock = none → l.Nodup →
    (∀ ch ∈ l, ch.toNat < s.cfg.nch) → (∀ ch ∈ l, s.busMsk.getLsbD ch.toNat = true → s.isWritten (cdtOff ch) = true) →
    Does a (Prog.each (busChannel c) l) s fun _ t => BusServed l s t := by
  induction l with
  | nil => exact fun _ _ _ _ _ => .ret (.nil _)
  | cons ch l ih =>
    intro s h hl hd hnch hw
    obtain ⟨hch, hd⟩ := List.nodup_cons.mp hd
    refine .bind (busChannel_does c h hl (hnch ch (by simp)) hn (hw ch (by simp))) fun _ t h1 => ?_
    refine (ih (h1.calm h) (h1.lock.trans hl) hd (fun d hm => ?_) fun d hm hon => ?_).mono fun _ u h2 => h1.cons h2 hch
    · rw [h1.cfg]
      exact hnch d (by simp [hm])
    · rw [h1.busMsk] at hon
      exact (h1.written _).trans (hw d (by simp [hm]) hon)

/-! ## What the nodes were posted -/

/-- One bit of what the channels of `l` post to a node. -/
theorem getLsbD_posted (s : State) (n : NodeNo) (l : List Chan) (k : Nat) :
    (s.posted n l).getLsbD k = true ↔ ∃ ch ∈ l, s.owner ch = some n ∧ (s.nibble ch).getLsbD k = true := by
  induction l with
  | nil => simp [State.posted]
  | cons ch l ih =>
    rw [State.posted, BitVec.getLsbD_or, Bool.or_eq_true, ih]
    simp only [List.mem_cons, exists_eq_or_imp]
    refine or_congr_left ?_
    split
    · next h => exact ⟨fun hb => ⟨h, hb⟩, And.right⟩
    · next h => exact ⟨fun hb => absurd hb (by simp), fun hb => absurd hb.1 h⟩

/-- A node the dispatcher posts to. -/
def State.openNode (s : State) (n : NodeNo) : Prop := n.toNat < s.cfg.nnodes ∧ (s.node n).lstate ≠ .closed

/-- Open nodes share no channel. -/
def State.Unshared (s : State) : Prop := ∀ n m : NodeNo, s.openNode n → s.openNode m →
  ((s.node n).rxCh = (s.node m).rxCh ∨ (s.node n).rxCh = (s.node m).txCh ∨ (s.node n).txCh = (s.node m).txCh) → n = m

theorem owner_some (h : s.owner ch = some n) : s.openNode n ∧ ((s.node n).rxCh = ch ∨ (s.node n).txCh = ch) := by
  have hp := List.find?_some h
  rw [decide_eq_true_iff] at hp
  exact ⟨⟨(mem_nodesOf _ _).mp (List.mem_of_find?_eq_some h), hp.2⟩, hp.1⟩

theorem owner_none : s.owner ch = none ↔ ¬ ∃ n, s.openNode n ∧ ((s.node n).rxCh = ch ∨ (s.node n).txCh = ch) := by
  refine List.find?_eq_none.trans ⟨fun h => ?_, fun h n hn hp => ?_⟩
  · rintro ⟨n, ho, hc⟩
    exact h n ((mem_nodesOf _ _).mpr ho.1) (decide_eq_true ⟨hc, ho.2⟩)
  · rw [decide_eq_true_iff] at hp
    exact h ⟨n, ⟨(mem_nodesOf _ _).mp hn, hp.2⟩, hp.1⟩

/-- The owner of a channel is the one open node that has it. -/
theorem owner_iff (hu : s.Unshared) : s.owner ch = some n ↔ s.openNode n ∧ ((s.node n).rxCh = ch ∨ (s.node n).txCh = ch) := by
  refine ⟨owner_some, fun ⟨ho, hc⟩ => ?_⟩
  cases hm : s.owner ch with
  | none => exact absurd ⟨n, ho, hc⟩ (owner_none.mp hm)
  | some m =>
    obtain ⟨ho2, hc2⟩ := owner_some hm
    refine congrArg some ?_
    rcases hc with h1 | h1 <;> rcases hc2 with h2 | h2
    · exact hu m n ho2 ho (.inl (h2.trans h1.symm))
    · exact (hu n m ho ho2 (.inr (.inl (h1.trans h2.symm)))).symm
    · exact hu m n ho2 ho (.inr (.inl (h2.trans h1.symm)))
    · exact hu m n ho2 ho (.inr (.inr (h2.trans h1.symm)))

/-- The nibble of a channel of the engine; another channel has none. -/
def State.nibbleOf (s : State) (ch : Chan) : BitVec 4 :=
  if ch.toNat < s.cfg.nch ∧ s.busMsk.getLsbD ch.toNat = true then stsOf (s.row (cdtOff ch)) else 0

theorem nibbleOf_eq (s : State) (ch : Chan) : s.nibbleOf ch = if ch ∈ chansOf s.cfg then s.nibble ch else 0 := by
  unfold State.nibbleOf State.nibble
  have hm := mem_chansOf s.cfg ch
  by_cases h : ch.toNat < s.cfg.nch
  · rw [if_pos (hm.mpr h)]
    exact if_congr (and_iff_right h) rfl rfl
  · rw [if_neg (mt hm.mp h), if_neg fun hc => h hc.1]

theorem nibbleOf_ne_zero (s : State) (ch : Chan) : s.nibbleOf ch ≠ 0 ↔ ch ∈ chansOf s.cfg ∧ s.nibble ch ≠ 0 := by
  rw [nibbleOf_eq]
  split
  · next h => exact (and_iff_right h).symm
  · next h => exact iff_of_false (fun hz => hz rfl) fun hz => h hz.1

/-- An open node is posted the nibbles of its two channels. -/
theorem posted_open (hu : s.Unshared) (ho : s.openNode n) :
    s.posted n (chansOf s.cfg) = s.nibbleOf (s.node n).rxCh ||| s.nibbleOf (s.node n).txCh := by
  refine BitVec.eq_of_getLsbD_eq fun k _ => ?_
  rw [Bool.eq_iff_iff, getLsbD_posted, BitVec.getLsbD_or, Bool.or_eq_true]
  have hbit : ∀ ch, (s.nibbleOf ch).getLsbD k = true ↔ ch ∈ chansOf s.cfg ∧ (s.nibble ch).getLsbD k = true := fun ch => by
    rw [nibbleOf_eq]
    split
    · next h => exact (and_iff_right h).symm
    · next h => exact ⟨fun hb => absurd hb (by simp), fun hb => absurd hb.1 h⟩
  rw [hbit, hbit]
  refine ⟨fun ⟨ch, hm, hown, hb⟩ => ?_, fun h => ?_⟩
  · rcases (owner_some hown).2 with rfl | rfl
    · exact .inl ⟨hm, hb⟩
    · exact .inr ⟨hm, hb⟩
  · rcases h with ⟨hm, hb⟩ | ⟨hm, hb⟩
    · exact ⟨_, hm, (owner_iff hu).mpr ⟨ho, .inl rfl⟩, hb⟩
    · exact ⟨_, hm, (owner_iff hu).mpr ⟨ho, .inr rfl⟩, hb⟩

theorem posted_begun (s : State) (n : NodeNo) (l : List Chan) : s.begun.posted n l = s.posted n l := by
  induction l with
  | nil => rfl
  | cons ch l ih =>
    rw [State.posted, State.posted, ih]
    rfl

theorem posted_closed (ho : ¬ s.openNode n) (l : List Chan) : s.posted n l = 0 := by
  refine BitVec.eq_of_getLsbD_eq fun k _ => ?_
  refine (Bool.eq_false_iff.mpr ?_).trans BitVec.getLsbD_zero.symm
  rw [Ne, getLsbD_posted]
  rintro ⟨ch, -, hown, -⟩
  exact ho (owner_some hown).1

/-- Settles O60: by induction on the channels served; an open node gets the OR of what its two channels post. -/
theorem busDispatchPostsTheNibbles : Obligations.BusDispatchPostsTheNibbles := by
  intro s on nib opened h ht _ hwr hu
  have run : Does .bd (progIrqBusDispatch s.cfg) s.begun fun x u => x = { rc := none } ∧ u.cur = s.cur ∧ u.ctx .bd = s.ctx .bd ∧
      BusServed (chansOf s.cfg) s.begun u := by
    refine .bind (busChannels_does s.cfg ht.2.2.2 (chansOf s.cfg) (begun_calm h.safe ht) ht.2.2.1 (nodup_chansOf _)
      (fun ch hch => (mem_chansOf _ _).mp hch) fun ch hch hon => hwr ch ⟨(mem_chansOf _ _).mp hch, hon⟩) fun _ u hb => ?_
    refine .ret ⟨rfl, ?_, ?_, hb⟩
    · obtain ⟨_, _, _, _, _, _, _, _, rfl⟩ := hb.frame
      rfl
    · obtain ⟨_, _, _, _, _, _, _, _, rfl⟩ := hb.frame
      rfl
  obtain ⟨u, t, hb, hm, he, hr, ho⟩ := run.returnsCommand h fun _ => trivial
  have hidle := (hb.calm (begun_calm h.safe ht)).2.1
  have harm := hb.arming
  have hcleared : ∀ ch, on ch → u.row (cdtOff ch) = putSts (s.row (cdtOff ch)) 0 := fun ch hch =>
    hb.cleared ch ((mem_chansOf _ _).mpr hch.1) hch.2
  have hrow : ∀ off, (∀ ch, on ch → off ≠ cdtOff ch) → u.row off = s.row off := fun off hoff =>
    hb.row off fun ch hch hon => hoff ch ⟨(mem_chansOf _ _).mp hch, hon⟩
  have hwritten := hb.written
  have hnode : ∀ n, u.node n = { s.node n with exc := (s.node n).exc ||| s.posted n (chansOf s.cfg) } := fun n => by
    rw [hb.node, posted_begun]
    rfl
  have hlog : u.logcnt = s.logcnt + BitVec.ofNat 32 ((chansOf s.cfg).filter s.spurious).length := hb.log
  have hopen : ∀ n, opened n → u.node n = { s.node n with
      exc := (s.node n).exc ||| nib (s.node n).rxCh ||| nib (s.node n).txCh } := fun n ho => by
    rw [hnode, posted_open hu ho, ← BitVec.or_assoc]
    rfl
  have hclosed : ∀ n, ¬ opened n → u.node n = s.node n := fun n ho => by
    rw [hnode, posted_closed ho]
    simp
  have hcount : ∀ l : List Chan, l.Nodup → (∀ ch : Chan, ch ∈ l ↔ nib ch ≠ 0 ∧
      ¬ ∃ n, opened n ∧ ((s.node n).rxCh = ch ∨ (s.node n).txCh = ch)) → u.logcnt = s.logcnt + BitVec.ofNat 32 l.length := by
    intro l hd hl
    rw [hlog]
    have hperm : ((chansOf s.cfg).filter s.spurious).Perm l := by
      refine (List.perm_ext_iff_of_nodup ((nodup_chansOf _).filter _) hd).mpr fun ch => ?_
      rw [hl, List.mem_filter, State.spurious, Bool.and_eq_true, decide_eq_true_iff, Option.isNone_iff_eq_none, owner_none, ← and_assoc]
      refine and_congr_left fun _ => ?_
      change _ ↔ s.nibbleOf ch ≠ 0
      exact (nibbleOf_ne_zero s ch).symm
    rw [hperm.length_eq]
  have hcore : KeepsEngine s u ∧ u.contexts = s.contexts := by
    obtain ⟨_, _, _, _, _, _, _, _, rfl⟩ := hb.frame
    exact ⟨⟨rfl, rfl, rfl, rfl⟩, rfl⟩
  have hrest : KeepsStatus s u ∧ KeepsMasks s u ∧ KeepsConfig s u ∧ KeepsSwBut [] s u ∧ KeepsMem s u := by
    obtain ⟨_, _, _, _, _, _, _, _, rfl⟩ := hb.frame
    exact ⟨⟨rfl, rfl⟩, ⟨rfl, rfl⟩, ⟨rfl, rfl⟩, fun _ _ => rfl, fun _ => rfl⟩
  obtain ⟨hstatus, hmasks, hconfig, hsw, hmem⟩ := hrest
  obtain ⟨_, _, _, _, rfl⟩ := hm
  refine ⟨_, he, hr, fun ch hch => ⟨?_, fun k hk => ?_⟩, hrow, hwritten, fun n => ⟨hopen n, hclosed n⟩, hcount, harm, hidle,
    hstatus, hmasks, hconfig, hsw, hmem, ⟨?_, ?_⟩⟩
  · exact (congrArg stsOf (hcleared ch hch)).trans (stsOf_putSts _ _)
  · exact (congrArg (·.getLsbD k) (hcleared ch hch)).trans (getLsbD_putSts_other _ _ hk)
  · exact ⟨hcore.1.cfg, hcore.1.bstat, hcore.1.lock, hcore.1.fault⟩
  · exact fun b hbd => (ho b hbd).trans (ctx_of_contexts hcore.2 b)

end Sys2Proof.Machine
end

section
/-! PROOFS. IRQ.HOST_DISPATCH over transmit completions (46_interrupt_dispatch.md R291, R293). -/

namespace Sys2Proof.Machine

variable {α : Type} {s t u : State} {a : Agent} {n : NodeNo} {ch : Chan} {l : List Chan} {err : ChanSet}

/-! ## The snapshot -/

/-- The machine after the snapshot: what it holds is acknowledged. -/
def State.snapshotted (s : State) : State :=
  { s with hcSts := s.hcSts &&& ~~~(s.hcSts &&& s.hcMsk), hcErr := s.hcErr &&& ~~~(s.hcSts &&& s.hcMsk &&& s.hcErr) }

theorem snapshot_fields (e v : ChanSet) : bits (e ++ v : BitVec 128) 0 64 = v ∧ bits (e ++ v : BitVec 128) 64 64 = e := by
  refine ⟨BitVec.eq_of_getLsbD_eq fun k hk => ?_, BitVec.eq_of_getLsbD_eq fun k hk => ?_⟩
  · rw [bits, BitVec.getLsbD_extractLsb', BitVec.getLsbD_append, if_pos (by omega)]
    simp [hk]
  · rw [bits, BitVec.getLsbD_extractLsb', BitVec.getLsbD_append, if_neg (by omega)]
    simp [hk]

/-- The dispatcher serves the channels of its snapshot in turn (R291). -/
theorem hostDispatch_does {Q : Result → State → Prop} (c : Params) (hf : s.safe) (hs : s.Still)
    (hl : (chansOf c).filter (fun ch => (s.hcSts &&& s.hcMsk).getLsbD ch.toNat) = l)
    (hq : Does a (Prog.each (serveChannel c s.hcErr) l) s.snapshotted fun _ t => Q { rc := none } t) :
    Does a (progIrqHostDispatch c) s Q := by
  refine .still hf hs rfl ?_
  dsimp only
  rw [(snapshot_fields ..).1, (snapshot_fields ..).2, hl]
  exact .bind hq fun _ t ht => .ret ht

/-! ## The node a channel serves -/

/-- The Started node that has `ch` as its receive channel, the first if there were more. -/
def State.rxServer (s : State) (ch : Chan) : Option NodeNo :=
  (nodesOf s.cfg).find? fun n => decide ((s.node n).rxCh = ch ∧ (s.node n).lstate = .started)

/-- The Started node that has `ch` as its transmit channel. -/
def State.txServer (s : State) (ch : Chan) : Option NodeNo :=
  (nodesOf s.cfg).find? fun n => decide ((s.node n).txCh = ch ∧ (s.node n).lstate = .started)

theorem serverOf_rx (h : s.rxServer ch = some n) : serverOf s ch = 0x100 + n.setWidth 128 := by
  unfold State.rxServer at h
  simp only [serverOf, h]

theorem serverOf_tx (hr : s.rxServer ch = none) (h : s.txServer ch = some n) : serverOf s ch = 0x200 + n.setWidth 128 := by
  unfold State.rxServer at hr
  unfold State.txServer at h
  simp only [serverOf, hr, h]

theorem serverOf_none (hr : s.rxServer ch = none) (h : s.txServer ch = none) : serverOf s ch = 0 := by
  unfold State.rxServer at hr
  unfold State.txServer at h
  simp only [serverOf, hr, h]

/-- The kind and the node of an answer of `Act.server`. -/
theorem server_fields (n : NodeNo) :
    bits (0x100 + n.setWidth 128 : Resp) 8 2 = 1 ∧ bits (0x100 + n.setWidth 128 : Resp) 0 6 = n ∧
    bits (0x200 + n.setWidth 128 : Resp) 8 2 = 2 ∧ bits (0x200 + n.setWidth 128 : Resp) 0 6 = n := by
  revert n
  decide

theorem rxServer_none : s.rxServer ch = none ↔
    ∀ n : NodeNo, n.toNat < s.cfg.nnodes → (s.node n).lstate = .started → (s.node n).rxCh ≠ ch := by
  refine List.find?_eq_none.trans ⟨fun h n hn hs hc => ?_, fun h n hn hp => ?_⟩
  · exact h n ((mem_nodesOf _ _).mpr hn) (decide_eq_true ⟨hc, hs⟩)
  · rw [decide_eq_true_iff] at hp
    exact h n ((mem_nodesOf _ _).mp hn) hp.2 hp.1

theorem txServer_some (h : s.txServer ch = some n) :
    n.toNat < s.cfg.nnodes ∧ (s.node n).lstate = .started ∧ (s.node n).txCh = ch := by
  have hp := List.find?_some h
  rw [decide_eq_true_iff] at hp
  exact ⟨(mem_nodesOf _ _).mp (List.mem_of_find?_eq_some h), hp.2, hp.1⟩

theorem txServer_none : s.txServer ch = none ↔
    ∀ n : NodeNo, n.toNat < s.cfg.nnodes → (s.node n).lstate = .started → (s.node n).txCh ≠ ch := by
  refine List.find?_eq_none.trans ⟨fun h n hn hs hc => ?_, fun h n hn hp => ?_⟩
  · exact h n ((mem_nodesOf _ _).mpr hn) (decide_eq_true ⟨hc, hs⟩)
  · rw [decide_eq_true_iff] at hp
    exact h n ((mem_nodesOf _ _).mp hn) hp.2 hp.1

/-! ## The service of transmit completions -/

/-- The node whose transmit completion a channel of the snapshot is, if it is one without error. -/
def State.completes (s : State) (err : ChanSet) (ch : Chan) : Option NodeNo :=
  if err.getLsbD ch.toNat then none else s.txServer ch

/-- Node n has a transmit completion among the channels `l`. -/
def State.freed (s : State) (err : ChanSet) (n : NodeNo) (l : List Chan) : Bool :=
  l.any fun ch => decide (s.completes err ch = some n)

/-- A context waits for a transmit completion among the channels `l`. -/
def State.rouses (s : State) (err : ChanSet) (x : Ctx) (l : List Chan) : Bool :=
  l.any fun ch => match s.completes err ch with
    | some n => x.waitsIn (writesTo n)
    | none => false

/-- A node freed for the next transmit. -/
def Node.freedIf (x : Node) (b : Bool) : Node := if b then { x with txBusy := false } else x

theorem freedIf_freedIf (x : Node) (b c : Bool) : (x.freedIf b).freedIf c = x.freedIf (b || c) := by
  cases b <;> cases c <;> rfl

/-- A context that will check its condition again. -/
def Ctx.notifiedIf (x : Ctx) (b : Bool) : Ctx := if b then { x with notified := true } else x

theorem notifiedIf_notifiedIf (x : Ctx) (b c : Bool) : (x.notifiedIf b).notifiedIf c = x.notifiedIf (b || c) := by
  cases b <;> cases c <;> rfl

/-- A wake does not change what a context waits in. -/
theorem waitsIn_notifiedIf (x : Ctx) (b : Bool) (p : Instr → Bool) : (x.notifiedIf b).waitsIn p = x.waitsIn p := by
  cases b <;> rfl

/-- What the service of the channels `l` does when none is the receive channel of a Started node. -/
structure HostServed (err : ChanSet) (l : List Chan) (s t : State) : Prop where
  frame : ∃ ns th k, t = { s with nodes := ns, threads := th, logcnt := k }
  threads : t.threads.length = s.threads.length
  node : ∀ n, t.node n = (s.node n).freedIf (s.freed err n l)
  ctx : ∀ k, t.ctx (.host k) = (s.ctx (.host k)).notifiedIf (s.rouses err (s.ctx (.host k)) l)
  log : t.logcnt = s.logcnt + BitVec.ofNat 32 (l.filter fun ch => (s.completes err ch).isNone).length

theorem HostServed.cfg (h : HostServed err l s t) : t.cfg = s.cfg := by
  obtain ⟨_, _, _, rfl⟩ := h.frame
  rfl

/-- A node's channels and its lifecycle state are as before. -/
theorem HostServed.place (h : HostServed err l s t) (n : NodeNo) :
    (t.node n).rxCh = (s.node n).rxCh ∧ (t.node n).txCh = (s.node n).txCh ∧ (t.node n).lstate = (s.node n).lstate := by
  rw [h.node]
  cases s.freed err n l <;> exact ⟨rfl, rfl, rfl⟩

theorem HostServed.servers (h : HostServed err l s t) (ch : Chan) : t.rxServer ch = s.rxServer ch ∧ t.completes err ch = s.completes err ch := by
  have hplace := h.place
  simp only [State.rxServer, State.completes, State.txServer, h.cfg, fun n => (hplace n).1, fun n => (hplace n).2.1,
    fun n => (hplace n).2.2, and_self]

theorem HostServed.nil (err : ChanSet) (s : State) : HostServed err [] s s :=
  ⟨⟨_, _, _, rfl⟩, rfl, fun _ => rfl, fun _ => rfl, by simp⟩

theorem HostServed.cons (h1 : HostServed err [ch] s t) (h2 : HostServed err l t u) : HostServed err (ch :: l) s u where
  frame := by
    obtain ⟨_, _, _, rfl⟩ := h1.frame
    obtain ⟨_, _, _, rfl⟩ := h2.frame
    exact ⟨_, _, _, rfl⟩
  threads := h2.threads.trans h1.threads
  node n := by
    have hf : t.freed err n l = s.freed err n l := by simp only [State.freed, (h1.servers _).2]
    rw [h2.node, h1.node, hf, freedIf_freedIf]
    simp only [State.freed, List.any_cons, List.any_nil, Bool.or_false]
  ctx k := by
    have hr : t.rouses err (t.ctx (.host k)) l = s.rouses err (s.ctx (.host k)) l := by
      simp only [State.rouses, (h1.servers _).2, h1.ctx, waitsIn_notifiedIf]
    rw [h2.ctx, hr, h1.ctx, notifiedIf_notifiedIf]
    simp only [State.rouses, List.any_cons, List.any_nil, Bool.or_false]
  log := by
    have hf : (fun ch => (t.completes err ch).isNone) = fun ch => (s.completes err ch).isNone := by
      simp only [(h1.servers _).2]
    rw [h2.log, h1.log, hf, BitVec.add_assoc, ← BitVec.ofNat_add, List.filter_cons (xs := l)]
    cases hs : (s.completes err ch).isNone <;> simp [hs, Nat.add_comm]

theorem HostServed.safe (h : HostServed err l s t) (hf : s.safe) : t.safe := by
  obtain ⟨_, _, _, rfl⟩ := h.frame
  exact hf

theorem HostServed.still (h : HostServed err l s t) (hs : s.Still) : t.Still := by
  obtain ⟨_, _, _, rfl⟩ := h.frame
  exact hs

/-- A channel whose completion serves no node is logged and skipped. -/
theorem hostServed_log (h : s.completes err ch = none) : HostServed err [ch] s s.log where
  frame := ⟨_, _, _, rfl⟩
  threads := rfl
  node n := by
    simp only [State.freed, List.any_cons, List.any_nil, h]
    rfl
  ctx k := by
    simp only [State.rouses, List.any_cons, List.any_nil, h]
    rfl
  log := by
    rw [List.filter_singleton, h]
    rfl

/-- A transmit completion without error frees its node and wakes the writers (R293, R272 a). -/
theorem hostServed_transmit (h : s.completes err ch = some n) :
    HostServed err [ch] s ((s.setNode n { s.node n with txBusy := false }).notify (writesTo n)) where
  frame := ⟨_, _, _, rfl⟩
  threads := by
    obtain ⟨_, e, hl, -⟩ := notify_frame (s.setNode n { s.node n with txBusy := false }) (writesTo n)
    rw [e]
    exact hl
  node m := by
    refine (node_setNode s n m _).trans ?_
    simp only [State.freed, List.any_cons, List.any_nil, h, Option.some.injEq, Bool.or_false]
    by_cases e : m = n
    · rw [if_pos e, decide_eq_true e.symm, e]
      rfl
    · rw [if_neg e, decide_eq_false (Ne.symm e)]
      rfl
  ctx k := by
    rw [ctx_notify]
    simp only [State.rouses, List.any_cons, List.any_nil, h, Bool.or_false]
    rfl
  log := by
    rw [List.filter_singleton, h]
    exact (BitVec.add_zero _).symm

/-- The service of one channel that is not the receive channel of a Started node. -/
theorem serveChannel_does (c : Params) (hf : s.safe) (hs : s.Still) (hr : err.getLsbD ch.toNat = false → s.rxServer ch = none) :
    Does a (serveChannel c err ch) s fun _ t => HostServed err [ch] s t := by
  unfold serveChannel
  have hdef : s.completes err ch = if err.getLsbD ch.toNat then none else s.txServer ch := rfl
  cases he : err.getLsbD ch.toNat with
  | true =>
    rw [he] at hdef
    exact .still hf hs rfl (.ret (hostServed_log hdef))
  | false =>
    rw [he] at hdef
    have hr := hr he
    refine .still hf hs rfl ?_
    cases ht : s.txServer ch with
    | none =>
      rw [serverOf_none hr ht, if_neg (by decide), if_neg (by decide)]
      exact .still hf hs rfl (.ret (hostServed_log (hdef.trans ht)))
    | some n =>
      obtain ⟨-, -, hkind, hnode⟩ := server_fields n
      rw [serverOf_tx hr ht, hkind, hnode, if_neg (by decide), if_pos rfl]
      exact .still hf hs rfl (.ret (hostServed_transmit (hdef.trans ht)))

theorem serveChannels_does (c : Params) (l : List Chan) : ∀ {s : State}, s.safe → s.Still →
    (∀ ch ∈ l, err.getLsbD ch.toNat = false → s.rxServer ch = none) →
    Does a (Prog.each (serveChannel c err) l) s fun _ t => HostServed err l s t := by
  induction l with
  | nil => exact fun _ _ _ => .ret (.nil err _)
  | cons ch l ih =>
    intro s hf hs hr
    refine .bind (serveChannel_does c hf hs (hr ch (by simp))) fun _ t h1 => ?_
    refine (ih (h1.safe hf) (h1.still hs) fun d hd he => ?_).mono fun _ u h2 => h1.cons h2
    rw [(h1.servers d).1]
    exact hr d (by simp [hd]) he

/-! ## What was served -/

theorem completes_some_iff : s.completes err ch = some n ↔ err.getLsbD ch.toNat = false ∧ s.txServer ch = some n := by
  unfold State.completes
  cases err.getLsbD ch.toNat <;> simp

theorem freed_iff_exists : s.freed err n l = true ↔ ∃ ch ∈ l, s.completes err ch = some n := by
  simp [State.freed]

/-- The contexts that are woken wait for a node that is freed. -/
theorem rouses_iff (x : Ctx) : s.rouses err x l = true ↔ ∃ n, s.freed err n l = true ∧ x.waitsIn (writesTo n) = true := by
  simp only [State.rouses, List.any_eq_true, freed_iff_exists]
  constructor
  · rintro ⟨ch, hch, hx⟩
    cases hc : s.completes err ch with
    | none =>
      rw [hc] at hx
      cases hx
    | some n =>
      rw [hc] at hx
      exact ⟨n, ⟨ch, hch, hc⟩, hx⟩
  · rintro ⟨n, ⟨ch, hch, hc⟩, hx⟩
    refine ⟨ch, hch, ?_⟩
    rw [hc]
    exact hx

/-- The transmit channels of the nodes are different. -/
def State.DistinctTx (s : State) : Prop := ∀ n m : NodeNo, n.toNat < s.cfg.nnodes → m.toNat < s.cfg.nnodes →
  (s.node n).txCh = (s.node m).txCh → n = m

theorem txServer_iff (hu : s.DistinctTx) :
    s.txServer ch = some n ↔ n.toNat < s.cfg.nnodes ∧ (s.node n).lstate = .started ∧ (s.node n).txCh = ch := by
  refine ⟨txServer_some, fun ⟨hn, hst, hc⟩ => ?_⟩
  cases hm : s.txServer ch with
  | none => exact absurd hc (txServer_none.mp hm n hn hst)
  | some m =>
    obtain ⟨hm, -, hc2⟩ := txServer_some hm
    exact congrArg some (hu m n hm hn (hc2.trans hc.symm))

theorem freed_iff (hu : s.DistinctTx) : s.freed err n l = true ↔ n.toNat < s.cfg.nnodes ∧ (s.node n).lstate = .started ∧
    (s.node n).txCh ∈ l ∧ err.getLsbD (s.node n).txCh.toNat = false := by
  simp only [freed_iff_exists, completes_some_iff, txServer_iff hu]
  constructor
  · rintro ⟨ch, hch, he, hn, hst, rfl⟩
    exact ⟨hn, hst, hch, he⟩
  · rintro ⟨hn, hst, hch, he⟩
    exact ⟨_, hch, he, hn, hst, rfl⟩

/-- A channel of the snapshot that frees no node. -/
theorem completes_none_iff (hu : s.DistinctTx) (hch : ch ∈ l) :
    s.completes err ch = none ↔ ¬ ∃ n, s.freed err n l = true ∧ (s.node n).txCh = ch := by
  constructor
  · rintro hc ⟨n, hf, rfl⟩
    obtain ⟨hn, hst, -, he⟩ := (freed_iff hu).mp hf
    rw [completes_some_iff.mpr ⟨he, (txServer_iff hu).mpr ⟨hn, hst, rfl⟩⟩] at hc
    cases hc
  · intro h
    cases hc : s.completes err ch with
    | none => rfl
    | some n =>
      obtain ⟨he, ht⟩ := completes_some_iff.mp hc
      obtain ⟨hn, hst, e⟩ := txServer_some ht
      refine absurd ⟨n, (freed_iff hu).mpr ⟨hn, hst, ?_, ?_⟩, e⟩ h
      · rwa [e]
      · rwa [e]

/-- Settles O58: by induction on the channels of the snapshot; each frees the one node that has it or is logged. -/
theorem hostDispatchServesTransmitCompletions : Obligations.HostDispatchServesTransmitCompletions := by
  intro s sts served h hst _ hwithin hu hrx
  have hmem : ∀ ch, ch ∈ (chansOf s.cfg).filter (fun ch => sts.getLsbD ch.toNat) ↔ sts.getLsbD ch.toNat = true := fun ch => by
    rw [List.mem_filter, mem_chansOf, and_iff_right_of_imp]
    intro hb
    rw [BitVec.getLsbD_and, Bool.and_eq_true] at hb
    exact lt_nch_of_getLsbD hwithin hb.1
  have hd : ((chansOf s.cfg).filter fun ch => sts.getLsbD ch.toNat).Nodup := (nodup_chansOf _).filter _
  generalize hl : (chansOf s.cfg).filter (fun ch => sts.getLsbD ch.toNat) = l at hmem hd
  have run : Does .hd (progIrqHostDispatch s.cfg) s.begun fun x u => x = { rc := none } ∧ u.cur = s.cur ∧ u.ctx .hd = s.ctx .hd ∧
      HostServed s.hcErr l s.begun.snapshotted u := by
    refine hostDispatch_does s.cfg h.safe hst hl ((serveChannels_does s.cfg l (s := s.begun.snapshotted) h.safe hst ?_).mono ?_)
    · intro ch hch he
      refine rxServer_none.mpr fun n hn hst e => ?_
      have hr := hrx n hn hst (by rw [show (s.node n).rxCh = ch from e]; exact (hmem ch).mp hch)
      rw [show (s.node n).rxCh = ch from e, show s.hcErr.getLsbD ch.toNat = false from he] at hr
      cases hr
    · intro _ u hv
      refine ⟨rfl, ?_, ?_, hv⟩
      · obtain ⟨_, _, _, rfl⟩ := hv.frame
        rfl
      · obtain ⟨_, _, _, rfl⟩ := hv.frame
        rfl
  obtain ⟨u, t, hv, hm, he, hr, ho⟩ := run.returnsCommand h fun _ => trivial
  have hserved : ∀ n, s.freed s.hcErr n l = true ↔ served n := fun n => by
    rw [freed_iff hu, hmem]
  have hnode : ∀ n, (served n → u.node n = { s.node n with txBusy := false }) ∧ (¬ served n → u.node n = s.node n) := fun n => by
    have hn : u.node n = (s.node n).freedIf (s.freed s.hcErr n l) := hv.node n
    refine ⟨fun hs => ?_, fun hs => ?_⟩
    · rw [hn, (hserved n).mpr hs]
      rfl
    · rw [hn, Bool.eq_false_iff.mpr (mt (hserved n).mp hs)]
      rfl
  have hlog : ∀ l' : List Chan, l'.Nodup →
      (∀ ch : Chan, ch ∈ l' ↔ sts.getLsbD ch.toNat = true ∧ ¬ ∃ n, served n ∧ (s.node n).txCh = ch) →
      u.logcnt = s.logcnt + BitVec.ofNat 32 l'.length := by
    intro l' hd' hl'
    have hperm : (l.filter fun ch => (s.completes s.hcErr ch).isNone).Perm l' := by
      refine (List.perm_ext_iff_of_nodup (hd.filter _) hd').mpr fun ch => ?_
      rw [hl', List.mem_filter, hmem, Option.isNone_iff_eq_none]
      refine and_congr_right fun hch => ?_
      rw [completes_none_iff hu ((hmem ch).mpr hch)]
      simp only [hserved]
    rw [← hperm.length_eq]
    exact hv.log
  have hctx : ∀ k, u.ctx (.host k) = (s.ctx (.host k)).notifiedIf (s.rouses s.hcErr (s.ctx (.host k)) l) := hv.ctx
  have hwoken : ∀ x : Ctx, s.rouses s.hcErr x l = true ↔ ∃ n, served n ∧ x.waitsIn (writesTo n) = true := fun x => by
    simp only [rouses_iff, hserved]
  have hrechecks : Rechecks (fun x => ∃ n, served n ∧ x.waitsIn (writesTo n)) .hd s t := by
    refine ⟨fun k hk => ⟨fun hw => ?_, fun hw => ?_⟩, fun hk => absurd rfl hk, fun hk => (ho .bd hk).trans ?_⟩
    · rw [ho _ hk, hctx, (hwoken _).mpr hw]
      rfl
    · rw [ho _ hk, hctx, Bool.eq_false_iff.mpr (mt (hwoken _).mp hw)]
      rfl
    · obtain ⟨_, _, _, rfl⟩ := hv.frame
      rfl
  obtain ⟨_, _, _, rfl⟩ := hv.frame
  obtain ⟨_, _, _, _, rfl⟩ := hm
  exact ⟨_, he, hr, rfl, rfl, hnode, hlog, keepsTable_of_tablePart rfl, ⟨rfl, rfl⟩, ⟨rfl, rfl⟩, fun _ _ => rfl, fun _ => rfl,
    ⟨rfl, rfl, rfl, rfl⟩, hrechecks⟩

end Sys2Proof.Machine
end

section
/-! PROOFS. IRQ.HOST_DISPATCH of a receive completion (46_interrupt_dispatch.md R291, R292). -/

namespace Sys2Proof.Machine

variable {α : Type} {s t u v : State} {a : Agent} {n : NodeNo} {ch : Chan} {r : Ring} {b : Word} {h : Half}

theorem putAddr_addrOf (v : Row) (h : Half) : putAddr v h (addrOf v h) = v := by
  refine BitVec.eq_of_getLsbD_eq fun k hk => ?_
  rw [putAddr, getLsbD_setField]
  split
  · next hin =>
    rw [addrOf, bits, BitVec.getLsbD_extractLsb', decide_eq_true (by omega), Bool.true_and]
    congr 1
    omega
  · rfl

/-- One row read under a hold of L. -/
theorem lockedRead_does {off : RowOff} {k : TxnRes → Prog α} {Q : α → State → Prop} (c : Params) (h : s.Calm) (hl : s.lock = none)
    (hr : reservedRow s.cfg off = false) (hw : s.isWritten off = true) (hn : 1 ≤ c.rpRetries)
    (hk : ∀ t, Looked s t → Does a (k (.ok (s.row off))) t Q) :
    Does a (.after .acquire <| (readRow c off).bind fun r => .after .release <| k r) s Q := by
  refine .calm h (s2 := { s with lock := some a }) (r := 0) (by simp [Act.apply, actAcquire, hl]) ?_
  refine .bind (readRow_does (s := { s with lock := some a }) c h rfl hr hw hn) ?_
  rintro x t ⟨rfl, ht⟩
  obtain ⟨d, w, rfl⟩ := ht
  exact .calm (by exact h) (actRelease_held (s := { s with dat := d, adr := w }) hl rfl) (hk _ ⟨_, _, rfl⟩)

/-- The machine after the receive handler's enqueue: the bytes at `b` in the ring, the readers woken unless it was full. -/
def State.received (s : State) (n : NodeNo) (r : Ring) (b : Word) : State :=
  let s1 := s.setNode n { s.node n with
    ring := some (r.enqueue (s.cfg.cap n) (memReadBytes s.mem b.toNat (s.cfg.slot n))).1 }
  if (r.widx + 1) % s.cfg.cap n = r.ridx then s1 else s1.notify (readsFrom n)

theorem enqueueOrLate_apply (hr : (s.node n).ring = some r) (hw : wraps b (s.cfg.slot n) = false) :
    ∃ x, Act.apply a s (.enqueueOrLate n b) = .ok (s.received n r b) x := by
  have hle : Act.apply a s (.enqueueOrLate n b) = Act.apply a s (.enqueue n b) := by
    simp only [Act.apply, actEnqueueOrLate, hr]
  rw [hle]
  unfold State.received
  split
  · next hf => exact ⟨1, enqueue_drops hr hw hf⟩
  · next hf => exact ⟨0, enqueue_stores hr hw hf⟩

theorem received_aside (s : State) (n : NodeNo) (r : Ring) (b : Word) : Aside s (s.received n r b) := by
  unfold State.received
  split
  · exact aside_setNode ..
  · exact (aside_setNode ..).trans (aside_notify ..)

/-- The registers of the interrupt block and the agent's place are as before. -/
theorem received_registers (s : State) (n : NodeNo) (r : Ring) (b : Word) : KeepsStatus s (s.received n r b) ∧
    KeepsMasks s (s.received n r b) ∧ (s.received n r b).cur = s.cur ∧ (s.received n r b).hd = s.hd ∧ (s.Calm → (s.received n r b).Calm) := by
  unfold State.received
  split
  · exact ⟨⟨rfl, rfl⟩, ⟨rfl, rfl⟩, rfl, rfl, id⟩
  · exact ⟨⟨rfl, rfl⟩, ⟨rfl, rfl⟩, rfl, rfl, id⟩

theorem node_received (s : State) (n m : NodeNo) (r : Ring) (b : Word) : (s.received n r b).node m = if m = n then
    { s.node n with ring := some (r.enqueue (s.cfg.cap n) (memReadBytes s.mem b.toNat (s.cfg.slot n))).1 } else s.node m := by
  unfold State.received
  split
  · exact node_setNode ..
  · exact node_setNode ..

/-- The receive handler on hardware that answers (R292). -/
theorem rxHandler_does (c : Params) (hc : s.Calm) (hl : s.lock = none) (hn : 1 ≤ c.rpRetries) (hch : (s.node n).rxCh = ch)
    (hnch : ch.toNat < s.cfg.nch) (hr : (s.node n).ring = some r) (hw : s.isWritten (adtOff ch) = true)
    (hdone : completed (rowWord (s.row (adtOff ch)) 3) (s.sw ch) = some h) (herr : errOf (s.row (adtOff ch)) h = false)
    (hrdy : rdyOf (s.row (adtOff ch)) h = false) (ha : aligned (addrOf (s.row (adtOff ch)) h) = true)
    (hslot : wraps (addrOf (s.row (adtOff ch)) h) (s.cfg.slot n) = false)
    (hwrap : wraps (addrOf (s.row (adtOff ch)) h) (decodeDepth (bdOf (s.row (adtOff ch)) h)) = false) :
    Does a (rxHandler c n) s fun _ u => ∃ v, Looked s v ∧
      u = ((v.received n r (addrOf (s.row (adtOff ch)) h)).afterWrite c.readbackCheck (adtOff ch)
        (putFlags (s.row (adtOff ch)) h true false false)).setSw ch (Half.other h) := by
  have hst := still_of_calm hc
  refine .getChans hc.1 hst hch rfl fun q hrx _ => ?_
  dsimp only
  rw [hrx]
  refine lockedRead_does c hc hl (reserved_adtOff hnch) hw hn fun v hv => ?_
  have hvc := hv.moved.calm hc
  have hrow : v.row (adtOff ch) = s.row (adtOff ch) ∧ v.isWritten (adtOff ch) = true ∧ v.sw ch = s.sw ch ∧ v.lock = none ∧
      (v.node n).ring = some r ∧ v.cfg = s.cfg := by
    obtain ⟨_, _, rfl⟩ := hv
    exact ⟨rfl, hw, rfl, hl, hr, rfl⟩
  obtain ⟨hvrow, hvw, hvsw, hvl, hvr, hvcfg⟩ := hrow
  refine .calm hvc rfl ?_
  rw [halfOf_halfResp, hvsw, hdone]
  dsimp only
  rw [herr, if_neg (by decide)]
  obtain ⟨x, henq⟩ := enqueueOrLate_apply (a := a) (s := v) (n := n) (r := r) (b := addrOf (s.row (adtOff ch)) h) hvr
    (by rw [hvcfg]; exact hslot)
  refine .calm hvc henq ?_
  have hA := received_aside v n r (addrOf (s.row (adtOff ch)) h)
  have hcalm := (received_registers v n r (addrOf (s.row (adtOff ch)) h)).2.2.2.2 hvc
  have htab : (v.received n r (addrOf (s.row (adtOff ch)) h)).tables = v.tables := hA.tables
  have hrow : (v.received n r (addrOf (s.row (adtOff ch)) h)).row (adtOff ch) = s.row (adtOff ch) :=
    (congrArg (Tables.row · (adtOff ch)) htab).trans hvrow
  have hput := putAddr_addrOf (s.row (adtOff ch)) h
  refine .bind (.of_ends (adtRearmWith_does (x := h) c hcalm (hA.kept.engine.lock.trans hvl)
    (by rw [hA.kept.engine.cfg, hvcfg]; exact hnch) hn ha ?_ ((congrArg (Tables.written · (adtOff ch)) htab).trans hvw)
    (by rw [hrow]; exact hrdy) (by rw [hrow]; exact hwrap))) ?_
  · rw [show (v.received n r (addrOf (s.row (adtOff ch)) h)).sw ch = s.sw ch from
      (congrArg (Tables.sw · ch) htab).trans hvsw]
    exact hdone
  · rintro y u ⟨rfl, rfl⟩
    rw [hrow, rearmRow, hput, if_pos rfl]
    exact .ret ⟨v, hv, rfl⟩

/-! ## The command -/

theorem rxServer_of_unique (hn : n.toNat < s.cfg.nnodes) (hst : (s.node n).lstate = .started) (hch : (s.node n).rxCh = ch)
    (hu : ∀ m : NodeNo, m.toNat < s.cfg.nnodes → (s.node m).rxCh = ch → m = n) : s.rxServer ch = some n := by
  cases hm : s.rxServer ch with
  | none => exact absurd hch (rxServer_none.mp hm n hn hst)
  | some m =>
    have hp := List.find?_some hm
    rw [decide_eq_true_iff] at hp
    exact congrArg some (hu m ((mem_nodesOf _ _).mp (List.mem_of_find?_eq_some hm)) hp.1)

/-- The acknowledgement of a channel without error moves no error bit. -/
theorem err_kept {e : ChanSet} (h : e.getLsbD ch.toNat = false) : e &&& ~~~(chanBit ch &&& e) = e := by
  refine BitVec.eq_of_getLsbD_eq fun k hk => ?_
  rw [BitVec.getLsbD_and, BitVec.getLsbD_not, BitVec.getLsbD_and, getLsbD_chanBit, decide_eq_true hk]
  by_cases hc : k = ch.toNat
  · rw [hc, h]
    rfl
  · rw [decide_eq_false hc]
    simp

/-- A snapshot of one channel. -/
theorem filter_chanBit {c : Params} (h : ch.toNat < c.nch) :
    (chansOf c).filter (fun d => (chanBit ch).getLsbD d.toNat) = [ch] := by
  refine List.perm_singleton.mp ((List.perm_ext_iff_of_nodup ((nodup_chansOf c).filter _) (List.nodup_singleton ch)).mpr fun d => ?_)
  rw [List.mem_filter, mem_chansOf, getLsbD_chanBit, decide_eq_true_iff, List.mem_singleton]
  refine ⟨fun hd => BitVec.eq_of_toNat_eq hd.2, ?_⟩
  rintro rfl
  exact ⟨h, rfl⟩

/-- What the dispatch of a receive completion has done before the row is armed again. -/
structure Received (n : NodeNo) (r : Ring) (b : Word) (s w : State) : Prop where
  kept : Kept s w
  tables : w.tables = s.tables
  arming : KeepsArming s w
  sts : w.hcSts = s.hcSts &&& ~~~(s.hcSts &&& s.hcMsk)
  err : w.hcErr = s.hcErr &&& ~~~(s.hcSts &&& s.hcMsk &&& s.hcErr)
  masks : KeepsMasks s w
  node : ∀ m, w.node m = if m = n then
    { s.node n with ring := some (r.enqueue (s.cfg.cap n) (memReadBytes s.mem b.toNat (s.cfg.slot n))).1 } else s.node m
  place : w.cur = s.cur ∧ w.hd = s.hd
  calm : s.begun.Calm → w.Calm

theorem received_of_looked (hv : Looked s.begun.snapshotted v) (n : NodeNo) (r : Ring) (b : Word) :
    Received n r b s (v.received n r b) := by
  obtain ⟨hst, hmk, hcur, hhd, hcalm⟩ := received_registers v n r b
  have hA := received_aside v n r b
  have hnode := node_received v n
  have hk : Kept s v := by
    obtain ⟨_, _, rfl⟩ := hv
    exact ⟨⟨rfl, rfl, rfl, rfl⟩, ⟨rfl, rfl⟩, rfl, fun _ => rfl⟩
  have hkept := hk.trans hA.kept
  obtain ⟨_, _, rfl⟩ := hv
  exact ⟨hkept, hA.tables, hA.arming.1, hst.1, hst.2, hmk,
    fun m => hnode m r b, ⟨hcur, hhd⟩, hcalm⟩

/-- The threads a dispatch of a receive completion wakes. -/
theorem wakes_of_received (hv : v.contexts = s.contexts) (hc : v.cfg = s.cfg) (ht : ∀ b', b' ≠ a → t.ctx b' = (v.received n r b).ctx b') :
    if (r.widx + 1) % s.cfg.cap n = r.ridx then KeepsOthers a s t
    else Rechecks (fun x => x.waitsIn (readsFrom n)) a s t := by
  unfold State.received at ht
  rw [hc] at ht
  split
  · next hf =>
    rw [if_pos hf] at ht
    exact fun b' hb => (ht b' hb).trans (ctx_of_contexts (t := v.setNode n _) hv b')
  · next hf =>
    rw [if_neg hf] at ht
    exact rechecks_of_notify (u := v.setNode n _) hv ht

theorem hostDispatch_receives (hh : s.Ready .hd .irqHostDispatch) (ht : s.TableReady) (hx : (s.node n).rxCh = ch)
    (hn : n.toNat < s.cfg.nnodes) (hst : (s.node n).lstate = .started) (hch : ch.toNat < s.cfg.nch)
    (hu : ∀ m : NodeNo, m.toNat < s.cfg.nnodes → (s.node m).rxCh = ch → m = n) (hsts : s.hcSts &&& s.hcMsk = chanBit ch)
    (herr : s.hcErr.getLsbD ch.toNat = false) (hr : (s.node n).ring = some r) (hw : s.isWritten (adtOff ch) = true)
    (hdone : completed (rowWord (s.row (adtOff ch)) 3) (s.sw ch) = some h) (hne : errOf (s.row (adtOff ch)) h = false)
    (hrdy : rdyOf (s.row (adtOff ch)) h = false) (ha : aligned (addrOf (s.row (adtOff ch)) h) = true)
    (hslot : wraps (addrOf (s.row (adtOff ch)) h) (s.cfg.slot n) = false)
    (hwrap : wraps (addrOf (s.row (adtOff ch)) h) (decodeDepth (bdOf (s.row (adtOff ch)) h)) = false) :
    Does .hd (progIrqHostDispatch s.cfg) s.begun fun x u => x = { rc := none } ∧ u.cur = s.cur ∧ u.ctx .hd = s.ctx .hd ∧
      ∃ v, Looked s.begun.snapshotted v ∧
        u = ((v.received n r (addrOf (s.row (adtOff ch)) h)).afterWrite s.cfg.readbackCheck (adtOff ch)
          (putFlags (s.row (adtOff ch)) h true false false)).setSw ch (Half.other h) := by
  have hcalm := begun_calm hh.safe ht
  refine hostDispatch_does s.cfg hh.safe (still_of_calm hcalm) (l := [ch]) ?_ (.bind (P := fun _ u => ∃ v,
    Looked s.begun.snapshotted v ∧ u = ((v.received n r (addrOf (s.row (adtOff ch)) h)).afterWrite s.cfg.readbackCheck (adtOff ch)
      (putFlags (s.row (adtOff ch)) h true false false)).setSw ch (Half.other h)) ?_ ?_)
  · rw [show s.begun.hcSts &&& s.begun.hcMsk = chanBit ch from hsts]
    exact filter_chanBit hch
  · unfold serveChannel
    rw [show s.begun.hcErr.getLsbD ch.toNat = false from herr, if_neg (by decide)]
    refine .calm (s := s.begun.snapshotted) hcalm rfl ?_
    obtain ⟨hkind, hnode, -, -⟩ := server_fields n
    rw [serverOf_rx (rxServer_of_unique (s := s.begun.snapshotted) hn hst hx hu), hkind, hnode, if_pos rfl]
    exact rxHandler_does (s := s.begun.snapshotted) s.cfg hcalm ht.2.2.1 ht.2.2.2 hx hch hr hw hdone hne hrdy ha hslot hwrap
  · rintro _ u ⟨v, hv, rfl⟩
    have hR := received_of_looked hv n r (addrOf (s.row (adtOff ch)) h)
    have hm := moved_afterWrite (v.received n r (addrOf (s.row (adtOff ch)) h)) s.cfg.readbackCheck (adtOff ch)
      (putFlags (s.row (adtOff ch)) h true false false)
    exact .ret ⟨rfl, hm.cur.trans hR.place.1, (ctx_of_contexts hm.contexts .hd).trans hR.place.2, v, hv, rfl⟩

/-- Settles O59: the snapshot names one channel, whose handler enqueues the half and rearms it. -/
theorem hostDispatchServesAReceiveCompletion : Obligations.HostDispatchServesAReceiveCompletion := by
  intro s n r x ch row hh ht _ hn hst hch hu hsts herr hr hw hdone hne hrdy ha hslot hwrap
  obtain ⟨_, t, ⟨v, hv, rfl⟩, hm, he, hret, ho⟩ := (hostDispatch_receives hh ht rfl hn hst hch hu hsts herr hr hw hdone hne hrdy ha
    hslot hwrap).returnsCommand hh fun _ => trivial
  have hR := received_of_looked hv n r (addrOf row x)
  have hwakes : if (r.widx + 1) % s.cfg.cap n = r.ridx then KeepsOthers .hd s t
      else Rechecks (fun x => x.waitsIn (readsFrom n)) .hd s t := by
    have hvx : v.contexts = s.contexts ∧ v.cfg = s.cfg := by
      obtain ⟨_, _, rfl⟩ := hv
      exact ⟨rfl, rfl⟩
    refine wakes_of_received (v := v) (b := addrOf row x) hvx.1 hvx.2 fun b hb => (ho b hb).trans ?_
    exact ctx_of_contexts (moved_afterWrite _ s.cfg.readbackCheck (adtOff ch) (putFlags row x true false false)).contexts b
  generalize v.received n r (addrOf row x) = w at hR hm ho
  have hrow : ∀ o, w.row o = s.row o := fun o => congrArg (Tables.row · o) hR.tables
  have hwritten : ∀ o, w.isWritten o = s.isWritten o := fun o => congrArg (Tables.written · o) hR.tables
  have hsw : ∀ c, w.sw c = s.sw c := fun c => congrArg (Tables.sw · c) hR.tables
  have wrote := wrote_afterWrite w s.cfg.readbackCheck (adtOff ch) (putFlags row x true false false)
  have E := ((Edited.refl w).putRow (isCatRow_adtOff ch) wrote).putSw ch (Half.other x)
  have hdat := afterWrite_dat w s.cfg.readbackCheck (adtOff ch) (putFlags row x true false false)
  have hadr := afterWrite_adr w s.cfg.readbackCheck (adtOff ch) (putFlags row x true false false)
  have hcfg := wrote.moved.cfg.trans hR.kept.engine.cfg
  generalize w.afterWrite s.cfg.readbackCheck (adtOff ch) (putFlags row x true false false) = u at hm ho wrote E hdat hadr hcfg
  have hkept := hR.kept.trans E.kept
  have hq : u.row (adtOff ch) = putFlags row x true false false := wrote.row_same
  have hrows : KeepsRowsBut [adtOff ch] s u := fun o ho =>
    ⟨(wrote.keepsRowsBut o ho).1.trans (hrow o), (wrote.keepsRowsBut o ho).2.trans (hwritten o)⟩
  have hack : u.hcSts = s.hcSts &&& ~~~chanBit ch := E.status.1.trans (hR.sts.trans (by rw [hsts]))
  have herr : u.hcErr = s.hcErr := E.status.2.trans (hR.err.trans (by rw [hsts]; exact err_kept herr))
  have hnode : ∀ m, u.node m = _ := fun m => (wrote.moved.node m).trans (hR.node m)
  have harm : KeepsArming w u := (wrote.other (isCatRow_adtOff ch)).1.1
  have hidle : u.Idle := (wrote.moved.calm (hR.calm (begun_calm hh.safe ht))).2.1
  have hother : KeepsSwBut [ch] s (u.setSw ch (Half.other x)) := fun c hc => by
    rw [sw_setSw, if_neg (by simpa using hc)]
    exact (wrote.moved.sw c).trans (hsw c)
  have hmasks := E.masks
  obtain ⟨_, _, _, _, rfl⟩ := hm
  refine ⟨_, he, hret, hack, herr, (hnode n).trans (if_pos rfl), ⟨?_, ?_, ?_, fun k hk => ?_⟩, wrote.written_same, hrows,
    ⟨harm.1.trans hR.arming.1, harm.2.trans hR.arming.2⟩, hidle, ⟨?_, fun k => ?_⟩, ?_,
    ⟨hmasks.1.trans hR.masks.1, hmasks.2.trans hR.masks.2⟩, hkept.config, hother, fun m hm => ?_, hkept.log, hkept.mem,
    ⟨hkept.engine.cfg, hkept.engine.bstat, hkept.engine.lock, hkept.engine.fault⟩, hwakes⟩
  · exact (congrArg (rdyOf · x) hq).trans (rdyOf_putFlags ..)
  · exact (congrArg (dneOf · x) hq).trans (dneOf_putFlags ..)
  · exact (congrArg (errOf · x) hq).trans (errOf_putFlags ..)
  · exact (congrArg (·.getLsbD k) hq).trans (getLsbD_putFlags_other _ _ _ _ hk)
  · change u.adr = if u.cfg.readbackCheck then _ else _
    rw [hadr, hcfg]
    split
    · next hb => rw [hb]; exact adrWord_read _
    · next hb => rw [Bool.not_eq_true] at hb; rw [hb]; exact adrWord_write _
  · exact (congrArg (·[k]) hdat).trans ((wordsOf_get _ k).trans (congrArg (bits · _ _) hq.symm))
  · exact (sw_setSw ..).trans (if_pos rfl)
  · exact (hnode m).trans (if_neg (by simpa using hm))

end Sys2Proof.Machine
end
